-- ==== Sys2Proof/Word.lean ====
section
/-! DEFINITION. The word types of the NRS-4801-A and their plainest arithmetic (spec 00 R1, R2; 08 R159, R162). -/

namespace Sys2Proof

/-- A byte (R2). -/
abbrev Byte := BitVec 8
/-- An instruction word (R159). -/
abbrev Word := BitVec 32
/-- A scalar register's contents (R14, R174). -/
abbrev DWord := BitVec 64
/-- One 32-bit lane of a vector register (R212). -/
abbrev Lane := BitVec 32
/-- A predicate register: bit i is lane i (R174). -/
abbrev Pred := BitVec 512

/-- Token bits [31:28] of word 0: WP, WS, SP, SS (R66, R160). -/
abbrev Tok := BitVec 4
/-- Number of a scalar register G0 to G31. -/
abbrev G := BitVec 5
/-- Number of a handle register H0 to H31. -/
abbrev H := BitVec 5
/-- Name of a vector register V0 to V63, before rotation (R175). -/
abbrev V := BitVec 6
/-- Name of a predicate register P0 to P15, before rotation (R175). -/
abbrev P := BitVec 4
/-- Number of a tile register T0 to T7. -/
abbrev TN := BitVec 3

/-- Bits [lo+n-1 : lo] of an instruction word. -/
def fld (w : Word) (lo n : Nat) : BitVec n := w.extractLsb' lo n

/-- Bits [lo+n-1 : lo] of a 64-bit value, as a natural number (R8 `bits`). -/
def bits (w : DWord) (hi lo : Nat) : Nat := (w.toNat / 2 ^ lo) % 2 ^ (hi + 1 - lo)

/-- The 64-bit value of a natural number, reduced modulo 2^64 (R8). -/
def dw (n : Nat) : DWord := BitVec.ofNat 64 n

/-- One as a 64-bit value for a true test, zero for a false one. -/
def dwBool (b : Bool) : DWord := if b then 1 else 0

end Sys2Proof
end

