-- ==== Sys2Proof/Syntax.lean ====
section
/-! DEFINITION. The instructions, ephemeris entries and machine events of the NRS-4801-A: one constructor of `Instr`
for each row of spec/opcode_table.json. Fields are the fields of the formats of spec 08 R162 that the instruction's
description names; coded fields are decoded to names. -/

namespace Sys2Proof

/-- The four streams of a core, in the order of R5. -/
inductive StreamId | c | a | e | w
deriving DecidableEq, Repr

/-- Element type codes 0 to 9 of the F7 `ty` field (R169). -/
inductive Ty | fp32 | bf16 | fp16 | e4m3 | e5m2 | int8 | uint8 | int16 | int32 | int4
deriving DecidableEq, Repr

/-- Rounding codes 0 to 6 (R143). -/
inductive Rm | rne | rtz | rdn | rup | rna | sr | dyn
deriving DecidableEq, Repr

/-- Condition codes of `bcz` (R167). -/
inductive BCond | eq | ne | lt | ge | le | gt | bset | bclr
deriving DecidableEq, Repr

/-- Condition codes of `vcmp` (R224). -/
inductive VCond | eq | ne | lt | le | gt | ge | un | or
deriving DecidableEq, Repr

/-- Loop counter selected by lvl 0 to 2 (R176). -/
inductive Lvl | lc0 | lc1 | lc2
deriving DecidableEq, Repr

/-- A neighbour on the stream ring (R65, R201). -/
inductive Dir | pred | succ
deriving DecidableEq, Repr

/-- The handle word that `hqry` reads (R200). -/
inductive HWSel | hw0 | hw1 | hw2
deriving DecidableEq, Repr

/-- ORD codes of a command (R119). -/
inductive Ord | relaxed | acquire | release | acqRel
deriving DecidableEq, Repr

/-! ### Operand groups of the vector format F7 -/

structure VLdOp where
  y : Bool
  z : Bool
  vd : V
  ga : G
  h : H
  off : BitVec 6
  pg : P
  ty : Ty
deriving DecidableEq, Repr

structure VStOp where
  y : Bool
  vs : V
  ga : G
  h : H
  off : BitVec 6
  pg : P
  ty : Ty
deriving DecidableEq, Repr

structure VLdsOp where
  y : Bool
  z : Bool
  vd : V
  ga : G
  h : H
  off : BitVec 6
  gs : G
  pg : P
  ty : Ty
deriving DecidableEq, Repr

structure VStsOp where
  y : Bool
  vs : V
  ga : G
  h : H
  off : BitVec 6
  gs : G
  pg : P
  ty : Ty
deriving DecidableEq, Repr

structure VGathOp where
  y : Bool
  z : Bool
  vd : V
  ga : G
  h : H
  off : BitVec 6
  vi : V
  pg : P
  ty : Ty
deriving DecidableEq, Repr

structure VScatOp where
  y : Bool
  vs : V
  ga : G
  h : H
  off : BitVec 6
  vi : V
  pg : P
  ty : Ty
deriving DecidableEq, Repr

structure VBcOp where
  y : Bool
  z : Bool
  vd : V
  gs : G
  pg : P
  ty : Ty
deriving DecidableEq, Repr

/-- Two sources, rounding and saturation: vadd, vsub, vmul, vdiv. -/
structure VBinR where
  y : Bool
  z : Bool
  vd : V
  va : V
  vb : V
  pg : P
  ty : Ty
  rm : Rm
  sat : Bool
deriving DecidableEq, Repr

/-- Three sources, rounding and saturation: vfma, vfms, vfnma. -/
structure VTriR where
  y : Bool
  z : Bool
  vd : V
  va : V
  vb : V
  vc : V
  pg : P
  ty : Ty
  rm : Rm
  sat : Bool
deriving DecidableEq, Repr

/-- One source, rounding and saturation: vrcp, vrsqrt, vsqrt. -/
structure VUnR where
  y : Bool
  z : Bool
  vd : V
  va : V
  pg : P
  ty : Ty
  rm : Rm
  sat : Bool
deriving DecidableEq, Repr

/-- Two typed sources, nothing rounded. -/
structure VBinT where
  y : Bool
  z : Bool
  vd : V
  va : V
  vb : V
  pg : P
  ty : Ty
deriving DecidableEq, Repr

/-- One typed source, nothing rounded. -/
structure VUnT where
  y : Bool
  z : Bool
  vd : V
  va : V
  pg : P
  ty : Ty
deriving DecidableEq, Repr

/-- Two typed sources with saturation: viadd, visub, vimul. -/
structure VBinS where
  y : Bool
  z : Bool
  vd : V
  va : V
  vb : V
  pg : P
  ty : Ty
  sat : Bool
deriving DecidableEq, Repr

/-- One typed source with saturation: viabs. -/
structure VUnS where
  y : Bool
  z : Bool
  vd : V
  va : V
  pg : P
  ty : Ty
  sat : Bool
deriving DecidableEq, Repr

/-- Two untyped sources: vand, vor, vxor. -/
structure VBinB where
  y : Bool
  z : Bool
  vd : V
  va : V
  vb : V
  pg : P
deriving DecidableEq, Repr

/-- One untyped source: vnot. -/
structure VUnB where
  y : Bool
  z : Bool
  vd : V
  va : V
  pg : P
deriving DecidableEq, Repr

structure VCmpOp where
  y : Bool
  z : Bool
  pd : P
  va : V
  vb : V
  pg : P
  ty : Ty
  cond : VCond
deriving DecidableEq, Repr

structure VSelOp where
  y : Bool
  vd : V
  va : V
  vb : V
  pg : P
deriving DecidableEq, Repr

structure VCvtOp where
  y : Bool
  z : Bool
  vd : V
  va : V
  pg : P
  dst : Ty
  src : Ty
  rm : Rm
  sat : Bool
deriving DecidableEq, Repr

structure VPackOp where
  y : Bool
  vd : V
  va : V
  vb : V
  sat : Bool
deriving DecidableEq, Repr

structure VUnpackOp where
  y : Bool
  z : Bool
  vd : V
  va : V
  pg : P
  half : Bool
deriving DecidableEq, Repr

/-- Three untyped sources: vpermb, vpermw. -/
structure VTriB where
  y : Bool
  z : Bool
  vd : V
  va : V
  vb : V
  vc : V
  pg : P
deriving DecidableEq, Repr

structure VRotOp where
  y : Bool
  z : Bool
  vd : V
  va : V
  gk : G
  pg : P
deriving DecidableEq, Repr

structure VSlideOp where
  y : Bool
  z : Bool
  vd : V
  va : V
  vb : V
  gk : G
  pg : P
deriving DecidableEq, Repr

structure VTiOp where
  y : Bool
  z : Bool
  vd : V
  va : V
  pg : P
  ty : Ty
  rm : Rm
  sat : Bool
  k : BitVec 4
deriving DecidableEq, Repr

structure VTiLoadOp where
  y : Bool
  k : BitVec 4
  ga : G
  h : H
  gcfg : G
deriving DecidableEq, Repr

structure VRandOp where
  y : Bool
  z : Bool
  vd : V
  gk : G
  gc : G
  pg : P
  ty : Ty
deriving DecidableEq, Repr

/-- `vxsum`: `vb` is present when MUL = 1; `grp` is log2 L, 0 to 9. -/
structure VXSumOp where
  y : Bool
  gr : G
  gc : G
  va : V
  vb : Option V
  pg : P
  ty : Ty
  grp : BitVec 4
deriving DecidableEq, Repr

structure VTopkOp where
  y : Bool
  vd : V
  va : V
  vb : V
  km1 : BitVec 6
deriving DecidableEq, Repr

structure PSetOp where
  y : Bool
  z : Bool
  pd : P
  gn : G
  gr : G
  pg : P
deriving DecidableEq, Repr

structure PBinOp where
  y : Bool
  z : Bool
  pd : P
  pa : P
  pb : P
  pg : P
deriving DecidableEq, Repr

structure PUnOp where
  y : Bool
  z : Bool
  pd : P
  pa : P
  pg : P
deriving DecidableEq, Repr

/-- A G destination from a predicate: pcnt, pfirst. -/
structure PToGOp where
  y : Bool
  gd : G
  pa : P
  pg : P
deriving DecidableEq, Repr

structure PLenOp where
  y : Bool
  z : Bool
  pd : P
  gn : G
  pg : P
deriving DecidableEq, Repr

/-! ### Operand groups of the tile format F8 -/

structure TLdOp where
  y : Bool
  td : TN
  go : G
  gp : G
  h : H
  ty : Ty
deriving DecidableEq, Repr

structure TStOp where
  y : Bool
  td : TN
  go : G
  gp : G
  h : H
deriving DecidableEq, Repr

structure TFromVOp where
  y : Bool
  td : TN
  gr : G
  va : V
  half : Bool
deriving DecidableEq, Repr

structure MmaOp where
  y : Bool
  gc : G
  ta : TN
  tb : TN
  gn : G
  split : BitVec 3
deriving DecidableEq, Repr

structure EpcfgOp where
  y : Bool
  gcfg : G
  gidx : G
  go : G
  h : H
deriving DecidableEq, Repr

structure DrainOp where
  y : Bool
  gc : G
  gn : G
  grows : G
  go : G
  h : H
  split : BitVec 3
deriving DecidableEq, Repr

/-! ### Operand groups of the command format F9 -/

/-- Fields every copy command shares: yield mark, issue tick register, number, predecessor (R168). -/
structure CmdHdr where
  y : Bool
  gt : G
  seq : BitVec 8
  aft : Bool
  pred : BitVec 8
deriving DecidableEq, Repr

/-- Flag word of a command (R277): FLG, HF, GF. -/
structure FlagOp where
  flg : Bool
  hf : H
  gf : G
deriving DecidableEq, Repr

structure CpyOp where
  hdr : CmdHdr
  split : BitVec 4
  hd : H
  hs : H
  gshape : G
  side : Bool
  gdo : G
  gso : G
  gv : G
  flag : FlagOp
deriving DecidableEq, Repr

structure CpytOp where
  hdr : CmdHdr
  split : BitVec 4
  hs : H
  gso : G
  gv : G
  td : TN
  fo : Bool
  fz : Bool
  fta : TN
  ftb : TN
  fgn : G
  fgc : G
  fsplit : BitVec 3
deriving DecidableEq, Repr

structure GathOp where
  hdr : CmdHdr
  split : BitVec 4
  hd : H
  hs : H
  gdo : G
  gso : G
  gv : G
  esz : BitVec 2
  hi : H
  gio : G
deriving DecidableEq, Repr

structure ScatOp where
  hdr : CmdHdr
  split : BitVec 4
  hd : H
  hs : H
  gdo : G
  gso : G
  gv : G
  esz : BitVec 2
  hi : H
  gio : G
  flag : FlagOp
deriving DecidableEq, Repr

/-- Source of a `cpyacc`: packed own-scratchpad elements, or the broadcast value (R279). -/
inductive AccSrcOp
  | packed (hs : H) (gso : G)
  | bcast
deriving DecidableEq, Repr

structure CpyAccOp where
  hdr : CmdHdr
  split : BitVec 4
  ord : Ord
  hd : H
  src : AccSrcOp
  ret : Bool
  gdo : G
  gv : G
  gw : G
  esz : BitVec 2
  hi : H
  gio : G
  idx : Bool
  flag : FlagOp
deriving DecidableEq, Repr

/-- `cpycas`; `ford` is true for FORD = acquire. -/
structure CpyCasOp where
  hdr : CmdHdr
  ord : Ord
  ford : Bool
  hd : H
  gdo : G
  gv : G
  gw : G
  esz : BitVec 2
deriving DecidableEq, Repr

structure ShpsetOp where
  y : Bool
  gshape : G
  hs : H
  gso : G
  gv : G
  gw : G
deriving DecidableEq, Repr

structure SobindOp where
  y : Bool
  hd : H
  gso : G
  gv : G
  gw : G
deriving DecidableEq, Repr

structure SendOp where
  hdr : CmdHdr
  hs : H
  gso : G
  gv : G
  port : BitVec 4
  slot : BitVec 6
  first : BitVec 3
deriving DecidableEq, Repr

structure RecvOp where
  hdr : CmdHdr
  hd : H
  gdo : G
  gv : G
  port : BitVec 4
  slot : BitVec 6
  first : BitVec 3
deriving DecidableEq, Repr

structure SenduOp where
  hdr : CmdHdr
  hd : H
  hs : H
  gdo : G
  gso : G
  gv : G
  gw : G
  flag : FlagOp
deriving DecidableEq, Repr

/-! ### Operand groups of the grammar-engine instructions (R310) -/

/-- Fields every MAJ 0x3D instruction uses: yield mark, gt, gv, gw. -/
structure GeHdr where
  y : Bool
  gt : G
  gv : G
  gw : G
deriving DecidableEq, Repr

/-- `gbind` with a grammar (source handle and offset) or with NOGR. -/
structure GbindOp where
  hdr : GeHdr
  hd : H
  gdo : G
  src : Option (H × G)
deriving DecidableEq, Repr

structure GmaskOp where
  hdr : GeHdr
  hd : H
  gdo : G
deriving DecidableEq, Repr

structure GrestOp where
  hdr : GeHdr
  hd : H
  hs : H
  gdo : G
  gso : G
deriving DecidableEq, Repr

structure SampleOp where
  hdr : GeHdr
  qa : Bool
  mask : Option (H × G)
  hs : H
  gso : G
  gx : G
  gy : G
  nc : BitVec 6
  ktop : BitVec 6
deriving DecidableEq, Repr

structure AcceptOp where
  hdr : GeHdr
  qa : Bool
  hs : H
  gso : G
  gx : G
  gy : G
  nc : BitVec 6
deriving DecidableEq, Repr

structure AccmbOp where
  hdr : GeHdr
  qa : Bool
  hd : H
  hs : H
  gdo : G
  gso : G
  gy : G
  nc : BitVec 6
  ktop : BitVec 6
deriving DecidableEq, Repr

/-! ### What the device's events carry -/

/-- Where a copy-engine event stands: at its own tick; at the tick its `n` source bytes at displacement `x` sample at an
HBM port; at the tick its write completes, with the bytes sampled (R110, R268). -/
inductive CePhase
  | run
  | sample (x n : Nat)
  | land (data : List Byte)
deriving DecidableEq, Repr

/-- The operation a synchronisation instruction asks of a sync agent (R291 to R294). -/
inductive SyncOp
  | init (kind : BitVec 2) (count : BitVec 16) (ctx : Byte)
  | acq
  | rel
  | arr
  | wait (phase : BitVec 32)
  | stat
  /-- Not an instruction: a save takes the stream's request off the agent's list (R420). -/
  | withdraw
deriving DecidableEq, Repr

/-- A request on its way to a sync agent: who asks, where the record lies, which operation, and how far the agent is. -/
structure SyncReq where
  pkg : Nat
  core : Nat
  stream : StreamId
  ppa : Nat
  op : SyncOp
  gw : G
  q : Nat
  va : Nat
  ctx : Byte
  id : Nat
  /-- Issued in the timed regime (R111); it has been turned away and tries again, so that its access issues anew (R89). -/
  timed : Bool
  again : Bool
deriving DecidableEq, Repr

/-- What a member of a ring does for an aperture request of another (R336): read `n` bytes of its block, write them and answer what they
were, or apply to its parity block what the data changed by. -/
inductive ExtentOp
  | read (n : Nat)
  | data
  | parity
deriving DecidableEq, Repr

/-- What an untimed packet does where it is delivered (R277, R278, R299): a write, a flag increment alone, a request
for `len` bytes of event `k` of the sender's command, a read-modify-write of one element whose operation, size and
expected value it carries (R279, R283), the operation of a sync object (R290), or a part of an aperture request (R336). -/
inductive PktKind
  | write
  | flagOnly
  | readReq (k len : Nat)
  | rmw (k : Nat) (op : BitVec 4) (size : Nat) (exp : Option DWord)
  | sync (r : SyncReq)
  | extent (op : ExtentOp)
deriving DecidableEq, Repr

/-- An untimed packet (R298). `cmd` names the sender's command, which the notice finds again (log 14). -/
structure Packet where
  kind : PktKind
  route : DWord
  target : Nat
  data : List Byte
  ctx : Byte
  flag : Option Nat
  srcPkg : Nat
  srcCore : Nat
  srcStream : StreamId
  cmd : Nat
  /-- Lines of it that have been delivered (R443). -/
  lines : Nat := 0
deriving DecidableEq, Repr

/-- One 512-byte unit of an untimed packet (R33, R34, R298), and with the first of a packet what the header of R298 has no bytes for:
what the packet asks, and the sender's command (log 14). -/
structure UntimedUnit where
  data : List Byte
  kind : PktKind
  cmd : Nat
deriving DecidableEq, Repr

/-- What one link slot brings (R33, R34, R376): nothing, a timed unit, or a unit of an untimed packet, with 512 bytes each. -/
inductive LinkUnit
  | idle
  | timed (data : List Byte) (crcOk : Bool)
  | untimed (u : UntimedUnit) (crcOk : Bool)
deriving DecidableEq, Repr

/-- What one link slot brings: its unit, and the codewords that FEC has corrected in it (R376). -/
structure LinkSlot where
  unit : LinkUnit
  corrected : Nat
deriving DecidableEq, Repr

/-- How a copy command's notice ends (R299, R443). -/
inductive NoticeKind
  | done (k : Nat)
  | data (k : Nat) (bytes : List Byte)
  | failed (lines : Nat)
deriving DecidableEq, Repr

/-- One output element of a drain chunk: its OUT bits, the FP32 bits and the index that its heap takes (R254). -/
structure DrainElem where
  row : Nat
  col : Nat
  out : BitVec 32
  wide : BitVec 32
deriving DecidableEq, Repr

/-- The pod configuration that the MC loads at boot stage 5 (R25, R335, R343): the signed image's contents. -/
structure PodConfig where
  bytes : List Byte
  parentPort : BitVec 4
  altPort : BitVec 4
  /-- The packages of the pod, and each one's parent in the time tree; none for a single package (R25). -/
  pkgs : List Nat
  tree : List (Nat × Nat)
  rootPkg : Nat
  successor : Bool
  /-- The package's place: the index X + 8Y + 64Z of its W ring, and its physical member there (R46). -/
  ring : Nat
  member : Nat
  asym : List Int
  relabel : List (BitVec 16)
  routes : List (Nat × DWord)
  /-- CTL, BASE, SHARE and VERSION of each extent (R335). -/
  extents : List (Nat × (DWord × DWord × DWord × DWord))
  leaseTicks : Nat
  supervisor : List (Nat × Word)
deriving DecidableEq, Repr

/-- What the boot flash and the HBM training bring to a power-on (R343). -/
structure BootInput where
  hbmTrains : Bool
  firmware : List Byte
  config : PodConfig
  /-- Components by which the MC firmware extends MEAS3 to MEAS7 once it runs. -/
  extend : List (Nat × List Byte)
deriving DecidableEq, Repr

/-- What the MC does about a translation, and the slice entry it replaces: the walk of a miss; the leaf that its firmware installs first, as
words of the tree by local address; no leaf (R97, R410); a walk ahead of any miss, for the cores of a die (R454). -/
inductive FillAnswer
  | walk (slot : Nat)
  | install (entries : List (Nat × DWord)) (slot : Nat)
  | decline
  | ahead (ctx : Byte) (va : Nat) (die : BitVec 2) (req : BitVec 4) (slot : Nat)
deriving DecidableEq, Repr

/-- The STATUS of a refusal (R431). -/
inductive RefusalStatus
  | overlap | lateBind | ctxMismatch | badLaunch
deriving DecidableEq, Repr

/-- The STATUS of a launch that the MC ends after a record: ERROR alone (R385, R431). -/
inductive EndStatus
  | error
deriving DecidableEq, Repr

/-- What the root decides on: class and CODE of the cause; the FAILED links of the pod, each by package and port of its two ends; and of the other
packages of the schedule, whether FULL is set on one, whether every one is LOCKED, and the last station whose window has ended on them all
(R439 to R441). -/
structure VoidCause where
  cls : Nat
  code : Nat
  failed : List ((Nat × Nat) × (Nat × Nat))
  full : Bool
  locked : Bool
  station : Option Nat
deriving DecidableEq, Repr

/-- The notice VOID alone; the root's decision as it comes down the tree, a rollback with its set, its station and its tick T; or, at the root,
what it decides on (R424, R439, R441). -/
inductive VoidDecision
  | notice
  | endWith (status : Nat)
  | rollback (set k t : Nat)
  | decide (cause : VoidCause)
deriving DecidableEq, Repr

/-- What the time tree brings of a bind: the refusal of a launch of the schedule, or the report of a package that has bound one, with its
logical number, its SCHED_ID and its PKGMAP (R51, R425). -/
inductive BindNotice
  | refusal (status : RefusalStatus)
  | report (pkg sched : Nat) (map : List Byte)
deriving DecidableEq, Repr

/-- A renewal of a lease: the own host writes LEASE, or that of another host, written in a tick there, arrives (R337). -/
inductive LeaseEvent
  | own
  | renewed (host tick : Nat)
deriving DecidableEq, Repr

/-- A publication of a host on its way (R447): the request arrives at the member that decides, what that one has applied arrives at another
member, it has reached every member, its result arrives at the host. -/
inductive PubStep
  | request
  | applied
  | reached
  | result (r : Nat)
deriving DecidableEq, Repr

/-- The host of a publication, and where it stands. -/
structure PubMsg where
  host : Nat
  step : PubStep
deriving DecidableEq, Repr

/-- An untimed unit to send again: its port, and its place among the units sent and not yet credited (R376). -/
structure Resend where
  port : Nat
  nth : Nat
deriving DecidableEq, Repr

/-- A delay exchange of a guard interval: with the parent; with a child, for which it stamps its count; one with the peer at a port, or a credit
return, that has failed (R25, R27, R433). -/
inductive Exchange
  | asChild
  | asParent (port : Nat)
  | failed (port : Nat)
deriving DecidableEq, Repr

/-- What a sync agent answers (R290, R428): a word for G[gw], a reply without one, or a refused operation. -/
inductive SyncAns
  | word (w : DWord)
  | done
  | kindFault (w0 : DWord)
  | ownerFault (w8 : DWord)
deriving DecidableEq, Repr

/-- Every instruction of the opcode table. The first argument `t` of an encoded instruction is its token bits (R66).
Constructors whose arguments name a core, port, queue, launch or context are the device's own events: engine work that
is due, MC decisions and what the outside world does (log 1). -/
inductive Instr
  -- MAJ 0x00 (R204)
  | nop (t : Tok)
  | halt (t : Tok)
  | trap (t : Tok) (ga : G) (n : BitVec 7)
  | eret (t : Tok)
  | sysr (t : Tok) (gd : G) (idx : BitVec 12)
  | sysw (t : Tok) (gs : G) (idx : BitVec 12)
  | syss (t : Tok) (gs : G) (idx : BitVec 12)
  | sysc (t : Tok) (gs : G) (idx : BitVec 12)
  | fence (t : Tok)
  | yield (t : Tok)
  | waitm (t : Tok) (ga : G)
  | readm (t : Tok) (gd : G)
  | madj (t : Tok) (ga : G)
  | phase (t : Tok) (ga : G)
  | perf (t : Tok) (gd : G) (n : BitVec 7)
  -- MAJ 0x01 (R188)
  | add (t : Tok) (gd ga gb : G)
  | sub (t : Tok) (gd ga gb : G)
  | mul (t : Tok) (gd ga gb : G)
  | mulh (t : Tok) (gd ga gb : G)
  | mulhu (t : Tok) (gd ga gb : G)
  | div (t : Tok) (gd ga gb : G)
  | divu (t : Tok) (gd ga gb : G)
  | rem (t : Tok) (gd ga gb : G)
  | remu (t : Tok) (gd ga gb : G)
  | and (t : Tok) (gd ga gb : G)
  | or (t : Tok) (gd ga gb : G)
  | xor (t : Tok) (gd ga gb : G)
  | andn (t : Tok) (gd ga gb : G)
  | shl (t : Tok) (gd ga gb : G)
  | shr (t : Tok) (gd ga gb : G)
  | sra (t : Tok) (gd ga gb : G)
  | rotl (t : Tok) (gd ga gb : G)
  | min (t : Tok) (gd ga gb : G)
  | max (t : Tok) (gd ga gb : G)
  | minu (t : Tok) (gd ga gb : G)
  | maxu (t : Tok) (gd ga gb : G)
  | seq (t : Tok) (gd ga gb : G)
  | slt (t : Tok) (gd ga gb : G)
  | sltu (t : Tok) (gd ga gb : G)
  | clz (t : Tok) (gd ga : G)
  | ctz (t : Tok) (gd ga : G)
  | popc (t : Tok) (gd ga : G)
  | mov (t : Tok) (gd ga : G)
  | sel (t : Tok) (gd ga gb : G)
  | sext (t : Tok) (gd ga gb : G)
  -- MAJ 0x02 to 0x08 (R190)
  | addi (t : Tok) (gd ga : G) (imm : BitVec 12)
  | andi (t : Tok) (gd ga : G) (imm : BitVec 12)
  | ori (t : Tok) (gd ga : G) (imm : BitVec 12)
  | xori (t : Tok) (gd ga : G) (imm : BitVec 12)
  | shli (t : Tok) (gd ga : G) (n : BitVec 6)
  | shri (t : Tok) (gd ga : G) (n : BitVec 6)
  | srai (t : Tok) (gd ga : G) (n : BitVec 6)
  | rotli (t : Tok) (gd ga : G) (n : BitVec 6)
  | slti (t : Tok) (gd ga : G) (imm : BitVec 12)
  | sltiu (t : Tok) (gd ga : G) (imm : BitVec 12)
  -- MAJ 0x09 to 0x10 (R191 to R194)
  | movi (t : Tok) (gd : G) (imm : BitVec 17)
  | movhi (t : Tok) (gd : G) (imm : BitVec 17)
  | li (t : Tok) (gd : G) (imm : BitVec 45)
  | bra (t : Tok) (off : BitVec 22)
  | call (t : Tok) (off : BitVec 22)
  | bcz (t : Tok) (ga : G) (cond : BCond) (off : BitVec 14)
  | jr (t : Tok) (ga : G)
  | callr (t : Tok) (ga : G)
  | ret (t : Tok)
  | loop (t : Tok) (gc : G) (lvl : Lvl) (len : BitVec 14)
  | loopr (t : Tok) (gc : G) (lvl : Lvl) (len : BitVec 14)
  -- MAJ 0x11 to 0x19 (R196)
  | ldb (t : Tok) (g : G) (h : H) (off : BitVec 12)
  | ldh (t : Tok) (g : G) (h : H) (off : BitVec 12)
  | ldw (t : Tok) (g : G) (h : H) (off : BitVec 12)
  | ldd (t : Tok) (g : G) (h : H) (off : BitVec 12)
  | stb (t : Tok) (g : G) (h : H) (off : BitVec 12)
  | sth (t : Tok) (g : G) (h : H) (off : BitVec 12)
  | stw (t : Tok) (g : G) (h : H) (off : BitVec 12)
  | std (t : Tok) (g : G) (h : H) (off : BitVec 12)
  | ldbs (t : Tok) (gd : G) (h : H) (off : BitVec 5)
  | ldhs (t : Tok) (gd : G) (h : H) (off : BitVec 5)
  | ldws (t : Tok) (gd : G) (h : H) (off : BitVec 5)
  | ldbx (t : Tok) (gd : G) (h : H) (gb : G)
  | ldhx (t : Tok) (gd : G) (h : H) (gb : G)
  | ldwx (t : Tok) (gd : G) (h : H) (gb : G)
  | lddx (t : Tok) (gd : G) (h : H) (gb : G)
  | ldbsx (t : Tok) (gd : G) (h : H) (gb : G)
  | ldhsx (t : Tok) (gd : G) (h : H) (gb : G)
  | ldwsx (t : Tok) (gd : G) (h : H) (gb : G)
  | stbx (t : Tok) (gd : G) (h : H) (gb : G)
  | sthx (t : Tok) (gd : G) (h : H) (gb : G)
  | stwx (t : Tok) (gd : G) (h : H) (gb : G)
  | stdx (t : Tok) (gd : G) (h : H) (gb : G)
  -- MAJ 0x1A, 0x1B (R199 to R203)
  | xlate (t : Tok) (hd : H) (ga : G) (req : BitVec 4)
  | hinv (t : Tok) (hd : H)
  | hqry (t : Tok) (gd : G) (hs : H) (k : HWSel)
  | hmov (t : Tok) (hd hs : H)
  | hnarrow (t : Tok) (hd hs : H) (gb : G)
  | qpush (t : Tok) (ga : G) (dir : Dir)
  | qpop (t : Tok) (gd : G) (dir : Dir)
  | qpeek (t : Tok) (gd : G) (dir : Dir)
  | tokw (t : Tok) (dir : Dir) (nm1 : BitVec 4)
  | toks (t : Tok) (dir : Dir) (nm1 : BitVec 4)
  | mbxrd (t : Tok) (gd : G) (mb : BitVec 3)
  | mbxack (t : Tok) (ga : G)
  -- MAJ 0x20 to 0x27 (R216 to R239)
  | vld (t : Tok) (o : VLdOp)
  | vst (t : Tok) (o : VStOp)
  | vlds (t : Tok) (o : VLdsOp)
  | vsts (t : Tok) (o : VStsOp)
  | vgath (t : Tok) (o : VGathOp)
  | vscat (t : Tok) (o : VScatOp)
  | vbcast (t : Tok) (o : VBcOp)
  | vmovg (t : Tok) (y : Bool) (gd : G) (va : V) (gl : G)
  | vmovl (t : Tok) (y : Bool) (vd : V) (gs gl : G)
  | vadd (t : Tok) (o : VBinR)
  | vsub (t : Tok) (o : VBinR)
  | vmul (t : Tok) (o : VBinR)
  | vfma (t : Tok) (o : VTriR)
  | vfms (t : Tok) (o : VTriR)
  | vfnma (t : Tok) (o : VTriR)
  | vmin (t : Tok) (o : VBinT)
  | vmax (t : Tok) (o : VBinT)
  | vabs (t : Tok) (o : VUnT)
  | vneg (t : Tok) (o : VUnT)
  | vrcp (t : Tok) (o : VUnR)
  | vrsqrt (t : Tok) (o : VUnR)
  | vsqrt (t : Tok) (o : VUnR)
  | vdiv (t : Tok) (o : VBinR)
  | vcmp (t : Tok) (o : VCmpOp)
  | vclass (t : Tok) (o : VUnT)
  | vsel (t : Tok) (o : VSelOp)
  | viadd (t : Tok) (o : VBinS)
  | visub (t : Tok) (o : VBinS)
  | vimul (t : Tok) (o : VBinS)
  | vimulh (t : Tok) (o : VBinT)
  | vand (t : Tok) (o : VBinB)
  | vor (t : Tok) (o : VBinB)
  | vxor (t : Tok) (o : VBinB)
  | vnot (t : Tok) (o : VUnB)
  | vshl (t : Tok) (o : VBinT)
  | vshr (t : Tok) (o : VBinT)
  | vsra (t : Tok) (o : VBinT)
  | vimin (t : Tok) (o : VBinT)
  | vimax (t : Tok) (o : VBinT)
  | viabs (t : Tok) (o : VUnS)
  | vcvt (t : Tok) (o : VCvtOp)
  | vpack4 (t : Tok) (o : VPackOp)
  | vunpack4 (t : Tok) (o : VUnpackOp)
  | vpermb (t : Tok) (o : VTriB)
  | vpermw (t : Tok) (o : VTriB)
  | vrot (t : Tok) (o : VRotOp)
  | vslide (t : Tok) (o : VSlideOp)
  | vti (t : Tok) (o : VTiOp)
  | vtiload (t : Tok) (o : VTiLoadOp)
  | vrand (t : Tok) (o : VRandOp)
  | vxsum (t : Tok) (o : VXSumOp)
  | vtopk (t : Tok) (o : VTopkOp)
  | pset (t : Tok) (o : PSetOp)
  | pand (t : Tok) (o : PBinOp)
  | por (t : Tok) (o : PBinOp)
  | pxor (t : Tok) (o : PBinOp)
  | pnot (t : Tok) (o : PUnOp)
  | pcnt (t : Tok) (o : PToGOp)
  | pfirst (t : Tok) (o : PToGOp)
  | plen (t : Tok) (o : PLenOp)
  | pmov (t : Tok) (o : PUnOp)
  -- MAJ 0x30 to 0x32 (R243 to R259)
  | tcfg (t : Tok) (y : Bool) (td : TN) (gs : G)
  | tld (t : Tok) (o : TLdOp)
  | tst (t : Tok) (o : TStOp)
  | tzero (t : Tok) (y : Bool) (td : TN)
  | tfromv (t : Tok) (o : TFromVOp)
  | mma (t : Tok) (o : MmaOp)
  | mmaz (t : Tok) (o : MmaOp)
  | anchor (t : Tok) (y : Bool) (gc gn ga : G)
  | acczero (t : Tok) (y : Bool) (gc gn : G)
  | accflags (t : Tok) (y : Bool) (gd gc gn : G) (clr : Bool)
  | drain (t : Tok) (o : DrainOp)
  | epcfg (t : Tok) (o : EpcfgOp)
  | topkrd (t : Tok) (y : Bool) (grows go : G) (h : H)
  | topkclr (t : Tok) (y : Bool) (grows gk : G)
  | accsv (t : Tok) (y : Bool) (gc gn go : G) (h : H)
  | accrs (t : Tok) (y : Bool) (gc gn go : G) (h : H)
  -- MAJ 0x38 to 0x3A (R266 to R288)
  | cpy (t : Tok) (o : CpyOp)
  | cpyt (t : Tok) (o : CpytOp)
  | gath (t : Tok) (o : GathOp)
  | scat (t : Tok) (o : ScatOp)
  | cpyaccIadd32 (t : Tok) (o : CpyAccOp)
  | cpyaccIadd64 (t : Tok) (o : CpyAccOp)
  | cpyaccXadd (t : Tok) (o : CpyAccOp)
  | cpyaccOr (t : Tok) (o : CpyAccOp)
  | cpyaccAnd (t : Tok) (o : CpyAccOp)
  | cpyaccXor (t : Tok) (o : CpyAccOp)
  | cpyaccImin (t : Tok) (o : CpyAccOp)
  | cpyaccImax (t : Tok) (o : CpyAccOp)
  | cpyaccFmin (t : Tok) (o : CpyAccOp)
  | cpyaccFmax (t : Tok) (o : CpyAccOp)
  | cpyaccSwap (t : Tok) (o : CpyAccOp)
  | cpycas (t : Tok) (o : CpyCasOp)
  | cpywait (t : Tok) (y : Bool) (sel : Option (BitVec 8))
  | cpypop (t : Tok) (y : Bool) (gw : G)
  | shpset (t : Tok) (o : ShpsetOp)
  | shpclr (t : Tok) (y : Bool) (gshape gv gw : G)
  -- MAJ 0x3B (R289 to R295)
  | soinit (t : Tok) (y : Bool) (hd : H) (gv : G)
  | sobind (t : Tok) (o : SobindOp)
  | soacq (t : Tok) (y : Bool) (hd : H) (gw : G)
  | sorel (t : Tok) (y : Bool) (hd : H)
  | soarr (t : Tok) (y : Bool) (hd : H) (gw : G)
  | sowait (t : Tok) (y : Bool) (hd : H) (gv gw : G)
  | sostat (t : Tok) (y : Bool) (hd : H) (gw : G)
  -- MAJ 0x3C, 0x3E (R296 to R302)
  | send (t : Tok) (o : SendOp)
  | recv (t : Tok) (o : RecvOp)
  | sendu (t : Tok) (o : SenduOp)
  | dgbeg (t : Tok) (y : Bool) (k : BitVec 2)
  | dgadd (t : Tok) (y : Bool) (k : BitVec 2) (hs : H) (gso gv : G)
  | dgend (t : Tok) (y : Bool) (k : BitVec 2) (hd : H) (gdo : G)
  -- MAJ 0x3D (R310)
  | gbind (t : Tok) (o : GbindOp)
  | gbindUnbind (t : Tok) (hdr : GeHdr) (nogr : Bool)
  | gmask (t : Tok) (o : GmaskOp)
  | gadv (t : Tok) (hdr : GeHdr) (gx : G)
  | gfork (t : Tok) (hdr : GeHdr) (gx gy : G)
  | groll (t : Tok) (hdr : GeHdr) (gx : G)
  | gcommit (t : Tok) (hdr : GeHdr)
  | gsave (t : Tok) (hdr : GeHdr)
  | grest (t : Tok) (o : GrestOp)
  | seqck (t : Tok) (hdr : GeHdr) (gx : G)
  | seqroll (t : Tok) (hdr : GeHdr) (gx : G)
  | sample (t : Tok) (o : SampleOp)
  | accept (t : Tok) (o : AcceptOp)
  | accmb (t : Tok) (o : AccmbOp)
  -- ephemeris entries (R38); the port is the one whose link engine runs the entry
  | xfer (off : BitVec 32) (slot : BitVec 6) (first unitsM1 : BitVec 3)
  | fwd (off : BitVec 32) (inPort : BitVec 4) (unitsM1 : BitVec 3)
  | dlv (off : BitVec 32) (slot : BitVec 6) (first unitsM1 : BitVec 3)
  | inj (off : BitVec 32) (len : BitVec 16)
  | hold (off : BitVec 32)
  | guard (off : BitVec 32)
  | jump (off : BitVec 32) (target : BitVec 14) (lvl : BitVec 1) (count : BitVec 13)
  | leHalt (off : BitVec 32)
  | mark (off : BitVec 32) (code : BitVec 16)
  -- engines' events
  | maStart (core : Nat)
  | maGroupAddition (core id g : Nat)
  | drainStart (core : Nat)
  | drainChunkRead (core id q : Nat)
  | drainChunkWrite (core id q : Nat) (els : List DrainElem)
  | syncOperationPerform (r : SyncReq)
  | syncReply (r : SyncReq) (ans : SyncAns)
  | digestComplete (core : Nat)
  | geCommandStart (id : Nat)
  | geReply (id : Nat)
  -- copy engine and packets
  | ceCommandStart (core : Nat)
  | ceEvent (core id k : Nat) (ph : CePhase)
  | remoteLineSample (core id k x n : Nat)
  | ceCommandRetire (core id : Nat)
  | flagIncrement (core id : Nat)
  | resultFifoEntry (core : Nat) (stream : StreamId) (id : Nat) (value : DWord)
  | followOnHandoff (core id : Nat)
  | untimedPacketForward (p : Packet)
  | untimedPacketDelivery (p : Packet)
  | deliveryNotice (core id : Nat) (k : NoticeKind)
  | routeTimeout (core id : Nat)
  | commandFaultTrap (core : Nat) (stream : StreamId)
  | cefctlAbandon (core : Nat) (stream : StreamId) (seq : BitVec 8)
  | cefctlRetranslate (core : Nat) (stream : StreamId) (seq : BitVec 8)
  | cefctlResume (core : Nat) (stream : StreamId) (seq : BitVec 8)
  | ceRetranslationComplete (core id : Nat)
  | trapctlFreeze (core : Nat) (stream : StreamId)
  | frzClear (core : Nat)
  | launchEndByMc (launch : Nat) (status : EndStatus)
  | missFill (core : Nat) (stream : StreamId) (ans : FillAnswer)
  | shootdownDelivery (ctx : Byte) (lo hi : Nat) (psz : BitVec 2) (entry : DWord)
  | shootdownComplete (companions : List Nat)
  -- dispatch
  | doorbell (q : Nat) (tail : Nat)
  | launchCheck (q : Nat)
  | defaultPolicyEvaluation
  | agingPromotion (launch : Nat)
  | bind (launch : Nat)
  | launchStart (launch : Nat)
  | launchRetirement (launch : Nat)
  | completionRecordWrite (q : Nat)
  | feedEntryDelivery (q : Nat)
  | preemptionRequest (launch : Nat)
  | timedPreemption (launch : Nat)
  | contextSave (launch : Nat)
  | contextRestore (launch x0 y0 moved : Nat)
  | preemptionTimeout (launch : Nat)
  -- Meridian and links
  | guardIntervalStart
  | slewEnd
  | delayExchange (parent : Exchange) (t1 t4 : Int) (turn : Nat)
  | meridianAcquire (tick : Nat) (frac : BitVec 16)
  | exchangeTimeout
  | meridianReacquire (value : Nat)
  | linkSlotReceive (port : Nat) (u : LinkSlot)
  | untimedRetransmit (port : Resend)
  | creditReturn (port : Nat)
  | slip (port : Nat)
  | lossOfLock (port : Nat)
  | portstatFailedClear (port : Nat)
  | retrainingComplete (port : Nat)
  -- checkpoints and the pod
  | checkpointStation (launch k : Nat)
  | ckptWindowEnd (launch k : Nat)
  | journalDiscard
  | voidNotice (launch : Nat) (d : VoidDecision)
  | rollback (launch set k t : Nat)
  | scheduleRefusalNotice (launch : Nat) (status : BindNotice)
  | packageStop (pkg : Nat)
  -- hosts and extents
  | extentRebuild (ext blk : Nat) (a b c : List Byte)
  | apertureRead (x n : Nat)
  | apertureWrite (x : Nat) (data : List Byte)
  | qcfgWrite (q : Nat) (v : DWord)
  | leaseWrite (host : LeaseEvent)
  | leaseExpiry (host : Nat)
  | forcedCompletion (id : Nat)
  | extentRelease (ext : Nat)
  | publishWrite (v : DWord)
  | publicationDecision (ext version : Nat) (host : PubMsg)
  | gcancelWrite (v : DWord)
  | gectlCancelWrite (n : Nat) (ctx : Byte)
  | attctlGo (v : DWord)
  | attestationReportDone
  | powerOn (b : BootInput)
  | hbmRefresh
  | patrolScrub
  | budgetRefill
  | errorRecordWrite
  | errqCfgWrite (v : DWord)
  | samplingTick (core : Nat)
  | sampleRecordWrite (core : Nat)
  | smpctlWrite (core : Nat) (v : DWord)
  | smpbufWrite (core : Nat) (v : DWord)
  | smpptrRdWrite (core : Nat) (v : DWord)
  | registerWrite (addr : Nat) (v : DWord)
  | powerOff
  | extentRevocation (ext : Nat)
deriving DecidableEq, Repr

end Sys2Proof
end

