-- ==== Sys2Proof/Machine/State.lean ====
section
/-! DEFINITION. The state of one NRS-4801-A package as plain data, the reasons a step can stop, and the state after
power-on reset. Every field that the spec gives the machine names its rule; a field of the model's own says so. -/

namespace Sys2Proof.Machine

/-- A finite map by number in one canonical form: keys strictly rising, no entry equal to what an unlisted key reads as
(what that is stands with each field; `Sparse.get` and `Sparse.set` in Ops.lean). -/
abbrev Sparse (α : Type) := List (Nat × α)

/-- Bytes of memory by local address (R43, R86); an unlisted byte reads zero (R88; log 3). -/
abbrev Memory := List Host.Cell

/-- Why a step stops for good. -/
inductive Fault
  /-- Raised by `registerWrite` for a hub register address (0x03F0_0000_0000 up) that the spec does not describe. Safe:
  the machine stops where the hardware's behaviour is not given (R43). -/
  | hubAddress
deriving DecidableEq, Repr

/-- Why the model gives no meaning. -/
inductive Refusal
  /-- Raised by the dispatcher for an instruction that has no meaning yet. Safe: nothing is proved of it. -/
  | notModelled (mnemonic : String)
deriving DecidableEq, Repr

/-! ### Streams -/

/-- Stream classes (R348). -/
inductive Cls
  | issued | notsel | token | queue | mailbox | meridian | cefull | bank | sync | frozen | halted
deriving DecidableEq, Repr

/-- A handle register: three 64-bit words (R90). -/
structure Handle where
  w0 : DWord
  w1 : DWord
  w2 : DWord
deriving DecidableEq, Repr

/-- When a pushed word can be taken: from a period on, or once the GE replies to a command (R311, R313). -/
inductive Due
  | at (p : Nat)
  | reply (id : Nat)
deriving DecidableEq, Repr

/-- A token FIFO or a data queue toward a neighbour (R65, R69): words that can be taken now, words that become
available later, entries freed in this tick and not yet reusable (R201), entries reserved (R66, R201). -/
structure Chan where
  words : List DWord
  due : List (Due × DWord)
  freed : Nat
  resv : Nat
deriving DecidableEq, Repr

/-- One hardware loop of a stream (R194). -/
structure LoopRec where
  lc : BitVec 32
  start : DWord
  stop : DWord
  rot : Bool
  active : Bool
deriving DecidableEq, Repr

/-- Why a stream that has issued an instruction does not go on to the next one. -/
inductive Hold
  /-- `waitm`: until the count reaches the value (R207). -/
  | meridian (v : DWord)
  /-- Until the agent's reply to request `id`: `soacq` or `sowait` where `waits`, else a request to another package; `far` is the object's PPA
  where it lies in another package (R290, R292, R293, R420). -/
  | sync (id : Nat) (waits : Bool) (far : Option Nat)
  /-- `dgend`: until the 48 bytes have completed (R302). -/
  | digest
  /-- `xlate` whose miss is being filled (R97): target handle, VA, REQ. -/
  | miss (hd : H) (va : Nat) (req : BitVec 4)
  /-- The same once its slice entry is filled, until the stall wire drops: the leaf, and whether a shootdown has covered its page since (R97, R199,
  R409). -/
  | filled (hd : H) (va : Nat) (req : BitVec 4) (leaf : DWord) (shot : Bool)
  /-- A scalar access at a scratchpad offset that performs, or retries, in this period: its number, and whether it issued in the timed regime
  (R102, R111, R198). -/
  | bank (period off id : Nat) (timed : Bool)
deriving DecidableEq, Repr

/-- A command fault that its stream has not yet taken (R393). -/
structure CmdFault where
  /-- Period f in which it was found, and the serial number of what was pushed (R393). -/
  at_ : Nat
  id : Nat
  cause : Byte
  info0 : DWord
  info1 : DWord
  freeze : Bool
deriving DecidableEq, Repr

/-- One of the four streams of a core (R54). -/
structure Stream where
  /-- Program counter, a byte address; 64 bits so that a relative target is never wrapped (R192). -/
  pc : DWord
  /-- G1 to G31; an unlisted register reads zero, G0 is never listed (R54, R174). -/
  g : Sparse DWord
  /-- LC0, LC1, LC2 with START, END, ROT, ACTIVE (R194). -/
  l0 : LoopRec
  l1 : LoopRec
  l2 : LoopRec
  /-- Active loops, innermost first (R194). -/
  order : List Lvl
  /-- The stream has halted, or has no code section (R60, R208). -/
  halted : Bool
  /-- The stream has a code section (R349). -/
  hasCode : Bool
  /-- ROUND and SRCTR (R144). -/
  round : DWord
  srctr : DWord
  /-- Trap registers (R380). -/
  trapPc : DWord
  trapCause : DWord
  trapInfo0 : DWord
  trapInfo1 : DWord
  scr0 : DWord
  scr1 : DWord
  /-- TRAPCTL.NEST: the stream is in its handler. -/
  nest : Bool
  /-- Not before this period may the next instruction issue (trap entry, R378). -/
  notBefore : Nat
  /-- The wait that follows an issued instruction, and its token bits, pushed when it retires. -/
  hold : Option Hold
  holdTok : Tok
  /-- Command faults not yet taken, in order (R393). -/
  faults : List CmdFault
  /-- Period from which each register written last is usable; unlisted means now (R186, R214). -/
  busy : Sparse Nat
  /-- Registers that a reply will write: scoreboard key, serial number of the request, whether a sync agent replies (R72). -/
  await : List (Nat × Nat × Bool)
  /-- Period in which the stream's last issued instruction retires (R67, R186). -/
  retireAt : Nat
  /-- This period: whether the stream has been looked at, its class, the address it is attributed (R348, R349). -/
  tried : Bool
  cls : Cls
  clsPc : DWord
  /-- The boundary before the next instruction is a pre-emption point; the stream has stopped there (R79). -/
  point : Bool
  stopped : Bool
  /-- Token FIFOs and data queues from this stream to its predecessor and to its successor (R65, R69). -/
  tokPred : Chan
  tokSucc : Chan
  qPred : Chan
  qSucc : Chan
deriving DecidableEq, Repr

/-! ### The vector, tile and accumulator state of a core -/

/-- A loaded table of the TIE: configuration word, source VA and kind, 258 FP32 entries (R233, R235). -/
structure TieTable where
  cfg : DWord
  va : Nat
  kind : BitVec 2
  y : List Word
deriving DecidableEq, Repr

/-- One access of the vector memory port within one line: scratchpad offset, length, the bytes of a write, for an INT4 write the
nibble it leaves to another element, and for a strided or indexed read the lane it is for (R214 to R220, R244). -/
structure PortItem where
  off : Nat
  n : Nat
  data : Option (List Byte)
  half : Option Bool
  lane : Option Nat
deriving DecidableEq, Repr

/-- What becomes of the bytes that a vector memory instruction reads. -/
inductive PortWhat
  /-- Lanes of a physical register: lane, scratchpad offset, nibble. -/
  | load (dst : Nat) (ty : Ty) (z : Bool) (lanes : List (Nat × Nat × Nat))
  | store
  /-- Heap rows written from a scratchpad offset (R258). -/
  | heaps (frow nrow off : Nat)
  | table (k : Nat) (cfg : DWord) (va : Nat) (kind : BitVec 2) (off : Nat)
  | epilogue (off : Nat)
  /-- Rows of a tile from a scratchpad offset at a pitch. -/
  | tile (td : TN) (off pitch rows rb : Nat)
  /-- Accumulator columns from a scratchpad offset. -/
  | columns (c n off : Nat)
deriving DecidableEq, Repr

/-- The vector memory instruction that holds the port (R214): its address, and what has been read so far, by offset and lane. -/
structure PortOp where
  id : Nat
  pc : DWord
  timed : Bool
  what : PortWhat
  got : List (Nat × Option Nat × List Byte)
  /-- In the free regime, the groups still to perform, the one in progress first (R219). -/
  rest : List (List PortItem)
  /-- Period in which the instruction itself is through, and that of the last retirement before it; how many tokens to either
  neighbour, and delayed writes, of earlier instructions fall in that last period (R67, R219). -/
  own : Nat
  prev : Nat
  skip : Nat × Nat × Nat
deriving DecidableEq, Repr

/-- Anchor, flags and counter of an accumulator column (R148, R149). -/
structure ColSide where
  anchor : BitVec 10
  flags : BitVec 6
  cnt : BitVec 32
deriving DecidableEq, Repr

/-- An `mma` or `mmaz` accepted by the MA (R248). -/
structure MaOp where
  id : Nat
  zero : Bool
  ta : TN
  tb : TN
  n : Nat
  c : Nat
  split : BitVec 3
  arrive : Nat
  /-- Columns already done where a pre-emption stopped it (R249). -/
  done : Nat
  /-- A follow-on of a `cpyt` (R275). -/
  fo : Bool
deriving DecidableEq, Repr

/-- An instruction that the MA has started: its tick b, or that of its resumption, and the operand tiles as read (R248, R249). -/
structure MaRun where
  op : MaOp
  b : Nat
  aTag : BitVec 4
  bTag : BitVec 4
  a : Sparse Byte
  bt : Sparse Byte
  /-- Column groups whose additions have taken effect. -/
  groups : Nat
deriving DecidableEq, Repr

/-- A `drain` accepted by the DEU (R253 to R255), with everything it reads at its acceptance. -/
structure DrainRec where
  id : Nat
  c : Nat
  n : Nat
  frow : Nat
  nrow : Nat
  pitch : Nat
  base : Nat
  cfg : DWord
  idxBase : BitVec 32
  rm1 : Rm
  rm2 : Rm
  key : DWord
  ctr : DWord
  table : Option TieTable
  bias : Sparse Word
  scale : Sparse Word
  split : BitVec 3
  arrive : Nat
  /-- The timed regime applies: it issued at or after SCHEDBASE (R111). -/
  timed : Bool
  /-- Address of the instruction, for a schedule error; its words and the G registers it read (R261). -/
  pc : DWord
  words : List Word
  vals : List DWord
  /-- Reading, or between two rows where a pre-emption has stopped it (R261). -/
  started : Bool
  /-- Chunks read, chunks written, and chunks written before this period. -/
  read : Nat
  written : Nat
  past : Nat
deriving DecidableEq, Repr

/-- A top-k heap: K and its pairs, best first (R257). -/
structure Heap where
  k : Nat
  items : List (Word × Word)
deriving DecidableEq, Repr

/-- Column order (R250): columns lo to hi, class (0 ADD, 1 RD, 2 XW) and last effect period of an accepted instruction; the
serial number of the port access or drain that may still move that period, else 0. -/
structure ColEff where
  lo : Nat
  hi : Nat
  cls : Nat
  last : Nat
  id : Nat
deriving DecidableEq, Repr

/-- Tile order (R245): an accepted access of a tile, whether it writes, the last period it touches the tile, and the serial number
of the port access that may still move that period, else 0. -/
structure TileEff where
  tile : TN
  wr : Bool
  last : Nat
  id : Nat
deriving DecidableEq, Repr

/-! ### The copy engine -/

/-- Operations of `cpyacc` (R280). -/
inductive AccKind
  | iadd32 | iadd64 | xadd | or | and | xor | imin | imax | fmin | fmax | swap
deriving DecidableEq, Repr

/-- A shape record's 64 bytes as eight words (R104). -/
abbrev ShapeWords := List DWord

/-- What a copy command moves, with the values its instruction read (R272 to R283, R296 to R298). -/
inductive CmdKind
  | cpy (n : Nat)
  | shaped (shape : ShapeWords) (dstShaped : Bool)
  | tile (td : TN) (pitch : Nat) (fo fz : Bool) (fta ftb : TN) (fn fc : Nat) (fsplit : BitVec 3)
  | gath (n esz : Nat)
  | scat (n esz : Nat)
  | acc (op : AccKind) (n esz : Nat) (bcast : Option DWord) (ret idx : Bool)
  | cas (esz : Nat) (exp new : DWord)
  | send (port slot first n : Nat)
  | recv (port slot first n : Nat)
  | sendu (n : Nat) (route : DWord)
deriving DecidableEq, Repr

/-- One side of a command (destination, source, index list or flag word): its handle copy, the VA its offset 0 had at
the push, its offset, and the shootdown mark (R99, R266, R394). -/
structure Side where
  h : Handle
  va0 : Nat
  off : Nat
  marked : Bool
deriving DecidableEq, Repr

/-- Where a buffer entry stands (R267 to R270, R393, R394); a retranslation waits for a slice entry (0), for the stall
wire to drop (1), or for its 96 ticks (2). -/
inductive EntState
  | queued | running | finishing | faulted (cause : Byte) (side : Nat) | retranslating (stage : Nat) (sides : List Nat)
deriving DecidableEq, Repr

/-- An entry of the CE buffer (R266). -/
structure CeEntry where
  id : Nat
  seq : BitVec 8
  stream : StreamId
  kind : CmdKind
  dst : Side
  src : Side
  idx : Side
  flag : Option Side
  pred : Option Nat
  /-- Requested tick: a Meridian tick when `timed`, else a period of the model's clock (R267); the timed regime applies
  when `strict` (R111). -/
  req : Nat
  timed : Bool
  strict : Bool
  ord : Ord
  ford : Bool
  split : BitVec 4
  st : EntState
  /-- Element at which this run of the command began, next element to start, next read event within its group, events
  begun in this run, and the least of the event count and 64 (R110, R268, R270). -/
  base : Nat
  el : Nat
  sub : Nat
  ev : Nat
  m : Nat
  /-- Period of the next event. -/
  nextAt : Nat
  /-- Progress count: elements whose accesses have all performed (R270). -/
  prog : Nat
  /-- Samples, writes, results and replies still to come (R268). -/
  outstanding : Nat
  /-- Index values of the group in progress, or rows, row bytes and period of acceptance of a tile; source bytes read and
  not yet written; `gath` elements landed in the line in progress (R272, R274, R276). -/
  idxBuf : List Nat
  dataBuf : List Byte
  landBuf : List Byte
  /-- The flag increment has been asked for; the follow-on is held (R275, R277). -/
  flagSent : Bool
  foHeld : Bool
  /-- Meridian tick of the push, for the notice that never returns (R443), and the model's period of it. -/
  pushed : Nat
  born : Nat
  /-- A notice has returned since the push (R443). -/
  noticed : Bool
deriving DecidableEq, Repr

/-! ### Digest sessions and sampling -/

/-- A region of a digest session: VA, PPA as translated at `dgadd`, length (R300, R356). -/
structure DgRegion where
  va : Nat
  ppa : Nat
  len : Nat
deriving DecidableEq, Repr

/-- A digest session (R300, R356). -/
structure DgSession where
  regions : List DgRegion
  marked : Bool
deriving DecidableEq, Repr

/-- The `dgend` in progress on a core: its stream, the lines still to read by PPA and length, what has been read, and where the 48
bytes go (R301, R302, R356). -/
structure DgRun where
  id : Nat
  stream : StreamId
  left : List (Nat × Nat)
  got : List Byte
  dst : Nat
deriving DecidableEq, Repr

/-- The sampling unit (R350 to R353). -/
structure Sampler where
  ctl : DWord
  buf : DWord
  rd : BitVec 32
  wr : BitVec 32
  dropped : BitVec 32
  /-- Meridian tick of the write that started the schedule, and the number of the last sample taken since (R351). -/
  start : Nat
  j : Nat
  /-- Records accepted and not yet written: TICK, and the word SAMP and LAUNCH. -/
  pend : List (DWord × DWord)
deriving DecidableEq, Repr

/-- A write to a register of core scope, seen from the next tick (R205): stream order, index, operation (0 `sysw`, 1
`syss`, 2 `sysc`, 3 an engine's OR, 4 an addition to E's SRCTR), value. -/
structure SysWrite where
  order : Nat
  idx : Nat
  op : Nat
  val : DWord
deriving DecidableEq, Repr

/-- Soft-error state of a memory granule (R371 to R373); `met` is a single-bit error that an access has met and the scrubber has not (R458). -/
inductive Damage
  | single | met | double | poison
deriving DecidableEq, Repr

/-- A code corrects it. -/
def Damage.fixable : Damage → Bool
  | .single => true
  | .met => true
  | .double => false
  | .poison => false

/-! ### A core -/

/-- One of the 480 cores (R14). -/
structure Core where
  c : Stream
  a : Stream
  e : Stream
  w : Stream
  /-- Priority pointer of the shared port (R71). -/
  ptr : StreamId
  /-- The E port and the shared port have granted in this period (R70). -/
  grantE : Bool
  grantS : Bool
  /-- Instruction store below the supervisor block, by word number; an unlisted word is zero (R159). -/
  istore : Sparse Word
  /-- H0 to H31; an unlisted handle is all zero, so invalid (R90). -/
  h : Sparse Handle
  /-- Handles that `xlate` writes in a later period: period, number, contents (R96, R199). -/
  pendH : List (Nat × Nat × Handle)
  /-- Vector registers by physical number, then lane; unlisted is zero (R174, R175). -/
  v : Sparse (Sparse Lane)
  /-- P1 to P15 by physical number; unlisted is zero, P0 is never listed (R174). -/
  p : Sparse Pred
  /-- Rotating bases (R175). -/
  vrb : BitVec 6
  prb : BitVec 3
  tie : Sparse TieTable
  /-- ROTARY tables held by the window unit, by 256 x descriptor + entry (R134). -/
  rotary : Sparse Word
  /-- Tile descriptors; an unlisted one is 0x400F: COLS 0, ROWS 64, TAG unset (R241). -/
  tdesc : Sparse DWord
  /-- Tile contents by register, then byte row x 1,024 + column; unlisted is zero (R242). -/
  tiles : Sparse (Sparse Byte)
  /-- X of element (r, c) at key r x 512 + c; unlisted is zero (R148). -/
  xa : Sparse (BitVec 136)
  /-- Side fields of each column; unlisted is all zero (R148). -/
  side : Sparse ColSide
  maQueue : List MaOp
  maRun : List MaRun
  /-- First period in which the MA may start its next instruction (R248). -/
  maFree : Nat
  epcfg : DWord
  epidx : DWord
  dstat : DWord
  bias : Sparse Word
  scale : Sparse Word
  heaps : Sparse Heap
  /-- Heap rows that a `topkrd` still had to write when the period began (R258). -/
  heapLeft : List Nat
  drains : List DrainRec
  /-- Settings that a drain follows before those of `epPend` apply; the settings of the last instructions `epcfg` with the period
  from which each applies; that from which BIAS and SCALE have arrived; first period in which the next drain may start (R252, R255). -/
  epOld : DWord × DWord
  epPend : List (Nat × DWord × DWord)
  epReady : Nat
  deuFree : Nat
  colEff : List ColEff
  tileEff : List TileEff
  /-- Last period in which the vector memory port is taken, the instruction that holds it, the periods in which it retries
  a line (R214, R219). -/
  vmPort : Nat
  port : Option PortOp
  vmRetry : List Nat
  /-- CE buffer in push order (R266). -/
  ce : List CeEntry
  /-- Result FIFOs of A and W: period from which each word can be taken, and the word (R284). -/
  rfA : List (Nat × DWord)
  rfW : List (Nat × DWord)
  /-- NUMSTAT (R155). -/
  numstat : Byte
  dg : Sparse DgSession
  dgRun : Option DgRun
  smp : Sampler
  /-- Event counters, and what the present tick adds to them (R355). -/
  ctr : Sparse Nat
  ctrNew : Sparse Nat
  /-- Writes of registers of core scope, and the counts and flags that an instruction leaves at its retirement, by the
  period at whose end they take place (R145, R155, R205, R229). -/
  pendW : List (Nat × SysWrite)
  /-- LCTL, LGEOM and SCHEDBASE (R55). -/
  launchId : BitVec 32
  ctx : Byte
  resident : Bool
  timed : Bool
  lgeom : DWord
  schedbase : DWord
  /-- Launch bound here, the first core of its fret, the context that ran last (R52, R53, R61). -/
  owner : Option Nat
  running : Bool
  fret : Nat
  lastCtx : Option Byte
  /-- Arrival period of the last GE command (R312). -/
  geLast : Nat
  /-- Bank accesses made: period, bank, requester code (R102, R423); requester code, offset and length of the bytes that lines of the CE
  and of the LE delivery port wrote, by period (R108). -/
  bankUse : List (Nat × Nat × Nat)
  spadWr : List (Nat × Nat × Nat × Nat)
  /-- Parity-damaged registers, FIFOs and entries, by the key that names them in Ops.lean; damaged granules of the core's SECDED
  arrays other than the scratchpad, by `softKey` (R371, R375). -/
  parity : List Nat
  soft : Sparse Damage
deriving DecidableEq, Repr

/-- What the cores of a fret share; kept under the number of the fret's first core (R53, R75, R76, R384). -/
structure Fret where
  frozen : Bool
  /-- First period in which the asserted stall wire acts; while it has just dropped, the first in which it no longer
  does (R75, R384, R409). -/
  wireFrom : Nat
  wireTo : Nat
  /-- Streams and entries whose translation miss is being filled. -/
  misses : Nat
  mb : Sparse DWord
  entry : Option Nat
deriving DecidableEq, Repr

/-! ### The hub: launches and queues -/

/-- A completion record not yet written: QSEQ, KIND, STATUS, NUMSTAT, TICK, DATA (R333). -/
structure Completion where
  qseq : Nat
  kind : Nat
  status : Byte
  numstat : Byte
  tick : DWord
  data : DWord
deriving DecidableEq, Repr

/-- A host work queue (R330 to R334, R57). -/
structure Hwq where
  sqBase : DWord
  cqBase : DWord
  qcfg : DWord
  cqHead : Nat
  tail : Nat
  /-- Records taken from the ring: the place of the next one; the lines that the MC still has to read for its check, by budget class,
  local address and length (R59, R339). -/
  next : Nat
  reading : Option (List (Nat × Nat × Nat))
  /-- The first record of each doorbell that came behind aperture writes still under way, with those writes (R127). -/
  bells : List (Nat × List Nat)
  /-- Places below the watermark have retired or been refused; places above it that have retired, or been refused. -/
  watermark : Nat
  retired : List Nat
  refused : List (Nat × Byte × DWord)
  /-- Completion records written, and those held (R334). -/
  w : Nat
  held : List Completion
deriving DecidableEq, Repr

/-- A context record (R103): ROOT, SHAPES, WINDOWS, RNG, SYNCB, SYNCB_N, and the live copies of a bound context. -/
structure CtxRec where
  root : DWord
  shapes : DWord
  windows : DWord
  rng : DWord
  syncb : DWord
  syncbN : DWord
  /-- The live copies are loaded (R103, R139). -/
  bound : Bool
  /-- Sixteen window descriptors of eight words, by 8 x number + word (R130). -/
  win : Sparse DWord
  /-- RNG stream registers (R103). -/
  rngReg : Sparse (BitVec 128)
deriving DecidableEq, Repr

/-- A slice entry (R95). -/
structure SliceEnt where
  ctx : Byte
  va : Nat
  psz : BitVec 2
  leaf : DWord
deriving DecidableEq, Repr

/-- A request waiting at a sync agent (R290, R292, R293). -/
structure Waiter where
  req : SyncReq
deriving DecidableEq, Repr

/-! ### The grammar engine -/

/-- A configuration (R306, R307): state, stack from the bottom, DONE, LASTTOK. -/
structure GeConf where
  state : Nat
  stack : List Nat
  done : Bool
  lastTok : BitVec 32
deriving DecidableEq, Repr

/-- A draft-node slot (R307). -/
structure GeSlot where
  conf : GeConf
  token : BitVec 32
  parent : BitVec 7
  valid : Bool
deriving DecidableEq, Repr

/-- A GE context (R307); LASTTOK stands in the live configuration. -/
structure GeCtx where
  bound : Bool
  nogr : Bool
  ctx : Byte
  grammar : Nat
  ssr : Nat
  ckint : Nat
  live : GeConf
  base : GeConf
  slots : Sparse GeSlot
  /-- CANCEL, with the periods of the first and of the last write of 1 that it stands for (R308). -/
  cancel : Option (Nat × Nat)
  damaged : Bool
deriving DecidableEq, Repr

/-- What a GE command does (R310, R315 to R326), with the values and PPAs read at its push. -/
inductive GeOp
  | gbind (ssr : Nat) (gram : Option (Nat × Nat)) (ckint : Nat)
  | unbind
  | gmask (dst : Nat)
  | gadv (t : BitVec 32)
  | gfork (k parent : BitVec 7)
  | groll (k : BitVec 7)
  | gcommit
  | gsave
  | grest (ssr gram : Nat)
  | seqck (p : BitVec 32)
  | seqroll (a : BitVec 32)
  | sample (list n k : Nat) (tp ctr : DWord) (key : Nat) (mask : Option (Nat × Nat))
  | accept (paths n : Nat) (ctr : DWord) (key : Nat)
  | accmb (paths rows n k : Nat) (tp : DWord)
deriving DecidableEq, Repr

/-- A GE command on its way (R311, R312). -/
structure GeCmd where
  id : Nat
  core : Nat
  gw : G
  qa : Bool
  /-- The GE context that it names, and the CTX that its push checked (R311). -/
  gctx : Option Nat
  ctx : Byte
  op : GeOp
  /-- Meridian tick from which it performs, 0 for the tick after its push; its own arrival once it performs; its arrival, in periods,
  once those of the core's earlier commands are known (R312). -/
  req : Nat
  own : Option Nat
  arrive : Option Nat
  /-- Lines still to read, and what has been read, by line number (R312). -/
  left : Nat
  buf : Sparse (List Byte)
  /-- Its start tick b, in periods, and its walker (R312). -/
  begun : Option (Nat × Nat)
  /-- Period in which its walker ends, once it has had its effect; the reply word; lines of the mask still to write, with the
  local address of the next one (R312, R317). -/
  stop : Option Nat
  reply : DWord
  outAt : Nat
  outLines : List (List Byte)
  /-- The timed regime applies; it could not start when it arrived (R422 GELATE). -/
  strict : Bool
  late : Bool
deriving DecidableEq, Repr

/-! ### Links -/

/-- A link engine and its port (R32 to R40, R432, R433). -/
structure Le where
  /-- Ephemeris memory by entry number, BASE, D, the next entry (R37, R39). -/
  mem : Sparse DWord
  base : DWord
  d : DWord
  idx : Nat
  /-- An ephemeris runs; an error or a void has stopped the LE, and the units of its entries with it (R423). -/
  on : Bool
  stopped : Bool
  /-- The launch whose schedule it serves (R51). -/
  owner : Option Nat
  /-- JC0 and JC1 (R40). -/
  jc0 : BitVec 13
  jc1 : BitVec 13
  act0 : Bool
  act1 : Bool
  /-- The untimed queue, at most 16 units, each with how often its CRC has failed so far, zero once it is good; packets of the own hub to send, and units of the first one sent; the packet that is being
  passed on from the queue of another port, with how many of its units are left; the credit buffer: units sent and not yet credited,
  and those to send again; credits held (R34, R376). -/
  untimed : List (UntimedUnit × Nat)
  out : List Packet
  sent : Nat
  pass : Option (Nat × Nat × Packet)
  buf : List UntimedUnit
  again : List UntimedUnit
  credits : Nat
  /-- Timed units received in this period (R34). -/
  arrived : List (List Byte)
  /-- First Meridian tick after the open `inj` window; the last period in which a timed unit left (R38). -/
  injEnd : Nat
  used : Option Nat
  /-- PORTSTAT (R432); FAILED with the period of the failure. -/
  corr : BitVec 32
  lost : BitVec 16
  failed : Option Nat
  slip : Bool
  lockLoss : Bool
  up : Bool
  /-- Discarding timed units after a slip, and whether one has been recorded; periods of 2^20 ticks of the slips recorded (R433). -/
  discard : Option Bool
  slips : List Nat
deriving DecidableEq, Repr

/-- One unit of an entry that an LE has started (R38, R39). -/
inductive UnitWork
  | depart (port : Nat) (data : List Byte)
  | forward (inp out : Nat)
  | take (port slot unit : Nat)
  | land (port slot unit : Nat) (data : List Byte)
deriving DecidableEq, Repr

/-- A staging slot (R35, R36): its bytes, lines and units landed with their ticks, and the conjunction in progress. -/
structure Slot where
  data : Sparse Byte
  /-- Line number (0 to 63) and period of each landing. -/
  landed : List (Nat × Nat)
  /-- Lines that fills have announced, each with the period in which it is to land. -/
  full : List (Nat × Nat)
  /-- First and last period of the read-out; zero before it. -/
  busyFrom : Nat
  busyTo : Nat
  /-- The core whose `send` fills it (R63). -/
  sender : Option Nat
deriving DecidableEq, Repr

/-- The Meridian unit (R24 to R28, R435 to R437). -/
structure Mu where
  /-- Integer part and 16-bit fraction (R24). -/
  count : BitVec 80
  running : Bool
  st : BitVec 2
  root : Bool
  parent : BitVec 4
  alt : BitVec 4
  asym : List Int
  pending : Option Int
  /-- The running slew: its value and periods applied (R28). -/
  slew : Option (Int × Nat)
  /-- Whole guard intervals in a row without a completed exchange, and whether one has completed since the last of them began (R435). -/
  missed : Nat
  met : Bool
  /-- Re-acquisition below the local count: units by which the parent's count still lags behind it (R437). -/
  hold : Nat
  /-- Delays measured in the exchanges since it began to acquire, or in the last one (R25, R27). -/
  delays : List Int
  /-- The root's logical package, and whether this one succeeds it (R436). -/
  rootPkg : Nat
  successor : Bool
deriving DecidableEq, Repr

/-! ### Errors -/

/-- An error record (R386), PHASE left to the writer. -/
structure ErrRec where
  cls : Nat
  code : Byte
  array : Byte
  count : Nat
  tick : DWord
  place : DWord
  launch : DWord
  addr : DWord
  synd : DWord
  info0 : DWord
  info1 : DWord
deriving DecidableEq, Repr

/-- Folding of CORRECTED events of one array and unit: period of the last record, events since it was written (R388). -/
structure Fold where
  array : Nat
  unit : Nat
  period : Nat
  pending : Nat
deriving DecidableEq, Repr

/-- The error collector (R387, R388). -/
structure Collector where
  base : DWord
  cfg : DWord
  head : BitVec 32
  tail : BitVec 32
  lost : BitVec 32
  held : List ErrRec
  /-- Records that units keep because the buffer is full of others. -/
  waiting : List ErrRec
  folds : List Fold
deriving DecidableEq, Repr

/-! ### Schedules, hosts, security -/

/-- A station record (R49). -/
structure Station where
  off : Nat
  len : Nat
  live : List (Nat × Nat × Nat)
  sync : List Nat
deriving DecidableEq, Repr

/-- The schedule a timed launch ties this package to (R48 to R51, R424, R439). -/
structure Sched where
  id : Nat
  rootPkg : Nat
  nsets : Nat
  pkgMap : List Byte
  base : DWord
  set : Nat
  stations : List Station
  yields : List Nat
  slotMaps : Sparse (List Byte)
  /-- Last station whose window has ended here; checkpoint area in use; window end while one runs. -/
  station : Option Nat
  area : Bool
  window : Option Nat
  /-- The notice VOID has gone from here; it has been received (R424). -/
  void : Bool
  voided : Bool
  /-- Station, class and CODE of the void behind each rollback that the root has decided (R439). -/
  rolled : List (Nat × Nat × Nat)
deriving DecidableEq, Repr

/-- A checkpoint area, whose layout the spec leaves to the device (R44; log 15): the station, the live ranges and the
accumulators by launch-relative index, the GE contexts written to their SSRs with the local address of each. -/
structure Ckpt where
  station : Nat
  live : List (Nat × Nat × List Byte)
  acc : List (Nat × Sparse (BitVec 136) × Sparse ColSide)
  ges : List (Nat × Nat)
deriving DecidableEq, Repr

/-- The undo journal (R45, R440): what its area holds, in records of 128 bytes, newest first; the spec gives the area no address
(log 15). -/
structure Journal where
  on : Bool
  recs : List (List Byte)
  full : Bool
  /-- Granules, by address, whose old bytes no code could correct; they stand in their records with the poison pattern (R372, R373). -/
  bad : List Nat
deriving DecidableEq, Repr

/-- An extent of the pod's memory (R335, R447). -/
structure Extent where
  ctl : DWord
  base : DWord
  share : DWord
  version : DWord
deriving DecidableEq, Repr

/-- An aperture request that the host port has admitted (R329, R446): its extent, or the local address of its window; the next
byte, bytes still to read or to write, what has been read, and whether it met an uncorrectable granule; of the line in progress
(R336): whether another member of the ring has been asked, the members still to ask, and what has come so far: the exclusive or of what they
hold, or what the data block has changed by. -/
structure AperReq where
  id : Nat
  ext : Option Nat
  write : Bool
  x : Nat
  left : Nat
  data : List Byte
  got : List Byte
  bad : Bool
  asked : Bool
  todo : List Nat
  acc : Option (List Byte)
deriving DecidableEq, Repr

/-- A voltage and frequency island (R21, R210, R341): its point and its pending request. -/
structure Island where
  point : BitVec 2
  pending : Option (BitVec 2)
deriving DecidableEq, Repr

/-- What the MC sends over the time tree: LOCKED (R25); a bind with its SCHED_ID and PKGMAP (R51); the refusal of a launch (R425); the notice
VOID, the report of a freeze, and the root's decision: a STATUS, or the set, station and tick of a rollback (R424, R439, R441). -/
inductive TreeNotice
  | locked (pkg : Nat)
  | bound (root pkg sched : Nat) (map : List Byte)
  | refused (sched launch : Nat) (status : Byte)
  | void (sched cls code : Nat) (tick : DWord)
  | frozen (sched pkg : Nat)
  | ended (sched : Nat) (status : Nat)
  | rollback (sched set k t : Nat)
deriving DecidableEq, Repr

/-- What leaves the package: units put on a wire, interrupts, notices, and host answers. -/
inductive Output
  | unit (port : Nat) (data : List Byte)
  | untimed (port : Nat) (u : UntimedUnit)
  | credit (port : Nat)
  | stamp (port : Nat) (count : Nat)
  | up (port : Nat) (n : TreeNotice)
  | down (n : TreeNotice)
  | notice (pkg core cmd : Nat) (k : NoticeKind)
  | syncReply (r : SyncReq) (ans : SyncAns)
  | msix (vec : Nat)
  | mcIrq
  | leStop (port : Nat) (tick : DWord)
  | schedMark (code : BitVec 16) (tick : DWord) (port : Nat)
  | readData (data : List Byte) (poisoned : Bool)
  | abort
  | done
  | pageFault (core : Nat) (stream : StreamId) (va : Nat)
  | cancelRequest (pkg : Nat) (v : DWord)
  | publish (ext version host : Nat)
  | hostRing (addr : Nat) (data : List DWord)
  | walkMiss (core : Nat) (stream : StreamId)
  | shootdownDone
  | leaseRenewed (host : Nat) (tick : Nat)
  | published (ext version host result : Nat)
  | pubResult (ext version host result : Nat)
deriving DecidableEq, Repr

/-- Boot, identity and attestation (R342 to R346). -/
structure Security where
  stage : BitVec 4
  fail : BitVec 4
  meas : List (List Byte)
  nonce : List Byte
  /-- NONCE as it stood at GO; the number of this start, which its LMS key pair depends on (R344). -/
  asked : List Byte
  boot : Nat
  attBusy : Bool
  attDone : Bool
  attErr : Bool
  leaf : Nat
  report : List Byte
deriving DecidableEq, Repr

/-- What a removal of mappings has gathered: companion words, by local address and number, of each line; the dies whose AC bits were set;
and the pages of kind SYNC, by PPA and length (R99, R429). -/
structure Shot where
  companions : List (Nat × Nat)
  dies : BitVec 4
  syncs : List (Nat × Nat)
deriving DecidableEq, Repr

/-- Work that the machine plans for itself: the device's own events among the rows of the opcode table, kept under
names of their own. -/
inductive Work
  | maStart (core : Nat)
  | maGroupAddition (core id g : Nat)
  | drainStart (core : Nat)
  | drainChunkRead (core id q : Nat)
  | drainChunkWrite (core id q : Nat) (els : List DrainElem)
  | syncOperationPerform (r : SyncReq)
  | syncReply (r : SyncReq) (ans : SyncAns)
  | digestComplete (core : Nat)
  | geCommandStart (id : Nat)
  | geReply (id : Nat)
  | ceCommandStart (core : Nat)
  | ceEvent (core id k : Nat) (ph : CePhase)
  | remoteLineSample (core id k x n : Nat)
  | ceCommandRetire (core id : Nat)
  | flagIncrement (core id : Nat)
  | resultFifoEntry (core : Nat) (stream : StreamId) (id : Nat) (value : DWord) (undo : Option (Nat × Nat))
  | followOnHandoff (core id : Nat)
  | tileEntry (core id : Nat)
  | untimedPacketForward (p : Packet)
  | untimedPacketDelivery (p : Packet)
  | deliveryNotice (core id : Nat) (k : NoticeKind)
  | routeTimeout (core id : Nat)
  | commandFaultTrap (core : Nat) (stream : StreamId)
  | cefctlAbandon (core : Nat) (stream : StreamId) (seq : BitVec 8)
  | cefctlRetranslate (core : Nat) (stream : StreamId) (seq : BitVec 8)
  | cefctlResume (core : Nat) (stream : StreamId) (seq : BitVec 8)
  | ceRetranslationComplete (core id : Nat)
  | trapctlFreeze (core : Nat) (stream : StreamId)
  | missFill (core : Nat) (stream : StreamId) (ans : FillAnswer)
  | unmap (ctx : Byte) (lo hi : Nat) (psz : BitVec 2) (entry : DWord) (at_ : Nat) (shot : Shot)
  | shootdownDelivery (ctx : Byte) (lo hi : Nat) (psz : BitVec 2) (shot : Shot)
  | shootdownComplete (companions : List (Nat × Nat)) (dies : BitVec 4) (before : Nat)
  | launchCheck (q : Nat)
  | defaultPolicyEvaluation
  | agingPromotion (launch : Nat)
  | bind (launch : Nat)
  | launchStart (launch : Nat)
  | launchRetirement (launch : Nat)
  | completionRecordWrite (q : Nat)
  | feedEntryDelivery (q : Nat)
  | contextSave (launch : Nat)
  | contextRestore (launch x0 y0 moved : Nat)
  | preemptionTimeout (launch : Nat)
  | guardIntervalStart
  | slewEnd
  | exchangeTimeout
  | checkpointStation (launch k : Nat)
  | ckptWindowEnd (launch k : Nat)
  | journalDiscard
  | rollback (launch set k t : Nat)
  | leaseExpiry (host : Nat)
  | forcedCompletion (id : Nat)
  | extentRelease (ext : Nat)
  | gectlCancelWrite (n : Nat) (ctx : Byte)
  | attestationReportDone
  | hbmRefresh
  | patrolScrub
  | budgetRefill
  | errorRecordWrite
  | smpctlWrite (core : Nat) (v : DWord)
  | smpbufWrite (core : Nat) (v : DWord)
  | smpptrRdWrite (core : Nat) (v : DWord)
  /-- The entry of a `cpyt` into the order at its tile; a tick of the vector memory port; the memory access of a scalar load or store; the write of a sampling record; the table that a `vtiload` replaces; BIAS and SCALE of an `epcfg`; a shape record; a
  unit of an LE's entry; a line that a GE command reads or writes; a relabelling that waits for schedules to stop; a line of an aperture request,
  of a rebuild and of a release; the edit of a `sobind`; a schedule error at its tick: parts of instructions that are no rows of their own. -/
  | portStep (core id : Nat) (items : List PortItem) (last : Bool)
  | scalarAccess (core : Nat) (stream : StreamId)
  | sampleRecordWrite (core : Nat)
  | tieTable (core k : Nat) (t : TieTable)
  | shapeRecord (core addr : Nat) (bs : List Byte)
  | epilogueData (core : Nat) (bias scale : Sparse Word)
  | unit (u : UnitWork)
  | geLine (id j : Nat)
  | geWrite (id : Nat)
  | geEffect (id : Nat)
  | relabel (pkg : Nat)
  | aperture (id : Nat)
  | rebuild (addr : Nat) (bs : List Byte)
  | scrubCores (cs : List Nat)
  | scrubArrays
  | extentZero (ext line : Nat)
  | syncBind (core : Nat) (stream : StreamId) (gw : G) (id start len obj : Nat)
  /-- Lines that the MC or the hub reads or writes before it does `w`, one in a tick: class, local address and length of each (R338, R339;
  log 48). -/
  | lines (wr : Bool) (left : List (Nat × Nat × Nat)) (rank : Nat) (w : Work)
  | scheduleError (core : Nat) (stream : Option StreamId) (unit cause : Nat) (i0 i1 : DWord) (addr : Option Nat) (pc : DWord)
deriving DecidableEq, Repr

/-- Where a launch stands (R57 to R63, R79 to R85, R385, R424). -/
inductive Phase
  | waiting | binding | running | preempting | saved | retired | refused (status : Byte)
deriving DecidableEq, Repr

/-- A launch: the fields of its record (R56) and its life. -/
structure Launch where
  q : Nat
  seq : Nat
  preds : List (Nat × Nat)
  image : Nat
  feedQ : Nat
  wrn : Nat
  ctx : Byte
  prio : Nat
  keep : Bool
  resident : Bool
  timed : Bool
  w : Nat
  h : Nat
  fw : Nat
  fh : Nat
  x0 : Nat
  y0 : Nat
  base : DWord
  wrl : Nat
  save : Nat
  live : Nat
  args : List DWord
  phase : Phase
  /-- Meridian tick at which it became waiting, and its effective class (R64). -/
  since : Nat
  eff : Nat
  /-- PPA ranges of its write list, translated at bind: start, length (R58). -/
  ranges : List (Nat × Nat)
  /-- Live ranges: scratchpad offset, length (R56). -/
  liveRanges : List (Nat × Nat)
  /-- Meridian tick of a pre-emption request (R421). -/
  reqTick : Option Nat
  /-- Cores of a saved launch, kept by launch-relative index: what the control block holds has no byte layout in the
  spec (R84; log 15). -/
  savedCores : List (Nat × Core)
  savedFrets : List (Nat × Fret)
  /-- Results and follow-ons that wait for a place (R284, R275). -/
  savedWork : List (Nat × Work)
  /-- Entry points, start arguments and base of the bind in force, and whether the cores have been loaded before the start tick (R60, R62,
  R441); the pinned pages of the save area: offset, local address, length (R84). -/
  entries : List Nat
  regs : List DWord
  startBase : DWord
  loaded : Bool
  saveMap : List (Nat × Nat × Nat)
  /-- SVSTAT.COMPLETE, DAMAGED and LOGFULL (R416). -/
  svComplete : Bool
  svDamaged : Bool
  svLogFull : Bool
deriving DecidableEq, Repr

/-- Who the current step runs for: a stream of a core, or the link engine of a port. -/
inductive Cursor
  | stream (core : Nat) (s : StreamId)
  | le (port : Nat)
  | hub
deriving DecidableEq, Repr

/-- The package. -/
structure State where
  /-- Clock periods since power-on: the model's own counter (log 6). -/
  now : Nat
  /-- Meridian tick of the period before: the model's own field (R351). -/
  before : Nat
  /-- What the outside world and the MC do next, oldest first (log 1). -/
  inputs : List Instr
  /-- Engine work by the period in which it is due and its rank in that period: the model's own field (log 6). -/
  agenda : List (Nat × Nat × Work)
  /-- Work by the Meridian tick at which it is due, with its rank: the model's own field (log 6). -/
  alarms : List (Nat × Nat × Work)
  cur : Cursor
  /-- Serial number for entries of engines: the model's own field. -/
  serial : Nat
  /-- Counter that free values are applied to: the model's own field (log 8). -/
  freeCtr : Nat
  mem : Memory
  /-- Damaged granules of memory by number, and of the hub's SECDED arrays by `softKey` (R371). -/
  dmg : Sparse Damage
  soft : Sparse Damage
  cores : List (Nat × Core)
  frets : Sparse Fret
  /-- Supervisor block, by word number (R159, R377); unlisted is zero. -/
  sup : Sparse Word
  launches : Sparse Launch
  queues : Sparse Hwq
  ctxs : Sparse CtxRec
  slices : Sparse (Sparse SliceEnt)
  waiters : Sparse (List Waiter)
  ge : Sparse GeCtx
  /-- Period from which each walker is free (R312). -/
  walkers : Sparse Nat
  geCmds : List GeCmd
  les : Sparse Le
  slots : Sparse Slot
  mu : Mu
  col : Collector
  /-- Schedules of the timed launches, by the launch (R51); the package's almanac (R41). -/
  scheds : Sparse Sched
  almanac : List Word
  /-- Checkpoint areas A and B of a launch's schedule, at 2 x launch and 2 x launch + 1. -/
  ckpts : Sparse Ckpt
  journal : Journal
  routes : Sparse DWord
  relabel : Sparse (BitVec 16)
  extents : Sparse Extent
  /-- Extents whose share here is being rebuilt, with the blocks that have been (R336). -/
  rebuilt : Sparse (List Nat)
  /-- Logical packages that are lost and that no spare has replaced (R442). -/
  lost : List Nat
  leaseTicks : Nat
  leases : Sparse Nat
  apReqs : List AperReq
  apwin : DWord
  pubstat : BitVec 2
  /-- Publications applied here, the ring's deciding member, that have not yet reached every member: extent, version, host (R447). -/
  pubWait : List (Nat × Nat × Nat)
  /-- The logical package; the index of its W ring, and its physical member there (R43, R46). -/
  pkg : Nat
  ring : Nat
  member : Nat
  budgets : Sparse DWord
  /-- Units of each class left in this period, by 1,024 x class + port; the period in which a class last took a slot of each port, plus
  one (R339). -/
  spent : Sparse Nat
  slotTaken : Sparse Nat
  islands : Sparse Island
  phrej : DWord
  sec : Security
  /-- HBM lines written in this period, by number, with their bytes before it (R107, R108). -/
  hbmWrites : Sparse (List Byte)
  /-- Line that the patrol scrubber of each HBM stack and core takes next (R374). -/
  scrub : Sparse Nat
  stoppedPkg : Bool
  out : List Output
deriving DecidableEq, Repr

/-! ### Reset -/

/-- An empty FIFO or queue (R62). -/
def Chan.empty : Chan := ⟨[], [], 0, 0⟩

/-- An inactive loop counter (R62). -/
def LoopRec.off : LoopRec := ⟨0, 0, 0, false, false⟩

/-- A stream with nothing bound: halted, every register zero (R62; log 5). -/
def Stream.idle : Stream where
  pc := 0
  g := []
  l0 := .off
  l1 := .off
  l2 := .off
  order := []
  halted := true
  hasCode := false
  round := 0
  srctr := 0
  trapPc := 0
  trapCause := 0
  trapInfo0 := 0
  trapInfo1 := 0
  scr0 := 0
  scr1 := 0
  nest := false
  notBefore := 0
  hold := none
  holdTok := 0
  faults := []
  busy := []
  await := []
  retireAt := 0
  tried := false
  cls := .halted
  clsPc := 0
  point := false
  stopped := false
  tokPred := .empty
  tokSucc := .empty
  qPred := .empty
  qSucc := .empty

/-- Sampling registers at zero (R350). -/
def Sampler.off : Sampler := ⟨0, 0, 0, 0, 0, 0, 0, []⟩

/-- A core with nothing bound, every register at its reset value (R62, R241, R257; log 5). -/
def Core.idle : Core where
  c := .idle
  a := .idle
  e := .idle
  w := .idle
  ptr := .c
  grantE := false
  grantS := false
  istore := []
  h := []
  pendH := []
  v := []
  p := []
  vrb := 0
  prb := 0
  tie := []
  rotary := []
  tdesc := []
  tiles := []
  xa := []
  side := []
  maQueue := []
  maRun := []
  maFree := 0
  epcfg := 0
  epidx := 0
  dstat := 0
  bias := []
  scale := []
  heaps := []
  heapLeft := []
  drains := []
  epOld := (0, 0)
  epPend := []
  epReady := 0
  deuFree := 0
  colEff := []
  tileEff := []
  vmPort := 0
  port := none
  vmRetry := []
  ce := []
  rfA := []
  rfW := []
  numstat := 0
  dg := []
  dgRun := none
  smp := .off
  ctr := []
  ctrNew := []
  pendW := []
  launchId := 0
  ctx := 0
  resident := false
  timed := false
  lgeom := 0
  schedbase := 0
  owner := none
  running := false
  fret := 0
  lastCtx := none
  geLast := 0
  bankUse := []
  spadWr := []
  parity := []
  soft := []

/-- A fret with nothing frozen and empty mailboxes (R62). -/
def Fret.idle : Fret := ⟨false, 0, 0, 0, [], none⟩

/-- A queue at reset (R330, R331). -/
def Hwq.idle : Hwq := ⟨0, 0, 0, 0, 0, 0, none, [], 0, [], [], 0, []⟩

/-- A context record at reset (log 5). -/
def CtxRec.idle : CtxRec := ⟨0, 0, 0, 0, 0, 0, false, [], []⟩

/-- The configuration of a released GE context. -/
def GeConf.zero : GeConf := ⟨0, [], false, 0⟩

/-- A released GE context (R308). -/
def GeCtx.idle : GeCtx := ⟨false, false, 0, 0, 0, 0, .zero, .zero, [], none, false⟩

/-- A link engine and port at reset (R32, R37, R39, R432; log 5). -/
def Le.idle : Le where
  mem := []
  base := 0
  d := 0
  idx := 0
  on := false
  stopped := false
  owner := none
  jc0 := 0
  jc1 := 0
  act0 := false
  act1 := false
  untimed := []
  out := []
  sent := 0
  pass := none
  buf := []
  again := []
  credits := 16
  arrived := []
  injEnd := 0
  used := none
  corr := 0
  lost := 0
  failed := none
  slip := false
  lockLoss := false
  up := false
  discard := none
  slips := []

/-- An empty staging slot (R36). -/
def Slot.free : Slot := ⟨[], [], [], 0, 0, none⟩

/-- The Meridian unit after reset: count zero, not advancing, UNSET (R25, R26; log 5). -/
def Mu.idle : Mu := ⟨0, false, 0, false, 0, 0, [], none, none, 0, false, 0, [], 0, false⟩

/-- The collector before its configuration (R387, R388). -/
def Collector.idle : Collector := ⟨0, 0, 0, 0, 0, [], [], []⟩

/-- No journal open (R45). -/
def Journal.idle : Journal := ⟨false, [], false, []⟩

/-- Before the first boot stage (R342, R343): MEAS0 to MEAS7 zero. -/
def Security.idle : Security where
  stage := 0
  fail := 0
  meas := List.replicate 8 (List.replicate 48 0)
  nonce := List.replicate 32 0
  asked := []
  boot := 0
  attBusy := false
  attDone := false
  attErr := false
  leaf := 0
  report := []

/-- The package right after power-on reset: nothing booted, nothing bound, memory with nothing listed. -/
def State.reset : State where
  now := 0
  before := 0
  inputs := []
  agenda := []
  alarms := []
  cur := .hub
  serial := 0
  freeCtr := 0
  mem := []
  dmg := []
  soft := []
  cores := []
  frets := []
  sup := []
  launches := []
  queues := []
  ctxs := []
  slices := []
  waiters := []
  ge := []
  walkers := []
  geCmds := []
  les := []
  slots := []
  mu := .idle
  col := .idle
  scheds := []
  almanac := []
  ckpts := []
  journal := .idle
  routes := []
  relabel := []
  extents := []
  rebuilt := []
  lost := []
  leaseTicks := 0
  leases := []
  apReqs := []
  apwin := 0
  pubstat := 0
  pubWait := []
  pkg := 0
  ring := 0
  member := 1
  budgets := []
  spent := []
  slotTaken := []
  islands := []
  phrej := 0
  sec := .idle
  hbmWrites := []
  scrub := []
  stoppedPkg := false
  out := []

end Sys2Proof.Machine
end

