-- ==== Sys2Proof/Machine/Mem.lean ====
section
/-! DEFINITION. Finite maps, memory by local address, physical addresses, and access to cores and streams. -/

namespace Sys2Proof.Machine

/-! ### Finite maps -/

/-- What key `k` reads as, `d` where it is not listed. -/
def Sparse.get (d : α) : Sparse α → Nat → α
  | [], _ => d
  | (k', v) :: r, k => if k' = k then v else Sparse.get d r k

/-- The listed entry of key `k`. -/
def Sparse.get? : Sparse α → Nat → Option α
  | [], _ => none
  | (k', v) :: r, k => if k' = k then some v else Sparse.get? r k

/-- List `v` under `k`, keys rising. -/
def Sparse.insert : Sparse α → Nat → α → Sparse α
  | [], k, v => [(k, v)]
  | (k', v') :: r, k, v =>
    if k < k' then (k, v) :: (k', v') :: r
    else if k = k' then (k, v) :: r
    else (k', v') :: Sparse.insert r k v

/-- Unlist key `k`. -/
def Sparse.erase : Sparse α → Nat → Sparse α
  | [], _ => []
  | (k', v') :: r, k => if k' = k then Sparse.erase r k else (k', v') :: Sparse.erase r k

/-- Write `v` under `k`; a value equal to what an unlisted key reads as is not listed. -/
def Sparse.set [DecidableEq α] (d : α) (m : Sparse α) (k : Nat) (v : α) : Sparse α :=
  if v = d then Sparse.erase m k else Sparse.insert m k v

/-- Write each element of `vs` from key `k` on. -/
def Sparse.setAll [DecidableEq α] (d : α) (m : Sparse α) (k : Nat) : List α → Sparse α
  | [] => m
  | v :: vs => Sparse.setAll d (Sparse.set d m k v) (k + 1) vs

/-- Drop every entry with a key from `lo` to below `hi`. -/
def Sparse.clear (m : Sparse α) (lo hi : Nat) : Sparse α := m.filter fun e => !(lo ≤ e.1 && e.1 < hi)

/-- The `n` values from key `k` on. -/
def Sparse.getAll (d : α) (m : Sparse α) (k n : Nat) : List α :=
  (List.range n).map fun i => Sparse.get d m (k + i)

/-! ### Bytes and words -/

/-- The natural number of little-endian bytes (R2). -/
def leNat : List Byte → Nat
  | [] => 0
  | b :: r => b.toNat + 256 * leNat r

/-- The `n` little-endian bytes of a natural number (R2). -/
def leBytes : Nat → Nat → List Byte
  | 0, _ => []
  | n + 1, v => BitVec.ofNat 8 v :: leBytes n (v / 256)

/-- Two's-complement reading of the low `w` bits of `v`. -/
def sext (v w : Nat) : Int :=
  let u := v % 2 ^ w
  if w = 0 then 0 else if u ≥ 2 ^ (w - 1) then (u : Int) - 2 ^ w else u

/-- The low `w` bits of an integer. -/
def wrap (v : Int) (w : Nat) : Nat := (v % (2 ^ w : Nat)).toNat

/-- Eight bytes a word (R104). -/
def dwords : Nat → List Byte → List DWord
  | 0, _ => []
  | n + 1, bs => dw (leNat (bs.take 8)) :: dwords n (bs.drop 8)

/-- Split into pieces of `n` bytes. -/
def chunks : Nat → Nat → List α → List (List α)
  | 0, _, _ => []
  | fuel + 1, n, l => if l.isEmpty then [] else l.take n :: chunks fuel n (l.drop n)

/-! ### Memory -/

/-- A memory in canonical form: addresses strictly rising, no zero listed. -/
def Memory.wf : Memory → Bool
  | [] => true
  | [(_, b)] => b ≠ 0
  | (a, b) :: (a', b') :: r => b ≠ 0 && a < a' && Memory.wf ((a', b') :: r)

/-- One byte of memory (R88; log 3). -/
def Memory.get (m : Memory) (a : Nat) : Byte := Sparse.get 0 m a

/-- Write one byte. -/
def Memory.set (m : Memory) (a : Nat) (b : Byte) : Memory := Sparse.set 0 m a b

/-- The `n` bytes from `a` on. -/
def Memory.read (m : Memory) (a n : Nat) : List Byte := (List.range n).map fun i => m.get (a + i)

/-- Write bytes from `a` on. -/
def Memory.write : Memory → Nat → List Byte → Memory
  | m, _, [] => m
  | m, a, b :: bs => Memory.write (m.set a b) (a + 1) bs

/-! ### Addresses (R43) -/

/-- First local address past HBM. -/
def hbmTop : Nat := 2 ^ 39
/-- Scratchpad of core 0. -/
def spadBase : Nat := 0x010000000000
/-- Bytes of a scratchpad: 3 MiB. -/
def spadSize : Nat := 0x300000
/-- Local address of a core's scratchpad. -/
def spadOf (core : Nat) : Nat := spadBase + core * 0x400000
/-- The hub registers. -/
def hubBase : Nat := 0x03F000000000
def hubTop : Nat := 0x040000000000

/-- Local part and package part of a PPA (R43). -/
def ppaLocal (p : Nat) : Nat := p % 2 ^ 48
def ppaPkg (p : Nat) : Nat := p / 2 ^ 48

/-- The PPA of a local address of package `k`. -/
def mkPpa (k l : Nat) : Nat := k * 2 ^ 48 + l

/-- What lies at a local address. -/
inductive Place
  | hbm
  | spad (core off : Nat)
  | hub
  | none
deriving DecidableEq, Repr

/-- The local map of R43. -/
def place (l : Nat) : Place :=
  if l < hbmTop then .hbm
  else if spadBase ≤ l ∧ l < spadBase + 480 * 0x400000 then
    let c := (l - spadBase) / 0x400000
    let o := (l - spadBase) % 0x400000
    if o < spadSize then .spad c o else .none
  else if hubBase ≤ l ∧ l < hubTop then .hub
  else .none

/-- First byte of `[l, l+n)` that the map leaves out, or that a range starting in one piece of the map does not reach
without leaving it (R403 H_UNMAPPED). -/
def unmappedAt (l n : Nat) : Option Nat :=
  match place l with
  | .none => some 0
  | .hbm => if l + n ≤ hbmTop then none else some (hbmTop - l)
  | .spad _ o => if o + n ≤ spadSize then none else some (spadSize - o)
  | .hub => if l + n ≤ hubTop then none else some (hubTop - l)

/-! ### Cores and streams -/

/-- A core; one that nothing has touched is idle. -/
def State.core (s : State) (c : Nat) : Core := Sparse.get .idle s.cores c
def State.setCore (s : State) (c : Nat) (k : Core) : State := { s with cores := Sparse.insert s.cores c k }
def State.modCore (s : State) (c : Nat) (f : Core → Core) : State := s.setCore c (f (s.core c))

def Core.str (k : Core) : StreamId → Stream
  | .c => k.c
  | .a => k.a
  | .e => k.e
  | .w => k.w
def Core.setStr (k : Core) (i : StreamId) (x : Stream) : Core :=
  match i with
  | .c => { k with c := x }
  | .a => { k with a := x }
  | .e => { k with e := x }
  | .w => { k with w := x }
def Core.modStr (k : Core) (i : StreamId) (f : Stream → Stream) : Core := k.setStr i (f (k.str i))

def State.str (s : State) (c : Nat) (i : StreamId) : Stream := (s.core c).str i
def State.modStr (s : State) (c : Nat) (i : StreamId) (f : Stream → Stream) : State := s.modCore c (·.modStr i f)

/-- Order of streams, and the STREAM field of LCTL (R5, R55). -/
def streamNum : StreamId → Nat
  | .c => 0
  | .a => 1
  | .e => 2
  | .w => 3
def streamOfNum (n : Nat) : StreamId :=
  match n % 4 with
  | 0 => .c
  | 1 => .a
  | 2 => .e
  | _ => .w
/-- The ring C, A, E, W (R65). -/
def streamSucc : StreamId → StreamId
  | .c => .a
  | .a => .e
  | .e => .w
  | .w => .c
def streamPred : StreamId → StreamId
  | .c => .w
  | .a => .c
  | .e => .a
  | .w => .e
def allStreams : List StreamId := [.c, .a, .e, .w]

/-- Core and stream of the current step; core 0, C, when the step runs for neither. -/
def State.at (s : State) : Nat × StreamId :=
  match s.cur with
  | .stream c i => (c, i)
  | _ => (0, .c)

/-- The stream that the current step runs for. -/
def State.me (s : State) : Stream := s.str s.at.1 s.at.2
/-- Its core. -/
def State.myCore (s : State) : Core := s.core s.at.1
def State.modMe (s : State) (f : Stream → Stream) : State := s.modStr s.at.1 s.at.2 f
def State.modMyCore (s : State) (f : Core → Core) : State := s.modCore s.at.1 f

/-- The Meridian tick: the integer part of the count (R24). -/
def State.tick (s : State) : Nat := s.mu.count.toNat / 2 ^ 16

/-- The fret of a core, by the number of its first core. -/
def State.fretOf (s : State) (c : Nat) : Fret := Sparse.get .idle s.frets (s.core c).fret
def State.modFret (s : State) (first : Nat) (f : Fret → Fret) : State :=
  { s with frets := Sparse.insert s.frets first (f (Sparse.get .idle s.frets first)) }

/-- Engine work in order of period, then rank; work of one period and rank in the order it was planned. -/
def agendaInsert (e : Nat × Nat × Work) : List (Nat × Nat × Work) → List (Nat × Nat × Work)
  | [] => [e]
  | x :: r => if e.1 < x.1 || (e.1 = x.1 && e.2.1 < x.2.1) then e :: x :: r else x :: agendaInsert e r

/-- Plan engine work for period `due`. -/
def State.plan (s : State) (due rank : Nat) (i : Work) : State :=
  { s with agenda := agendaInsert (due, rank, i) s.agenda }

/-- Plan work for the first period whose Meridian tick is `t` or later. -/
def State.planTick (s : State) (t rank : Nat) (w : Work) : State :=
  if t ≤ s.tick then s.plan s.now rank w else { s with alarms := s.alarms ++ [(t, rank, w)] }

/-- The work whose Meridian tick has come is due now. -/
def State.alarmsDue (s : State) : State :=
  (s.alarms.filter (·.1 ≤ s.tick)).foldl (fun s e => s.plan s.now e.2.1 e.2.2) { s with alarms := s.alarms.filter fun e => s.tick < e.1 }

/-- `plan`, unless that work is planned for that period already. -/
def State.planOnce (s : State) (due rank : Nat) (i : Work) : State :=
  if s.agenda.any fun e => e.1 = due && e.2.2 = i then s else s.plan due rank i

/-- Put something on the package's outputs. -/
def State.emit (s : State) (o : Output) : State := { s with out := s.out ++ [o] }

/-- A fresh serial number. -/
def State.fresh (s : State) : Nat × State := (s.serial, { s with serial := s.serial + 1 })

/-- Add to an event counter of a core; a read sees it from the next tick on (R355). -/
def Core.count (k : Core) (n : Nat) (d : Nat := 1) : Core :=
  { k with ctrNew := Sparse.set 0 k.ctrNew n (Sparse.get 0 k.ctrNew n + d) }

/-- The end of a tick: its events join the counters (R355). -/
def Core.countEnd (k : Core) : Core :=
  { k with ctr := k.ctrNew.foldl (fun c e => Sparse.set 0 c e.1 ((Sparse.get 0 c e.1 + e.2) % 2 ^ 64)) k.ctr, ctrNew := [] }

end Sys2Proof.Machine
end

