-- ==== Sys2Proof/Machine/Num.lean ====
section
/-! DEFINITION. Number formats, exact values, rounding and conversion (spec 07 R140 to R147; 10 R222), and the
counter-based generator (06 R135, R136). -/

namespace Sys2Proof.Machine

/-! ### Exact values -/

/-- An exact finite value, (-1)^neg x num / den with den > 0; zero is signed. -/
structure Ex where
  neg : Bool
  num : Nat
  den : Nat
deriving DecidableEq, Repr

/-- What a floating-point pattern stands for. -/
inductive FVal
  | nan
  | inf (neg : Bool)
  | fin (x : Ex)
deriving DecidableEq, Repr

/-- x times 2^k. -/
def Ex.scale (x : Ex) (k : Int) : Ex :=
  if k ≥ 0 then { x with num := x.num * 2 ^ k.toNat } else { x with den := x.den * 2 ^ (-k).toNat }

/-- An integer; zero is +0. -/
def Ex.ofInt (i : Int) : Ex := ⟨i < 0, i.natAbs, 1⟩

def Ex.isZero (x : Ex) : Bool := x.num = 0

/-- The signed numerator. -/
def Ex.snum (x : Ex) : Int := if x.neg then -(x.num : Int) else x.num

/-- Is x below y as a real number. -/
def Ex.lt (x y : Ex) : Bool := x.snum * y.den < y.snum * x.den
def Ex.eq (x y : Ex) : Bool := x.snum * y.den = y.snum * x.den

def Ex.flip (x : Ex) : Ex := { x with neg := !x.neg }
def Ex.abs (x : Ex) : Ex := { x with neg := false }

/-- Exact product; a zero carries the exclusive-or of the signs (R222). -/
def Ex.mul (x y : Ex) : Ex := ⟨x.neg != y.neg, x.num * y.num, x.den * y.den⟩

/-- Exact sum; a zero sum of two zeros of one sign keeps it, any other exact zero is +0, and −0 under RDN (R222). -/
def Ex.add (rm : Rm) (x y : Ex) : Ex :=
  let n := x.snum * y.den + y.snum * x.den
  if n = 0 then
    if x.num = 0 ∧ y.num = 0 ∧ x.neg = y.neg then ⟨x.neg, 0, 1⟩ else ⟨rm = .rdn, 0, 1⟩
  else ⟨n < 0, n.natAbs, x.den * y.den⟩

/-- Exact quotient of x by a non-zero y. -/
def Ex.quot (x y : Ex) : Ex := ⟨x.neg != y.neg, x.num * y.den, x.den * y.num⟩

/-- floor(log2 (num / den)) for num > 0. -/
def ilog2 (num den : Nat) : Int :=
  let e : Int := (Nat.log2 num : Int) - Nat.log2 den
  let x := (Ex.mk false num den).scale (-e)
  if x.num ≥ x.den then e else e - 1

/-- floor (sqrt n), by bisection on the bits of the root, highest first. -/
def isqrtGo (n : Nat) : Nat → Nat → Nat
  | 0, r => r
  | b + 1, r => let t := r + 2 ^ b; isqrtGo n b (if t * t ≤ n then t else r)
def isqrt (n : Nat) : Nat := isqrtGo n (Nat.log2 n / 2 + 1) 0

/-- A value between the same neighbours, and with the same first 64 fraction bits below every rounding point, as the
square root of a non-negative x: floor with a sticky bit. -/
def Ex.sqrt (x : Ex) : Ex :=
  if x.num = 0 then x
  else
    let e := ilog2 x.num x.den / 2
    let y := x.scale (2 * (160 - e))
    let n := y.num / y.den
    let r := isqrt n
    let exact := r * r = n && y.num % y.den = 0
    (Ex.mk x.neg (2 * r + (if exact then 0 else 1)) 1).scale (e - 161)

/-! ### Formats (R140) -/

structure Fmt where
  /-- Width, fraction bits, bias. -/
  w : Nat
  f : Nat
  bias : Nat
  /-- Patterns of the largest finite value and of the canonical NaN; pattern of +∞ where there is one. -/
  maxFin : Nat
  nan : Nat
  inf : Option Nat
deriving DecidableEq, Repr

def fmtFP32 : Fmt := ⟨32, 23, 127, 0x7F7FFFFF, 0x7FC00000, some 0x7F800000⟩
def fmtBF16 : Fmt := ⟨16, 7, 127, 0x7F7F, 0x7FC0, some 0x7F80⟩
def fmtFP16 : Fmt := ⟨16, 10, 15, 0x7BFF, 0x7E00, some 0x7C00⟩
def fmtE4M3 : Fmt := ⟨8, 3, 7, 0x7E, 0x7F, none⟩
def fmtE5M2 : Fmt := ⟨8, 2, 15, 0x7B, 0x7E, some 0x7C⟩

/-- The float format of a type (R169). -/
def tyFmt : Ty → Option Fmt
  | .fp32 => some fmtFP32
  | .bf16 => some fmtBF16
  | .fp16 => some fmtFP16
  | .e4m3 => some fmtE4M3
  | .e5m2 => some fmtE5M2
  | _ => none

/-- Element width in bits (R212). -/
def tyWidth : Ty → Nat
  | .fp32 => 32
  | .int32 => 32
  | .bf16 => 16
  | .fp16 => 16
  | .int16 => 16
  | .int4 => 4
  | _ => 8

/-- UINT8 alone is unsigned (R142). -/
def tySigned : Ty → Bool
  | .uint8 => false
  | _ => true

/-- Least and greatest value of an integer type (R142). -/
def tyMin (t : Ty) : Int := if tySigned t then -(2 ^ (tyWidth t - 1) : Nat) else 0
def tyMax (t : Ty) : Int := if tySigned t then (2 ^ (tyWidth t - 1) : Nat) - 1 else (2 ^ tyWidth t : Nat) - 1

/-- The integer that an element's bits stand for (R142). -/
def intOf (t : Ty) (v : Nat) : Int := if tySigned t then sext v (tyWidth t) else (v % 2 ^ tyWidth t : Nat)

/-- The value of a pattern (R140). -/
def Fmt.dec (m : Fmt) (v : Nat) : FVal :=
  let neg := v / 2 ^ (m.w - 1) % 2 = 1
  let mag := v % 2 ^ (m.w - 1)
  let e := mag / 2 ^ m.f
  let fr := mag % 2 ^ m.f
  let lim := m.inf.getD m.nan
  if m.inf = some mag then .inf neg
  else if mag ≥ lim then .nan
  else if e = 0 then .fin ((Ex.mk neg fr 1).scale (1 - (m.bias : Int) - m.f))
  else .fin ((Ex.mk neg (2 ^ m.f + fr) 1).scale ((e : Int) - m.bias - m.f))

/-- The pattern of a sign and a magnitude pattern. -/
def Fmt.sign (m : Fmt) (neg : Bool) (mag : Nat) : Nat := if neg then 2 ^ (m.w - 1) + mag else mag

/-- An infinite input, or an overflow, that goes to ±∞ where the format has one (R146). -/
def Fmt.toInf (m : Fmt) (neg : Bool) : Nat :=
  match m.inf with
  | some i => m.sign neg i
  | none => m.nan

/-- Conversion of an infinite input (R146). -/
def Fmt.infIn (m : Fmt) (sat : Bool) (neg : Bool) : Nat := if sat then m.sign neg m.maxFin else m.toInf neg

/-- Overflow of a rounded value (R146). -/
def Fmt.over (m : Fmt) (rm : Rm) (sat : Bool) (neg : Bool) : Nat :=
  if sat then m.sign neg m.maxFin
  else
    match rm with
    | .rtz => m.sign neg m.maxFin
    | .rup => if neg then m.sign neg m.maxFin else m.toInf neg
    | .rdn => if neg then m.toInf neg else m.sign neg m.maxFin
    | _ => m.toInf neg

/-! ### Rounding (R145) -/

/-- Whether the quotient q with remainder rem of den rounds up; r is the 32-bit draw of SR. -/
def roundsUp (rm : Rm) (neg : Bool) (q rem den r : Nat) : Bool :=
  match rm with
  | .rne => 2 * rem > den || (2 * rem = den && q % 2 = 1)
  | .rna => 2 * rem ≥ den
  | .rtz => false
  | .rup => rem > 0 && !neg
  | .rdn => rem > 0 && neg
  | .sr => rem * 2 ^ 32 / den + r ≥ 2 ^ 32
  | .dyn => false

/-- Round to a float format: the pattern, and whether the value overflowed (R145, R146). -/
def Fmt.round (m : Fmt) (rm : Rm) (sat : Bool) (r : Nat) (x : Ex) : Nat × Bool :=
  if x.num = 0 then (m.sign x.neg 0, false)
  else
    let emin : Int := 1 - (m.bias : Int)
    let e := max (ilog2 x.num x.den) emin
    let y := x.scale ((m.f : Int) - e)
    let q := y.num / y.den
    let q := if roundsUp rm x.neg q (y.num % y.den) y.den r then q + 1 else q
    let mag := (e - emin).toNat * 2 ^ m.f + q
    if mag > m.maxFin then (m.over rm sat x.neg, true) else (m.sign x.neg mag, false)

/-- Round to an integer (R145 with u = 1). -/
def roundInt (rm : Rm) (r : Nat) (x : Ex) : Int :=
  let q := x.num / x.den
  let q := if roundsUp rm x.neg q (x.num % x.den) x.den r then q + 1 else q
  if x.neg then -(q : Int) else q

/-- Clamp to the range of an integer type; whether it was outside. -/
def clampTo (t : Ty) (v : Int) : Int × Bool :=
  if v < tyMin t then (tyMin t, true) else if tyMax t < v then (tyMax t, true) else (v, false)

/-- Convert a float value to a type: the bits of the element, and the CV condition of R229 (R146, R147). -/
def convF (dst : Ty) (rm : Rm) (sat : Bool) (r : Nat) (v : FVal) : Nat × Bool :=
  match tyFmt dst, v with
  | some m, .nan => (m.nan, false)
  | some m, .inf neg => (m.infIn sat neg, m.inf.isNone)
  | some m, .fin x => m.round rm sat r x
  | none, .nan => (0, false)
  | none, .inf neg => (wrap (if neg then tyMin dst else tyMax dst) (tyWidth dst), true)
  | none, .fin x => let c := clampTo dst (roundInt rm r x); (wrap c.1 (tyWidth dst), c.2)

/-- Convert an integer to a type (R147, R229). -/
def convI (dst : Ty) (rm : Rm) (sat : Bool) (r : Nat) (v : Int) : Nat × Bool :=
  match tyFmt dst with
  | some m => m.round rm sat r (Ex.ofInt v)
  | none =>
    let c := clampTo dst v
    (wrap (if sat then c.1 else v) (tyWidth dst), c.2)

/-- The value that an element's bits stand for, in any type. -/
def valOf (t : Ty) (v : Nat) : FVal :=
  match tyFmt t with
  | some m => m.dec v
  | none => .fin (Ex.ofInt (intOf t v))

/-- An element of width w in a lane: sign copies above an INT4, INT8 or INT16, zeros above every other type (R212). -/
def toLane (t : Ty) (v : Nat) : Lane :=
  match t with
  | .int4 => BitVec.ofNat 32 (wrap (sext v 4) 32)
  | .int8 => BitVec.ofNat 32 (wrap (sext v 8) 32)
  | .int16 => BitVec.ofNat 32 (wrap (sext v 16) 32)
  | _ => BitVec.ofNat 32 (v % 2 ^ tyWidth t)

/-! ### Arithmetic of one element (R222, R223) -/

/-- Sum of two float values: the result before rounding, none where it is invalid (R222). -/
def FVal.add (rm : Rm) : FVal → FVal → FVal
  | .nan, _ => .nan
  | _, .nan => .nan
  | .inf a, .inf b => if a = b then .inf a else .nan
  | .inf a, _ => .inf a
  | _, .inf b => .inf b
  | .fin x, .fin y => .fin (x.add rm y)

def FVal.flip : FVal → FVal
  | .nan => .nan
  | .inf a => .inf !a
  | .fin x => .fin x.flip

def FVal.mul : FVal → FVal → FVal
  | .nan, _ => .nan
  | _, .nan => .nan
  | .inf a, .inf b => .inf (a != b)
  | .inf a, .fin y => if y.isZero then .nan else .inf (a != y.neg)
  | .fin x, .inf b => if x.isZero then .nan else .inf (x.neg != b)
  | .fin x, .fin y => .fin (x.mul y)

def FVal.div : FVal → FVal → FVal
  | .nan, _ => .nan
  | _, .nan => .nan
  | .inf _, .inf _ => .nan
  | .inf a, .fin y => .inf (a != y.neg)
  | .fin x, .inf b => .fin ⟨x.neg != b, 0, 1⟩
  | .fin x, .fin y => if y.isZero then (if x.isZero then .nan else .inf (x.neg != y.neg)) else .fin (x.quot y)

def FVal.sqrt : FVal → FVal
  | .nan => .nan
  | .inf a => if a then .nan else .inf false
  | .fin x => if x.isZero then .fin x else if x.neg then .nan else .fin x.sqrt

/-- 1 / sqrt a, with its one rounding still to come: the root of the reciprocal (R222). -/
def FVal.rsqrt : FVal → FVal
  | .nan => .nan
  | .inf a => if a then .nan else .fin ⟨false, 0, 1⟩
  | .fin x => if x.isZero then .inf x.neg else if x.neg then .nan else .fin (Ex.sqrt ⟨false, x.den, x.num⟩)

/-- The element of a result: NaN, an infinity as an infinite input, or a rounded value (R222). -/
def Fmt.result (m : Fmt) (rm : Rm) (sat : Bool) (r : Nat) : FVal → Nat
  | .nan => m.nan
  | .inf n => m.infIn sat n
  | .fin x => (m.round rm sat r x).1

/-- Order key of a non-NaN pattern, −0 below +0 (R223). -/
def Fmt.key (m : Fmt) (v : Nat) : Int :=
  let mag := v % 2 ^ (m.w - 1)
  if v / 2 ^ (m.w - 1) % 2 = 1 then -(mag : Int) - 1 else mag

def Fmt.isNan (m : Fmt) (v : Nat) : Bool := m.dec v = .nan

/-- The FP32 value of 32 bits. -/
def f32 (v : Nat) : FVal := fmtFP32.dec v

/-! ### The counter-based generator (R135, R136) -/

def rotl64 (x : DWord) (n : Nat) : DWord := x.rotateLeft n

/-- One round of CBG64. -/
def cbgRound (key : DWord) (x : DWord) (i : Nat) (m : DWord) : DWord :=
  let x := (x ^^^ rotl64 key (17 * i)) * m
  x ^^^ (x >>> (29 : Nat))

def cbg64 (key ctr : DWord) : DWord :=
  let x := cbgRound key ctr 0 0x9FB21C651E98DF25
  let x := cbgRound key x 1 0xC2B2AE3D27D4EB4F
  let x := cbgRound key x 2 0xD6E8FEB86659FD93
  cbgRound key x 3 0x8CB92BA72F3D8DD7

/-- An n-bit draw (R136). -/
def drawBits (x : DWord) (n : Nat) : Nat := x.toNat / 2 ^ (64 - n)

/-- A unit draw: (x >> 40) x 2^-24, exact (R136). -/
def drawUnit (x : DWord) : Ex := (Ex.mk false (x.toNat / 2 ^ 40) 1).scale (-24)

/-- The unit draw as FP32 bits. -/
def drawUnitBits (x : DWord) : Nat := (fmtFP32.round .rne false 0 (drawUnit x)).1

end Sys2Proof.Machine
end

