-- ==== Sys2Proof/Decode.lean ====
section
/-! DEFINITION. Instruction words to instructions and back (spec 08 R159 to R169, R263, R264, R310; 02 R37, R38).
Decoding is total: it answers an instruction or the name of the encoding rule that the words break, in the order
reserved major opcode, function code, token bits, reserved field value, unused field (log 20). -/

namespace Sys2Proof

/-- Which encoding rule the words break (R163, R392 codes 0x02 to 0x06). -/
inductive DecErr | maj | fn | tokenBits | field | unused
deriving DecidableEq, Repr

/-- What the decoder answers. -/
inductive Decoded
  | ok (i : Instr)
  | bad (e : DecErr)
deriving DecidableEq, Repr

/-- Length in words fixed by the major opcode; none for a reserved one (R161). -/
def lenOfMaj (maj : Nat) : Option Nat :=
  if maj = 0x0B then some 2
  else if maj ≤ 0x1B then some 1
  else if 0x20 ≤ maj ∧ maj ≤ 0x27 then some 2
  else if 0x30 ≤ maj ∧ maj ≤ 0x32 then some 2
  else if 0x38 ≤ maj ∧ maj ≤ 0x3E then some 4
  else none

/-- Number of function codes of a major opcode that has a function field (R167, R215, R240, R263, R310). -/
def numFn (maj : Nat) : Nat :=
  match maj with
  | 0x00 => 15 | 0x01 => 30 | 0x0F => 3 | 0x10 => 2 | 0x19 => 14 | 0x1A => 5 | 0x1B => 7
  | 0x20 => 9 | 0x21 => 14 | 0x22 => 3 | 0x23 => 14 | 0x24 => 3 | 0x25 => 4 | 0x26 => 5 | 0x27 => 9
  | 0x30 => 5 | 0x31 => 2 | 0x32 => 9
  | 0x38 => 4 | 0x39 => 2 | 0x3A => 4 | 0x3B => 7 | 0x3C => 3 | 0x3D => 13 | 0x3E => 3
  | _ => 0

/-- The instruction when every unused field is zero (R163). -/
def need (b : Bool) (i : Instr) : Decoded := if b then .ok i else .bad .unused

/-! ### Coded fields -/

/-- Code of a `Ty`. -/
def tyCode : Ty → BitVec 4
  | .fp32 => 0
  | .bf16 => 1
  | .fp16 => 2
  | .e4m3 => 3
  | .e5m2 => 4
  | .int8 => 5
  | .uint8 => 6
  | .int16 => 7
  | .int32 => 8
  | .int4 => 9

/-- The `Ty` of a code; none for a reserved code. -/
def tyOf (c : BitVec 4) : Option Ty :=
  match c.toNat with
  | 0 => some .fp32
  | 1 => some .bf16
  | 2 => some .fp16
  | 3 => some .e4m3
  | 4 => some .e5m2
  | 5 => some .int8
  | 6 => some .uint8
  | 7 => some .int16
  | 8 => some .int32
  | 9 => some .int4
  | _ => none

/-- Code of a `Rm`. -/
def rmCode : Rm → BitVec 3
  | .rne => 0
  | .rtz => 1
  | .rdn => 2
  | .rup => 3
  | .rna => 4
  | .sr => 5
  | .dyn => 6

/-- The `Rm` of a code; none for a reserved code. -/
def rmOf (c : BitVec 3) : Option Rm :=
  match c.toNat with
  | 0 => some .rne
  | 1 => some .rtz
  | 2 => some .rdn
  | 3 => some .rup
  | 4 => some .rna
  | 5 => some .sr
  | 6 => some .dyn
  | _ => none

/-- Code of a `BCond`. -/
def bcondCode : BCond → BitVec 3
  | .eq => 0
  | .ne => 1
  | .lt => 2
  | .ge => 3
  | .le => 4
  | .gt => 5
  | .bset => 6
  | .bclr => 7

/-- The `BCond` of a code; none for a reserved code. -/
def bcondOf (c : BitVec 3) : Option BCond :=
  match c.toNat with
  | 0 => some .eq
  | 1 => some .ne
  | 2 => some .lt
  | 3 => some .ge
  | 4 => some .le
  | 5 => some .gt
  | 6 => some .bset
  | 7 => some .bclr
  | _ => none

/-- Code of a `VCond`. -/
def vcondCode : VCond → BitVec 3
  | .eq => 0
  | .ne => 1
  | .lt => 2
  | .le => 3
  | .gt => 4
  | .ge => 5
  | .un => 6
  | .or => 7

/-- The `VCond` of a code; none for a reserved code. -/
def vcondOf (c : BitVec 3) : Option VCond :=
  match c.toNat with
  | 0 => some .eq
  | 1 => some .ne
  | 2 => some .lt
  | 3 => some .le
  | 4 => some .gt
  | 5 => some .ge
  | 6 => some .un
  | 7 => some .or
  | _ => none

/-- Code of a `Lvl`. -/
def lvlCode : Lvl → BitVec 2
  | .lc0 => 0
  | .lc1 => 1
  | .lc2 => 2

/-- The `Lvl` of a code; none for a reserved code. -/
def lvlOf (c : BitVec 2) : Option Lvl :=
  match c.toNat with
  | 0 => some .lc0
  | 1 => some .lc1
  | 2 => some .lc2
  | _ => none

/-- Code of a `Dir`. -/
def dirCode : Dir → BitVec 5
  | .pred => 0
  | .succ => 1

/-- The `Dir` of a code; none for a reserved code. -/
def dirOf (c : BitVec 5) : Option Dir :=
  match c.toNat with
  | 0 => some .pred
  | 1 => some .succ
  | _ => none

/-- Code of a `HWSel`. -/
def hwCode : HWSel → BitVec 5
  | .hw0 => 0
  | .hw1 => 1
  | .hw2 => 2

/-- The `HWSel` of a code; none for a reserved code. -/
def hwOf (c : BitVec 5) : Option HWSel :=
  match c.toNat with
  | 0 => some .hw0
  | 1 => some .hw1
  | 2 => some .hw2
  | _ => none

/-- Code of a `Ord`. -/
def ordCode : Ord → BitVec 3
  | .relaxed => 0
  | .acquire => 1
  | .release => 2
  | .acqRel => 3

/-- The `Ord` of a code; none for a reserved code. -/
def ordOf (c : BitVec 3) : Option Ord :=
  match c.toNat with
  | 0 => some .relaxed
  | 1 => some .acquire
  | 2 => some .release
  | 3 => some .acqRel
  | _ => none

/-- One bit as a Boolean. -/
def bb (w : Word) (lo : Nat) : Bool := w.getLsbD lo

/-! ### One-word formats -/

/-- MAJ 0x00, format F10 (R204). -/
def decSys (w : Word) : Decoded :=
  let t := fld w 28 4
  let gd : G := fld w 12 5
  let ga : G := fld w 7 5
  let n := fld w 0 7
  let idx := fld w 0 12
  match (fld w 17 5).toNat with
  | 0 => need (gd == 0 && idx == 0) (.nop t)
  | 1 => need (gd == 0 && idx == 0) (.halt t)
  | 2 => need (gd == 0) (.trap t ga n)
  | 3 => need (gd == 0 && idx == 0) (.eret t)
  | 4 => .ok (.sysr t gd idx)
  | 5 => .ok (.sysw t gd idx)
  | 6 => .ok (.syss t gd idx)
  | 7 => .ok (.sysc t gd idx)
  | 8 => need (gd == 0 && idx == 0) (.fence t)
  | 9 => need (gd == 0 && idx == 0) (.yield t)
  | 10 => need (gd == 0 && n == 0) (.waitm t ga)
  | 11 => need (idx == 0) (.readm t gd)
  | 12 => need (gd == 0 && n == 0) (.madj t ga)
  | 13 => need (gd == 0 && n == 0) (.phase t ga)
  | 14 => need (ga == 0) (.perf t gd n)
  | _ => .bad .fn

/-- MAJ 0x01, format F1 (R188). -/
def decInt (w : Word) : Decoded :=
  let t := fld w 28 4
  let gd : G := fld w 17 5
  let ga : G := fld w 12 5
  let gb : G := fld w 7 5
  match (fld w 0 7).toNat with
  | 0 => .ok (.add t gd ga gb)
  | 1 => .ok (.sub t gd ga gb)
  | 2 => .ok (.mul t gd ga gb)
  | 3 => .ok (.mulh t gd ga gb)
  | 4 => .ok (.mulhu t gd ga gb)
  | 5 => .ok (.div t gd ga gb)
  | 6 => .ok (.divu t gd ga gb)
  | 7 => .ok (.rem t gd ga gb)
  | 8 => .ok (.remu t gd ga gb)
  | 9 => .ok (.and t gd ga gb)
  | 10 => .ok (.or t gd ga gb)
  | 11 => .ok (.xor t gd ga gb)
  | 12 => .ok (.andn t gd ga gb)
  | 13 => .ok (.shl t gd ga gb)
  | 14 => .ok (.shr t gd ga gb)
  | 15 => .ok (.sra t gd ga gb)
  | 16 => .ok (.rotl t gd ga gb)
  | 17 => .ok (.min t gd ga gb)
  | 18 => .ok (.max t gd ga gb)
  | 19 => .ok (.minu t gd ga gb)
  | 20 => .ok (.maxu t gd ga gb)
  | 21 => .ok (.seq t gd ga gb)
  | 22 => .ok (.slt t gd ga gb)
  | 23 => .ok (.sltu t gd ga gb)
  | 24 => need (gb == 0) (.clz t gd ga)
  | 25 => need (gb == 0) (.ctz t gd ga)
  | 26 => need (gb == 0) (.popc t gd ga)
  | 27 => need (gb == 0) (.mov t gd ga)
  | 28 => .ok (.sel t gd ga gb)
  | 29 => .ok (.sext t gd ga gb)
  | _ => .bad .fn

/-- The shift group, MAJ 0x06 (R166): amount fn [6] x 32 + gb. -/
def decShift (w : Word) : Decoded :=
  let t := fld w 28 4
  let gd : G := fld w 17 5
  let ga : G := fld w 12 5
  let n : BitVec 6 := fld w 6 1 ++ fld w 7 5
  let z := fld w 2 4 == 0
  match (fld w 0 2).toNat with
  | 0 => need z (.shli t gd ga n)
  | 1 => need z (.shri t gd ga n)
  | 2 => need z (.srai t gd ga n)
  | _ => need z (.rotli t gd ga n)

/-- MAJ 0x0F (R192). -/
def decJr (w : Word) : Decoded :=
  let t := fld w 28 4
  let gd := fld w 17 5
  let ga : G := fld w 12 5
  let gb := fld w 7 5
  match (fld w 0 7).toNat with
  | 0 => need (gd == 0 && gb == 0) (.jr t ga)
  | 1 => need (gd == 0 && gb == 0) (.callr t ga)
  | 2 => need (gd == 0 && ga == 0 && gb == 0) (.ret t)
  | _ => .bad .fn

/-- MAJ 0x0E, format F3 (R167, R192). -/
def decBcz (w : Word) : Decoded :=
  match bcondOf (fld w 14 3) with
  | some c => .ok (.bcz (fld w 28 4) (fld w 17 5) c (fld w 0 14))
  | none => .bad .field

/-- MAJ 0x10, format F5 (R164, R194, R396). -/
def decLoop (w : Word) : Decoded :=
  let len := fld w 0 14
  match lvlOf (fld w 15 2), len == 0 with
  | some l, false =>
    if bb w 14 then .ok (.loopr (fld w 28 4) (fld w 17 5) l len) else .ok (.loop (fld w 28 4) (fld w 17 5) l len)
  | _, _ => .bad .field

/-- MAJ 0x19 (R166, R196). -/
def decMemX (w : Word) : Decoded :=
  let t := fld w 28 4
  let gd : G := fld w 17 5
  let h : H := fld w 12 5
  let gb := fld w 7 5
  match (fld w 0 7).toNat with
  | 0 => .ok (.ldbs t gd h gb)
  | 1 => .ok (.ldhs t gd h gb)
  | 2 => .ok (.ldws t gd h gb)
  | 3 => .ok (.ldbx t gd h gb)
  | 4 => .ok (.ldhx t gd h gb)
  | 5 => .ok (.ldwx t gd h gb)
  | 6 => .ok (.lddx t gd h gb)
  | 7 => .ok (.ldbsx t gd h gb)
  | 8 => .ok (.ldhsx t gd h gb)
  | 9 => .ok (.ldwsx t gd h gb)
  | 10 => .ok (.stbx t gd h gb)
  | 11 => .ok (.sthx t gd h gb)
  | 12 => .ok (.stwx t gd h gb)
  | 13 => .ok (.stdx t gd h gb)
  | _ => .bad .fn

/-- MAJ 0x1A (R199, R200). -/
def decHandle (w : Word) : Decoded :=
  let t := fld w 28 4
  let gd : G := fld w 17 5
  let ga : G := fld w 12 5
  let gb : G := fld w 7 5
  match (fld w 0 7).toNat with
  | 0 => if bb w 11 then .bad .field else .ok (.xlate t gd ga (fld w 7 4))
  | 1 => need (ga == 0 && gb == 0) (.hinv t gd)
  | 2 => match hwOf gb with
    | some k => .ok (.hqry t gd ga k)
    | none => .bad .field
  | 3 => need (gb == 0) (.hmov t gd ga)
  | 4 => .ok (.hnarrow t gd ga gb)
  | _ => .bad .fn

/-- MAJ 0x1B (R201 to R203). -/
def decQueue (w : Word) : Decoded :=
  let t := fld w 28 4
  let gd : G := fld w 17 5
  let ga : G := fld w 12 5
  let gb := fld w 7 5
  match (fld w 0 7).toNat with
  | 0 => match dirOf gb with
    | some d => need (gd == 0) (.qpush t ga d)
    | none => .bad .field
  | 1 => match dirOf gb with
    | some d => need (ga == 0) (.qpop t gd d)
    | none => .bad .field
  | 2 => match dirOf gb with
    | some d => need (ga == 0) (.qpeek t gd d)
    | none => .bad .field
  | 3 => match dirOf gb, bb w 16 with
    | some d, false => need (gd == 0) (.tokw t d (fld w 12 4))
    | _, _ => .bad .field
  | 4 => match dirOf gb, bb w 16 with
    | some d, false => need (gd == 0) (.toks t d (fld w 12 4))
    | _, _ => .bad .field
  | 5 => if fld w 10 2 == 0 then need (ga == 0) (.mbxrd t gd (fld w 7 3)) else .bad .field
  | 6 => need (gd == 0 && gb == 0) (.mbxack t ga)
  | _ => .bad .fn

/-! ### Format F7 -/

/-- The fields of an F7 instruction after its coded fields are read (R162). -/
structure F7 where
  vd : V
  va : V
  vb : V
  vc : V
  pg : P
  ty : Ty
  rm : Rm
  sat : Bool
  mod : BitVec 8
deriving DecidableEq, Repr

namespace F7
/-- Yield mark, mod [7] (R165). -/
def y (f : F7) : Bool := f.mod.getLsbD 7
/-- Zeroing bit, mod [6] (R213). -/
def z (f : F7) : Bool := f.mod.getLsbD 6
/-- mod [5:0]. -/
def off (f : F7) : BitVec 6 := f.mod.extractLsb' 0 6
end F7

/-- Low five bits of a six-bit field that names a G register or a handle (R215). -/
def lo5 (x : BitVec 6) : BitVec 5 := x.extractLsb' 0 5
/-- Its high bit is zero. -/
def hi5z (x : BitVec 6) : Bool := x.extractLsb' 5 1 == 0
/-- Low four bits of a six-bit field that names a predicate. -/
def lo4 (x : BitVec 6) : BitVec 4 := x.extractLsb' 0 4
/-- Its high two bits are zero. -/
def hi4z (x : BitVec 6) : Bool := x.extractLsb' 4 2 == 0
/-- No rounding and no saturation field in use. -/
def rs0 (f : F7) : Bool := f.rm == .rne && !f.sat
/-- `ty` unused. -/
def ty0 (f : F7) : Bool := f.ty == .fp32

/-- MAJ 0x20 (R216, R221). -/
def dec20 (t : Tok) (f : F7) (fn : Nat) : Decoded :=
  let y := f.y
  let z := f.z
  let mem := hi5z f.va && hi5z f.vb && rs0 f
  match fn with
  | 0 => need (mem && f.vc == 0) (.vld t ⟨y, z, f.vd, lo5 f.va, lo5 f.vb, f.off, f.pg, f.ty⟩)
  | 1 => need (mem && f.vc == 0 && !z) (.vst t ⟨y, f.vd, lo5 f.va, lo5 f.vb, f.off, f.pg, f.ty⟩)
  | 2 => need (mem && hi5z f.vc) (.vlds t ⟨y, z, f.vd, lo5 f.va, lo5 f.vb, f.off, lo5 f.vc, f.pg, f.ty⟩)
  | 3 => need (mem && hi5z f.vc && !z) (.vsts t ⟨y, f.vd, lo5 f.va, lo5 f.vb, f.off, lo5 f.vc, f.pg, f.ty⟩)
  | 4 => need mem (.vgath t ⟨y, z, f.vd, lo5 f.va, lo5 f.vb, f.off, f.vc, f.pg, f.ty⟩)
  | 5 => need (mem && !z) (.vscat t ⟨y, f.vd, lo5 f.va, lo5 f.vb, f.off, f.vc, f.pg, f.ty⟩)
  | 6 => need (hi5z f.va && f.vb == 0 && f.vc == 0 && rs0 f && f.off == 0) (.vbcast t ⟨y, z, f.vd, lo5 f.va, f.pg, f.ty⟩)
  | 7 => need (hi5z f.vd && hi5z f.vb && f.vc == 0 && f.pg == 0 && ty0 f && rs0 f && f.off == 0 && !z)
      (.vmovg t y (lo5 f.vd) f.va (lo5 f.vb))
  | 8 => need (hi5z f.va && hi5z f.vb && f.vc == 0 && f.pg == 0 && ty0 f && rs0 f && f.off == 0 && !z)
      (.vmovl t y f.vd (lo5 f.va) (lo5 f.vb))
  | _ => .bad .fn

/-- MAJ 0x21 (R222, R223). -/
def dec21 (t : Tok) (f : F7) (fn : Nat) : Decoded :=
  let bin := need (f.vc == 0 && f.off == 0)
  let binOp : VBinR := ⟨f.y, f.z, f.vd, f.va, f.vb, f.pg, f.ty, f.rm, f.sat⟩
  let triOp : VTriR := ⟨f.y, f.z, f.vd, f.va, f.vb, f.vc, f.pg, f.ty, f.rm, f.sat⟩
  let unOp : VUnR := ⟨f.y, f.z, f.vd, f.va, f.pg, f.ty, f.rm, f.sat⟩
  let un := need (f.vb == 0 && f.vc == 0 && f.off == 0)
  let mmOp : VBinT := ⟨f.y, f.z, f.vd, f.va, f.vb, f.pg, f.ty⟩
  let mm := need (f.vc == 0 && f.off == 0 && rs0 f)
  let abOp : VUnT := ⟨f.y, f.z, f.vd, f.va, f.pg, f.ty⟩
  let ab := need (f.vb == 0 && f.vc == 0 && f.off == 0 && rs0 f)
  match fn with
  | 0 => bin (.vadd t binOp)
  | 1 => bin (.vsub t binOp)
  | 2 => bin (.vmul t binOp)
  | 3 => need (f.off == 0) (.vfma t triOp)
  | 4 => need (f.off == 0) (.vfms t triOp)
  | 5 => need (f.off == 0) (.vfnma t triOp)
  | 6 => mm (.vmin t mmOp)
  | 7 => mm (.vmax t mmOp)
  | 8 => ab (.vabs t abOp)
  | 9 => ab (.vneg t abOp)
  | 10 => un (.vrcp t unOp)
  | 11 => un (.vrsqrt t unOp)
  | 12 => un (.vsqrt t unOp)
  | 13 => bin (.vdiv t binOp)
  | _ => .bad .fn

/-- MAJ 0x22 (R224 to R226). -/
def dec22 (t : Tok) (f : F7) (fn : Nat) : Decoded :=
  match fn with
  | 0 => match vcondOf (f.mod.extractLsb' 0 3) with
    | some c => need (hi4z f.vd && f.vc == 0 && rs0 f && f.mod.extractLsb' 3 3 == 0)
        (.vcmp t ⟨f.y, f.z, lo4 f.vd, f.va, f.vb, f.pg, f.ty, c⟩)
    | none => .bad .field
  | 1 => need (f.vb == 0 && f.vc == 0 && rs0 f && f.off == 0) (.vclass t ⟨f.y, f.z, f.vd, f.va, f.pg, f.ty⟩)
  | 2 => need (f.vc == 0 && ty0 f && rs0 f && f.off == 0 && !f.z) (.vsel t ⟨f.y, f.vd, f.va, f.vb, f.pg⟩)
  | _ => .bad .fn

/-- MAJ 0x23 (R227). -/
def dec23 (t : Tok) (f : F7) (fn : Nat) : Decoded :=
  let ar := need (f.vc == 0 && f.off == 0 && f.rm == .rne)
  let arOp : VBinS := ⟨f.y, f.z, f.vd, f.va, f.vb, f.pg, f.ty, f.sat⟩
  let tp := need (f.vc == 0 && f.off == 0 && rs0 f)
  let tpOp : VBinT := ⟨f.y, f.z, f.vd, f.va, f.vb, f.pg, f.ty⟩
  let bw := need (f.vc == 0 && f.off == 0 && rs0 f && ty0 f)
  let bwOp : VBinB := ⟨f.y, f.z, f.vd, f.va, f.vb, f.pg⟩
  match fn with
  | 0 => ar (.viadd t arOp)
  | 1 => ar (.visub t arOp)
  | 2 => ar (.vimul t arOp)
  | 3 => tp (.vimulh t tpOp)
  | 4 => bw (.vand t bwOp)
  | 5 => bw (.vor t bwOp)
  | 6 => bw (.vxor t bwOp)
  | 7 => need (f.vb == 0 && f.vc == 0 && f.off == 0 && rs0 f && ty0 f) (.vnot t ⟨f.y, f.z, f.vd, f.va, f.pg⟩)
  | 8 => tp (.vshl t tpOp)
  | 9 => tp (.vshr t tpOp)
  | 10 => tp (.vsra t tpOp)
  | 11 => tp (.vimin t tpOp)
  | 12 => tp (.vimax t tpOp)
  | 13 => need (f.vb == 0 && f.vc == 0 && f.off == 0 && f.rm == .rne) (.viabs t ⟨f.y, f.z, f.vd, f.va, f.pg, f.ty, f.sat⟩)
  | _ => .bad .fn

/-- MAJ 0x24 (R228, R230). -/
def dec24 (t : Tok) (f : F7) (fn : Nat) : Decoded :=
  match fn with
  | 0 => match tyOf (f.mod.extractLsb' 0 4) with
    | some src => need (f.vb == 0 && f.vc == 0 && f.mod.extractLsb' 4 2 == 0)
        (.vcvt t ⟨f.y, f.z, f.vd, f.va, f.pg, f.ty, src, f.rm, f.sat⟩)
    | none => .bad .field
  | 1 => need (f.vc == 0 && f.pg == 0 && ty0 f && f.rm == .rne && f.off == 0 && !f.z) (.vpack4 t ⟨f.y, f.vd, f.va, f.vb, f.sat⟩)
  | 2 => need (f.vb == 0 && f.vc == 0 && ty0 f && rs0 f && f.mod.extractLsb' 1 5 == 0)
      (.vunpack4 t ⟨f.y, f.z, f.vd, f.va, f.pg, f.mod.getLsbD 0⟩)
  | _ => .bad .fn

/-- MAJ 0x25 (R231, R232). -/
def dec25 (t : Tok) (f : F7) (fn : Nat) : Decoded :=
  let c := ty0 f && rs0 f && f.off == 0
  match fn with
  | 0 => need c (.vpermb t ⟨f.y, f.z, f.vd, f.va, f.vb, f.vc, f.pg⟩)
  | 1 => need c (.vpermw t ⟨f.y, f.z, f.vd, f.va, f.vb, f.vc, f.pg⟩)
  | 2 => need (c && f.vb == 0 && hi5z f.vc) (.vrot t ⟨f.y, f.z, f.vd, f.va, lo5 f.vc, f.pg⟩)
  | 3 => need (c && hi5z f.vc) (.vslide t ⟨f.y, f.z, f.vd, f.va, f.vb, lo5 f.vc, f.pg⟩)
  | _ => .bad .fn

/-- MAJ 0x26 (R233 to R238). -/
def dec26 (t : Tok) (f : F7) (fn : Nat) : Decoded :=
  match fn with
  | 0 => need (f.vb == 0 && f.vc == 0 && f.mod.extractLsb' 4 2 == 0)
      (.vti t ⟨f.y, f.z, f.vd, f.va, f.pg, f.ty, f.rm, f.sat, f.mod.extractLsb' 0 4⟩)
  | 1 => need (hi4z f.vd && hi5z f.va && hi5z f.vb && hi5z f.vc && f.pg == 0 && ty0 f && rs0 f && f.off == 0 && !f.z)
      (.vtiload t ⟨f.y, lo4 f.vd, lo5 f.va, lo5 f.vb, lo5 f.vc⟩)
  | 2 => need (hi5z f.va && hi5z f.vb && f.vc == 0 && rs0 f && f.off == 0)
      (.vrand t ⟨f.y, f.z, f.vd, lo5 f.va, lo5 f.vb, f.pg, f.ty⟩)
  | 3 =>
    if (f.mod.extractLsb' 0 4).toNat ≤ 9 then
      need (hi5z f.vd && hi5z f.vc && rs0 f && !f.z && f.mod.extractLsb' 5 1 == 0 && (f.mod.getLsbD 4 || f.vb == 0))
        (.vxsum t ⟨f.y, lo5 f.vd, lo5 f.vc, f.va, if f.mod.getLsbD 4 then some f.vb else none, f.pg, f.ty, f.mod.extractLsb' 0 4⟩)
    else .bad .field
  | 4 => need (f.vc == 0 && f.pg == 0 && ty0 f && rs0 f && !f.z) (.vtopk t ⟨f.y, f.vd, f.va, f.vb, f.off⟩)
  | _ => .bad .fn

/-- MAJ 0x27 (R239). -/
def dec27 (t : Tok) (f : F7) (fn : Nat) : Decoded :=
  let c := f.vc == 0 && ty0 f && rs0 f && f.off == 0
  let bin := need (c && hi4z f.vd && hi4z f.va && hi4z f.vb)
  let binOp : PBinOp := ⟨f.y, f.z, lo4 f.vd, lo4 f.va, lo4 f.vb, f.pg⟩
  let un := need (c && hi4z f.vd && hi4z f.va && f.vb == 0)
  let unOp : PUnOp := ⟨f.y, f.z, lo4 f.vd, lo4 f.va, f.pg⟩
  let pg := need (c && hi5z f.vd && hi4z f.va && f.vb == 0 && !f.z)
  let pgOp : PToGOp := ⟨f.y, lo5 f.vd, lo4 f.va, f.pg⟩
  match fn with
  | 0 => need (c && hi4z f.vd && hi5z f.va && hi5z f.vb) (.pset t ⟨f.y, f.z, lo4 f.vd, lo5 f.va, lo5 f.vb, f.pg⟩)
  | 1 => bin (.pand t binOp)
  | 2 => bin (.por t binOp)
  | 3 => bin (.pxor t binOp)
  | 4 => un (.pnot t unOp)
  | 5 => pg (.pcnt t pgOp)
  | 6 => pg (.pfirst t pgOp)
  | 7 => need (c && hi4z f.vd && hi5z f.va && f.vb == 0) (.plen t ⟨f.y, f.z, lo4 f.vd, lo5 f.va, f.pg⟩)
  | 8 => un (.pmov t unOp)
  | _ => .bad .fn

/-- An F7 instruction from its two words (R162, R163, R169, R143). -/
def decF7 (maj : Nat) (w0 w1 : Word) : Decoded :=
  match tyOf (fld w1 12 4), rmOf (fld w1 9 3) with
  | some ty, some rm =>
    let f : F7 := ⟨fld w0 16 6, fld w0 10 6, fld w0 4 6, fld w1 22 6, fld w0 0 4, ty, rm, bb w1 8, fld w1 0 8⟩
    let t := fld w0 28 4
    let fn := (fld w1 16 6).toNat
    match maj with
    | 0x20 => dec20 t f fn
    | 0x21 => dec21 t f fn
    | 0x22 => dec22 t f fn
    | 0x23 => dec23 t f fn
    | 0x24 => dec24 t f fn
    | 0x25 => dec25 t f fn
    | 0x26 => dec26 t f fn
    | _ => dec27 t f fn
  | _, _ => .bad .field

/-! ### Format F8 -/

/-- The fields of an F8 instruction (R162). -/
structure F8 where
  td : TN
  ta : TN
  tb : TN
  gn : G
  gc : G
  split : BitVec 3
  g1 : G
  g2 : G
  mod : BitVec 12
deriving DecidableEq, Repr

namespace F8
/-- Yield mark, mod [11] (R165). -/
def y (f : F8) : Bool := f.mod.getLsbD 11
/-- Handle field, mod [4:0] (R240). -/
def h (f : F8) : H := f.mod.extractLsb' 0 5
/-- mod [10:5] is zero. -/
def m5 (f : F8) : Bool := f.mod.extractLsb' 5 6 == 0
/-- mod [10:0] is zero. -/
def m0 (f : F8) : Bool := f.mod.extractLsb' 0 11 == 0
end F8

/-- MAJ 0x30 (R243). -/
def dec30 (t : Tok) (f : F8) (fn : Nat) : Decoded :=
  let c := f.ta == 0 && f.tb == 0 && f.gn == 0 && f.gc == 0 && f.split == 0
  match fn with
  | 0 => need (c && f.g2 == 0 && f.m0) (.tcfg t f.y f.td f.g1)
  | 1 => match tyOf (f.mod.extractLsb' 5 4) with
    | some ty => need (c && f.mod.extractLsb' 9 2 == 0) (.tld t ⟨f.y, f.td, f.g1, f.g2, f.h, ty⟩)
    | none => .bad .field
  | 2 => need (c && f.m5) (.tst t ⟨f.y, f.td, f.g1, f.g2, f.h⟩)
  | 3 => need (c && f.g1 == 0 && f.g2 == 0 && f.m0) (.tzero t f.y f.td)
  | 4 => need (c && f.g2 == 0 && f.mod.extractLsb' 7 4 == 0)
      (.tfromv t ⟨f.y, f.td, f.g1, f.mod.extractLsb' 0 6, f.mod.getLsbD 6⟩)
  | _ => .bad .fn

/-- MAJ 0x31 (R246). -/
def dec31 (t : Tok) (f : F8) (fn : Nat) : Decoded :=
  let c := f.td == 0 && f.g1 == 0 && f.g2 == 0 && f.m0
  let o : MmaOp := ⟨f.y, f.gc, f.ta, f.tb, f.gn, f.split⟩
  match fn with
  | 0 => need c (.mma t o)
  | 1 => need c (.mmaz t o)
  | _ => .bad .fn

/-- MAJ 0x32 (R251 to R259). -/
def dec32 (t : Tok) (f : F8) (fn : Nat) : Decoded :=
  let c := f.td == 0 && f.ta == 0 && f.tb == 0
  let s := f.split == 0
  match fn with
  | 0 => need (c && s && f.g2 == 0 && f.m0) (.anchor t f.y f.gc f.gn f.g1)
  | 1 => need (c && s && f.g1 == 0 && f.g2 == 0 && f.m0) (.acczero t f.y f.gc f.gn)
  | 2 => need (c && s && f.g2 == 0 && f.mod.extractLsb' 1 10 == 0) (.accflags t f.y f.g1 f.gc f.gn (f.mod.getLsbD 0))
  | 3 => need (c && f.m5) (.drain t ⟨f.y, f.gc, f.gn, f.g1, f.g2, f.h, f.split⟩)
  | 4 => need (c && s && f.gc == 0 && f.m5) (.epcfg t ⟨f.y, f.g1, f.gn, f.g2, f.h⟩)
  | 5 => need (c && s && f.gc == 0 && f.gn == 0 && f.m5) (.topkrd t f.y f.g1 f.g2 f.h)
  | 6 => need (c && s && f.gc == 0 && f.g2 == 0 && f.m0) (.topkclr t f.y f.g1 f.gn)
  | 7 => need (c && s && f.g1 == 0 && f.m5) (.accsv t f.y f.gc f.gn f.g2 f.h)
  | 8 => need (c && s && f.g1 == 0 && f.m5) (.accrs t f.y f.gc f.gn f.g2 f.h)
  | _ => .bad .fn

/-- An F8 instruction from its two words (R162). -/
def decF8 (maj : Nat) (w0 w1 : Word) : Decoded :=
  let f : F8 := ⟨fld w0 19 3, fld w0 16 3, fld w0 13 3, fld w0 8 5, fld w0 3 5, fld w0 0 3, fld w1 17 5, fld w1 12 5, fld w1 0 12⟩
  let t := fld w0 28 4
  let fn := (fld w1 22 6).toNat
  match maj with
  | 0x30 => dec30 t f fn
  | 0x31 => dec31 t f fn
  | _ => dec32 t f fn

/-! ### Format F9 -/

/-- The fields of an F9 instruction (R162). `w3` is bits [27:0] of word 3. -/
structure F9 where
  hd : H
  hs : H
  gshape : G
  flags : BitVec 3
  gdo : G
  gso : G
  gt : G
  seq : BitVec 8
  aft : BitVec 1
  split : BitVec 4
  pred : BitVec 8
  op : BitVec 4
  ord : BitVec 3
  ford : BitVec 3
  gv : G
  gw : G
  w3 : BitVec 28
deriving DecidableEq, Repr

namespace F9
/-- Yield mark, flags [2] (R165). -/
def y (f : F9) : Bool := f.flags.getLsbD 2
/-- flags [1:0] are zero. -/
def fl0 (f : F9) : Bool := f.flags.extractLsb' 0 2 == 0
/-- The shared command fields. -/
def hdr (f : F9) : CmdHdr := ⟨f.y, f.gt, f.seq, f.aft == 1, f.pred⟩
/-- The shared grammar-engine fields. -/
def ge (f : F9) : GeHdr := ⟨f.y, f.gt, f.gv, f.gw⟩
/-- Flag word fields of the data layout (R264). -/
def flag (f : F9) : FlagOp := ⟨f.w3.getLsbD 5, f.w3.extractLsb' 11 5, f.w3.extractLsb' 6 5⟩
/-- ESZ of the data layout. -/
def esz (f : F9) : BitVec 2 := f.w3.extractLsb' 26 2
/-- HI of the data layout. -/
def hi (f : F9) : H := f.w3.extractLsb' 21 5
/-- GIO of the data layout. -/
def gio (f : F9) : G := f.w3.extractLsb' 16 5
/-- Word 1 fields seq, aft and split and word 2 fields pred and op are zero. -/
def noCmd (f : F9) : Bool := f.seq == 0 && f.aft == 0 && f.split == 0 && f.pred == 0 && f.op == 0
end F9

/-- MAJ 0x38 (R263, R264). -/
def dec38 (t : Tok) (f : F9) (fn : Nat) : Decoded :=
  match fn with
  | 0 => need (f.op == 0 && f.gw == 0 && f.flags.extractLsb' 1 1 == 0 && f.w3.extractLsb' 16 12 == 0 && f.w3.extractLsb' 0 5 == 0)
      (.cpy t ⟨f.hdr, f.split, f.hd, f.hs, f.gshape, f.flags.getLsbD 0, f.gdo, f.gso, f.gv, f.flag⟩)
  | 1 => need (f.hd == 0 && f.gshape == 0 && f.fl0 && f.gdo == 0 && f.op == 0 && f.gw == 0 && f.w3.extractLsb' 0 4 == 0)
      (.cpyt t ⟨f.hdr, f.split, f.hs, f.gso, f.gv, f.w3.extractLsb' 25 3, f.w3.getLsbD 24, f.w3.getLsbD 23,
        f.w3.extractLsb' 20 3, f.w3.extractLsb' 17 3, f.w3.extractLsb' 12 5, f.w3.extractLsb' 7 5, f.w3.extractLsb' 4 3⟩)
  | 2 => need (f.gshape == 0 && f.fl0 && f.op == 0 && f.gw == 0 && f.w3.extractLsb' 0 16 == 0)
      (.gath t ⟨f.hdr, f.split, f.hd, f.hs, f.gdo, f.gso, f.gv, f.esz, f.hi, f.gio⟩)
  | 3 => need (f.gshape == 0 && f.fl0 && f.op == 0 && f.gw == 0 && f.w3.extractLsb' 0 5 == 0)
      (.scat t ⟨f.hdr, f.split, f.hd, f.hs, f.gdo, f.gso, f.gv, f.esz, f.hi, f.gio, f.flag⟩)
  | _ => .bad .fn

/-- The operands of a `cpyacc` (R263, R279). -/
def accOp (f : F9) (o : Ord) : CpyAccOp :=
  ⟨f.hdr, f.split, o, f.hd, if f.flags.getLsbD 0 then .bcast else .packed f.hs f.gso, f.flags.getLsbD 1,
    f.gdo, f.gv, f.gw, f.esz, f.hi, f.gio, f.w3.getLsbD 4, f.flag⟩

/-- MAJ 0x39 (R119, R279, R280, R283). -/
def dec39 (t : Tok) (f : F9) (fn : Nat) : Decoded :=
  match ordOf f.ord with
  | none => .bad .field
  | some o =>
    match fn with
    | 0 =>
      let c := need (f.gshape == 0 && f.w3.extractLsb' 0 4 == 0 && (!f.flags.getLsbD 0 || (f.hs == 0 && f.gso == 0)))
      if f.ford == 0 then
        match f.op.toNat with
        | 0 => c (.cpyaccIadd32 t (accOp f o))
        | 1 => c (.cpyaccIadd64 t (accOp f o))
        | 2 => c (.cpyaccXadd t (accOp f o))
        | 3 => c (.cpyaccOr t (accOp f o))
        | 4 => c (.cpyaccAnd t (accOp f o))
        | 5 => c (.cpyaccXor t (accOp f o))
        | 6 => c (.cpyaccImin t (accOp f o))
        | 7 => c (.cpyaccImax t (accOp f o))
        | 8 => c (.cpyaccFmin t (accOp f o))
        | 9 => c (.cpyaccFmax t (accOp f o))
        | 10 => c (.cpyaccSwap t (accOp f o))
        | _ => .bad .field
      else .bad .field
    | 1 =>
      if f.ford.toNat ≤ 1 then
        need (f.hs == 0 && f.gshape == 0 && f.fl0 && f.gso == 0 && f.split == 0 && f.op == 0 && f.w3.extractLsb' 0 26 == 0)
          (.cpycas t ⟨f.hdr, o, f.ford == 1, f.hd, f.gdo, f.gv, f.gw, f.esz⟩)
      else .bad .field
    | _ => .bad .fn

/-- MAJ 0x3A (R263, R285 to R288). -/
def dec3A (t : Tok) (f : F9) (fn : Nat) : Decoded :=
  let w1 := f.gdo == 0 && f.gt == 0 && f.aft == 0 && f.split == 0
  let w2 := f.pred == 0 && f.op == 0
  match fn with
  | 0 => need (f.hd == 0 && f.hs == 0 && f.gshape == 0 && f.flags.extractLsb' 1 1 == 0 && w1 && f.gso == 0 && w2 && f.gv == 0
        && f.gw == 0 && f.w3 == 0 && (!f.flags.getLsbD 0 || f.seq == 0))
      (.cpywait t f.y (if f.flags.getLsbD 0 then none else some f.seq))
  | 1 => need (f.hd == 0 && f.hs == 0 && f.gshape == 0 && f.fl0 && w1 && f.gso == 0 && f.seq == 0 && w2 && f.gv == 0 && f.w3 == 0)
      (.cpypop t f.y f.gw)
  | 2 => need (f.hd == 0 && f.fl0 && w1 && f.seq == 0 && w2 && f.w3 == 0) (.shpset t ⟨f.y, f.gshape, f.hs, f.gso, f.gv, f.gw⟩)
  | 3 => need (f.hd == 0 && f.hs == 0 && f.fl0 && w1 && f.gso == 0 && f.seq == 0 && w2 && f.w3 == 0)
      (.shpclr t f.y f.gshape f.gv f.gw)
  | _ => .bad .fn

/-- MAJ 0x3B (R263, R289 to R295). -/
def dec3B (t : Tok) (f : F9) (fn : Nat) : Decoded :=
  let c := f.hs == 0 && f.gshape == 0 && f.fl0 && f.gdo == 0 && f.gt == 0 && f.seq == 0 && f.aft == 0 && f.split == 0
    && f.pred == 0 && f.op == 0 && f.w3 == 0
  let so := f.gso == 0
  match fn with
  | 0 => need (c && so && f.gw == 0) (.soinit t f.y f.hd f.gv)
  | 1 => need c (.sobind t ⟨f.y, f.hd, f.gso, f.gv, f.gw⟩)
  | 2 => need (c && so && f.gv == 0) (.soacq t f.y f.hd f.gw)
  | 3 => need (c && so && f.gv == 0 && f.gw == 0) (.sorel t f.y f.hd)
  | 4 => need (c && so && f.gv == 0) (.soarr t f.y f.hd f.gw)
  | 5 => need (c && so) (.sowait t f.y f.hd f.gv f.gw)
  | 6 => need (c && so && f.gv == 0) (.sostat t f.y f.hd f.gw)
  | _ => .bad .fn

/-- MAJ 0x3C (R263, R264, R296 to R298). -/
def dec3C (t : Tok) (f : F9) (fn : Nat) : Decoded :=
  let port : BitVec 4 := f.w3.extractLsb' 24 4
  let slot : BitVec 6 := f.w3.extractLsb' 18 6
  let first : BitVec 3 := f.w3.extractLsb' 15 3
  let c := f.gshape == 0 && f.fl0 && f.split == 0 && f.op == 0
  match fn with
  | 0 => if port.toNat ≤ 11 then
      need (c && f.hd == 0 && f.gdo == 0 && f.gw == 0 && f.w3.extractLsb' 0 15 == 0) (.send t ⟨f.hdr, f.hs, f.gso, f.gv, port, slot, first⟩)
    else .bad .field
  | 1 => if port.toNat ≤ 11 then
      need (c && f.hs == 0 && f.gso == 0 && f.gw == 0 && f.w3.extractLsb' 0 15 == 0) (.recv t ⟨f.hdr, f.hd, f.gdo, f.gv, port, slot, first⟩)
    else .bad .field
  | 2 => need (c && f.w3.extractLsb' 16 12 == 0 && f.w3.extractLsb' 0 5 == 0)
      (.sendu t ⟨f.hdr, f.hd, f.hs, f.gdo, f.gso, f.gv, f.gw, f.flag⟩)
  | _ => .bad .fn

/-- MAJ 0x3D (R310). -/
def dec3D (t : Tok) (f : F9) (fn : Nat) : Decoded :=
  let gx : G := f.w3.extractLsb' 23 5
  let gy : G := f.w3.extractLsb' 18 5
  let nc : BitVec 6 := f.w3.extractLsb' 12 6
  let ktop : BitVec 6 := f.w3.extractLsb' 6 6
  let gx0 := gx == 0
  let gy0 := gy == 0
  let nk0 := nc == 0 && ktop == 0
  let c := f.noCmd && f.gshape == 0 && f.w3.extractLsb' 0 6 == 0
  let hd0 := f.hd == 0 && f.gdo == 0
  let hs0 := f.hs == 0 && f.gso == 0
  let none4 := hd0 && hs0
  match fn with
  | 0 =>
    if f.flags.getLsbD 0 then need (c && none4 && gx0 && gy0 && nk0) (.gbindUnbind t f.ge (f.flags.getLsbD 1))
    else if f.flags.getLsbD 1 then need (c && hs0 && gx0 && gy0 && nk0) (.gbind t ⟨f.ge, f.hd, f.gdo, none⟩)
    else need (c && gx0 && gy0 && nk0) (.gbind t ⟨f.ge, f.hd, f.gdo, some (f.hs, f.gso)⟩)
  | 1 => need (c && f.fl0 && hs0 && gx0 && gy0 && nk0) (.gmask t ⟨f.ge, f.hd, f.gdo⟩)
  | 2 => need (c && f.fl0 && none4 && gy0 && nk0) (.gadv t f.ge gx)
  | 3 => need (c && f.fl0 && none4 && nk0) (.gfork t f.ge gx gy)
  | 4 => need (c && f.fl0 && none4 && gy0 && nk0) (.groll t f.ge gx)
  | 5 => need (c && f.fl0 && none4 && gx0 && gy0 && nk0) (.gcommit t f.ge)
  | 6 => need (c && f.fl0 && none4 && gx0 && gy0 && nk0) (.gsave t f.ge)
  | 7 => need (c && f.fl0 && gx0 && gy0 && nk0) (.grest t ⟨f.ge, f.hd, f.hs, f.gdo, f.gso⟩)
  | 8 => need (c && f.fl0 && none4 && gy0 && nk0) (.seqck t f.ge gx)
  | 9 => need (c && f.fl0 && none4 && gy0 && nk0) (.seqroll t f.ge gx)
  | 10 => need (c && (f.flags.getLsbD 1 || hd0))
      (.sample t ⟨f.ge, f.flags.getLsbD 0, if f.flags.getLsbD 1 then some (f.hd, f.gdo) else none, f.hs, f.gso, gx, gy, nc, ktop⟩)
  | 11 => need (c && !f.flags.getLsbD 1 && hd0 && ktop == 0) (.accept t ⟨f.ge, f.flags.getLsbD 0, f.hs, f.gso, gx, gy, nc⟩)
  | 12 => need (c && !f.flags.getLsbD 1 && gx0) (.accmb t ⟨f.ge, f.flags.getLsbD 0, f.hd, f.hs, f.gdo, f.gso, gy, nc, ktop⟩)
  | _ => .bad .fn

/-- MAJ 0x3E (R263, R300, R301). -/
def dec3E (t : Tok) (f : F9) (fn : Nat) : Decoded :=
  let k : BitVec 2 := f.flags.extractLsb' 0 2
  let c := f.gshape == 0 && f.gt == 0 && f.noCmd && f.gw == 0 && f.w3 == 0
  match fn with
  | 0 => need (c && f.hd == 0 && f.hs == 0 && f.gdo == 0 && f.gso == 0 && f.gv == 0) (.dgbeg t f.y k)
  | 1 => need (c && f.hd == 0 && f.gdo == 0) (.dgadd t f.y k f.hs f.gso f.gv)
  | 2 => need (c && f.hs == 0 && f.gso == 0 && f.gv == 0) (.dgend t f.y k f.hd f.gdo)
  | _ => .bad .fn

/-- An F9 instruction from its four words. ORD outside 0 to 3 anywhere, ORD not 0 outside MAJ 0x39, and FORD not 0
outside MAJ 0x39, are reserved values (R119, R163, R400). -/
def decF9 (maj : Nat) (w0 w1 w2 w3 : Word) : Decoded :=
  let f : F9 := ⟨fld w0 13 5, fld w0 8 5, fld w0 3 5, fld w0 0 3, fld w1 23 5, fld w1 18 5, fld w1 13 5, fld w1 5 8, fld w1 4 1,
    fld w1 0 4, fld w2 20 8, fld w2 16 4, fld w2 13 3, fld w2 10 3, fld w2 5 5, fld w2 0 5, fld w3 0 28⟩
  let t := fld w0 28 4
  let fn := (fld w0 18 4).toNat
  match maj with
  | 0x39 => dec39 t f fn
  | _ =>
    if f.ord == 0 && f.ford == 0 then
      match maj with
      | 0x38 => dec38 t f fn
      | 0x3A => dec3A t f fn
      | 0x3B => dec3B t f fn
      | 0x3C => dec3C t f fn
      | 0x3D => dec3D t f fn
      | _ => dec3E t f fn
    else .bad .field

/-! ### The decoder -/

/-- The function code of word 0 or word 1, for the check of R167 that comes before the token bits of later words. -/
def fnCode (maj : Nat) (w0 w1 : Word) : Nat :=
  match maj with
  | 0x00 => (fld w0 17 5).toNat
  | 0x10 => (fld w0 14 1).toNat
  | 0x01 | 0x0F | 0x19 | 0x1A | 0x1B => (fld w0 0 7).toNat
  | _ =>
    if maj ≤ 0x27 then (fld w1 16 6).toNat
    else if maj ≤ 0x32 then (fld w1 22 6).toNat
    else (fld w0 18 4).toNat

/-- Major opcodes whose words hold a function code with reserved values. -/
def hasFn (maj : Nat) : Bool := maj == 0x00 || maj == 0x01 || maj == 0x0F || maj == 0x10 || 0x19 ≤ maj

/-- The instruction of a major opcode that is one word long and is not F1, F5 or F10 (R190, R191, R192, R196). -/
def decImm (maj : Nat) (w : Word) : Decoded :=
  let t := fld w 28 4
  let g : G := fld w 17 5
  let a : G := fld w 12 5
  let i := fld w 0 12
  match maj with
  | 0x02 => .ok (.addi t g a i)
  | 0x03 => .ok (.andi t g a i)
  | 0x04 => .ok (.ori t g a i)
  | 0x05 => .ok (.xori t g a i)
  | 0x07 => .ok (.slti t g a i)
  | 0x08 => .ok (.sltiu t g a i)
  | 0x09 => .ok (.movi t g (fld w 0 17))
  | 0x0A => .ok (.movhi t g (fld w 0 17))
  | 0x0C => .ok (.bra t (fld w 0 22))
  | 0x0D => .ok (.call t (fld w 0 22))
  | 0x11 => .ok (.ldb t g a i)
  | 0x12 => .ok (.ldh t g a i)
  | 0x13 => .ok (.ldw t g a i)
  | 0x14 => .ok (.ldd t g a i)
  | 0x15 => .ok (.stb t g a i)
  | 0x16 => .ok (.sth t g a i)
  | 0x17 => .ok (.stw t g a i)
  | 0x18 => .ok (.std t g a i)
  | _ => .bad .maj

/-- The body of decoding, once the major opcode, the function code and the later words' token bits are legal. -/
def decBody (maj : Nat) (w0 w1 w2 w3 : Word) : Decoded :=
  match maj with
  | 0x00 => decSys w0
  | 0x01 => decInt w0
  | 0x06 => decShift w0
  | 0x0B => .ok (.li (fld w0 28 4) (fld w0 17 5) (fld w0 0 17 ++ fld w1 0 28))
  | 0x0E => decBcz w0
  | 0x0F => decJr w0
  | 0x10 => decLoop w0
  | 0x19 => decMemX w0
  | 0x1A => decHandle w0
  | 0x1B => decQueue w0
  | _ =>
    if maj ≤ 0x18 then decImm maj w0
    else if maj ≤ 0x27 then decF7 maj w0 w1
    else if maj ≤ 0x32 then decF8 maj w0 w1
    else decF9 maj w0 w1 w2 w3

/-- Token bits of the later words of an instruction of `n` words are zero (R160). -/
def laterTok0 (n : Nat) (w1 w2 w3 : Word) : Bool :=
  (n < 2 || fld w1 28 4 == 0) && (n < 4 || (fld w2 28 4 == 0 && fld w3 28 4 == 0))

/-- Decode an instruction whose word 0 is `w0`; the words beyond its length are not looked at (R161, R163, R396). -/
def decode (w0 w1 w2 w3 : Word) : Decoded :=
  let maj := (fld w0 22 6).toNat
  match lenOfMaj maj with
  | none => .bad .maj
  | some n =>
    if hasFn maj && numFn maj ≤ fnCode maj w0 w1 then .bad .fn
    else if laterTok0 n w1 w2 w3 then decBody maj w0 w1 w2 w3
    else .bad .tokenBits

/-- Length in words of the instruction whose first word is `w0`; a reserved opcode counts one (R161, R396). -/
def lenOfWord (w0 : Word) : Nat := (lenOfMaj (fld w0 22 6).toNat).getD 1

/-! ### Ephemeris entries (R37, R38, R406) -/

/-- Bits of ARG that a kind does not name are zero. -/
def argZero (e : BitVec 64) (lo n : Nat) : Bool := e.extractLsb' lo n == 0

/-- An ephemeris entry from its 64 bits: none for a reserved KIND, a non-zero reserved ARG bit, FIRST + UNITS_M1 above 7,
an IN_PORT above 11 or an `inj` of length 0 (R406). -/
def decodeEph (e : BitVec 64) : Option Instr :=
  let off : BitVec 32 := e.extractLsb' 28 32
  let slot : BitVec 6 := e.extractLsb' 22 6
  let first : BitVec 3 := e.extractLsb' 19 3
  let um1 : BitVec 3 := e.extractLsb' 16 3
  let unitsOk := first.toNat + um1.toNat ≤ 7
  match (e.extractLsb' 60 4).toNat with
  | 1 => if unitsOk ∧ argZero e 0 16 = true then some (.xfer off slot first um1) else none
  | 2 => if (e.extractLsb' 24 4).toNat ≤ 11 ∧ argZero e 0 16 = true ∧ argZero e 19 5 = true
      then some (.fwd off (e.extractLsb' 24 4) um1) else none
  | 3 => if unitsOk ∧ argZero e 0 16 = true then some (.dlv off slot first um1) else none
  | 4 => if argZero e 0 12 = true ∧ ¬ argZero e 12 16 = true then some (.inj off (e.extractLsb' 12 16)) else none
  | 5 => if argZero e 0 28 = true then some (.hold off) else none
  | 6 => if argZero e 0 28 = true then some (.guard off) else none
  | 7 => some (.jump off (e.extractLsb' 14 14) (e.extractLsb' 13 1) (e.extractLsb' 0 13))
  | 8 => if argZero e 0 28 = true then some (.leHalt off) else none
  | 9 => if argZero e 0 12 = true then some (.mark off (e.extractLsb' 12 16)) else none
  | _ => none

/-! ### The encoder -/

/-- F1 (R162). -/
def f1 (maj : BitVec 6) (t : Tok) (gd ga gb : BitVec 5) (fn : BitVec 7) : Word := t ++ maj ++ gd ++ ga ++ gb ++ fn
/-- F2 and F6 (R162). -/
def f2 (maj : BitVec 6) (t : Tok) (gd ga : BitVec 5) (imm : BitVec 12) : Word := t ++ maj ++ gd ++ ga ++ imm
/-- F2L (R162). -/
def f2l (maj : BitVec 6) (t : Tok) (gd : BitVec 5) (imm : BitVec 17) : Word := t ++ maj ++ gd ++ imm
/-- F4 (R162). -/
def f4 (maj : BitVec 6) (t : Tok) (off : BitVec 22) : Word := t ++ maj ++ off
/-- F3 (R162). -/
def f3 (t : Tok) (ga : BitVec 5) (c : BitVec 3) (off : BitVec 14) : Word := t ++ (0x0E : BitVec 6) ++ ga ++ c ++ off
/-- F5 (R162). -/
def f5 (t : Tok) (gc : BitVec 5) (l : BitVec 2) (fn : BitVec 1) (len : BitVec 14) : Word :=
  t ++ (0x10 : BitVec 6) ++ gc ++ l ++ fn ++ len
/-- F10 (R162). -/
def f10 (t : Tok) (fn gd ga : BitVec 5) (n : BitVec 7) : Word := t ++ (0x00 : BitVec 6) ++ fn ++ gd ++ ga ++ n
/-- F10 with a system register index (R164). -/
def f10i (t : Tok) (fn gd : BitVec 5) (idx : BitVec 12) : Word := t ++ (0x00 : BitVec 6) ++ fn ++ gd ++ idx
/-- Shift group (R166): fn [6] is the top bit of the amount, fn [1:0] the operation. -/
def fsh (t : Tok) (gd ga : BitVec 5) (n : BitVec 6) (op : BitVec 2) : Word :=
  t ++ (0x06 : BitVec 6) ++ gd ++ ga ++ n.extractLsb' 0 5 ++ n.extractLsb' 5 1 ++ (0 : BitVec 4) ++ op

/-- F7 (R162): the two words. -/
def f7 (maj : BitVec 6) (t : Tok) (fn : BitVec 6) (f : F7) : List Word :=
  [t ++ maj ++ f.vd ++ f.va ++ f.vb ++ f.pg,
   (0 : BitVec 4) ++ f.vc ++ fn ++ tyCode f.ty ++ rmCode f.rm ++ BitVec.ofBool f.sat ++ f.mod]

/-- F8 (R162): the two words. -/
def f8 (maj : BitVec 6) (t : Tok) (fn : BitVec 6) (f : F8) : List Word :=
  [t ++ maj ++ f.td ++ f.ta ++ f.tb ++ f.gn ++ f.gc ++ f.split, (0 : BitVec 4) ++ fn ++ f.g1 ++ f.g2 ++ f.mod]

/-- F9 (R162): the four words. -/
def f9 (maj : BitVec 6) (t : Tok) (fn : BitVec 4) (f : F9) : List Word :=
  [t ++ maj ++ fn ++ f.hd ++ f.hs ++ f.gshape ++ f.flags,
   (0 : BitVec 4) ++ f.gdo ++ f.gso ++ f.gt ++ f.seq ++ f.aft ++ f.split,
   (0 : BitVec 4) ++ f.pred ++ f.op ++ f.ord ++ f.ford ++ f.gv ++ f.gw,
   (0 : BitVec 4) ++ f.w3]

/-- A five-bit register number in a six-bit field (R215). -/
def g6 (x : BitVec 5) : BitVec 6 := (0 : BitVec 1) ++ x
/-- A four-bit predicate number in a six-bit field (R215). -/
def p6 (x : BitVec 4) : BitVec 6 := (0 : BitVec 2) ++ x
/-- mod of F7: yield mark, zeroing bit, six further bits. -/
def mod8 (y z : Bool) (off : BitVec 6) : BitVec 8 := BitVec.ofBool y ++ BitVec.ofBool z ++ off
/-- mod of F8: yield mark and eleven further bits. -/
def mod12 (y : Bool) (m : BitVec 11) : BitVec 12 := BitVec.ofBool y ++ m
/-- flags of F9: yield mark and two further bits. -/
def flags3 (y : Bool) (m : BitVec 2) : BitVec 3 := BitVec.ofBool y ++ m

/-- Memory shape of MAJ 0x20. -/
def f7mem (t : Tok) (fn : BitVec 6) (y z : Bool) (vd : V) (ga : G) (h : H) (off : BitVec 6) (vc : BitVec 6) (pg : P) (ty : Ty) : List Word :=
  f7 0x20 t fn ⟨vd, g6 ga, g6 h, vc, pg, ty, .rne, false, mod8 y z off⟩
/-- Typed shape with up to three vector sources. -/
def f7v (maj : BitVec 6) (t : Tok) (fn : BitVec 6) (y z : Bool) (vd va vb vc : V) (pg : P) (ty : Ty) (rm : Rm) (sat : Bool) (m : BitVec 6) : List Word :=
  f7 maj t fn ⟨vd, va, vb, vc, pg, ty, rm, sat, mod8 y z m⟩
/-- Rounded two-source shape. -/
def f7bin (t : Tok) (fn : BitVec 6) (o : VBinR) : List Word := f7v 0x21 t fn o.y o.z o.vd o.va o.vb 0 o.pg o.ty o.rm o.sat 0
/-- Rounded three-source shape. -/
def f7tri (t : Tok) (fn : BitVec 6) (o : VTriR) : List Word := f7v 0x21 t fn o.y o.z o.vd o.va o.vb o.vc o.pg o.ty o.rm o.sat 0
/-- Rounded one-source shape. -/
def f7un (t : Tok) (fn : BitVec 6) (o : VUnR) : List Word := f7v 0x21 t fn o.y o.z o.vd o.va 0 0 o.pg o.ty o.rm o.sat 0
/-- Typed two-source shape. -/
def f7binT (maj : BitVec 6) (t : Tok) (fn : BitVec 6) (o : VBinT) : List Word := f7v maj t fn o.y o.z o.vd o.va o.vb 0 o.pg o.ty .rne false 0
/-- Typed one-source shape. -/
def f7unT (maj : BitVec 6) (t : Tok) (fn : BitVec 6) (o : VUnT) : List Word := f7v maj t fn o.y o.z o.vd o.va 0 0 o.pg o.ty .rne false 0
/-- Saturating two-source integer shape. -/
def f7binS (t : Tok) (fn : BitVec 6) (o : VBinS) : List Word := f7v 0x23 t fn o.y o.z o.vd o.va o.vb 0 o.pg o.ty .rne o.sat 0
/-- Bitwise two-source shape. -/
def f7binB (t : Tok) (fn : BitVec 6) (o : VBinB) : List Word := f7v 0x23 t fn o.y o.z o.vd o.va o.vb 0 o.pg .fp32 .rne false 0
/-- Permute shape with three vector sources. -/
def f7triB (t : Tok) (fn : BitVec 6) (o : VTriB) : List Word := f7v 0x25 t fn o.y o.z o.vd o.va o.vb o.vc o.pg .fp32 .rne false 0
/-- Predicate shape. -/
def f7p (t : Tok) (fn : BitVec 6) (y z : Bool) (vd va vb : BitVec 6) (pg : P) : List Word :=
  f7v 0x27 t fn y z vd va vb 0 pg .fp32 .rne false 0

/-- An F9 record with every field zero, from which each instruction's fields are set. -/
def f9z : F9 := ⟨0, 0, 0, 0, 0, 0, 0, 0, 0, 0, 0, 0, 0, 0, 0, 0, 0⟩
/-- The shared command fields put into an F9 record. -/
def F9.setHdr (f : F9) (h : CmdHdr) : F9 :=
  { f with gt := h.gt, seq := h.seq, aft := BitVec.ofBool h.aft, pred := h.pred }
/-- The grammar-engine shared fields put into an F9 record. -/
def F9.setGe (f : F9) (h : GeHdr) : F9 := { f with gt := h.gt, gv := h.gv, gw := h.gw }
/-- Word 3 of the data layout (R264). -/
def dataW3 (esz : BitVec 2) (hi : H) (gio : G) (fl : FlagOp) (idx : Bool) : BitVec 28 :=
  esz ++ hi ++ gio ++ fl.hf ++ fl.gf ++ BitVec.ofBool fl.flg ++ BitVec.ofBool idx ++ (0 : BitVec 4)
/-- No flag word. -/
def flag0 : FlagOp := ⟨false, 0, 0⟩
/-- Word 3 of the link layout (R264). -/
def linkW3 (port : BitVec 4) (slot : BitVec 6) (first : BitVec 3) : BitVec 28 := port ++ slot ++ first ++ (0 : BitVec 15)
/-- Word 3 of the generation layout (R310). -/
def genW3 (gx gy : G) (nc ktop : BitVec 6) : BitVec 28 := gx ++ gy ++ nc ++ ktop ++ (0 : BitVec 6)

/-- `cpyacc` words (R263). -/
def f9acc (t : Tok) (op : BitVec 4) (o : CpyAccOp) : List Word :=
  f9 0x39 t 0 (({ f9z with
    hd := o.hd, gdo := o.gdo, split := o.split, op := op, ord := ordCode o.ord, gv := o.gv, gw := o.gw,
    hs := (match o.src with | .packed hs _ => hs | .bcast => 0),
    gso := (match o.src with | .packed _ gso => gso | .bcast => 0),
    flags := flags3 o.hdr.y (BitVec.ofBool o.ret ++ BitVec.ofBool (match o.src with | .packed _ _ => false | .bcast => true)),
    w3 := dataW3 o.esz o.hi o.gio o.flag o.idx } : F9).setHdr o.hdr)

/-- Words of a grammar-engine instruction (R310). -/
def f9ge (t : Tok) (fn : BitVec 4) (h : GeHdr) (hd hs : H) (gdo gso : G) (fl : BitVec 2) (gx gy : G) (nc ktop : BitVec 6) : List Word :=
  f9 0x3D t fn (({ f9z with hd := hd, hs := hs, gdo := gdo, gso := gso, flags := flags3 h.y fl, w3 := genW3 gx gy nc ktop } : F9).setGe h)

/-- An ephemeris entry of a kind, offset and ARG (R37). -/
def eph (kind : BitVec 4) (off : BitVec 32) (arg : BitVec 28) : BitVec 64 := kind ++ off ++ arg

/-- The 64 bits of an ephemeris entry; none for every other constructor (R37, R38). -/
def encodeEph : Instr → Option (BitVec 64)
  | .xfer off slot first um1 => some (eph 1 off (slot ++ first ++ um1 ++ (0 : BitVec 16)))
  | .fwd off inp um1 => some (eph 2 off (inp ++ (0 : BitVec 5) ++ um1 ++ (0 : BitVec 16)))
  | .dlv off slot first um1 => some (eph 3 off (slot ++ first ++ um1 ++ (0 : BitVec 16)))
  | .inj off len => some (eph 4 off (len ++ (0 : BitVec 12)))
  | .hold off => some (eph 5 off 0)
  | .guard off => some (eph 6 off 0)
  | .jump off target lvl count => some (eph 7 off (target ++ lvl ++ count))
  | .leHalt off => some (eph 8 off 0)
  | .mark off code => some (eph 9 off (code ++ (0 : BitVec 12)))
  | _ => none

/-- The words of an instruction, first word first; none for ephemeris entries and for the device's own events. -/
def encode : Instr → List Word
  | .nop t => [f10i t 0 0 0]
  | .halt t => [f10i t 1 0 0]
  | .trap t ga n => [f10 t 2 0 ga n]
  | .eret t => [f10i t 3 0 0]
  | .sysr t g idx => [f10i t 4 g idx]
  | .sysw t g idx => [f10i t 5 g idx]
  | .syss t g idx => [f10i t 6 g idx]
  | .sysc t g idx => [f10i t 7 g idx]
  | .fence t => [f10i t 8 0 0]
  | .yield t => [f10i t 9 0 0]
  | .waitm t ga => [f10 t 10 0 ga 0]
  | .readm t gd => [f10i t 11 gd 0]
  | .madj t ga => [f10 t 12 0 ga 0]
  | .phase t ga => [f10 t 13 0 ga 0]
  | .perf t gd n => [f10 t 14 gd 0 n]
  | .add t gd ga gb => [f1 0x01 t gd ga gb 0]
  | .sub t gd ga gb => [f1 0x01 t gd ga gb 1]
  | .mul t gd ga gb => [f1 0x01 t gd ga gb 2]
  | .mulh t gd ga gb => [f1 0x01 t gd ga gb 3]
  | .mulhu t gd ga gb => [f1 0x01 t gd ga gb 4]
  | .div t gd ga gb => [f1 0x01 t gd ga gb 5]
  | .divu t gd ga gb => [f1 0x01 t gd ga gb 6]
  | .rem t gd ga gb => [f1 0x01 t gd ga gb 7]
  | .remu t gd ga gb => [f1 0x01 t gd ga gb 8]
  | .and t gd ga gb => [f1 0x01 t gd ga gb 9]
  | .or t gd ga gb => [f1 0x01 t gd ga gb 10]
  | .xor t gd ga gb => [f1 0x01 t gd ga gb 11]
  | .andn t gd ga gb => [f1 0x01 t gd ga gb 12]
  | .shl t gd ga gb => [f1 0x01 t gd ga gb 13]
  | .shr t gd ga gb => [f1 0x01 t gd ga gb 14]
  | .sra t gd ga gb => [f1 0x01 t gd ga gb 15]
  | .rotl t gd ga gb => [f1 0x01 t gd ga gb 16]
  | .min t gd ga gb => [f1 0x01 t gd ga gb 17]
  | .max t gd ga gb => [f1 0x01 t gd ga gb 18]
  | .minu t gd ga gb => [f1 0x01 t gd ga gb 19]
  | .maxu t gd ga gb => [f1 0x01 t gd ga gb 20]
  | .seq t gd ga gb => [f1 0x01 t gd ga gb 21]
  | .slt t gd ga gb => [f1 0x01 t gd ga gb 22]
  | .sltu t gd ga gb => [f1 0x01 t gd ga gb 23]
  | .clz t gd ga => [f1 0x01 t gd ga 0 24]
  | .ctz t gd ga => [f1 0x01 t gd ga 0 25]
  | .popc t gd ga => [f1 0x01 t gd ga 0 26]
  | .mov t gd ga => [f1 0x01 t gd ga 0 27]
  | .sel t gd ga gb => [f1 0x01 t gd ga gb 28]
  | .sext t gd ga gb => [f1 0x01 t gd ga gb 29]
  | .addi t gd ga i => [f2 0x02 t gd ga i]
  | .andi t gd ga i => [f2 0x03 t gd ga i]
  | .ori t gd ga i => [f2 0x04 t gd ga i]
  | .xori t gd ga i => [f2 0x05 t gd ga i]
  | .shli t gd ga n => [fsh t gd ga n 0]
  | .shri t gd ga n => [fsh t gd ga n 1]
  | .srai t gd ga n => [fsh t gd ga n 2]
  | .rotli t gd ga n => [fsh t gd ga n 3]
  | .slti t gd ga i => [f2 0x07 t gd ga i]
  | .sltiu t gd ga i => [f2 0x08 t gd ga i]
  | .movi t gd i => [f2l 0x09 t gd i]
  | .movhi t gd i => [f2l 0x0A t gd i]
  | .li t gd i => [f2l 0x0B t gd (i.extractLsb' 28 17), (0 : BitVec 4) ++ i.extractLsb' 0 28]
  | .bra t o => [f4 0x0C t o]
  | .call t o => [f4 0x0D t o]
  | .bcz t ga c o => [f3 t ga (bcondCode c) o]
  | .jr t ga => [f1 0x0F t 0 ga 0 0]
  | .callr t ga => [f1 0x0F t 0 ga 0 1]
  | .ret t => [f1 0x0F t 0 0 0 2]
  | .loop t gc l n => [f5 t gc (lvlCode l) 0 n]
  | .loopr t gc l n => [f5 t gc (lvlCode l) 1 n]
  | .ldb t g h o => [f2 0x11 t g h o]
  | .ldh t g h o => [f2 0x12 t g h o]
  | .ldw t g h o => [f2 0x13 t g h o]
  | .ldd t g h o => [f2 0x14 t g h o]
  | .stb t g h o => [f2 0x15 t g h o]
  | .sth t g h o => [f2 0x16 t g h o]
  | .stw t g h o => [f2 0x17 t g h o]
  | .std t g h o => [f2 0x18 t g h o]
  | .ldbs t g h o => [f1 0x19 t g h o 0]
  | .ldhs t g h o => [f1 0x19 t g h o 1]
  | .ldws t g h o => [f1 0x19 t g h o 2]
  | .ldbx t g h o => [f1 0x19 t g h o 3]
  | .ldhx t g h o => [f1 0x19 t g h o 4]
  | .ldwx t g h o => [f1 0x19 t g h o 5]
  | .lddx t g h o => [f1 0x19 t g h o 6]
  | .ldbsx t g h o => [f1 0x19 t g h o 7]
  | .ldhsx t g h o => [f1 0x19 t g h o 8]
  | .ldwsx t g h o => [f1 0x19 t g h o 9]
  | .stbx t g h o => [f1 0x19 t g h o 10]
  | .sthx t g h o => [f1 0x19 t g h o 11]
  | .stwx t g h o => [f1 0x19 t g h o 12]
  | .stdx t g h o => [f1 0x19 t g h o 13]
  | .xlate t hd ga req => [f1 0x1A t hd ga ((0 : BitVec 1) ++ req) 0]
  | .hinv t hd => [f1 0x1A t hd 0 0 1]
  | .hqry t gd hs k => [f1 0x1A t gd hs (hwCode k) 2]
  | .hmov t hd hs => [f1 0x1A t hd hs 0 3]
  | .hnarrow t hd hs gb => [f1 0x1A t hd hs gb 4]
  | .qpush t ga d => [f1 0x1B t 0 ga (dirCode d) 0]
  | .qpop t gd d => [f1 0x1B t gd 0 (dirCode d) 1]
  | .qpeek t gd d => [f1 0x1B t gd 0 (dirCode d) 2]
  | .tokw t d n => [f1 0x1B t 0 ((0 : BitVec 1) ++ n) (dirCode d) 3]
  | .toks t d n => [f1 0x1B t 0 ((0 : BitVec 1) ++ n) (dirCode d) 4]
  | .mbxrd t gd mb => [f1 0x1B t gd 0 ((0 : BitVec 2) ++ mb) 5]
  | .mbxack t ga => [f1 0x1B t 0 ga 0 6]
  | .vld t o => f7mem t 0 o.y o.z o.vd o.ga o.h o.off 0 o.pg o.ty
  | .vst t o => f7mem t 1 o.y false o.vs o.ga o.h o.off 0 o.pg o.ty
  | .vlds t o => f7mem t 2 o.y o.z o.vd o.ga o.h o.off (g6 o.gs) o.pg o.ty
  | .vsts t o => f7mem t 3 o.y false o.vs o.ga o.h o.off (g6 o.gs) o.pg o.ty
  | .vgath t o => f7mem t 4 o.y o.z o.vd o.ga o.h o.off o.vi o.pg o.ty
  | .vscat t o => f7mem t 5 o.y false o.vs o.ga o.h o.off o.vi o.pg o.ty
  | .vbcast t o => f7v 0x20 t 6 o.y o.z o.vd (g6 o.gs) 0 0 o.pg o.ty .rne false 0
  | .vmovg t y gd va gl => f7v 0x20 t 7 y false (g6 gd) va (g6 gl) 0 0 .fp32 .rne false 0
  | .vmovl t y vd gs gl => f7v 0x20 t 8 y false vd (g6 gs) (g6 gl) 0 0 .fp32 .rne false 0
  | .vadd t o => f7bin t 0 o
  | .vsub t o => f7bin t 1 o
  | .vmul t o => f7bin t 2 o
  | .vfma t o => f7tri t 3 o
  | .vfms t o => f7tri t 4 o
  | .vfnma t o => f7tri t 5 o
  | .vmin t o => f7binT 0x21 t 6 o
  | .vmax t o => f7binT 0x21 t 7 o
  | .vabs t o => f7unT 0x21 t 8 o
  | .vneg t o => f7unT 0x21 t 9 o
  | .vrcp t o => f7un t 10 o
  | .vrsqrt t o => f7un t 11 o
  | .vsqrt t o => f7un t 12 o
  | .vdiv t o => f7bin t 13 o
  | .vcmp t o => f7v 0x22 t 0 o.y o.z (p6 o.pd) o.va o.vb 0 o.pg o.ty .rne false ((0 : BitVec 3) ++ vcondCode o.cond)
  | .vclass t o => f7unT 0x22 t 1 o
  | .vsel t o => f7v 0x22 t 2 o.y false o.vd o.va o.vb 0 o.pg .fp32 .rne false 0
  | .viadd t o => f7binS t 0 o
  | .visub t o => f7binS t 1 o
  | .vimul t o => f7binS t 2 o
  | .vimulh t o => f7binT 0x23 t 3 o
  | .vand t o => f7binB t 4 o
  | .vor t o => f7binB t 5 o
  | .vxor t o => f7binB t 6 o
  | .vnot t o => f7v 0x23 t 7 o.y o.z o.vd o.va 0 0 o.pg .fp32 .rne false 0
  | .vshl t o => f7binT 0x23 t 8 o
  | .vshr t o => f7binT 0x23 t 9 o
  | .vsra t o => f7binT 0x23 t 10 o
  | .vimin t o => f7binT 0x23 t 11 o
  | .vimax t o => f7binT 0x23 t 12 o
  | .viabs t o => f7v 0x23 t 13 o.y o.z o.vd o.va 0 0 o.pg o.ty .rne o.sat 0
  | .vcvt t o => f7v 0x24 t 0 o.y o.z o.vd o.va 0 0 o.pg o.dst o.rm o.sat ((0 : BitVec 2) ++ tyCode o.src)
  | .vpack4 t o => f7v 0x24 t 1 o.y false o.vd o.va o.vb 0 0 .fp32 .rne o.sat 0
  | .vunpack4 t o => f7v 0x24 t 2 o.y o.z o.vd o.va 0 0 o.pg .fp32 .rne false ((0 : BitVec 5) ++ BitVec.ofBool o.half)
  | .vpermb t o => f7triB t 0 o
  | .vpermw t o => f7triB t 1 o
  | .vrot t o => f7v 0x25 t 2 o.y o.z o.vd o.va 0 (g6 o.gk) o.pg .fp32 .rne false 0
  | .vslide t o => f7v 0x25 t 3 o.y o.z o.vd o.va o.vb (g6 o.gk) o.pg .fp32 .rne false 0
  | .vti t o => f7v 0x26 t 0 o.y o.z o.vd o.va 0 0 o.pg o.ty o.rm o.sat ((0 : BitVec 2) ++ o.k)
  | .vtiload t o => f7v 0x26 t 1 o.y false (p6 o.k) (g6 o.ga) (g6 o.h) (g6 o.gcfg) 0 .fp32 .rne false 0
  | .vrand t o => f7v 0x26 t 2 o.y o.z o.vd (g6 o.gk) (g6 o.gc) 0 o.pg o.ty .rne false 0
  | .vxsum t o => f7v 0x26 t 3 o.y false (g6 o.gr) o.va (o.vb.getD 0) (g6 o.gc) o.pg o.ty .rne false ((0 : BitVec 1) ++ BitVec.ofBool o.vb.isSome ++ o.grp)
  | .vtopk t o => f7v 0x26 t 4 o.y false o.vd o.va o.vb 0 0 .fp32 .rne false o.km1
  | .pset t o => f7p t 0 o.y o.z (p6 o.pd) (g6 o.gn) (g6 o.gr) o.pg
  | .pand t o => f7p t 1 o.y o.z (p6 o.pd) (p6 o.pa) (p6 o.pb) o.pg
  | .por t o => f7p t 2 o.y o.z (p6 o.pd) (p6 o.pa) (p6 o.pb) o.pg
  | .pxor t o => f7p t 3 o.y o.z (p6 o.pd) (p6 o.pa) (p6 o.pb) o.pg
  | .pnot t o => f7p t 4 o.y o.z (p6 o.pd) (p6 o.pa) 0 o.pg
  | .pcnt t o => f7p t 5 o.y false (g6 o.gd) (p6 o.pa) 0 o.pg
  | .pfirst t o => f7p t 6 o.y false (g6 o.gd) (p6 o.pa) 0 o.pg
  | .plen t o => f7p t 7 o.y o.z (p6 o.pd) (g6 o.gn) 0 o.pg
  | .pmov t o => f7p t 8 o.y o.z (p6 o.pd) (p6 o.pa) 0 o.pg
  | .tcfg t y td gs => f8 0x30 t 0 ⟨td, 0, 0, 0, 0, 0, gs, 0, mod12 y 0⟩
  | .tld t o => f8 0x30 t 1 ⟨o.td, 0, 0, 0, 0, 0, o.go, o.gp, mod12 o.y ((0 : BitVec 2) ++ tyCode o.ty ++ o.h)⟩
  | .tst t o => f8 0x30 t 2 ⟨o.td, 0, 0, 0, 0, 0, o.go, o.gp, mod12 o.y ((0 : BitVec 6) ++ o.h)⟩
  | .tzero t y td => f8 0x30 t 3 ⟨td, 0, 0, 0, 0, 0, 0, 0, mod12 y 0⟩
  | .tfromv t o => f8 0x30 t 4 ⟨o.td, 0, 0, 0, 0, 0, o.gr, 0, mod12 o.y ((0 : BitVec 4) ++ BitVec.ofBool o.half ++ o.va)⟩
  | .mma t o => f8 0x31 t 0 ⟨0, o.ta, o.tb, o.gn, o.gc, o.split, 0, 0, mod12 o.y 0⟩
  | .mmaz t o => f8 0x31 t 1 ⟨0, o.ta, o.tb, o.gn, o.gc, o.split, 0, 0, mod12 o.y 0⟩
  | .anchor t y gc gn ga => f8 0x32 t 0 ⟨0, 0, 0, gn, gc, 0, ga, 0, mod12 y 0⟩
  | .acczero t y gc gn => f8 0x32 t 1 ⟨0, 0, 0, gn, gc, 0, 0, 0, mod12 y 0⟩
  | .accflags t y gd gc gn clr => f8 0x32 t 2 ⟨0, 0, 0, gn, gc, 0, gd, 0, mod12 y ((0 : BitVec 10) ++ BitVec.ofBool clr)⟩
  | .drain t o => f8 0x32 t 3 ⟨0, 0, 0, o.gn, o.gc, o.split, o.grows, o.go, mod12 o.y ((0 : BitVec 6) ++ o.h)⟩
  | .epcfg t o => f8 0x32 t 4 ⟨0, 0, 0, o.gidx, 0, 0, o.gcfg, o.go, mod12 o.y ((0 : BitVec 6) ++ o.h)⟩
  | .topkrd t y grows go h => f8 0x32 t 5 ⟨0, 0, 0, 0, 0, 0, grows, go, mod12 y ((0 : BitVec 6) ++ h)⟩
  | .topkclr t y grows gk => f8 0x32 t 6 ⟨0, 0, 0, gk, 0, 0, grows, 0, mod12 y 0⟩
  | .accsv t y gc gn go h => f8 0x32 t 7 ⟨0, 0, 0, gn, gc, 0, 0, go, mod12 y ((0 : BitVec 6) ++ h)⟩
  | .accrs t y gc gn go h => f8 0x32 t 8 ⟨0, 0, 0, gn, gc, 0, 0, go, mod12 y ((0 : BitVec 6) ++ h)⟩
  | .cpy t o => f9 0x38 t 0 (({ f9z with
      hd := o.hd, hs := o.hs, gshape := o.gshape, flags := flags3 o.hdr.y ((0 : BitVec 1) ++ BitVec.ofBool o.side), gdo := o.gdo, gso := o.gso,
      split := o.split, gv := o.gv, w3 := dataW3 0 0 0 o.flag false } : F9).setHdr o.hdr)
  | .cpyt t o => f9 0x38 t 1 (({ f9z with
      hs := o.hs, flags := flags3 o.hdr.y 0, gso := o.gso, split := o.split, gv := o.gv,
      w3 := o.td ++ BitVec.ofBool o.fo ++ BitVec.ofBool o.fz ++ o.fta ++ o.ftb ++ o.fgn ++ o.fgc ++ o.fsplit ++ (0 : BitVec 4) } : F9).setHdr o.hdr)
  | .gath t o => f9 0x38 t 2 (({ f9z with
      hd := o.hd, hs := o.hs, flags := flags3 o.hdr.y 0, gdo := o.gdo, gso := o.gso, split := o.split, gv := o.gv,
      w3 := dataW3 o.esz o.hi o.gio flag0 false } : F9).setHdr o.hdr)
  | .scat t o => f9 0x38 t 3 (({ f9z with
      hd := o.hd, hs := o.hs, flags := flags3 o.hdr.y 0, gdo := o.gdo, gso := o.gso, split := o.split, gv := o.gv,
      w3 := dataW3 o.esz o.hi o.gio o.flag false } : F9).setHdr o.hdr)
  | .cpyaccIadd32 t o => f9acc t 0 o
  | .cpyaccIadd64 t o => f9acc t 1 o
  | .cpyaccXadd t o => f9acc t 2 o
  | .cpyaccOr t o => f9acc t 3 o
  | .cpyaccAnd t o => f9acc t 4 o
  | .cpyaccXor t o => f9acc t 5 o
  | .cpyaccImin t o => f9acc t 6 o
  | .cpyaccImax t o => f9acc t 7 o
  | .cpyaccFmin t o => f9acc t 8 o
  | .cpyaccFmax t o => f9acc t 9 o
  | .cpyaccSwap t o => f9acc t 10 o
  | .cpycas t o => f9 0x39 t 1 (({ f9z with
      hd := o.hd, flags := flags3 o.hdr.y 0, gdo := o.gdo, ord := ordCode o.ord, ford := (0 : BitVec 2) ++ BitVec.ofBool o.ford, gv := o.gv,
      gw := o.gw, w3 := dataW3 o.esz 0 0 flag0 false } : F9).setHdr o.hdr)
  | .cpywait t y sel => f9 0x3A t 0 { f9z with seq := sel.getD 0, flags := flags3 y ((0 : BitVec 1) ++ BitVec.ofBool sel.isNone) }
  | .cpypop t y gw => f9 0x3A t 1 { f9z with gw := gw, flags := flags3 y 0 }
  | .shpset t o => f9 0x3A t 2 { f9z with hs := o.hs, gshape := o.gshape, gso := o.gso, gv := o.gv, gw := o.gw, flags := flags3 o.y 0 }
  | .shpclr t y gsh gv gw => f9 0x3A t 3 { f9z with gshape := gsh, gv := gv, gw := gw, flags := flags3 y 0 }
  | .soinit t y hd gv => f9 0x3B t 0 { f9z with hd := hd, gv := gv, flags := flags3 y 0 }
  | .sobind t o => f9 0x3B t 1 { f9z with hd := o.hd, gso := o.gso, gv := o.gv, gw := o.gw, flags := flags3 o.y 0 }
  | .soacq t y hd gw => f9 0x3B t 2 { f9z with hd := hd, gw := gw, flags := flags3 y 0 }
  | .sorel t y hd => f9 0x3B t 3 { f9z with hd := hd, flags := flags3 y 0 }
  | .soarr t y hd gw => f9 0x3B t 4 { f9z with hd := hd, gw := gw, flags := flags3 y 0 }
  | .sowait t y hd gv gw => f9 0x3B t 5 { f9z with hd := hd, gv := gv, gw := gw, flags := flags3 y 0 }
  | .sostat t y hd gw => f9 0x3B t 6 { f9z with hd := hd, gw := gw, flags := flags3 y 0 }
  | .send t o => f9 0x3C t 0 (({ f9z with hs := o.hs, gso := o.gso, gv := o.gv, flags := flags3 o.hdr.y 0, w3 := linkW3 o.port o.slot o.first } : F9).setHdr o.hdr)
  | .recv t o => f9 0x3C t 1 (({ f9z with hd := o.hd, gdo := o.gdo, gv := o.gv, flags := flags3 o.hdr.y 0, w3 := linkW3 o.port o.slot o.first } : F9).setHdr o.hdr)
  | .sendu t o => f9 0x3C t 2 (({ f9z with
      hd := o.hd, hs := o.hs, gdo := o.gdo, gso := o.gso, gv := o.gv, gw := o.gw, flags := flags3 o.hdr.y 0, w3 := dataW3 0 0 0 o.flag false } : F9).setHdr o.hdr)
  | .dgbeg t y k => f9 0x3E t 0 { f9z with flags := flags3 y k }
  | .dgadd t y k hs gso gv => f9 0x3E t 1 { f9z with hs := hs, gso := gso, gv := gv, flags := flags3 y k }
  | .dgend t y k hd gdo => f9 0x3E t 2 { f9z with hd := hd, gdo := gdo, flags := flags3 y k }
  | .gbind t o => match o.src with
    | some (hs, gso) => f9ge t 0 o.hdr o.hd hs o.gdo gso 0 0 0 0 0
    | none => f9ge t 0 o.hdr o.hd 0 o.gdo 0 2 0 0 0 0
  | .gbindUnbind t h n => f9ge t 0 h 0 0 0 0 (BitVec.ofBool n ++ (1 : BitVec 1)) 0 0 0 0
  | .gmask t o => f9ge t 1 o.hdr o.hd 0 o.gdo 0 0 0 0 0 0
  | .gadv t h gx => f9ge t 2 h 0 0 0 0 0 gx 0 0 0
  | .gfork t h gx gy => f9ge t 3 h 0 0 0 0 0 gx gy 0 0
  | .groll t h gx => f9ge t 4 h 0 0 0 0 0 gx 0 0 0
  | .gcommit t h => f9ge t 5 h 0 0 0 0 0 0 0 0 0
  | .gsave t h => f9ge t 6 h 0 0 0 0 0 0 0 0 0
  | .grest t o => f9ge t 7 o.hdr o.hd o.hs o.gdo o.gso 0 0 0 0 0
  | .seqck t h gx => f9ge t 8 h 0 0 0 0 0 gx 0 0 0
  | .seqroll t h gx => f9ge t 9 h 0 0 0 0 0 gx 0 0 0
  | .sample t o => match o.mask with
    | some (hd, gdo) => f9ge t 10 o.hdr hd o.hs gdo o.gso ((1 : BitVec 1) ++ BitVec.ofBool o.qa) o.gx o.gy o.nc o.ktop
    | none => f9ge t 10 o.hdr 0 o.hs 0 o.gso ((0 : BitVec 1) ++ BitVec.ofBool o.qa) o.gx o.gy o.nc o.ktop
  | .accept t o => f9ge t 11 o.hdr 0 o.hs 0 o.gso ((0 : BitVec 1) ++ BitVec.ofBool o.qa) o.gx o.gy o.nc 0
  | .accmb t o => f9ge t 12 o.hdr o.hd o.hs o.gdo o.gso ((0 : BitVec 1) ++ BitVec.ofBool o.qa) 0 o.gy o.nc o.ktop
  | _ => []

/-- Decode a list of words, words beyond the list reading as zero. -/
def decodeWords (ws : List Word) : Decoded := decode (ws.getD 0 0) (ws.getD 1 0) (ws.getD 2 0) (ws.getD 3 0)

/-- Word i of an instruction whose bits are `w`, the first word in bits [31:0] (R2, R159). -/
def wordAt (w i : Nat) : Word := BitVec.ofNat 32 (w / 2 ^ (32 * i))

/-- The instruction that the decoder reads from bits `w`, the first word lowest and every bit above `nbits` zero. -/
def decodeTableWord (nbits w : Nat) : Option Instr :=
  let v := w % 2 ^ nbits
  match decode (wordAt v 0) (wordAt v 1) (wordAt v 2) (wordAt v 3) with
  | .ok i => some i
  | .bad _ => none

end Sys2Proof
end

