-- ==== Sys2Proof/Config.lean ====
section
/-! DEFINITION. The constants of the part, and the free values: functions without a body, so that no proof can use a
value of them (log 8). -/

namespace Sys2Proof

/-- SYND [7:0] of an error record: the spec gives no syndrome code, so it is free, one per record (R386; log 8). -/
opaque Config.syndrome : Nat → BitVec 8
/-- SYND [15:8] of a CORRECTED record: which bit a check code corrected, free, one per record (R386; log 8). -/
opaque Config.correctedBit : Nat → BitVec 8
/-- The device's ECDSA signature of a message with its identity key (R344, R345): the key is the chip's own. -/
opaque Config.ecdsaSign : List Byte → List Byte
/-- The LMS public key of a start, and the signature of a message with one of its leaves (R344, R345). -/
opaque Config.lmsKey : Nat → List Byte
opaque Config.lmsSign : Nat → Nat → List Byte → List Byte
/-- What the two checks of a signed image answer: 0 when it verifies, else a FAIL code (R342, R343); the keys are the
part's own. -/
opaque Config.imageVerdict : List Byte → Fin 5
/-- The identity public key that the PUF gives (R343, R345). -/
opaque Config.identityKey : List Byte
/-- A byte of another package's memory, which is no part of the machine: free, one choice per read (R300; log 8). -/
opaque Config.remoteByte : Nat → Nat → BitVec 8
/-- Byte `j` of record `n` of queue `q` as a host placed it in its own memory: no part of the machine, so free (R330, R332;
log 8). -/
opaque Config.hostRecord : Nat → Nat → Nat → BitVec 8

/-- Byte `j` of the control block that save `n` writes: its layout is the device's own (R84; log 15). -/
opaque Config.controlBlock : Nat → Nat → BitVec 8

end Sys2Proof
end

