-- ==== Sys2Proof/Machine/Errors.lean ====
section
/-! DEFINITION. Error records and the collector's holding buffer (R369 to R389, R458), the freeze of a fret (R384), and
memory access with check bits (R371 to R375). -/

namespace Sys2Proof.Machine

/-- The UNIT numbers of R386. -/
abbrev uStream : Nat := 0
abbrev uCe : Nat := 1
abbrev uMa : Nat := 2
abbrev uDeu : Nat := 3
abbrev uVec : Nat := 4
abbrev uSmp : Nat := 5
abbrev uLe : Nat := 6
abbrev uGe : Nat := 7
abbrev uMu : Nat := 8
abbrev uHbm : Nat := 9
abbrev uHost : Nat := 10
abbrev uDispatch : Nat := 11
abbrev uCkpt : Nat := 12
abbrev uDigest : Nat := 13
abbrev uMc : Nat := 14
abbrev uScrub : Nat := 15

/-- Who met an error: the WHERE and LAUNCH words of R386. -/
structure Who where
  core : Option Nat := none
  stream : Option StreamId := none
  unit : Nat
  port : Nat := 0
deriving DecidableEq, Repr

/-- WHERE (R386). A record of an engine that works on its own names no stream, as in the worked record of a copy (log 28). -/
def Who.place (w : Who) (pkg : Nat) : DWord :=
  let i := if w.unit = uCe || w.unit = uGe || w.unit = uDigest then none else w.stream
  dw (pkg % 1024 + (w.core.getD 0x1FF) % 512 * 2 ^ 16 + (i.elim 0 streamNum) * 2 ^ 26
    + (if i.isSome then 2 ^ 28 else 0) + w.unit * 2 ^ 32 + w.port * 2 ^ 40)

/-- LAUNCH of a core; nothing of a core that no launch holds (R386). -/
def Core.launchWord (k : Core) : DWord :=
  if k.owner.isNone then 0 else dw (k.launchId.toNat + k.ctx.toNat * 2 ^ 32 + (if k.timed then 2 ^ 40 else 0))

/-- The launch number of a launch: queue in [31:20], low 20 bits of its sequence number (R55). -/
def Launch.id (l : Launch) : Nat := l.q % 4096 * 2 ^ 20 + l.seq % 2 ^ 20

/-- LAUNCH of a record: the launch of the core, or, for an LE, of the schedule it serves (R386). -/
def State.launchWord (s : State) (w : Who) : DWord :=
  match w.core with
  | some c => (s.core c).launchWord
  | none =>
    if w.unit = uLe then
      match ((Sparse.get .idle s.les w.port).owner).bind (Sparse.get? s.launches ·) with
      | some l => dw (l.id + l.ctx.toNat * 2 ^ 32 + (if l.timed then 2 ^ 40 else 0))
      | none => 0
    else 0

/-- ADDR: a PPA or array offset with ADDR_VALID, or zero (R386). -/
def addrWord : Option Nat → DWord
  | some a => dw (a % 2 ^ 58 + 2 ^ 63)
  | none => 0

/-- The order of records of one tick: core, then stream, then hub units by UNIT (R388). -/
def ErrRec.key (r : ErrRec) : Nat :=
  let core := bits r.place 24 16
  let st := if bits r.place 28 28 = 1 then bits r.place 27 26 else 4
  ((r.tick.toNat * 512 + core) * 8 + st) * 256 + bits r.place 39 32

def errInsert (e : ErrRec) : List ErrRec → List ErrRec
  | [] => [e]
  | x :: r => if e.key < x.key then e :: x :: r else x :: errInsert e r

/-- Drop the youngest CORRECTED record, if there is one. -/
def dropYoungest : List ErrRec → Option (List ErrRec)
  | [] => none
  | x :: r =>
    match dropYoungest r with
    | some r' => some (x :: r')
    | none => if x.cls = 1 then some r else none

/-- Saturating increment of ERRQ_LOST (R387). -/
def satInc (v : BitVec 32) : BitVec 32 := if v = 0xFFFFFFFF then v else v + 1

/-- Hand a record to the holding buffer of 64 (R388). -/
def Collector.accept (k : Collector) (r : ErrRec) : Collector :=
  if k.held.length < 64 then { k with held := errInsert r k.held }
  else if r.cls = 1 then { k with lost := satInc k.lost }
  else
    match dropYoungest k.held with
    | some h => { k with held := errInsert r h, lost := satInc k.lost }
    | none => { k with waiting := errInsert r k.waiting }

/-- The core, or else the hub unit, that the CORRECTED events of a record are folded by (R388). -/
def foldUnit (place : DWord) : Nat := if bits place 24 16 = 0x1FF then 0x200 + bits place 39 32 else bits place 24 16

/-- Add one to the COUNT of the CORRECTED record of an array and unit that this period has made; `none` when it is no longer held. -/
def bumpHeld (array : Byte) (unit period : Nat) : List ErrRec → Option (List ErrRec)
  | [] => none
  | x :: r =>
    if x.cls = 1 ∧ x.array = array ∧ foldUnit x.place = unit ∧ x.tick.toNat / 2 ^ 20 = period then
      some ({ x with count := min 255 (x.count + 1) } :: r)
    else (bumpHeld array unit period r).map (x :: ·)

/-- CORRECTED events of one array and unit fold into one record per 2^20-tick period (R388). -/
def Collector.corrected (k : Collector) (period : Nat) (r : ErrRec) : Collector :=
  let unit := foldUnit r.place
  let mine (f : Fold) : Bool := f.array = r.array.toNat && f.unit = unit
  match k.folds.find? mine with
  | some f =>
    if f.period = period then
      match bumpHeld r.array unit period k.held with
      | some h => { k with held := h }
      | none => { k with folds := k.folds.map fun g => if mine g then { g with pending := g.pending + 1 } else g }
    else
      let k := { k with folds := k.folds.map fun g => if mine g then { g with period := period, pending := 0 } else g }
      k.accept { r with count := min 255 f.pending }
  | none => Collector.accept { k with folds := k.folds ++ [⟨r.array.toNat, unit, period, 0⟩] } r

/-- The island stands at point 3: its clock is stopped (R21, R340, R341). -/
def State.gated (s : State) (i : Nat) : Bool := (Sparse.get? s.islands i).any (·.point = 3)

/-- The key of granule `g` of an array in the check state of a core, or of the hub. -/
def softKey (array g : Nat) : Nat := array * 2 ^ 40 + g

/-- Raise a record, unless the collector has no power (R340, R341); its write to the ring is work of the collector, and the place of the holding
buffer that it takes gets fresh check bits (R373, R383, R388). SYND: 0xFF in the bit position where
nothing was corrected, zero for an error of no array. -/
def State.raise (s : State) (cls code array : Nat) (w : Who) (addr : Option Nat) (i0 i1 : DWord) : State :=
  let synd : DWord :=
    if array = 0 then 0
    else if cls = 1 && code ≠ 2 then ((Config.correctedBit s.freeCtr) ++ (Config.syndrome s.freeCtr)).zeroExtend 64
    else ((0xFF#8) ++ (Config.syndrome s.freeCtr)).zeroExtend 64
  let r : ErrRec :=
    { cls := cls, code := BitVec.ofNat 8 code, array := BitVec.ofNat 8 array, count := 0, tick := dw s.tick,
      place := w.place s.pkg, launch := s.launchWord w, addr := addrWord addr, synd := synd, info0 := i0, info1 := i1 }
  let col := if cls = 1 then s.col.corrected (s.tick / 2 ^ 20) r else s.col.accept r
  let slot := softKey 13 ((s.col.tail.toNat + s.col.held.length) % 64 * 8)
  if s.gated 990 then s
  else { s with col := col, freeCtr := s.freeCtr + (if array = 0 then 0 else 1), soft := Sparse.clear s.soft slot (slot + 8) }.planOnce (s.now + 1) 40 .errorRecordWrite

/-- A unit whose record the collector has not taken yet: a unit of a core, with the stream if it is one, or a hub unit with its port (R388). -/
def State.recordWaits (s : State) (core : Option Nat) (i : Option StreamId) (unit port : Nat) : Bool :=
  s.col.waiting.any fun r =>
    bits r.place 24 16 = core.getD 0x1FF && bits r.place 39 32 = unit && bits r.place 47 40 = port
      && i.all fun i => bits r.place 28 28 = 1 && bits r.place 27 26 = streamNum i

/-! ### Freeze -/

/-- The stall wire acts in period `now` (R75, R384). -/
def Fret.stalled (f : Fret) (now : Nat) : Bool :=
  ((f.frozen || f.misses > 0) && f.wireFrom ≤ now) || now < f.wireTo

/-- Assert the wire of a fret from the next period. -/
def Fret.assert (f : Fret) (now : Nat) : Fret :=
  if f.frozen || f.misses > 0 then f else { f with wireFrom := now + 1 }

/-- Drop the wire in the period after `now`, if nothing holds it (R384, R409). -/
def Fret.release (f : Fret) (now : Nat) : Fret :=
  if f.frozen || f.misses > 0 then f else { f with wireTo := now + 1 }

/-- Freeze the fret of a core by an error (R384). -/
def State.freeze (s : State) (c : Nat) : State :=
  s.modFret (s.core c).fret fun f => { f.assert s.now with frozen := true }

/-- The timed regime applies to a core from SCHEDBASE on (R111). -/
def State.timedAt (s : State) (c : Nat) : Bool :=
  (s.core c).timed && (s.core c).schedbase.toNat ≤ s.tick

/-- A notice of the MC on the time tree: down from the root or from the package that acts as root for the schedule, up toward the parent from
every other (R424, R436, R441). -/
def State.treeSend (s : State) (root : Nat) (n : TreeNotice) : State :=
  s.emit (if s.mu.root || root = s.pkg then .down n else .up s.mu.parent.toNat n)

/-- The run of a launch's schedule is void: one notice of R424 goes from this package, whichever of its launches has met the error (R424 step
3); its effect is at the receipt. -/
def State.voidsOf (s : State) (l : Option Nat) (cls code : Nat) : State :=
  match l.bind (Sparse.get? s.scheds ·) with
  | some d =>
    if d.void || d.voided then s
    else
      { s with scheds := s.scheds.map fun (e : Nat × Sched) => if e.2.id = d.id then (e.1, { e.2 with void := true }) else e : State }.treeSend d.rootPkg
        (.void d.id cls code (dw s.tick))
  | none => s

/-- The run of the launch on a core is void. -/
def State.voids (s : State) (c cls code : Nat) : State := s.voidsOf (s.core c).owner cls code

/-- The runs of every schedule of the package are void (R437). -/
def State.voidsAll (s : State) (cls code : Nat) : State := s.scheds.foldl (fun s e => s.voidsOf (some e.1) cls code) s

/-- A CONTAINED error met by a stream or engine of a core: record, freeze, and void where the run is timed (R375,
R383, R424). -/
def State.contain (s : State) (code array : Nat) (w : Who) (addr : Option Nat) (i0 : DWord := 0) : State :=
  let s := s.raise 2 code array w addr i0 0
  match w.core with
  | some c => let t := s.timedAt c; let s := s.freeze c; if t then s.voids c 2 code else s
  | none => s

/-! ### Memory with check bits -/

/-- ARRAY of a local address: 1 scratchpad, 8 HBM, 11 hub tables (R371). -/
def arrayOf (l : Nat) : Nat :=
  match place l with
  | .hbm => 8
  | .spad _ _ => 1
  | _ => 11

/-- First granule of `[l, l+n)` that no code can correct, by its address (R372). -/
def State.uncorr (s : State) (l n : Nat) : Option Nat :=
  if n = 0 then none
  else (s.dmg.find? fun e => l / 8 ≤ e.1 && e.1 ≤ (l + n - 1) / 8 && !e.2.fixable).map fun e => e.1 * 8

/-- A corrected error: a core counts those of its own arrays (R369, R381). -/
def State.corrected (s : State) (code array : Nat) (w : Who) (addr : Option Nat) : State :=
  (match w.core with
    | some c => s.modCore c (·.count 74)
    | none => s).raise 1 code array w addr 0 0

/-- The core whose array holds what unit `w` meets, with its stream where it is the core's own. -/
def Who.on (w : Who) (c : Nat) : Who := { w with core := some c, stream := if w.core = some c then w.stream else none }

/-- A corrected granule of memory at local address `a`, met by unit `w` (R386). -/
def State.correctedAt (s : State) (w : Who) (a : Nat) : State :=
  match place a with
  | .spad c _ => s.corrected 1 1 (w.on c) (some (mkPpa s.pkg a))
  | _ => s.corrected 1 8 { unit := uHbm } (some (mkPpa s.pkg a))

/-- A read by unit `w` that delivers corrected values counts them and makes CORRECTED records (R372, R381). -/
def State.touch (s : State) (w : Who) (l n : Nat) : State :=
  let hits := if n = 0 then [] else s.dmg.filter fun e => l / 8 ≤ e.1 && e.1 ≤ (l + n - 1) / 8 && e.2.fixable
  if hits = [] then s
  else hits.foldl (fun s e => s.correctedAt w (e.1 * 8)) { s with dmg := s.dmg.map fun e => if hits.contains e then (e.1, .met) else e }

/-- A journal record: line address, write tick, old bytes, reserved bytes (R45); and its fields. -/
def journalRec (line : Nat) (tick : DWord) (old : List Byte) : List Byte :=
  leBytes 8 line ++ leBytes 8 tick.toNat ++ old ++ List.replicate 48 0
def recLine (r : List Byte) : Nat := leNat (r.take 8)
def recOld (r : List Byte) : List Byte := (r.drop 16).take 64

/-- First writes to an HBM line are journalled; the controller reads the old bytes, and forwards none that no code can correct (R45, R372,
R440). -/
def State.journalLine (s : State) (line : Nat) : State :=
  if !s.journal.on || s.journal.full || s.journal.recs.any (fun r => recLine r = line) then s
  else
    let recs := journalRec line (dw s.tick) (s.mem.read line 64) :: s.journal.recs
    let bad := (s.dmg.filter fun e => line / 8 ≤ e.1 && e.1 < line / 8 + 8 && !e.2.fixable).map (·.1)
    let s := bad.foldl (fun s g => s.raise 2 1 8 { unit := uHbm } (some (mkPpa s.pkg (8 * g))) 0 0) (s.touch { unit := uHbm } line 64)
    { s with journal := { s.journal with recs := recs, full := recs.length ≥ 2 ^ 24, bad := bad ++ s.journal.bad } }

/-- Journal every HBM line of `[l, l+n)`. -/
def State.journalRange (s : State) (l n : Nat) : State :=
  if n = 0 || place l ≠ .hbm then s
  else (List.range ((l + n - 1) / 64 - l / 64 + 1)).foldl (fun s i => s.journalLine ((l / 64 + i) * 64)) s

/-- Lines of HBM that a write of `n` bytes at `l` is the first to reach in this period are noted with what they held (R107, R108). -/
def State.noteLines (s : State) (l n : Nat) : State :=
  if n = 0 || place l ≠ .hbm then s
  else
    let lines := (List.range ((l + n - 1) / 64 - l / 64 + 1)).map (l / 64 + ·)
    { s with hbmWrites := lines.foldl (fun (w : Sparse (List Byte)) k =>
        if (Sparse.get? w k).isSome then w else Sparse.insert w k (s.mem.read (64 * k) 64)) s.hbmWrites }

/-- A line of HBM has been written in this period. -/
def State.lineWritten (s : State) (line : Nat) : Bool := (Sparse.get? s.hbmWrites line).isSome

/-- What a read of this period returns: a write of the same period comes after it (R107). -/
def State.sampled (s : State) (l n : Nat) : List Byte :=
  (s.hbmWrites.foldl (fun (m : Memory) e => m.write (64 * e.1) e.2) s.mem).read l n

/-- Write bytes at a local address: whole granules get fresh check bits; a part of an uncorrectable granule poisons it
and raises the record of R373, a part of a correctable one repairs it, the read before the write being corrected. -/
def State.store (s : State) (w : Who) (l : Nat) (bs : List Byte) : State :=
  let n := bs.length
  let s := (s.journalRange l n).noteLines l n
  let whole (g : Nat) : Bool := l ≤ g * 8 && g * 8 + 8 ≤ l + n
  let hit (g : Nat) : Bool := n ≠ 0 && l / 8 ≤ g && g ≤ (l + n - 1) / 8
  let bad := s.dmg.filter fun e => hit e.1 && !whole e.1 && !e.2.fixable
  let dmg := (s.dmg.filter fun e => !(hit e.1 && (whole e.1 || e.2.fixable))).map fun e =>
    if hit e.1 then (e.1, .poison) else e
  let fixed := s.dmg.filter fun e => hit e.1 && !whole e.1 && e.2.fixable
  let s := fixed.foldl (fun s e => s.correctedAt w (e.1 * 8)) { s with mem := s.mem.write l bs, dmg := dmg }
  bad.foldl (fun s e => s.raise 2 3 (arrayOf (e.1 * 8)) w (some (mkPpa s.pkg (e.1 * 8))) 0 1) s

/-- A read-modify-write of `bs` at local address `l`: the read delivers corrected values and is an event of its own, the write gives fresh check
bits (R369, R372, R373). -/
def State.modify (s : State) (w : Who) (l : Nat) (bs : List Byte) : State :=
  let s := s.touch w l bs.length
  { s with dmg := s.dmg.filter fun (e : Nat × Damage) => !(bs ≠ [] && l / 8 ≤ e.1 && e.1 ≤ (l + bs.length - 1) / 8 && e.2.fixable) : State }.store w l bs

/-! ### The other SECDED arrays (R371 to R373) -/

/-- Check state of the arrays of a core, or of the hub. -/
def State.softOf (s : State) : Option Nat → Sparse Damage
  | some c => (s.core c).soft
  | none => s.soft
def State.setSoft (s : State) (m : Sparse Damage) : Option Nat → State
  | some c => s.modCore c fun k => { k with soft := m }
  | none => { s with soft := m }

/-- A read of `n` bytes from offset `off` of an array: corrected values are counted; the offset of the first granule that no code
can correct (R372). -/
def State.softRead (s : State) (w : Who) (c : Option Nat) (array off n : Nat) : State × Option Nat :=
  let hits := if n = 0 then [] else
    (s.softOf c).filter fun e => softKey array (off / 8) ≤ e.1 && e.1 ≤ softKey array ((off + n - 1) / 8)
  match hits.find? (!·.2.fixable) with
  | some e => (s, some (e.1 % 2 ^ 40 * 8))
  | none =>
    if hits = [] then (s, none) else
    let s := s.setSoft ((s.softOf c).map fun e => if hits.contains e then (e.1, .met) else e) c
    (hits.foldl (fun s e => s.corrected 1 array { w with core := c } (some (e.1 % 2 ^ 40 * 8))) s, none)

/-- A write of `n` bytes from offset `off` of an array (R373). -/
def State.softWrite (s : State) (w : Who) (c : Option Nat) (array off n : Nat) : State :=
  let lo := softKey array 0
  let hit (e : Nat × Damage) : Bool := n ≠ 0 && softKey array (off / 8) ≤ e.1 && e.1 ≤ softKey array ((off + n - 1) / 8)
  let whole (e : Nat × Damage) : Bool := off ≤ (e.1 - lo) * 8 && (e.1 - lo) * 8 + 8 ≤ off + n
  let old := (s.softOf c).filter hit
  if old.isEmpty then s
  else
    let m := ((s.softOf c).filter fun e => !(hit e && (whole e || e.2.fixable))).map fun e => if hit e then (e.1, .poison) else e
    (old.filter (!whole ·)).foldl (fun s e =>
      if e.2.fixable then s.corrected 1 array { w with core := c } (some ((e.1 - lo) * 8))
      else s.raise 2 3 array { w with core := c } (some ((e.1 - lo) * 8)) 0 1) (s.setSoft m c)

/-- The first range of a core's arrays, each array, offset and length, that meets a granule no code can correct: array and offset. -/
def State.softBad (s : State) (c : Nat) (l : List (Nat × Nat × Nat)) : Option (Nat × Nat) :=
  l.findSome? fun (a, off, n) => ((s.softRead { unit := uStream } (some c) a off n).2).map fun g => (a, g)

/-- Reads and writes of ranges of a core's arrays that meet none. -/
def State.softTouch (s : State) (w : Who) (c : Nat) (l : List (Nat × Nat × Nat)) : State :=
  l.foldl (fun s (a, off, n) => (s.softRead w (some c) a off n).1) s
def State.softFill (s : State) (w : Who) (c : Nat) (l : List (Nat × Nat × Nat)) : State :=
  l.foldl (fun s (a, off, n) => s.softWrite w (some c) a off n) s

/-- An engine of a core reads its arrays, and goes on with `f`; what it does not read stops it, contained, as `bad` says (R375). -/
def State.arrays (s : State) (w : Who) (c : Nat) (l : List (Nat × Nat × Nat)) (bad f : State → State) : State :=
  match s.softBad c l with
  | some (a, g) => (bad s).contain 1 a w (some g)
  | none => f (s.softTouch w c l)

/-! Places in the arrays as the images of a save lay them out (R84, R261; log 40). -/

/-- Rows and columns of a tile, the columns `c` to c + n − 1 of rows `r` to r + m − 1 of the accumulators, and of their side array. -/
def tileArr (t row b n : Nat) : List (Nat × Nat × Nat) := [(4, 0x10000 * t + 1024 * row + b, n)]
def sideArr (c n : Nat) : List (Nat × Nat × Nat) := [(3, 0x8000 + 8 * c, 8 * n)]
def bodyArr (r m c n : Nat) : List (Nat × Nat × Nat) :=
  (List.range m).flatMap fun i => [(2, 16 * (512 * (r + i) + c), 16 * n), (3, 512 * (r + i) + c, n)]

/-- Heap rows, EPCFG with EPIDX, DSTAT, BIAS and SCALE of columns `c` to c + n − 1. -/
def heapArr (row n : Nat) : List (Nat × Nat × Nat) := [(6, 512 * row, 512 * n), (6, 0x8000 + 8 * row, 8 * n)]
def epArr : List (Nat × Nat × Nat) := [(6, 0x8200, 16)]
def dstatArr : List (Nat × Nat × Nat) := [(6, 0x8210, 8)]
def biasArr (c n : Nat) : List (Nat × Nat × Nat) := [(6, 0x8400 + 4 * c, 4 * n)]
def scaleArr (c n : Nat) : List (Nat × Nat × Nat) := [(6, 0x8C00 + 4 * c, 4 * n)]

/-- A read of a hub table (11), of MC memory (12) or of the holding buffer (13): where no code can correct it, the package stops (R375). -/
def State.hubRead (s : State) (array off n : Nat) (f : State → State) : State :=
  match s.softRead { unit := uMc } none array off n with
  | (_, some _) => { s with stoppedPkg := true }
  | (s, none) => f s

/-- The MC acts, which reads its memory first (R375; log 40). -/
def State.mcActs (s : State) (f : State → State) : State := s.hubRead 12 0 (2 ^ 23) f

/-- The bytes at a local address, check bits aside. -/
def State.load (s : State) (l n : Nat) : List Byte := s.mem.read l n

/-- A little-endian word of memory. -/
def State.word (s : State) (l : Nat) (n : Nat := 8) : Nat := leNat (s.load l n)

end Sys2Proof.Machine
end

