-- ==== Sys2Proof/Machine/Ops.lean ====
section
/-! DEFINITION. Registers, tokens, queues, the back-edge test, taking an exception and returning from one, and the
issue of an instruction: the order of its checks, its readiness, its retirement (R65 to R72, R173, R186, R195, R377 to
R380). -/

namespace Sys2Proof.Machine

/-- Rank from which engine work of a period comes after the streams: accesses of a tile that enter its order after an instruction of the E
stream of the same tick (R245). -/
abbrev tileRank : Nat := 60

/-- What an instruction or event answers. -/
abbrev Out := Host.Outcome State Fault Refusal

/-! ### Registers -/

/-- G[g]; G0 reads zero (R54, R174). -/
def Stream.gr (x : Stream) (g : G) : DWord := if g = 0 then 0 else Sparse.get 0 x.g g.toNat

/-- Write G[g]; a write to G0 is discarded. -/
def Stream.setG (x : Stream) (g : G) (v : DWord) : Stream :=
  if g = 0 then x else { x with g := Sparse.set 0 x.g g.toNat v }

/-- G[g] of the stream that the step runs for. -/
def State.gr (s : State) (g : G) : DWord := s.me.gr g
def State.setG (s : State) (g : G) (v : DWord) : State := s.modMe (·.setG g v)

/-- Physical numbers of a vector and a predicate name (R175). -/
def Core.vphys (k : Core) (n : V) : Nat :=
  if n.toNat < 16 then n.toNat else 16 + (n.toNat - 16 + k.vrb.toNat) % 48
def Core.pphys (k : Core) (n : P) : Nat :=
  if n.toNat < 8 then n.toNat else 8 + (n.toNat - 8 + k.prb.toNat) % 8

/-- Lanes of a vector register, listed or zero. -/
def Core.vreg (k : Core) (n : V) : Sparse Lane := Sparse.get [] k.v (k.vphys n)

/-- A load that has not ended yet leaves a register that a later instruction writes whole alone (R214). -/
def PortOp.cancel (d : Nat) (o : PortOp) : PortOp :=
  match o.what with
  | .load dst _ _ _ => if dst = d then { o with what := .store } else o
  | _ => o

/-- Write a vector register. -/
def Core.setVreg (k : Core) (n : V) (x : Sparse Lane) : Core :=
  { k with v := Sparse.set [] k.v (k.vphys n) x, port := k.port.map (·.cancel (k.vphys n)) }

/-- A predicate register; P0 reads all-true (R174). -/
def Core.preg (k : Core) (n : P) : Pred := if n = 0 then BitVec.allOnes 512 else Sparse.get 0 k.p (k.pphys n)
def Core.setPreg (k : Core) (n : P) (x : Pred) : Core :=
  if n = 0 then k else { k with p := Sparse.set 0 k.p (k.pphys n) x }

/-- A handle register (R90). -/
def Core.hreg (k : Core) (n : H) : Handle := Sparse.get ⟨0, 0, 0⟩ k.h n.toNat
def Core.setHreg (k : Core) (n : Nat) (x : Handle) : Core := { k with h := Sparse.set ⟨0, 0, 0⟩ k.h n x }

/-- Keys of the scoreboard: G by number, V and P by physical number, H, and the tables of the TIE (R72, R186, R214). -/
def keyG (g : G) : Nat := g.toNat
def Core.keyV (k : Core) (n : V) : Nat := 100 + k.vphys n
def Core.keyP (k : Core) (n : P) : Nat := 200 + k.pphys n
def keyH (h : H) : Nat := 300 + h.toNat
def keyT (t : Nat) : Nat := 400 + t
/-- EPCFG and EPIDX, written by `epcfg` (R252). -/
def keyEp : Nat := 450
/-- The program counter, the loop counters, ROUND, and SRCTR, which an instruction that rounds stochastically advances (R145); a system
register by its index; none for one that is no register of the core (R371). -/
def keyPc : Nat := 40
def keyLoop : Lvl → Nat
  | .lc0 => 41
  | .lc1 => 42
  | .lc2 => 43
def keyRound : Nat := 50
def keySr : Nat := 51
def keySys (idx : Nat) : Nat :=
  if idx = 0x010 then keyRound else if idx = 0x011 then keySr else if idx = 0x012 then 52
  else if 0x021 ≤ idx ∧ idx ≤ 0x023 ∨ idx = 0x030 then 0
  else if 0x800 ≤ idx ∧ idx ≤ 0x807 then 53 + (idx - 0x800) else 5000 + idx
/-- A tile descriptor, a system register of E (R177). -/
def keyTd (n : TN) : Nat := keySys (0x040 + n.toNat)
/-- The token FIFO or data queue from a stream to a neighbour, a result FIFO, a mailbox at the fret's first core, the pending records of the
sampling unit, a window, an entry of the CE buffer: parity alone (R371). -/
def keyFifo (queue : Bool) (i : StreamId) (d : Dir) : Nat := 460 + 4 * streamNum i + (if queue then 2 else 0) + (if d = .succ then 1 else 0)
def keyRf (i : StreamId) : Nat := if i = .a then 480 else 481
def keyMb (n : Nat) : Nat := 490 + n
def keySmp : Nat := 498
def keyWin (n : Nat) : Nat := 420 + n
def keyCe (seq : BitVec 8) : Nat := 600 + seq.toNat

/-- The register of key `k` can be read in period `now` (R72). -/
def Stream.usable (x : Stream) (now k : Nat) : Bool := k = 0 || (Sparse.get 0 x.busy k ≤ now && !x.await.any (·.1 = k))

/-- The registers of `ks` can be read from period `p` on; registers usable by `now` are no longer listed. -/
def Stream.setBusy (x : Stream) (now p : Nat) (ks : List Nat) : Stream :=
  let b := x.busy.filter fun e => now < e.2
  { x with busy := ks.foldl (fun b k => if k = 0 || p ≤ now then b else Sparse.insert b k p) b
           await := x.await.filter fun e => !ks.contains e.1 }

/-- A reply will write G[g], unless a later instruction writes it before. -/
def Stream.awaits (x : Stream) (g : G) (id : Nat) (sync : Bool) : Stream :=
  if g = 0 then x else { x with await := (keyG g, id, sync) :: x.await.filter (·.1 ≠ keyG g) }

/-- The reply to request `id` writes G[g]. -/
def Stream.answered (x : Stream) (g : G) (id : Nat) (v : DWord) : Stream :=
  if x.await.any (fun e => e.1 = keyG g && e.2.1 = id) then { x.setG g v with await := x.await.filter (·.1 ≠ keyG g) } else x

/-- The stream that the step runs for, with the unit that acts for it, as an error names them. -/
def State.myWho (s : State) (unit : Nat) : Who := { core := some s.at.1, stream := some s.at.2, unit := unit }

/-! ### Token FIFOs and data queues -/

/-- Entries taken, counting what has been pushed and cannot be taken yet, what was freed in this period, and
reservations (R66, R201). -/
def Chan.used (c : Chan) : Nat := c.words.length + c.due.length + c.freed + c.resv

/-- Pop `n` words; their entries are free from the next period. -/
def Chan.pop (c : Chan) (n : Nat) : Chan := { c with words := c.words.drop n, freed := c.freed + n }

/-- Push a word that can be taken from period `p` on. -/
def Chan.push (c : Chan) (p : Nat) (w : DWord) : Chan := { c with due := c.due ++ [(.at p, w)] }

/-- `n` tokens that can be taken from period `p` on. -/
def Chan.pushN (c : Chan) (p n : Nat) : Chan := { c with due := c.due ++ List.replicate n (.at p, 0) }

/-- An entry that a GE command's reply will fill, and the reply (R311, R313). -/
def Chan.reserve (c : Chan) (id : Nat) : Chan := { c with due := c.due ++ [(.reply id, 0)] }
def Chan.fill (c : Chan) (id p : Nat) (w : DWord) : Chan :=
  { c with due := c.due.map fun e => if e.1 = .reply id then (.at p, w) else e }

/-- The entry can be taken in period `p`. -/
def Due.ready (p : Nat) : Due → Bool
  | .at q => q ≤ p
  | .reply _ => false

/-- Entries that can be taken in period `p` become available. -/
def Chan.now (c : Chan) (p : Nat) : Chan :=
  { c with words := c.words ++ (c.due.takeWhile fun e => e.1.ready p).map (·.2), due := c.due.dropWhile fun e => e.1.ready p }

/-- The start of period `p`: entries become available in the order of their pushes. -/
def Chan.start (c : Chan) (p : Nat) : Chan := { c.now p with freed := 0 }

/-- The FIFO that a stream pops from its predecessor and from its successor (R66). -/
def Core.tokFrom (k : Core) (i : StreamId) : Dir → Chan
  | .pred => (k.str (streamPred i)).tokSucc
  | .succ => (k.str (streamSucc i)).tokPred
def Core.tokTo (k : Core) (i : StreamId) : Dir → Chan
  | .pred => (k.str i).tokPred
  | .succ => (k.str i).tokSucc
def Core.modTokFrom (k : Core) (i : StreamId) (d : Dir) (f : Chan → Chan) : Core :=
  match d with
  | .pred => k.modStr (streamPred i) fun x => { x with tokSucc := f x.tokSucc }
  | .succ => k.modStr (streamSucc i) fun x => { x with tokPred := f x.tokPred }
def Core.modTokTo (k : Core) (i : StreamId) (d : Dir) (f : Chan → Chan) : Core :=
  match d with
  | .pred => k.modStr i fun x => { x with tokPred := f x.tokPred }
  | .succ => k.modStr i fun x => { x with tokSucc := f x.tokSucc }

/-- The data queue from a neighbour and to a neighbour (R69). -/
def Core.qFrom (k : Core) (i : StreamId) : Dir → Chan
  | .pred => (k.str (streamPred i)).qSucc
  | .succ => (k.str (streamSucc i)).qPred
def Core.qTo (k : Core) (i : StreamId) : Dir → Chan
  | .pred => (k.str i).qPred
  | .succ => (k.str i).qSucc
def Core.modQFrom (k : Core) (i : StreamId) (d : Dir) (f : Chan → Chan) : Core :=
  match d with
  | .pred => k.modStr (streamPred i) fun x => { x with qSucc := f x.qSucc }
  | .succ => k.modStr (streamSucc i) fun x => { x with qPred := f x.qPred }
def Core.modQTo (k : Core) (i : StreamId) (d : Dir) (f : Chan → Chan) : Core :=
  match d with
  | .pred => k.modStr i fun x => { x with qPred := f x.qPred }
  | .succ => k.modStr i fun x => { x with qSucc := f x.qSucc }

/-- The token bits WP, WS, SP, SS (R66). -/
def tokWP (t : Tok) : Nat := if t.getLsbD 3 then 1 else 0
def tokWS (t : Tok) : Nat := if t.getLsbD 2 then 1 else 0
def tokSP (t : Tok) : Nat := if t.getLsbD 1 then 1 else 0
def tokSS (t : Tok) : Nat := if t.getLsbD 0 then 1 else 0

/-! ### Passing control -/

def Stream.loopOf (x : Stream) : Lvl → LoopRec
  | .lc0 => x.l0
  | .lc1 => x.l1
  | .lc2 => x.l2
def Stream.setLoop (x : Stream) (k : Lvl) (l : LoopRec) : Stream :=
  match k with
  | .lc0 => { x with l0 := l }
  | .lc1 => { x with l1 := l }
  | .lc2 => { x with l2 := l }

/-- One step of both rotating bases (R175). -/
def Core.rotate (k : Core) : Core :=
  { k with vrb := if k.vrb = 0 then 47 else k.vrb - 1, prb := k.prb - 1 }

/-- The back-edge test at address `p` over the active loops, innermost first: the core, where control goes, and whether
a back-edge was taken (R195). -/
def backEdge : List Lvl → Core → StreamId → DWord → Core × DWord × Bool
  | [], k, _, p => (k, p, false)
  | n :: r, k, i, p =>
    let l := (k.str i).loopOf n
    if l.active && l.stop = p then
      if 1 < l.lc.toNat then
        let k := k.modStr i fun x => x.setLoop n { l with lc := l.lc - 1 }
        (if l.rot then k.rotate else k, l.start, true)
      else
        let k := k.modStr i fun x =>
          { x.setLoop n { l with lc := 0, active := false } with order := x.order.filter (· ≠ n) }
        backEdge r k i p
    else backEdge r k i p

/-- Control passes sequentially to `p`; `y` is the instruction's own yield mark (R79, R195). -/
def Core.passTo (k : Core) (i : StreamId) (p : DWord) (y : Bool) : Core :=
  let (k, q, b) := backEdge (k.str i).order k i p
  k.modStr i fun x => { x with pc := q, point := y || b }

/-! ### Exceptions -/

/-- The stream is privileged (R172). -/
def Core.privileged (k : Core) (i : StreamId) : Bool := (k.str i).nest || k.ctx = 0

/-- Write the trap registers (R378, R380). -/
def Stream.trapRegs (x : Stream) (cause : Nat) (i0 i1 pc : DWord) : Stream :=
  { x with trapPc := dw (bits pc 16 2 * 4), trapCause := dw (cause % 256), trapInfo0 := i0, trapInfo1 := i1 }

/-- A trap is taken by stream `i` of core `c`, to return to `pc`: into the handler (R378); from SCHEDBASE of a timed
launch, or inside the handler, it escalates to the freeze of the fret instead (R378, R379, R383). DEDUCED (log 69): inside the handler the
trap registers stay as they are. -/
def State.takeTrap (s : State) (c : Nat) (i : StreamId) (cause : Nat) (i0 i1 pc : DWord) : State :=
  let who : Who := { core := some c, stream := some i, unit := uStream }
  let s := s.modCore c (·.count 73)
  if (s.str c i).nest then
    let s := (s.raise 4 cause 0 who none i0 i1).freeze c
    if s.timedAt c then s.voids c 4 cause else s
  else
    let s := s.modStr c i (·.trapRegs cause i0 i1 pc)
    if s.timedAt c then ((s.raise 4 cause 0 who none i0 i1).freeze c).voids c 4 cause
    else
      s.modStr c i fun x =>
        { x with nest := true, pc := dw (0x1E000 + 8 * (cause % 256)), notBefore := s.now + 4, halted := false, point := false }

/-- Return from the handler: NEST clears and control goes to TRAPPC (R209, R378). -/
def Stream.eret (x : Stream) : Stream := { x with nest := false, pc := dw (bits x.trapPc 16 2 * 4), point := false }

/-- A schedule error whose failing operation is of unit `unit` of core `c`, for stream `i` where there is one: record,
trap registers, freeze from the next period, void (R423, R424). -/
def State.schedErr (s : State) (c : Nat) (i : Option StreamId) (unit cause : Nat) (i0 i1 : DWord) (addr : Option Nat := none)
    (pc : Option DWord := none) : State :=
  let s := s.raise 3 cause 0 { core := some c, stream := i, unit := unit } addr i0 i1
  let s := match i with
    | some i => s.modStr c i fun x => x.trapRegs cause i0 i1 (pc.getD x.pc)
    | none => s
  (s.freeze c).voids c 3 cause

/-- Pre-emption is requested and every stream of the core's launch has stopped. -/
def State.stopping (s : State) (c : Nat) : Bool :=
  match (s.core c).owner with
  | none => false
  | some l =>
    (Sparse.get? s.launches l).any (·.phase = .preempting)
      && s.cores.all fun e => e.2.owner ≠ some l || allStreams.all fun i => (e.2.str i).stopped || (e.2.str i).halted

/-! ### Instruction words -/

/-- Word `n` of the instruction store of a core, the supervisor block included (R159, R377). -/
def State.iword (s : State) (c n : Nat) : Word :=
  if n < 0x1E000 / 4 then Sparse.get 0 (s.core c).istore n
  else if n < 0x20000 / 4 then Sparse.get 0 s.sup n
  else 0

/-- TRAPINFO of an encoding, stream, privilege or mode trap: the words w1:w0 and w3:w2, those past `len` zero (R392). -/
def State.infoWords (s : State) (c : Nat) (pc : DWord) (len : Nat) : DWord × DWord :=
  let w (j : Nat) : Word := if j < len then s.iword c (pc.toNat / 4 + j) else 0
  (w 1 ++ w 0, w 3 ++ w 2)

/-! ### Issue -/

/-- What the description of an instruction fixes about its issue. -/
structure Sig where
  t : Tok
  /-- Length in words. -/
  len : Nat := 1
  /-- Streams it is legal on (R170). -/
  streams : List StreamId := allStreams
  priv : Bool := false
  /-- The mode rules allow it (R171, R277). -/
  mode : Bool := true
  y : Bool := false
  /-- What it waits for beyond tokens and registers (R72). -/
  wait : Option Cls := none
  /-- Scoreboard keys it reads, and writes with latency `lat` (R186). -/
  reads : List Nat := []
  writes : List Nat := []
  lat : Nat := 1
  /-- Tokens it pops and pushes beyond its token bits (R202). -/
  popP : Nat := 0
  popS : Nat := 0
  pushP : Nat := 0
  pushS : Nat := 0
  /-- It uses the vector memory port, and so waits for the writes of drains (R255). -/
  port : Bool := false

/-- What the operand checks and the effect of an instruction come to. -/
inductive Res
  /-- A precise trap (R377). -/
  | trap (cause : Nat) (i0 i1 : DWord)
  /-- A schedule error of a unit, with the address it met (R422, R423). -/
  | late (unit cause : Nat) (i0 i1 : DWord) (addr : Option Nat)
  /-- An uncorrectable read: the instruction stops, contained (R375). -/
  | contain (code array unit : Nat) (addr : Option Nat)
  /-- A trap that is the instruction's own effect; it returns to the next instruction (R209). -/
  | soft (cause : Nat) (i0 i1 : DWord)
  /-- Not ready after all. -/
  | wait (c : Cls)
  /-- Done; control passes sequentially to the next instruction. -/
  | seq (s : State)
  /-- The same with a latency that the operands or the arbitration decide (R214). -/
  | seqLat (s : State) (lat : Nat)
  /-- Done; control passes sequentially to `p` (R194). -/
  | seqTo (s : State) (p : DWord)
  /-- Done; control is transferred to `p`, a pre-emption point if `b` (R79, R192). -/
  | jump (s : State) (p : DWord) (b : Bool)
  /-- Done; the program counter stands as the effect left it. -/
  | stay (s : State)
  /-- Issued; the stream waits, and the instruction retires later. -/
  | hold (s : State) (h : Hold)

/-- A drain with output writes outstanding (R255). -/
def Core.drainWrites (k : Core) : Bool := k.drains.any fun d => !d.cfg.getLsbD 19

/-- The first thing that keeps an instruction that passed steps 1 to 5 of R173 from issuing, in the order of the classes
of R348 (R66, R72). -/
def State.notReady (s : State) (g : Sig) : Option Cls :=
  let (c, i) := s.at
  let k := s.core c
  if g.port && k.vmRetry.contains s.now then some .bank
  else if (k.tokFrom i .pred).words.length < tokWP g.t + g.popP
    || (k.tokFrom i .succ).words.length < tokWS g.t + g.popS
    || (tokSP g.t + g.pushP ≠ 0 && 16 < (k.tokTo i .pred).used + tokSP g.t + g.pushP)
    || (tokSS g.t + g.pushS ≠ 0 && 16 < (k.tokTo i .succ).used + tokSS g.t + g.pushS) then some .token
  else if g.wait.isSome then g.wait
  else if g.reads.any fun r => (k.str i).await.any fun e => e.1 = r && e.2.2 then some .sync
  else if g.reads.any fun r => !(k.str i).usable s.now r then some .issued
  else if g.port && s.now ≤ k.vmPort then some .issued
  else if i = .e && k.drainWrites && (g.port || tokSP g.t + tokSS g.t + g.pushP + g.pushS ≠ 0) then some .issued
  else none

/-- Pop and push the tokens of an instruction that retires in period `r` (R66, R67). -/
def Core.moveTokens (k : Core) (i : StreamId) (g : Sig) (r : Nat) : Core :=
  let k := k.modTokFrom i .pred (·.pop (tokWP g.t + g.popP))
  let k := k.modTokFrom i .succ (·.pop (tokWS g.t + g.popS))
  let k := k.modTokTo i .pred (·.pushN (r + 1) (tokSP g.t + g.pushP))
  k.modTokTo i .succ (·.pushN (r + 1) (tokSS g.t + g.pushS))

/-- Pop the tokens of an instruction that retires later, and reserve the entries it will push (R66). -/
def Core.reserveTokens (k : Core) (i : StreamId) (g : Sig) : Core :=
  let k := k.modTokFrom i .pred (·.pop (tokWP g.t + g.popP))
  let k := k.modTokFrom i .succ (·.pop (tokWS g.t + g.popS))
  let k := k.modTokTo i .pred fun c => { c with resv := c.resv + tokSP g.t }
  k.modTokTo i .succ fun c => { c with resv := c.resv + tokSS g.t }

/-- The stream has been looked at in this period: its class and address (R348, R349). -/
def Stream.looked (x : Stream) (c : Cls) : Stream := { x with tried := true, cls := c, clsPc := x.pc }

/-- A grant of the stream's port; after one on the shared port the pointer moves past the stream (R70, R71). -/
def Core.grant (k : Core) : StreamId → Core
  | .e => { k with grantE := true }
  | .c => { k with grantS := true, ptr := .a }
  | .a => { k with grantS := true, ptr := .w }
  | .w => { k with grantS := true, ptr := .c }

/-- The port is granted to the stream that the step runs for. -/
def State.granted (s : State) : State :=
  s.modMyCore fun k => (k.modStr s.at.2 (·.looked .issued)).grant s.at.2

/-- The key under which the parity of a register of the stream `i` is kept (R371): its scoreboard key, apart for each
stream's scalar registers. -/
def parityKey (i : StreamId) (k : Nat) : Nat := if k < 100 then 1000 * (streamNum i + 1) + k else k

/-- ARRAY of a register by its scoreboard key (R371). -/
def regArray (k : Nat) : Nat :=
  if k < 100 then 18 else if k < 200 then 16 else if k < 300 then 17 else if k < 400 then 19 else if k = keyEp then 6 else if k < 460 then 23
  else if k < 480 then 20 else if 490 ≤ k ∧ k < 498 then 22 else if k = keySmp then 25 else if k < 5000 then 21 else 18

/-- Retirement bookkeeping of an instruction that issued (R67, R186). -/
def State.retired (s : State) (g : Sig) : State :=
  let (c, i) := s.at
  s.modCore c fun k =>
    let r := max (k.str i).retireAt (s.now + g.lat - 1)
    let k := { k with parity := k.parity.filter fun p => !(g.writes.any fun w => parityKey i w = p) }
    (k.moveTokens i g r).modStr i fun x => { x.setBusy s.now (s.now + g.lat) g.writes with retireAt := r }

/-- The end of an instruction's issue. -/
def State.finish (s : State) (g : Sig) : Res → State
  | .trap cause i0 i1 => s.granted.takeTrap s.at.1 s.at.2 cause i0 i1 s.me.pc
  | .late unit cause i0 i1 addr => s.granted.schedErr s.at.1 (some s.at.2) unit cause i0 i1 addr
  | .contain code array unit addr =>
    s.granted.contain code array { core := some s.at.1, stream := some s.at.2, unit := unit } addr
  | .soft cause i0 i1 => (s.granted.retired g).takeTrap s.at.1 s.at.2 cause i0 i1 (s.me.pc + dw (4 * g.len))
  | .wait c => s.modMe (·.looked c)
  | .seq t => (t.granted.retired g).modMyCore (·.passTo s.at.2 (s.me.pc + dw (4 * g.len)) g.y)
  | .seqLat t lat => (t.granted.retired { g with lat := lat }).modMyCore (·.passTo s.at.2 (s.me.pc + dw (4 * g.len)) g.y)
  | .seqTo t p => (t.granted.retired g).modMyCore (·.passTo s.at.2 p g.y)
  | .jump t p b => (t.granted.retired g).modMe fun x => { x with pc := p, point := b || g.y }
  | .stay t => t.granted.retired g
  | .hold t h =>
    t.granted.modMyCore fun k =>
      (k.reserveTokens s.at.2 g).modStr s.at.2 fun x => { x with hold := some h, holdTok := g.t, point := g.y }

/-- The token FIFOs that an instruction of stream `i` pops and pushes. -/
def Sig.fifos (g : Sig) (i : StreamId) : List Nat :=
  (if tokWP g.t + g.popP = 0 then [] else [keyFifo false (streamPred i) .succ]) ++ (if tokWS g.t + g.popS = 0 then [] else [keyFifo false (streamSucc i) .pred])
    ++ (if tokSP g.t + g.pushP = 0 then [] else [keyFifo false i .pred]) ++ (if tokSS g.t + g.pushS = 0 then [] else [keyFifo false i .succ])

/-- A register or FIFO that the instruction reads has a parity error (R375). -/
def State.badReg (s : State) (g : Sig) : Option Nat :=
  ((g.reads ++ g.fifos s.at.2).find? fun k => k ≠ 0 && s.myCore.parity.contains (parityKey s.at.2 k)).map regArray

/-- An instruction reads ranges of the arrays of its core, and goes on with `f`; what no code can correct stops it (R375). -/
def State.reading (s : State) (l : List (Nat × Nat × Nat)) (f : State → Res) : Res :=
  match s.softBad s.at.1 l with
  | some (a, g) => .contain 1 a uStream (some g)
  | none => f (s.softTouch (s.myWho uStream) s.at.1 l)

/-- It writes ranges of them. -/
def State.filling (s : State) (l : List (Nat × Nat × Nat)) : State := s.softFill (s.myWho uStream) s.at.1 l

/-- Scratchpad offset of the scalar access that a stream has issued and that has not been granted (R198). -/
def Stream.retrying (x : Stream) : Option Nat :=
  match x.hold with
  | some (.bank _ o _ _) => some o
  | _ => none

/-- The access of a scalar load or store in its tick, or in one in which it retries: nothing is issued again; once granted by its
bank, the instruction retires with the latency that counts from the tick before (R198). After an error the instruction has no further access, and
its stream issues nothing in that tick (R375, R422). -/
def State.finishRetry (s : State) (g : Sig) : Res → State
  | .seq t =>
    t.modMyCore fun k =>
      let i := s.at.2
      let r := max (k.str i).retireAt (s.now - 1 + g.lat - 1)
      let k := k.modTokTo i .pred fun ch => { ch with resv := ch.resv - tokSP g.t }.pushN (r + 1) (tokSP g.t)
      let k := k.modTokTo i .succ fun ch => { ch with resv := ch.resv - tokSS g.t }.pushN (r + 1) (tokSS g.t)
      let k := k.modStr i fun x =>
        { x.setBusy s.now (s.now - 1 + g.lat) g.writes with hold := none, holdTok := 0, retireAt := r }
      let k := { k with parity := k.parity.filter fun p => !(g.writes.any fun w => parityKey i w = p) }
      k.passTo i (s.me.pc + dw (4 * g.len)) g.y
  | .contain code array unit addr =>
    (s.modMe fun x => { x.looked .issued with hold := none, holdTok := 0 }).contain code array { core := some s.at.1, stream := some s.at.2, unit := unit } addr
  | .late unit cause i0 i1 addr =>
    (s.modMe fun x => { x.looked .bank with hold := none, holdTok := 0 }).schedErr s.at.1 (some s.at.2) unit cause i0 i1 addr
  | .hold t h => t.modMe fun x => { x with hold := some h }
  | _ => s

/-- Issue an instruction on the stream that the step runs for: stream, privilege and mode (R173 steps 3 to 5), then
readiness, then the operand checks and the effect. -/
def State.issue (s : State) (g : Sig) (f : State → Res) : Out :=
  let (c, i) := s.at
  let w := s.infoWords c s.me.pc g.len
  if s.me.retrying.isSome then .next (s.finishRetry g (f s))
  else if !g.streams.contains i then .next (s.finish g (.trap 0x08 w.1 w.2))
  else if g.priv && !(s.core c).privileged i then .next (s.finish g (.trap 0x09 w.1 w.2))
  else if !g.mode then .next (s.finish g (.trap 0x0A w.1 w.2))
  else
    match s.notReady g with
    | some cl => .next (s.finish g (.wait cl))
    | none =>
      match s.badReg g with
      | some a => .next (s.finish g (.contain 2 a uStream none))
      | none => .next (s.finish g (f s))

/-- A held instruction of stream `i` of core `c` retires before period `p`, or with the last of the stream's earlier instructions
where that is later (R67); then its tokens can be popped, and control passes sequentially to the next instruction. -/
def State.releaseHold (s : State) (c : Nat) (i : StreamId) (p : Nat) : State :=
  s.modCore c fun k =>
    let x := k.str i
    let t := x.holdTok
    let len := lenOfWord (s.iword c (x.pc.toNat / 4))
    let r := max x.retireAt (p - 1)
    let k := k.modTokTo i .pred fun ch => { ch with resv := ch.resv - tokSP t }.pushN (r + 1) (tokSP t)
    let k := k.modTokTo i .succ fun ch => { ch with resv := ch.resv - tokSS t }.pushN (r + 1) (tokSS t)
    let k := k.modStr i fun x => { x with hold := none, holdTok := 0, retireAt := r }
    k.passTo i (x.pc + dw (4 * len)) x.point

/-- Put back `n` tokens that were popped. -/
def Chan.unpop (c : Chan) (n : Nat) : Chan := { c with words := List.replicate n 0 ++ c.words, freed := c.freed - n }

/-- A held instruction is undone: its tokens return and its reservations end (R173, R410, R420). -/
def State.withdraw (s : State) (c : Nat) (i : StreamId) : State :=
  s.modCore c fun k =>
    let t := (k.str i).holdTok
    let k := k.modTokFrom i .pred (·.unpop (tokWP t))
    let k := k.modTokFrom i .succ (·.unpop (tokWS t))
    let k := k.modTokTo i .pred fun ch => { ch with resv := ch.resv - tokSP t }
    let k := k.modTokTo i .succ fun ch => { ch with resv := ch.resv - tokSS t }
    k.modStr i fun x => { x with hold := none, holdTok := 0 }

/-- The combination trap COMBO and the other traps that report the words (R392). -/
def State.combo (s : State) (len : Nat) : Res :=
  let w := s.infoWords s.at.1 s.me.pc len
  .trap 0x44 w.1 w.2

/-- VALUE: a register value outside its limits (R392). -/
def valueTrap (v : DWord) (g : G) : Res := .trap 0x40 v (dw g.toNat)

end Sys2Proof.Machine
end

