-- ==== Sys2Proof/Machine/Operands.lean ====
section
/-! DEFINITION. Operand forms: handles and the checks of their use (R90, R91, R391, R403), generator windows (R129 to
R133, R139, R453), translation (R92 to R97). -/

namespace Sys2Proof.Machine

/-! ### Handles (R90) -/

def Handle.valid (h : Handle) : Bool := h.w0.getLsbD 63
def Handle.kind (h : Handle) : Nat := bits h.w0 62 61
def Handle.psz (h : Handle) : Nat := bits h.w0 60 59
def Handle.base (h : Handle) : Nat := bits h.w0 57 0
def Handle.desc (h : Handle) : Nat := bits h.w0 45 42
def Handle.woff (h : Handle) : Nat := bits h.w0 41 0
/-- R 8, W 4, A 2, X 1. -/
def Handle.perm (h : Handle) : Nat := bits h.w1 63 60
def Handle.va (h : Handle) : Nat := bits h.w1 47 0
def Handle.ctx (h : Handle) : Nat := bits h.w2 39 32
def Handle.len (h : Handle) : Nat := bits h.w2 30 0

abbrev kMem : Nat := 0
abbrev kGen : Nat := 1
abbrev kSync : Nat := 2
abbrev pR : Nat := 8
abbrev pW : Nat := 4
abbrev pA : Nat := 2
abbrev pX : Nat := 1

/-- A handle with its fields. -/
def mkHandle (valid : Bool) (kind psz base perm va ctx len : Nat) : Handle where
  w0 := dw ((if valid then 2 ^ 63 else 0) + kind % 4 * 2 ^ 61 + psz % 4 * 2 ^ 59 + base % 2 ^ 58)
  w1 := dw (perm % 16 * 2 ^ 60 + va % 2 ^ 48)
  w2 := dw (ctx % 256 * 2 ^ 32 + len % 2 ^ 31)

/-- Clear VALID; the other fields stay (R99, R200). -/
def Handle.invalidate (h : Handle) : Handle := { h with w0 := h.w0 &&& 0x7FFFFFFFFFFFFFFF }

/-- Shift of a page size code (R90). -/
def pageShift : Nat → Nat
  | 0 => 12
  | 1 => 16
  | 2 => 21
  | _ => 30

/-- First VA of the handle's page. -/
def Handle.page (h : Handle) : Nat := h.va / 2 ^ pageShift h.psz * 2 ^ pageShift h.psz

/-- `hnarrow` (R200). -/
def Handle.narrow (h : Handle) (off nlen : Nat) : Handle :=
  let base := if h.kind = kGen then h.desc * 2 ^ 42 + (h.woff + off) % 2 ^ 42 else h.base + off
  mkHandle h.valid h.kind h.psz base h.perm (h.va + off) h.ctx nlen

/-- The core whose scratchpad a PPA of package `pkg` lies in, and the offset there. -/
def spadAt (pkg ppa : Nat) : Option (Nat × Nat) :=
  if ppaPkg ppa ≠ pkg then none
  else
    match place (ppaLocal ppa) with
    | .spad c o => some (c, o)
    | _ => none

/-- Bytes of local address space that each core's scratchpad has to itself (R43). -/
abbrev spadSlot : Nat := 0x400000

/-- The handle's memory lies in the scratchpad of core `c`, and so do the `n` bytes at offset `off` where they are within bounds
(R86, R403 H_SPACE). -/
def State.ownSpad (s : State) (c : Nat) (h : Handle) (off n : Nat) : Bool :=
  match spadAt s.pkg h.base with
  | some (k, o) => k = c && (h.len < off + n || o + off + n ≤ spadSlot)
  | none => false

/-! ### Window descriptors (R130, R131) -/

/-- The context record that a core's launch runs in, with the ROTARY tables of the core's window unit. -/
structure WinView extends CtxRec where
  rotary : Sparse Word
def State.ctxOf (s : State) (c : Nat) : WinView where
  toCtxRec := Sparse.get .idle s.ctxs (s.core c).ctx.toNat
  rotary := (s.core c).rotary

/-- Word `i` of window descriptor `d`. -/
def CtxRec.winWord (x : CtxRec) (d i : Nat) : DWord := Sparse.get 0 x.win (8 * d + i)

/-- PAR[k] (R130). -/
def CtxRec.par (x : CtxRec) (d k : Nat) : Nat :=
  let n := leNat (((List.range 6).map fun i => leBytes 8 (x.winWord d (2 + i)).toNat).flatten)
  n / 2 ^ (6 * k) % 64

/-- The pairs of FMT and GEN that R131 allows. -/
def winPair (fmt gen : Nat) : Bool :=
  match fmt with
  | 0 => gen ≤ 3
  | 1 => gen = 1 || gen = 2
  | 2 => gen = 0
  | 3 => gen = 1 || gen = 2
  | 4 => gen = 4
  | 5 => gen = 4
  | 6 => gen = 4
  | 7 => gen = 4
  | _ => false

/-- A descriptor that may be read through (R131). -/
def CtxRec.winUsable (x : CtxRec) (d : Nat) : Bool :=
  let w0 := x.winWord d 0
  let w1 := x.winWord d 1
  let gen := bits w0 3 0
  let nodes := bits w0 39 32
  w0.getLsbD 63 && winPair (bits w0 7 4) gen
    && (if gen = 2 then 1 ≤ nodes && nodes ≤ 64 else nodes = 0)
    && (gen ≠ 1 || bits w1 31 0 ≠ 0)
    && (gen ≠ 2 || (bits w1 31 0 ≠ 0 && (List.range nodes).all fun k => x.par d k ≤ k))
    && (gen ≠ 3 || (let dim := bits (x.winWord d 2) 8 0; 1 ≤ dim && dim ≤ 256 && bits w1 57 0 % 1024 = 0))

/-- WDESC: the descriptor is unusable or of another context (R131, R139, R403); or the core's window unit is damaged (R375). -/
def State.winBad (s : State) (c : Nat) (h : Handle) : Option Res :=
  let x := s.ctxOf c
  let w0 := x.winWord h.desc 0
  if (s.core c).parity.contains (keyWin h.desc) then some (.contain 2 23 uStream none)
  else if !x.winUsable h.desc || bits w0 47 40 ≠ (s.core c).ctx.toNat then some (.trap 0x67 (dw h.desc) w0) else none

/-- STRAP of the handle's descriptor (R453). -/
def State.strap (s : State) (c : Nat) (h : Handle) : Bool := ((s.ctxOf c).winWord h.desc 0).getLsbD 62

/-! ### Window elements (R133) -/

/-- Does row `row` of a TREE descriptor see node `n` (R133)? -/
def CtxRec.treeSees (x : CtxRec) (d n : Nat) : Nat → Nat → Bool
  | 0, _ => false
  | fuel + 1, a => a = n || (x.par d a ≠ a && CtxRec.treeSees x d n fuel (x.par d a))

/-- FP32 RAMP (R133). -/
def rampFp (start step i : Nat) : Nat :=
  let fi : FVal := .fin (Ex.ofInt i)
  fmtFP32.result .rne false 0 ((f32 start).add .rne (fi.mul (f32 step)))

/-- Element `i` of descriptor `d`, and the size of an element in bits (R132, R133). -/
def WinView.winElem (x : WinView) (d i : Nat) : Nat :=
  let w0 := x.winWord d 0
  let w1 := x.winWord d 1
  let lo := bits w1 31 0
  let hi := bits w1 63 32
  let fmt := bits w0 7 4
  let vis (b : Bool) : Nat :=
    match fmt with
    | 0 => if b then 0 else 0xFF800000
    | 1 => if b then 0 else 0xFF80
    | _ => if b then 1 else 0
  match bits w0 3 0 with
  | 0 => if fmt = 2 then wrap (sext lo 32 + i * sext hi 32) 32 else rampFp lo hi i
  | 1 => vis (((i % lo : Nat) : Int) ≤ (i / lo : Nat) + sext hi 32)
  | 2 =>
    let nodes := bits w0 39 32
    let row := i / lo
    let col := i % lo
    vis (col < hi || (col - hi < nodes && row < nodes && x.treeSees d (col - hi) 64 row))
  | 3 =>
    let dim := bits (x.winWord d 2) 8 0
    let pos := (x.winWord d 3).toNat + i / dim
    let f := (Sparse.get 0 x.rotary (256 * d + i % dim)).toNat
    fmtFP32.result .rne false 0 ((FVal.fin (Ex.ofInt pos)).mul (f32 f))
  | _ => drawBits (cbg64 w1 (x.winWord d 2 + dw i)) (8 * 2 ^ (fmt - 4))

/-- Window byte `b` (R132). -/
def WinView.winByte (x : WinView) (d b : Nat) : Byte :=
  let fmt := bits (x.winWord d 0) 7 4
  if fmt = 3 then
    BitVec.ofNat 8 ((List.range 8).foldl (fun v k => v + x.winElem d (8 * b + k) * 2 ^ k) 0)
  else
    let sz := match fmt with
      | 0 => 4
      | 1 => 2
      | 2 => 4
      | n => 2 ^ (n - 4)
    BitVec.ofNat 8 (x.winElem d (b / sz) / 2 ^ (8 * (b % sz)))

def WinView.winBytes (x : WinView) (d b n : Nat) : List Byte := (List.range n).map fun i => x.winByte d (b + i)

/-! ### Checks of a handle's use (R391 sub-step 4, R403) -/

/-- TRAPINFO0 of a handle trap: number, role, lane or element (R392). -/
def hInfo (n : H) (role lane : Nat) : DWord := dw (n.toNat + role * 2 ^ 8 + lane % 2 ^ 16 * 2 ^ 16)

/-- What an access class reaches: a test of a handle and of the bytes at an offset of it (R86, R403). -/
abbrev Space := Handle → Nat → Nat → Bool

/-- Handle offset of the first byte of `[off, ...)` outside the space: `off` itself, or the start of the next core's scratchpad. -/
def spaceAt (space : Space) (h : Handle) (off : DWord) : DWord :=
  if space h off.toNat 1 then dw (off.toNat + (spadSlot - (ppaLocal (h.base + off.toNat) - spadBase) % spadSlot)) else off

/-- A displacement as a 64-bit two's-complement value. -/
def negOff (x : Int) : DWord := BitVec.ofInt 64 x

/-- VALID, CTX, KIND, space, PERM, in that order. -/
def State.hUse (s : State) (c : Nat) (n : H) (role : Nat) (kinds : List Nat) (perm : Nat) (space : Space) (off : DWord)
    (lane : Nat := 0xFFFF) (size : Nat := 0) : Option Res :=
  let h := (s.core c).hreg n
  let i0 := hInfo n role lane
  if !h.valid then some (.trap 0x60 i0 off)
  else if h.ctx ≠ (s.core c).ctx.toNat then some (.trap 0x61 i0 off)
  else if !kinds.contains h.kind then some (.trap 0x62 i0 off)
  else if !space h off.toNat size then some (.trap 0x63 i0 (spaceAt space h off))
  else if h.perm &&& perm ≠ perm then some (.trap 0x64 i0 off)
  else none

/-- Bounds of `size` bytes at offset `off` (R91). -/
def hBounds (h : Handle) (n : H) (role off size : Nat) (lane : Nat := 0xFFFF) : Option Res :=
  if off + size ≤ h.len then none else some (.trap 0x65 (hInfo n role lane) (dw (max off h.len)))

/-- The range leaves the map of the own package (R403 H_UNMAPPED). -/
def State.hMapped (s : State) (h : Handle) (n : H) (role off size : Nat) (lane : Nat := 0xFFFF) : Option Res :=
  if h.kind = kGen || size = 0 || ppaPkg (h.base + off) ≠ s.pkg then none
  else (unmappedAt (ppaLocal (h.base + off)) size).map fun d => .trap 0x66 (hInfo n role lane) (dw (off + d))

/-- The first failing check of a list. -/
def firstOf : List (Option Res) → Option Res
  | [] => none
  | some r :: _ => some r
  | none :: l => firstOf l

/-- The whole sub-step for one range; a GEN read is also checked for its descriptor. -/
def State.hCheck (s : State) (c : Nat) (n : H) (role : Nat) (kinds : List Nat) (perm : Nat) (space : Space) (off size : Nat)
    (lane : Nat := 0xFFFF) : Option Res :=
  let h := (s.core c).hreg n
  firstOf [s.hUse c n role kinds perm space (dw off) lane size, hBounds h n role off size lane, s.hMapped h n role off size lane,
    if h.kind = kGen then s.winBad c h else none]

/-- The checks up to the map for several ranges of one handle, each with its lane or row: every range is held to the space, then to
the permissions, then to the bounds, then to the map (R391). -/
def State.hRanges (s : State) (c : Nat) (n : H) (role : Nat) (kinds : List Nat) (perm : Nat) (space : Space)
    (rs : List (Int × Nat × Nat)) : Option Res :=
  let h := (s.core c).hreg n
  let first := negOff ((rs.headD (0, 0, 0)).1)
  let out (r : Int × Nat × Nat) : Option Res :=
    if r.1 < 0 || space h r.1.toNat r.2.1 then none else some (.trap 0x63 (hInfo n role r.2.2) (spaceAt space h (negOff r.1)))
  firstOf [s.hUse c n role kinds 0 (fun h _ _ => space h 0 0) first, rs.findSome? out,
    s.hUse c n role kinds perm (fun _ _ _ => true) first,
    rs.findSome? fun r => if r.1 < 0 then some (.trap 0x65 (hInfo n role r.2.2) (negOff r.1)) else hBounds h n role r.1.toNat r.2.1 r.2.2,
    rs.findSome? fun r => s.hMapped h n role r.1.toNat r.2.1 r.2.2]

/-- A load of the own scratchpad or of a window (R86, R91). -/
def State.loadSpace (s : State) (c : Nat) (h : Handle) (off n : Nat) : Bool := h.kind = kGen || s.ownSpad c h off n

/-- Checks of a scalar, vector or TIE load of `size` bytes at offset `off`. -/
def State.chkLoad (s : State) (c : Nat) (n : H) (off size : Nat) : Option Res :=
  s.hCheck c n 4 [kMem, kGen] pR (s.loadSpace c) off size

/-- Checks of a scalar or vector store; through a window PERM is not checked (R453). -/
def State.chkStore (s : State) (c : Nat) (n : H) (off size : Nat) : Option Res :=
  s.hCheck c n 4 [kMem, kGen] (if ((s.core c).hreg n).kind = kGen then 0 else pW) (s.loadSpace c) off size

/-- H_KIND of a store that a descriptor with STRAP = 1 traps (R453). -/
def strapTrap (n : H) (off : Nat) : Res := .trap 0x62 (hInfo n 4 0xFFFF) (dw off)

/-! ### What a checked access reaches -/

/-- Local address of offset `off` of a MEM or SYNC handle. -/
def Handle.local (h : Handle) (off : Nat) : Nat := ppaLocal (h.base + off)

/-- The bytes that a load reads (R91, R132). -/
def State.readH (s : State) (c : Nat) (h : Handle) (off n : Nat) : List Byte :=
  if h.kind = kGen then (s.ctxOf c).winBytes h.desc (h.woff + off) n else s.load (h.local off) n

/-- First uncorrectable granule that a load meets (R372, R375). -/
def State.badH (s : State) (h : Handle) (off n : Nat) : Option Nat :=
  if h.kind = kGen then none else s.uncorr (h.local off) n

/-! ### Translation (R92 to R97) -/

/-- Home core of a VA for pages of shift `k` (R95). -/
def homeOf (va k : Nat) : Nat :=
  let n := va % 2 ^ 48 / 2 ^ k
  (n ^^^ (n / 2 ^ 9) ^^^ (n / 2 ^ 18) ^^^ (n / 2 ^ 27)) % 480

/-- The slice entry that covers a VA, with its home and slot (R95). -/
def State.sliceHit (s : State) (ctx : Byte) (va : Nat) : Option (Nat × Nat × SliceEnt) :=
  (List.range 4).findSome? fun p =>
    let k := pageShift p
    let hm := homeOf va k
    ((Sparse.get [] s.slices hm).find? fun e =>
      e.2.ctx = ctx && e.2.psz.toNat = p && e.2.va / 2 ^ k = va % 2 ^ 48 / 2 ^ k).map fun e => (hm, e.1, e.2)

/-- The handle that a leaf gives for a VA (R93, R96). The spec defines SELF for the kind MEM alone and does not use KIND 3; the model maps a
SYNC leaf with SELF = 1 to the own scratchpad too, and takes a leaf of kind 3 as it stands, for a handle that no access accepts (log 42). -/
def leafHandle (pkg core : Nat) (ctx : Byte) (leaf : DWord) (va req : Nat) : Handle :=
  let psz := bits leaf 55 54
  let k := pageShift psz
  let va := va % 2 ^ 48
  let off := va % 2 ^ k
  let kind := bits leaf 61 60
  let frame := bits leaf 45 0
  let base :=
    if kind = kGen then bits leaf 45 42 * 2 ^ 42 + (bits leaf 29 0 * 4096 + off) % 2 ^ 42
    else if leaf.getLsbD 53 then mkPpa pkg (spadOf core) + frame * 4096 + off
    else frame * 4096 + off
  mkHandle true kind psz base (bits leaf 59 56 &&& req) va ctx.toNat (2 ^ k - off)

/-- Page size codes that a leaf may have at a level (R92). -/
def leafOk (level psz : Nat) : Bool :=
  match level with
  | 2 => psz = 3
  | 1 => psz = 2
  | 0 => psz ≤ 1
  | _ => false

/-- The tree walk from a node at a level: the leaf and the local address of its companion word (R92 to R94, R97). -/
def State.walk (s : State) (va : Nat) : Nat → Nat → Option (DWord × Nat)
  | level, node =>
    let i := va / 2 ^ (12 + 9 * level) % 512
    let e := dw (s.word (ppaLocal node + 8 * i))
    if !e.getLsbD 63 then none
    else if e.getLsbD 62 then
      if leafOk level (bits e 55 54) then some (e, ppaLocal node + 4096 + 8 * i) else none
    else
      match level with
      | 0 => none
      | l + 1 => State.walk s va l (bits e 45 0 * 4096)

/-- Local addresses of the tree entries that a walk reads (R92). -/
def State.walkPath (s : State) (va : Nat) : Nat → Nat → List Nat
  | level, node =>
    let a := ppaLocal node + 8 * (va / 2 ^ (12 + 9 * level) % 512)
    let e := dw (s.word a)
    match level with
    | 0 => [a]
    | l + 1 => a :: if e.getLsbD 63 && !e.getLsbD 62 then State.walkPath s va l (bits e 45 0 * 4096) else []
def State.treePath (s : State) (ctx : Byte) (va : Nat) : List Nat :=
  let root := (Sparse.get .idle s.ctxs ctx.toNat).root
  if root.getLsbD 63 then s.walkPath (va % 2 ^ 48) 3 (bits root 57 0) else []

/-- The first granule of these entries that no code can correct; the walk gets no data from it (R372). -/
def State.treeBad (s : State) (ctx : Byte) (va : Nat) : Option Nat := (s.treePath ctx va).findSome? fun a => s.uncorr a 8
/-- The entries that the MC's walk finds corrected are counted (R372). -/
def State.treeTouch (s : State) (ctx : Byte) (va : Nat) : State := (s.treePath ctx va).foldl (fun s a => s.touch { unit := uMc } a 8) s

/-- The lines that a walk reads, of class 0 (R339). -/
def State.treeLines (s : State) (ctx : Byte) (va : Nat) : List (Nat × Nat × Nat) := (s.treePath ctx va).map fun a => (0, a, 8)

/-- The walk of a context: no leaf where an entry cannot be read (R97, R103, R372; log 9). -/
def State.walkCtx (s : State) (ctx : Byte) (va : Nat) : Option (DWord × Nat) :=
  let root := (Sparse.get .idle s.ctxs ctx.toNat).root
  if root.getLsbD 63 && (s.treeBad ctx va).isNone then s.walk (va % 2 ^ 48) 3 (bits root 57 0) else none

/-- The MC's own translation of a pointer: local address where it is HBM of this package, with the permissions and
whether the leaf is SELF (R59, R84). -/
def State.mcTranslate (s : State) (ctx : Byte) (va : Nat) : Option (Nat × Nat × Bool × Nat) :=
  (s.walkCtx ctx va).map fun (leaf, _) =>
    let h := leafHandle s.pkg 0 ctx leaf va 15
    (h.base, h.perm, leaf.getLsbD 53, h.kind)

/-- Local address of a byte that the MC reads through a context's tree: a MEM page of this package with the permissions, no
SELF page (R59). -/
def State.mcPage (s : State) (ctx : Byte) (perm va : Nat) : Option Nat :=
  match s.mcTranslate ctx va with
  | some (ppa, p, self, kind) =>
    if kind = kMem && !self && p &&& perm = perm && ppaPkg ppa = s.pkg && (unmappedAt (ppaLocal ppa) 1).isNone then some (ppaLocal ppa)
    else none
  | none => none

/-- A range of addresses cut at multiples of 4 KiB: start and length of each piece. -/
def pageCuts : Nat → Nat → Nat → List (Nat × Nat)
  | 0, _, _ => []
  | fuel + 1, va, n =>
    let k := min n (4096 - va % 4096)
    if n = 0 then [] else (va, k) :: pageCuts fuel (va + k) (n - k)
def pagesOf (va n : Nat) : List (Nat × Nat) := pageCuts (n / 4096 + 2) va n

/-- What a read of a context's memory by the MC comes to: the bytes, or a page that fails, or an uncorrectable granule (R59). -/
abbrev McRead := Except (Option Nat) (List Byte)

def State.mcReadPieces (s : State) (ctx : Byte) (perm : Nat) : List (Nat × Nat) → McRead
  | [] => .ok []
  | (va, n) :: r =>
    match s.treeBad ctx va, s.mcPage ctx perm va with
    | some g, _ => .error (some g)
    | none, none => .error none
    | none, some l =>
      match s.uncorr l n with
      | some g => .error (some g)
      | none => (State.mcReadPieces s ctx perm r).map (s.load l n ++ ·)
def State.mcRead (s : State) (ctx : Byte) (perm va n : Nat) : McRead := s.mcReadPieces ctx perm (pagesOf va n)

/-- Length of the save area of a launch (R84). -/
def Launch.saveSize (x : Launch) : Nat := 0x20000 + x.w * x.h * 0x480000

/-- The pages of the save area, as they are pinned at bind: offset, local address, length (R84). -/
def State.pin (s : State) (x : Launch) : List (Nat × Nat × Nat) :=
  if x.save = 0 then []
  else
    (pagesOf x.save x.saveSize).foldr (fun (va, n) m =>
      match s.mcPage x.ctx 0 va, m with
      | some a, (o, b, k) :: r => if o = va - x.save + n && b = a + n then (va - x.save, a, n + k) :: r else (va - x.save, a, n) :: m
      | some a, [] => [(va - x.save, a, n)]
      | none, _ => m) []

/-- The parts of `[off, off + n)` of the save area that are pinned: local address, distance from `off`, length. -/
def Launch.savePieces (x : Launch) (off n : Nat) : List (Nat × Nat × Nat) :=
  x.saveMap.filterMap fun (o, a, k) =>
    let lo := max o off
    let hi := min (o + k) (off + n)
    if lo < hi then some (a + (lo - o), lo - off, hi - lo) else none
def State.saveLoad (s : State) (x : Launch) (off n : Nat) : List Byte :=
  let bs := (x.savePieces off n).foldl (fun bs (a, d, k) => bs ++ List.replicate (d - bs.length) 0 ++ s.load a k) ([] : List Byte)
  bs ++ List.replicate (n - bs.length) 0
def State.saveStore (s : State) (x : Launch) (off : Nat) (bs : List Byte) : State :=
  (x.savePieces off bs.length).foldl (fun s (a, d, k) => s.store { unit := uCkpt } a ((bs.drop d).take k)) s

end Sys2Proof.Machine
end

