-- ==== Sys2Proof/Machine/CePlan.lean ====
section
/-! DEFINITION. The geometry of copy commands: places and distances (R11, R42, R86), the events of a command and what
each reads and writes (R268, R272 to R283, R296 to R298), shapes (R104, R105), and the use of scratchpad banks (R100 to
R102). -/

namespace Sys2Proof.Machine

/-! ### Places and distances -/

/-- Where an access of a core goes. -/
inductive Loc
  | gen
  | own
  | core (c : Nat)
  | hbm
  | pkg (k : Nat)
  | hub
  /-- What the map of the own package leaves out (R403 H_UNMAPPED). -/
  | gap
deriving DecidableEq, Repr

/-- The place of a PPA as core `c` sees it (R86). -/
def State.locOf (s : State) (c ppa : Nat) : Loc :=
  if ppaPkg ppa ≠ s.pkg then .pkg (ppaPkg ppa)
  else
    match place (ppaLocal ppa) with
    | .spad k _ => if k = c then .own else .core k
    | .hbm => .hbm
    | .hub => .hub
    | .none => .gap

def State.locH (s : State) (c : Nat) (h : Handle) : Loc := if h.kind = kGen then .gen else s.locOf c h.base

/-- A space by the places that it takes in: the place of the handle, and of the first and the last byte of a range within bounds (a
page of 1 GiB covers several scratchpads). -/
def State.inSpace (s : State) (c : Nat) (ok : Loc → Bool) (h : Handle) (off n : Nat) : Bool :=
  let inside (a : Nat) : Bool := s.locOf c a = .gap || ok (s.locOf c a)
  ok (s.locH c h) && (h.kind = kGen || n = 0 || h.len < off + n || (inside (h.base + off) && inside (h.base + off + n - 1)))

/-- Word `i` of the almanac; before one is loaded, the figures of R41. -/
def State.alm (s : State) (off dflt : Nat) : Nat :=
  if s.almanac.isEmpty then dflt else (s.almanac.getD (off / 4) 0).toNat

def coreX (c : Nat) : Nat := c % 24
def coreY (c : Nat) : Nat := c / 24
/-- The compute die of a core (R11). -/
def dieOf (c : Nat) : Nat := coreY c / 10 * 2 + coreX c / 12
def absDiff (a b : Nat) : Nat := (a - b) + (b - a)

/-- T of R42 with n = 1: MESH_BASE + MESH_HOP x d + DIE_CROSS x k. -/
def State.meshLat (s : State) (a b : Nat) : Nat :=
  let d := absDiff (coreX a) (coreX b) + absDiff (coreY a) (coreY b)
  let k := absDiff (coreX a / 12) (coreX b / 12) + absDiff (coreY a / 10) (coreY b / 10)
  s.alm 0x00C 10 + s.alm 0x010 1 * d + s.alm 0x014 12 * k

/-- HUB_DIST of a core (R41). -/
def State.hubDist (s : State) (c : Nat) : Nat :=
  let dy := if coreY c ≤ 9 then 9 - coreY c else coreY c - 10
  s.alm (0x030 + 4 * c) (16 + coreX c + dy + (if coreX c ≥ 12 then 12 else 0))

/-- One-way latency from a core to a place (R42, R110, R290). -/
def State.oneWay (s : State) (c : Nat) : Loc → Nat
  | .own => 1
  | .core k => s.meshLat c k
  | .hbm => 210
  | _ => 1

/-- Ticks from an event to the completion of its write, for a source and a destination (R110, R137, R459). -/
def State.writeDelay (s : State) (c m : Nat) (src dst : Loc) : Nat :=
  let out := match dst with
    | .own => 0
    | .core k => s.meshLat c k
    | .hbm => 210
    | _ => 0
  match src with
  | .gen => (if dst = .hbm then 210 else out) + 24
  | .own => out
  | .hbm => (if dst = .hbm then 210 else 421 - m + out)
  | .core k => 2 * s.meshLat c k + out
  | _ => out

/-! ### Sides of a command (R266, R394) -/

/-- VA of the byte at displacement `x` of a side: reached through the VA that the side's offset 0 had at the push. -/
def Side.vaOf (d : Side) (x : Int) : Int := d.va0 + d.off + x

/-- Handle offset, in the side's copy, of `n` bytes at displacement `x`; none outside the copy (R394). -/
def Side.at (d : Side) (x : Int) (n : Nat) : Option Nat :=
  let o := d.vaOf x - d.h.va
  if 0 ≤ o ∧ o + n ≤ d.h.len then some o.toNat else none

/-- Address of displacement `x`: a PPA, or a window offset. -/
def Side.addr (d : Side) (x : Int) : Nat :=
  let o := (d.vaOf x - d.h.va).toNat
  if d.h.kind = kGen then d.h.woff + o else d.h.base + o

/-- The place of displacement `x` of a side. -/
def State.locAt (s : State) (c : Nat) (d : Side) (x : Int) : Loc := if d.h.kind = kGen then .gen else s.locOf c (d.addr x)

/-- The address of displacement 0 modulo 64; after a retranslation that displacement may lie before the copy (R272, R394). -/
def Side.phase (d : Side) : Nat :=
  (((if d.h.kind = kGen then d.h.woff else d.h.base : Nat) + (d.vaOf 0 - d.h.va)) % 64).toNat

def noSide : Side := ⟨⟨0, 0, 0⟩, 0, 0, false⟩

/-! ### Shapes (R104) -/

def shW (sh : ShapeWords) (i : Nat) : DWord := sh.getD i 0
def shFmt (sh : ShapeWords) : Nat := bits (shW sh 0) 7 0
def shDim (sh : ShapeWords) : Nat := bits (shW sh 0) 10 8
def shAlign (sh : ShapeWords) : Nat := bits (shW sh 0) 14 11
def shSize (sh : ShapeWords) (d : Nat) : Nat := if d % 2 = 0 then bits (shW sh (1 + d / 2)) 31 0 else bits (shW sh (1 + d / 2)) 63 32
def shStride (sh : ShapeWords) (d : Nat) : Int := (shW sh (3 + d)).toInt

/-- INT4 rows are packed: two elements move as one byte, and dimension 0 counts bytes (R104). -/
def shInt4 (sh : ShapeWords) : Bool := shFmt sh = 9

/-- Bytes of an element format; INT4 counts one, a pair. -/
def fmtBytes : Nat → Nat
  | 0 => 4
  | 8 => 4
  | 1 => 2
  | 2 => 2
  | 7 => 2
  | _ => 1

def shE (sh : ShapeWords) : Nat := fmtBytes (shFmt sh)
def shSizeU (sh : ShapeWords) (d : Nat) : Nat := if shInt4 sh && d = 0 then shSize sh 0 / 2 else shSize sh d
def shStrideU (sh : ShapeWords) (d : Nat) : Int := if shInt4 sh && d = 0 then 1 else shStride sh d

/-- Number of units (elements, or INT4 pairs). -/
def shCount (sh : ShapeWords) : Nat := (List.range (shDim sh)).foldl (fun n d => n * shSizeU sh d) 1

/-- Displacement of unit `k`, dimension 0 running fastest (R104, R273). -/
def shDispGo (sh : ShapeWords) : List Nat → Nat → Int
  | [], _ => 0
  | d :: r, k => (k % shSizeU sh d : Nat) * shStrideU sh d + shDispGo sh r (k / shSizeU sh d)
def shDisp (sh : ShapeWords) (k : Nat) : Int := shDispGo sh (List.range (shDim sh)) k

/-- Lowest displacement, and the end of the highest unit. -/
def shExtent (sh : ShapeWords) : Int × Int :=
  (List.range (shDim sh)).foldl (fun (lo, hi) d =>
    let x := shStrideU sh d * ((shSizeU sh d : Int) - 1)
    if x < 0 then (lo + x, hi) else (lo, hi + x)) (0, (shE sh : Int))

/-! ### Events (R268) -/

/-- What an event of a command does. -/
inductive Ev
  /-- Read the index line of elements lo to below hi. -/
  | index (lo hi : Nat)
  /-- Read packed source elements lo to below hi, of one line. -/
  | packed (lo hi : Nat)
  /-- Move one element. -/
  | elem (k : Nat)
  /-- Line j of a flat copy: read source line j where it exists, write the destination line that is then complete. -/
  | line (j : Nat)
  /-- Move units lo to below hi of a shaped copy. -/
  | run (lo hi : Nat)
deriving DecidableEq, Repr

/-- Element size of a destination of `cpyacc` (R280). -/
def accD (op : AccKind) (esz : Nat) : Nat :=
  match op with
  | .iadd32 => 4
  | .iadd64 => 8
  | .xadd => 32
  | .fmin => 4
  | .fmax => 4
  | _ => 2 ^ esz
def accS (op : AccKind) (esz : Nat) : Nat :=
  match op with
  | .xadd => 4
  | o => accD o esz

/-- Rest of a flat copy from destination line `base` on: displacement, bytes, misalignment of the two sides. -/
def flatRest (dstA n base : Nat) : Nat × Nat :=
  let skip := if base = 0 then 0 else 64 * base - dstA % 64
  (skip, n - skip)

/-- Lines of `n` bytes at address `a`. -/
def linesOf (a n : Nat) : Nat := if n = 0 then 0 else (a % 64 + n - 1) / 64 + 1

/-- Units of a shaped copy that one event moves from unit `k` on; a stop point, every `step` units where `step` is not 0, divides the
run (R273). -/
def runLen (shA pkA e n step : Nat) (sh : ShapeWords) : Nat → Nat → Nat
  | 0, _ => 1
  | fuel + 1, k =>
    let a := (shA : Int) + shDisp sh k
    let a' := (shA : Int) + shDisp sh (k + 1)
    if k + 1 < n && (step = 0 || (k + 1) % step ≠ 0) && a' = a + e && a / 64 = (a' + e - 1) / 64
        && (pkA + k * e) / 64 = (pkA + (k + 2) * e - 1) / 64 then
      runLen shA pkA e n step sh fuel (k + 1) + 1
    else 1

/-- Elements of a unit that a command moves: two of INT4 move as one byte (R104). -/
def CeEntry.unitElems (e : CeEntry) : Nat :=
  match e.kind with
  | .shaped sh _ => if shInt4 sh then 2 else 1
  | _ => 1

/-- Split granule in elements, 0 for none (R80); the same in units. -/
def CeEntry.granule (e : CeEntry) : Nat := if e.split = 0 then 0 else 2 ^ (e.split.toNat - 1)
def CeEntry.step (e : CeEntry) : Nat := if e.split = 0 then 0 else max 1 (e.granule / e.unitElems)

/-- Rows, bytes of a row and lines of a row of a tile that has been accepted (R274). -/
def CeEntry.tileRows (e : CeEntry) : Nat := e.idxBuf.getD 0 0
def CeEntry.rowBytes (e : CeEntry) : Nat := e.idxBuf.getD 1 0
def CeEntry.perRow (e : CeEntry) : Nat := (e.rowBytes + 63) / 64
def CeEntry.tileLines (e : CeEntry) : Nat := e.tileRows * e.perRow

/-- Source displacement and length of line `k` of a tile. -/
def CeEntry.tileLine (e : CeEntry) (pitch k : Nat) : Nat × Nat :=
  let j := k % e.perRow
  (k / e.perRow * pitch + 64 * j, min 64 (e.rowBytes - 64 * j))

/-- Number of elements of a command, in its own units. The spec gives the events of a `sendu` nowhere: the model reads a line of the source in
each (log 57). -/
def CeEntry.total (e : CeEntry) : Nat :=
  match e.kind with
  | .cpy n => linesOf e.dst.phase n
  | .shaped sh _ => shCount sh
  | .tile .. => if e.idxBuf.isEmpty then 1 else e.tileLines
  | .gath n _ => n
  | .scat n _ => n
  | .acc _ n _ _ _ _ => n
  | .cas .. => 1
  | .send _ _ _ n => n / 64
  | .recv _ _ _ n => n / 64
  | .sendu n _ => linesOf e.src.phase n

/-- Bytes of a packed source element, where the command has one (R276, R279). -/
def CeEntry.packSize (e : CeEntry) : Nat :=
  match e.kind with
  | .scat _ esz => 2 ^ esz
  | .acc op _ esz none _ _ => accS op esz
  | _ => 0

/-- The command reads an index list. -/
def CeEntry.indexed (e : CeEntry) : Bool :=
  match e.kind with
  | .gath .. => true
  | .scat .. => true
  | .acc _ _ _ _ _ idx => idx
  | _ => false

/-- The command works in groups of 16 elements (R276, R279). -/
def CeEntry.grouped (e : CeEntry) : Bool :=
  match e.kind with
  | .gath .. => true
  | .scat .. => true
  | .acc .. => true
  | _ => false

/-- Last element of the group of `k`, exclusive. -/
def groupEnd (k n : Nat) : Nat := min ((k / 16 + 1) * 16) n

/-- Read events at the head of a group that begins at element `lo` (R276). -/
def CeEntry.headEvents (e : CeEntry) (lo hi : Nat) : Nat :=
  (if e.indexed then 1 else 0) + (if e.packSize = 0 then 0 else linesOf (e.src.phase + lo * e.packSize) ((hi - lo) * e.packSize))

/-- First element of the packed source line `j` of a group that begins at element `lo` and ends before `hi` (R100, R276). -/
def CeEntry.packAt (e : CeEntry) (lo hi j : Nat) : Nat :=
  if j = 0 then lo else min hi (lo + (64 * j - (e.src.phase + lo * e.packSize) % 64 + e.packSize - 1) / e.packSize)

/-- Displacement and length of the bytes of a `sendu` that lie in line `k` of its source (R100, R298). -/
def CeEntry.senduLine (e : CeEntry) (n k : Nat) : Nat × Nat :=
  let lo := if k = 0 then 0 else 64 * k - e.src.phase
  (lo, min n (64 * (k + 1) - e.src.phase) - lo)

/-- The two sides of a flat copy have unequal addresses modulo 64 (R272). -/
def CeEntry.skewed (e : CeEntry) : Bool :=
  match e.kind with
  | .cpy _ => e.dst.phase ≠ e.src.phase
  | _ => false

/-- Source lines of what is left of a flat copy. -/
def CeEntry.srcLines (e : CeEntry) : Nat :=
  match e.kind with
  | .cpy n => let (d, r) := flatRest e.dst.phase n e.base; linesOf (e.src.phase + d) r
  | _ => 0

/-- The event at which the command stands, and the position after it; none when it has no more (R268). -/
def CeEntry.next (e : CeEntry) : Option (Ev × CeEntry) :=
  let n := e.total
  match e.kind with
  | .cpy _ =>
    let left := n - e.base
    let last := if e.skewed then left + 1 else left
    if e.ev < last && 0 < left then some (.line e.ev, { e with ev := e.ev + 1 }) else none
  | .shaped sh d =>
    if e.el < n then
      let a := if d then e.dst.phase else e.src.phase
      let p := if d then e.src.phase else e.dst.phase
      let len := runLen a p (shE sh) n e.step sh 128 e.el
      some (.run e.el (e.el + len), { e with el := e.el + len, ev := e.ev + 1 })
    else none
  | _ =>
    if e.el < n then
      if e.grouped then
        let hi := groupEnd e.el n
        let lo := max (e.el / 16 * 16) e.base
        let heads := if e.el = lo then e.headEvents lo hi else 0
        if e.sub < heads then
          let j := if e.indexed then e.sub - 1 else e.sub
          let v := if e.indexed && e.sub = 0 then Ev.index lo hi else .packed (e.packAt lo hi j) (e.packAt lo hi (j + 1))
          some (v, { e with sub := e.sub + 1, ev := e.ev + 1 })
        else some (.elem e.el, { e with el := e.el + 1, sub := 0, ev := e.ev + 1 })
      else some (.elem e.el, { e with el := e.el + 1, ev := e.ev + 1 })
    else none

/-- The least of 64 and the number of events left (R110). -/
def CeEntry.countGo : Nat → CeEntry → Nat
  | 0, _ => 0
  | fuel + 1, e =>
    match e.next with
    | none => 0
    | some (_, e') => CeEntry.countGo fuel e' + 1
def CeEntry.count64 (e : CeEntry) : Nat := CeEntry.countGo 64 e

/-- Displacement of element `k` on an indexed side. -/
def CeEntry.idxOf (e : CeEntry) (k : Nat) : Nat :=
  let lo := max (k / 16 * 16) e.base
  e.idxBuf.getD (k - lo) 0

/-- Source displacement and length that event `j` of a flat copy reads (R272). -/
def CeEntry.srcLine (e : CeEntry) (n j : Nat) : Option (Nat × Nat) :=
  let (d, r) := flatRest e.dst.phase n e.base
  if j < e.srcLines then
    let a := (e.src.phase + d) % 64
    let lo := if j = 0 then 0 else 64 * j - a
    some (d + lo, min r (64 * (j + 1) - a) - lo)
  else none

/-- Destination displacement and length that event `j` of a flat copy writes (R272). -/
def CeEntry.dstLine (e : CeEntry) (n j : Nat) : Option (Nat × Nat) :=
  let (d, r) := flatRest e.dst.phase n e.base
  if e.skewed && j = 0 then none
  else
    let j := if e.skewed then j - 1 else j
    let a := (e.dst.phase + d) % 64
    let lo := if j = 0 then 0 else 64 * j - a
    some (d + lo, min r (64 * (j + 1) - a) - lo)

/-- What an event reads from the own scratchpad: offset and length (R110, R272 to R283). -/
def CeEntry.ownReads (e : CeEntry) (s : State) (c : Nat) (ev : Ev) : List (Nat × Nat) :=
  let off (d : Side) (x : Int) (n : Nat) : List (Nat × Nat) :=
    match spadAt s.pkg (d.addr x) with
    | some (k, o) => if k = c && d.h.kind ≠ kGen then [(o, n)] else []
    | none => []
  match ev with
  | .index lo hi => off e.idx (4 * lo) (4 * (hi - lo))
  | .packed lo hi => off e.src (e.packSize * lo) (e.packSize * (hi - lo))
  | .line j =>
    match e.kind with
    | .cpy n =>
      match e.srcLine n j with
      | some (x, m) => off e.src x m
      | none => []
    | _ => []
  | .run lo hi =>
    match e.kind with
    | .shaped sh d =>
      let n := (hi - lo) * shE sh
      if d then off e.src (lo * shE sh) n else off e.src (shDisp sh lo) n
    | _ => []
  | .elem k =>
    match e.kind with
    | .gath _ esz => off e.src (e.idxOf k) (2 ^ esz)
    | .tile _ pitch .. => let (o, n) := e.tileLine pitch k; off e.src o n
    | .send .. => off e.src (64 * k) 64
    | .sendu n _ => let (x, m) := e.senduLine n k; off e.src x m
    | _ => []

/-! ### Scratchpad banks (R100 to R102) -/

/-- Banks of `n` bytes at scratchpad offset `o`. -/
def banksOf (o n : Nat) : List Nat :=
  if n = 0 then [] else (List.range ((o + n - 1) / 64 - o / 64 + 1)).map fun i => (o / 64 + i) % 32

/-- A displacement carried by an event: 64-bit two's complement. -/
def dispOf (k : Nat) : Int := sext k 64
def ofDisp (x : Int) : Nat := wrap x 64

/-- Bytes that a landing with `n` data bytes writes (R279, R283). -/
def CeEntry.landLen (e : CeEntry) (n : Nat) : Nat :=
  match e.kind with
  | .acc op _ esz _ _ _ => accD op esz
  | .cas esz _ _ => 2 ^ esz
  | _ => n

/-- Displacement and length of the packed destination line of a `gath` that its element `k` completes (R276). -/
def CeEntry.gathLine (e : CeEntry) (n esz k : Nat) : Option (Nat × Nat) :=
  let s := 2 ^ esz
  let endX := (k + 1) * s
  if k + 1 = n || (e.dst.phase + endX) % 64 = 0 then
    let a := e.dst.phase + k * s
    let lo := max (e.base * s) (k * s - a % 64)
    some (lo, endX - lo)
  else none

/-! #### Chunks of a drain (R254, R255) -/

/-- Element size of the output of a drain (R253). -/
def DrainRec.outBytes (d : DrainRec) : Nat := fmtBytes (bits d.cfg 13 10)

/-- Chunks in a row, and the row, first column and width of chunk `q`. -/
def DrainRec.perRow (d : DrainRec) : Nat := (d.n + 127) / 128
def DrainRec.chunk (d : DrainRec) (q : Nat) : Nat × Nat × Nat :=
  let n0 := q % d.perRow * 128
  (q / d.perRow, n0, min 128 (d.n - n0))
def DrainRec.chunks (d : DrainRec) : Nat := d.nrow * d.perRow

/-- Scratchpad offset and length of the output of chunk `q`. -/
def DrainRec.chunkOut (d : DrainRec) (q : Nat) : Nat × Nat :=
  let (r, n0, w) := d.chunk q
  (d.base + r * d.pitch + n0 * d.outBytes, w * d.outBytes)

/-! #### Who uses a bank -/

/-- Bytes from offset `off` of the lines that a command has read, line `first` on. -/
def GeCmd.bytes (x : GeCmd) (first off n : Nat) : List Byte :=
  (List.range n).map fun i => (Sparse.get [] x.buf (first + (off + i) / 64)).getD ((off + i) % 64) 0
def GeCmd.word (x : GeCmd) (first off : Nat) : Nat := leNat (x.bytes first off 4)

/-- What line `j` of a command's reads takes: PPA and length; nothing for a mask byte outside its handle, nor for one that does not lie in the
own scratchpad, which counts as masked out like it (R312, R323, R401; log 56). -/
def GeCmd.line (x : GeCmd) (j : Nat) : Option (Nat × Nat) :=
  match x.op with
  | .sample list n _ _ _ _ mask =>
    let lines := (n + 7) / 8
    if j < lines then some (list + 64 * j, 64)
    else
      match mask with
      | some (base, len) =>
        let i := j - lines
        let o := x.word 0 (8 * i + 4) / 8
        match place (ppaLocal (base + o)) with
        | .spad c _ => if o < len && c = x.core then some (base + o, 1) else none
        | _ => none
      | none => none
  | .accept paths _ _ _ => some (paths + 64 * j, 64)
  | .accmb paths rows n _ _ => if j < (n + 3) / 4 then some (paths + 64 * j, 64) else some (rows + 64 * (j - (n + 3) / 4), 64)
  | _ => none

/-- Requester codes and banks of the lines that agenda work of period `p` lands in the scratchpad of core `c`, or samples
there for another core, or that the GE and flag increments reach (R100, R102, R277, R312). -/
def landBanks (s : State) (c p : Nat) : List (Nat × Nat) :=
  (s.agenda.filter (·.1 = p)).flatMap fun (_, _, i) =>
    let at_ (k id : Nat) (f : CeEntry → Nat × Nat × Nat) : List (Nat × Nat) :=
      match (s.core k).ce.find? (·.id = id) with
      | some e =>
        let (code, ppa, n) := f e
        match spadAt s.pkg ppa with
        | some (c', o) => if c' = c then (banksOf o n).map fun b => (code, b) else []
        | none => []
      | none => []
    match i with
    | .ceEvent k id j (.land d) => at_ k id fun e =>
        match e.kind with
        | .tile .. => (0, 0, 0)
        | .send .. => (0, 0, 0)
        | .gath n esz =>
          match e.gathLine n esz (j / 2 ^ esz) with
          | some (x, m) => (1, e.dst.addr x, m)
          | none => (0, 0, 0)
        | .recv .. => (0, e.dst.addr (dispOf j), d.length)
        | _ => (if k = c then 1 else 0, e.dst.addr (dispOf j), e.landLen d.length)
    | .remoteLineSample k id _ x n => at_ k id fun e => (0, e.src.addr (dispOf x), n)
    | .flagIncrement k id => at_ k id fun e => (if k = c then 1 else 0, (e.flag.map (·.addr 0)).getD 0, if e.flag.isSome then 8 else 0)
    | .geLine id j =>
      match s.geCmds.find? (·.id = id) with
      | some x => if x.core = c then (x.line j).toList.flatMap fun (a, n) => (banksOf (a % spadSlot) n).map fun b => (0, b) else []
      | none => []
    | .geWrite id =>
      match s.geCmds.find? (·.id = id) with
      | some x => if x.core = c && !x.outLines.isEmpty then (banksOf (x.outAt % spadSlot) 64).map fun b => (0, b) else []
      | none => []
    | .drainChunkWrite k id q _ =>
      if k = c then
        match (s.core c).drains.find? (·.id = id) with
        | some d => if d.cfg.getLsbD 19 then [] else let (o, n) := d.chunkOut q; (banksOf o n).map fun b => (3, b)
        | none => []
      else []
    | _ => []

/-- A bank of core `tc` that a requester of code `code` does not get in this period: bank and holder. What has been granted
stays, but for grants of lower rank in the timed regime; of what is still to be granted, only the higher rank counts
(R102, R422). A port of codes 0 to 2 moves one line a period (R100; log 30). -/
def State.ceClash (s : State) (tc code : Nat) (strict : Bool) (banks : List Nat) : Option (Nat × Nat) :=
  let used := ((s.core tc).bankUse.filter (·.1 = s.now)).map fun (x : Nat × Nat × Nat) => (x.2.2, x.2.1)
  let had := used.filter fun (x : Nat × Nat) => !(strict && code < x.1)
  let due := (landBanks s tc s.now).filter fun (x : Nat × Nat) => x.1 < code
  match (if 2 < code then [] else used.filter fun (x : Nat × Nat) => x.1 = code).head? with
  | some x => banks.head?.map fun b => (b, x.1)
  | none => banks.findSome? fun b => ((had ++ due).find? fun (e : Nat × Nat) => e.2 = b).map fun (e : Nat × Nat) => (b, e.1)

/-- A line of the same requester that is performing in the timed regime has written a byte of `n` at offset `o` in this period (R108,
R422 SAMETICK; log 36). -/
def Core.sameByte (k : Core) (now code o n : Nat) : Bool := k.spadWr.any fun (p, c, o', n') => p = now && c = code && o < o' + n' && o' < o + n

/-- Bytes that a line of a requester has written in this period. -/
def Core.noteBytes (k : Core) (now code o n : Nat) : Core :=
  { k with spadWr := (now, code, o, n) :: k.spadWr.filter fun e => e.1 = now }

/-- Take banks for a requester in a period. -/
def Core.useBanks (k : Core) (now p code : Nat) (banks : List Nat) : Core :=
  { k with bankUse := (k.bankUse.filter fun e => now ≤ e.1) ++ banks.map fun b => (p, b, code) }

/-- TRAPINFO1 of BANK: performer in [7:0], refused in [15:8] (R423). -/
def bankInfo (holder code : Nat) : DWord := dw (holder + code * 256)

/-! ### Refresh, slot maps and budgets (R44, R89, R338, R339) -/

/-- The window of a checkpoint station is open: untimed HBM writes wait (R44). -/
def State.ckptOpen (s : State) : Bool := s.scheds.any fun e => e.2.window.isSome

/-- The refresh window (R89). -/
def State.refreshing (s : State) : Bool := let t := s.tick % 4096; 3694 ≤ t && t ≤ 3885

/-- The port of a local address: 0 to 479 a scratchpad, 480 up a stack of HBM (R87). -/
def portOf (l : Nat) : Nat :=
  match place l with
  | .spad c _ => c
  | _ => 480 + (bits (dw l) 14 12 ^^^ bits (dw l) 23 21)

/-- The slot maps leave this tick of a port free of timed accesses; a stack, or a core of the launch, without a map is
reserved while its schedule runs (R48). -/
def State.slotOpen (s : State) (port : Nat) : Bool :=
  s.scheds.all fun (id, d) =>
    match Sparse.get? s.launches id with
    | none => true
    | some l =>
      if l.phase ≠ .running || s.tick < d.base.toNat then true
      else
        match Sparse.get? d.slotMaps port with
        | some m => (m.getD (s.tick % 4096 / 8) 0xFF).getLsbD (s.tick % 8)
        | none => port < 480 && (s.core port).owner ≠ some id

/-- The window of a checkpoint station will be open at Meridian tick `t` (R44, R49). -/
def State.ckptAt (s : State) (t : Nat) : Bool :=
  s.ckptOpen || s.scheds.any fun (_, d) => !d.voided && d.stations.any fun st => let b := d.base.toNat + st.off + 512; b ≤ t && t < b + st.len

/-- An access of HBM that an instruction issues itself, and that performs by tick `t`: in the timed regime REFRESH inside the refresh window; else
the instruction does not issue in the window, in a slot that is not free, or, where it writes, before a checkpoint window that its
write would meet (R44, R89, R338, R422). -/
def State.hbmIssue (s : State) (l t : Nat) (wr : Bool) : Option Res :=
  if s.timedAt s.at.1 then (if s.refreshing then some (.late uStream 0xC4 (dw s.tick) (dw (mkPpa s.pkg l)) (some (mkPpa s.pkg l))) else none)
  else if s.refreshing || !s.slotOpen (portOf l) || (wr && s.ckptAt t) then some (.wait .issued) else none

/-- One line at local address `l` is granted to a party of class `cls` in this period: a free slot, its bank or controller;
`wr` says that the access writes (R102, R338). -/
def State.lineGrant (s : State) (cls l n : Nat) (wr : Bool) : Option State :=
  if !s.slotOpen (portOf l) then none
  else
    match place l with
    | .spad tc o =>
      if (s.ceClash tc (6 + cls) false (banksOf o n)).isSome then none else some (s.modCore tc (·.useBanks s.now s.now (6 + cls) (banksOf o n)))
    | .hbm =>
      if s.refreshing || (wr && (s.ckptOpen || s.lineWritten (l / 64))) then none else some s
    | _ => some s

/-- A unit of a class's budget, in a slot of the port that no class has taken in this period (R339). -/
def State.spend (s : State) (cls l : Nat) : Option State :=
  let i := 1024 * cls + portOf l
  let left := Sparse.get 0 s.spent i
  if left = 0 || Sparse.get 0 s.slotTaken (portOf l) = s.now + 1 then none
  else some { s with spent := Sparse.set 0 s.spent i (left - 1), slotTaken := Sparse.set 0 s.slotTaken (portOf l) (s.now + 1) }

/-- A line is granted to a class with a unit of its budget (R339). -/
def State.classGrant (s : State) (cls l n : Nat) (wr : Bool) : Option State := (s.spend cls l).bind fun s => s.lineGrant cls l n wr

/-- A line that the MC or the hub reads in this period, corrected where it can be (R339, R372). -/
def State.mcLine (s : State) (cls l n : Nat) : Option State := (s.classGrant cls l n false).map fun t => t.touch { unit := uMc } l n

/-- The first line of the ranges that come before some work, and what is left after it. -/
def firstLine : List (Nat × Nat × Nat) → Option ((Nat × Nat × Nat) × List (Nat × Nat × Nat))
  | [] => none
  | (cls, a, n) :: r =>
    let k := min n (64 - a % 64)
    some ((cls, a, k), if n ≤ k then r else (cls, a + k, n - k) :: r)

/-- The next of the lines that come before `w`: its class takes it in this tick, or tries again in the next one; `w` comes in the tick of the last
one (R338, R339; log 48). -/
def State.lineStep (s : State) (wr : Bool) (left : List (Nat × Nat × Nat)) (rank : Nat) (w : Work) : State :=
  match firstLine left with
  | none => s.plan s.now rank w
  | some ((cls, a, n), r) =>
    match s.classGrant cls a n wr with
    | none => s.plan (s.now + 1) 40 (.lines wr left rank w)
    | some t => if r.isEmpty then t.plan t.now rank w else t.plan (t.now + 1) 40 (.lines wr r rank w)

/-- Work that reads or writes ranges of lines first, from the next tick on. -/
def State.afterLines (s : State) (wr : Bool) (left : List (Nat × Nat × Nat)) (rank : Nat) (w : Work) : State :=
  if left.isEmpty then s.plan s.now rank w else s.plan (s.now + 1) 40 (.lines wr left rank w)

/-- That work is planned, its lines perhaps to come first. -/
def State.awaits (s : State) (w : Work) : Bool :=
  s.agenda.any fun e => e.2.2 = w || match e.2.2 with
    | .lines _ _ _ x => x = w
    | _ => false

end Sys2Proof.Machine
end

