-- ==== Sys2Proof/Machine/MemScalar.lean ====
section
/-! DEFINITION. Scalar loads and stores (spec 09 R196 to R198; 21 R453). -/

namespace Sys2Proof.Machine

/-- MISALIGN of a scalar access (R124, R392, R415). -/
def misalign (off size : Nat) (h : H) (data : G) (st signed : Bool) : Res :=
  .trap 0x80 (dw off)
    (dw (size + h.toNat * 2 ^ 8 + (if st then 2 ^ 16 else 0) + data.toNat * 2 ^ 17 + (if signed then 2 ^ 24 else 0)))

/-- The address that natural alignment is judged on (R197). -/
def Handle.alignBase (h : Handle) (off : Nat) : Nat := if h.kind = kGen then h.woff + off else h.base + off

/-- Rank of the access of a load (A) and of a store (W) in its tick: after the vector port, before every party outside the core
(R102). -/
def scalarRank (code : Nat) : Nat := if code = 4 then 18 else 19

/-- A scalar access of `n` bytes at own-scratchpad offset `o`. At the issue it is planned for the next tick, and the stream issues
nothing until it is granted (R110, R198). In its tick it meets the banks, in the regime of its issue (R111): refused in the timed one, an
error (R422), so that a load never reads a bank which a CE write takes in that tick (log 36); refused in the free one, it retries; else
`f` is its effect. -/
def State.scalarBank (s : State) (code o n : Nat) (f : State → Res) : Res :=
  let c := s.at.1
  let again (s : State) (id : Nat) (timed : Bool) : Res :=
    .hold (s.plan (s.now + 1) (scalarRank code) (.scalarAccess c s.at.2)) (.bank (s.now + 1) o id timed)
  match s.me.hold with
  | some (.bank _ _ id timed) =>
    match s.ceClash c code timed (banksOf o n) with
    | some (b, holder) =>
      if timed then .late uStream 0xC2 (dw b) (bankInfo holder code) (some (mkPpa s.pkg (spadOf c + o)))
      else again (s.modCore c (·.count 70)) id timed
    | none => f (s.modCore c (·.useBanks s.now s.now code (banksOf o n)))
  | _ => again s.fresh.2 s.serial (s.timedAt c)

/-- The value that a load delivers. -/
def loadValue (signed : Bool) (bs : List Byte) : DWord :=
  if signed then BitVec.ofInt 64 (Sys2Proof.Machine.sext (leNat bs) (8 * bs.length)) else dw (leNat bs)

/-- The sampled load at own-scratchpad offset `o` (R197, R198). -/
def State.loadAt (s : State) (gd : G) (o size : Nat) (signed : Bool) : Res :=
  let l := spadOf s.at.1 + o
  s.scalarBank 4 o size fun s =>
    match s.uncorr l size with
    | some g => .contain 1 1 uStream (some (mkPpa s.pkg g))
    | none => .seq ((s.touch (s.myWho uStream) l size).setG gd (loadValue signed (s.load l size)))

/-- A load of `size` bytes at handle offset `off` (R196, R197). -/
def State.scalarLoad (s : State) (t : Tok) (gd : G) (h : H) (gb : G) (off : State → Nat) (size : Nat) (signed : Bool) : Out :=
  s.issue { t := t, streams := [.a], reads := [keyH h, keyG gb], writes := [keyG gd], lat := 6 } fun s =>
    let hd := s.myCore.hreg h
    match s.me.retrying with
    | some o => s.loadAt gd o size signed
    | none =>
      let o := off s
      match firstOf [s.chkLoad s.at.1 h o size,
        if hd.alignBase o % size = 0 then none else some (misalign o size h gd false signed)] with
      | some r => r
      | none =>
        if hd.kind = kGen then .seq (s.setG gd (loadValue signed (s.readH s.at.1 hd o size)))
        else s.loadAt gd (hd.local o - spadOf s.at.1) size signed

/-- The store at own-scratchpad offset `o` (R197, R198). -/
def State.storeAt (s : State) (g : G) (o size : Nat) : Res :=
  s.scalarBank 5 o size fun s =>
    .seq (s.store { core := some s.at.1, stream := some s.at.2, unit := uStream } (spadOf s.at.1 + o)
      (leBytes size (s.gr g).toNat))

/-- A store of `size` bytes at handle offset `off`; through a window it never changes a value (R139, R196, R453). -/
def State.scalarStore (s : State) (t : Tok) (g : G) (h : H) (gb : G) (off : State → Nat) (size : Nat) : Out :=
  s.issue { t := t, streams := [.w], reads := [keyH h, keyG gb, keyG g], lat := 2 } fun s =>
    let hd := s.myCore.hreg h
    match s.me.retrying with
    | some o => s.storeAt g o size
    | none =>
      let o := off s
      match firstOf [s.chkStore s.at.1 h o size,
        if hd.alignBase o % size = 0 then none else some (misalign o size h g true false)] with
      | some r => r
      | none =>
        if hd.kind = kGen then
          if s.strap s.at.1 hd then strapTrap h o else .seq (s.modMyCore (·.count 75))
        else s.storeAt g (hd.local o - spadOf s.at.1) size

/-- Offset of the F6 forms: off12 times the size. -/
def offImm (off : BitVec 12) (size : Nat) (_ : State) : Nat := off.toNat * size
/-- Offset of `ldbs`, `ldhs`, `ldws`: the 5-bit immediate times the size (R166). -/
def offShort (off : BitVec 5) (size : Nat) (_ : State) : Nat := off.toNat * size
/-- Offset of the forms ending in x: G[gb], unscaled. -/
def offReg (gb : G) (s : State) : Nat := (s.gr gb).toNat

def execLdb (t : Tok) (g : G) (h : H) (off : BitVec 12) (s : State) : Out := s.scalarLoad t g h 0 (offImm off 1) 1 false
def execLdh (t : Tok) (g : G) (h : H) (off : BitVec 12) (s : State) : Out := s.scalarLoad t g h 0 (offImm off 2) 2 false
def execLdw (t : Tok) (g : G) (h : H) (off : BitVec 12) (s : State) : Out := s.scalarLoad t g h 0 (offImm off 4) 4 false
def execLdd (t : Tok) (g : G) (h : H) (off : BitVec 12) (s : State) : Out := s.scalarLoad t g h 0 (offImm off 8) 8 false
def execStb (t : Tok) (g : G) (h : H) (off : BitVec 12) (s : State) : Out := s.scalarStore t g h 0 (offImm off 1) 1
def execSth (t : Tok) (g : G) (h : H) (off : BitVec 12) (s : State) : Out := s.scalarStore t g h 0 (offImm off 2) 2
def execStw (t : Tok) (g : G) (h : H) (off : BitVec 12) (s : State) : Out := s.scalarStore t g h 0 (offImm off 4) 4
def execStd (t : Tok) (g : G) (h : H) (off : BitVec 12) (s : State) : Out := s.scalarStore t g h 0 (offImm off 8) 8
def execLdbs (t : Tok) (gd : G) (h : H) (off : BitVec 5) (s : State) : Out := s.scalarLoad t gd h 0 (offShort off 1) 1 true
def execLdhs (t : Tok) (gd : G) (h : H) (off : BitVec 5) (s : State) : Out := s.scalarLoad t gd h 0 (offShort off 2) 2 true
def execLdws (t : Tok) (gd : G) (h : H) (off : BitVec 5) (s : State) : Out := s.scalarLoad t gd h 0 (offShort off 4) 4 true
def execLdbx (t : Tok) (gd : G) (h : H) (gb : G) (s : State) : Out := s.scalarLoad t gd h gb (offReg gb) 1 false
def execLdhx (t : Tok) (gd : G) (h : H) (gb : G) (s : State) : Out := s.scalarLoad t gd h gb (offReg gb) 2 false
def execLdwx (t : Tok) (gd : G) (h : H) (gb : G) (s : State) : Out := s.scalarLoad t gd h gb (offReg gb) 4 false
def execLddx (t : Tok) (gd : G) (h : H) (gb : G) (s : State) : Out := s.scalarLoad t gd h gb (offReg gb) 8 false
def execLdbsx (t : Tok) (gd : G) (h : H) (gb : G) (s : State) : Out := s.scalarLoad t gd h gb (offReg gb) 1 true
def execLdhsx (t : Tok) (gd : G) (h : H) (gb : G) (s : State) : Out := s.scalarLoad t gd h gb (offReg gb) 2 true
def execLdwsx (t : Tok) (gd : G) (h : H) (gb : G) (s : State) : Out := s.scalarLoad t gd h gb (offReg gb) 4 true
def execStbx (t : Tok) (gd : G) (h : H) (gb : G) (s : State) : Out := s.scalarStore t gd h gb (offReg gb) 1
def execSthx (t : Tok) (gd : G) (h : H) (gb : G) (s : State) : Out := s.scalarStore t gd h gb (offReg gb) 2
def execStwx (t : Tok) (gd : G) (h : H) (gb : G) (s : State) : Out := s.scalarStore t gd h gb (offReg gb) 4
def execStdx (t : Tok) (gd : G) (h : H) (gb : G) (s : State) : Out := s.scalarStore t gd h gb (offReg gb) 8

end Sys2Proof.Machine
end

