-- ==== Sys2Proof/Machine/System.lean ====
section
/-! DEFINITION. System registers and system instructions (spec 08 R175, R177; 09 R204 to R211; 02 R26, R28; 07 R144, R155;
11 R241, R252, R256; 15 R350, R351; 18 R380; 19 R394). -/

namespace Sys2Proof.Machine

/-! ### Reading -/

/-- LCTL (R55). -/
def Core.lctl (k : Core) (core : Nat) (i : StreamId) : DWord :=
  dw (k.launchId.toNat * 2 ^ 32 + k.ctx.toNat * 2 ^ 24 + core % 512 * 2 ^ 12 + (if k.resident then 8 else 0)
    + (if k.timed then 4 else 0) + streamNum i)

/-- MU_STATUS (R26). -/
def Mu.status (m : Mu) : DWord :=
  dw (m.parent.toNat * 2 ^ 12 + (if m.root then 2 ^ 11 else 0) + m.st.toNat * 2 ^ 9)

/-- RBASE (R175). -/
def Core.rbase (k : Core) : DWord := dw (k.prb.toNat * 2 ^ 8 + k.vrb.toNat)

/-- SMPPTR (R350). -/
def Sampler.ptr (x : Sampler) : DWord := x.rd ++ x.wr

/-- Registers that C, A and W read as zero. -/
def eOnly (idx : Nat) : Bool := idx = 0x012 || idx = 0x022 || idx = 0x023 || (0x040 ≤ idx && idx ≤ 0x047)

/-- Reset value of a tile descriptor (R241). -/
def tdescReset : DWord := 0x400F
def Core.tdescOf (k : Core) (n : Nat) : DWord := Sparse.get tdescReset k.tdesc n

/-- A system register as stream `i` of core `c` reads it; none for an unassigned index (R177). -/
def State.sysGet (s : State) (c : Nat) (i : StreamId) (idx : Nat) : Option DWord :=
  let k := s.core c
  let x := k.str i
  if eOnly idx && i ≠ .e then some 0
  else if 0x040 ≤ idx ∧ idx ≤ 0x047 then some (k.tdescOf (idx - 0x040))
  else
    match idx with
    | 0x000 => some (k.lctl c i)
    | 0x001 => some k.lgeom
    | 0x002 => some k.schedbase
    | 0x010 => some x.round
    | 0x011 => some x.srctr
    | 0x012 => some k.rbase
    | 0x020 => some (k.numstat.zeroExtend 64)
    | 0x021 => some k.dstat
    | 0x022 => some k.epcfg
    | 0x023 => some k.epidx
    | 0x030 => some s.mu.status
    | 0x050 => some k.smp.ctl
    | 0x051 => some k.smp.buf
    | 0x052 => some k.smp.ptr
    | 0x053 => some (k.smp.dropped.zeroExtend 64)
    | 0x800 => some x.trapPc
    | 0x801 => some x.trapCause
    | 0x802 => some x.trapInfo0
    | 0x803 => some x.trapInfo1
    | 0x804 => some x.scr0
    | 0x805 => some x.scr1
    | 0x806 => some (if x.nest then 2 else 0)
    | 0x807 => some 0
    | _ => none

/-! ### Writing -/

/-- Merge of `sysw` (0), `syss` (1) and `sysc` (2) into a register with the given RW bits (R205). -/
def sysMerge (op : Nat) (old v rw : DWord) : DWord :=
  match op with
  | 0 => (old &&& ~~~rw) ||| (v &&& rw)
  | 1 => old ||| (v &&& rw)
  | 2 => old &&& ~~~(v &&& rw)
  | _ => old ||| v

/-- RW bits of SMPCTL, SMPBUF, SMPPTR and SMPDROP (R350). -/
def smpRw (idx : Nat) : DWord :=
  match idx with
  | 0x050 => 0x1FFFF
  | 0x051 => 0x0000FFFF003FFFFF
  | 0x052 => 0xFFFFFFFF00000000
  | _ => 0xFFFFFFFF

/-- Value of SMPBUF that is an illegal operand (R350). -/
def smpbufBad (v : DWord) : Bool :=
  let size := bits v 47 32
  let base := bits v 21 0
  size = 0 || base % 64 ≠ 0 || 0x300000 < base + 64 * size

/-- Write a register of stream scope at once; its next reader is the stream's next instruction. -/
def Stream.sysSet (x : Stream) (idx op : Nat) (v : DWord) : Stream :=
  match idx with
  | 0x010 =>
    let r := sysMerge op x.round v 0xFF07
    { x with round := if 5 < bits r 2 0 then r &&& ~~~7 else r }
  | 0x011 => { x with srctr := sysMerge op x.srctr v (BitVec.allOnes 64) }
  | 0x800 => { x with trapPc := sysMerge op x.trapPc v 0x1FFFC }
  | 0x804 => { x with scr0 := sysMerge op x.scr0 v (BitVec.allOnes 64) }
  | 0x805 => { x with scr1 := sysMerge op x.scr1 v (BitVec.allOnes 64) }
  | _ => x

/-- RBASE as E writes it: a VRB of 48 to 63 loses 48 (R175). -/
def Core.setRbase (k : Core) (op : Nat) (v : DWord) : Core :=
  let r := sysMerge op k.rbase v 0x73F
  let b := bits r 5 0
  { k with vrb := BitVec.ofNat 6 (if 48 ≤ b then b - 48 else b), prb := BitVec.ofNat 3 (bits r 10 8) }

/-- A write that takes place at the end of period `p`; writes of one period in stream order. -/
def Core.delayWrite (k : Core) (p : Nat) (w : SysWrite) : Core :=
  let le (x : Nat × SysWrite) : Bool := x.1 < p || (x.1 = p && x.2.order ≤ w.order)
  { k with pendW := k.pendW.filter le ++ [(p, w)] ++ k.pendW.filter fun x => !le x }

/-- The effect of `sysw`, `syss` or `sysc` on an assigned register (R205). -/
def State.sysSet (s : State) (c : Nat) (i : StreamId) (idx op : Nat) (v : DWord) : State :=
  if idx = 0x011 then
    (s.modStr c i (·.sysSet idx op v)).modCore c fun k => if i = .e then { k with pendW := k.pendW.filter fun w => w.2.idx ≠ 0x011 } else k
  else if idx = 0x010 ∨ idx = 0x800 ∨ idx = 0x804 ∨ idx = 0x805 then s.modStr c i (·.sysSet idx op v)
  else if idx = 0x012 then (if i = .e then s.modCore c (·.setRbase op v) else s)
  else if idx = 0x020 ∨ (0x050 ≤ idx ∧ idx ≤ 0x053) then s.modCore c (·.delayWrite s.now ⟨streamNum i, idx, op, v⟩)
  else if idx = 0x806 then (if op ≠ 2 ∧ v.getLsbD 0 then s.plan s.now 30 (.trapctlFreeze c i) else s)
  else if idx = 0x807 then
    if op = 2 then s
    else
      let q := v.extractLsb' 0 8
      match bits v 9 8 with
      | 0 => s.plan (s.now + 1) 6 (.cefctlAbandon c i q)
      | 1 => s.plan (s.now + 1) 6 (.cefctlRetranslate c i q)
      | 2 => s.plan (s.now + 1) 6 (.cefctlResume c i q)
      | _ => s
  else s

/-- A register of the sampling unit as planned writes leave it. -/
def State.smpNext (s : State) (c idx : Nat) : DWord :=
  let smp := (s.core c).smp
  let f (v : DWord) (e : Nat × Nat × Work) : DWord :=
    match e.2.2 with
    | .smpctlWrite k w => if k = c ∧ idx = 0x050 then w else v
    | .smpbufWrite k w => if k = c ∧ idx = 0x051 then w else v
    | .smpptrRdWrite k w => if k = c ∧ idx = 0x052 then w else v
    | _ => v
  s.agenda.foldl f (match idx with
    | 0x050 => smp.ctl
    | 0x051 => smp.buf
    | _ => smp.ptr)

/-- A delayed write takes place, at the start of the tick after its issue (R155, R205, R256, R350). -/
def State.applyWrite (s : State) (c : Nat) (w : SysWrite) : State :=
  match w.idx with
  | 0x020 =>
    s.modCore c fun k =>
      let v := w.val.truncate 8
      { k with numstat := match w.op with
        | 2 => k.numstat
        | 3 => k.numstat ||| v
        | _ => k.numstat &&& ~~~v }
  | 0x011 => s.modStr c .e fun x => { x with srctr := x.srctr + w.val }
  | 0x021 => s.modCore c fun k => { k with dstat := w.val }
  | 0x050 => s.plan s.now 0 (.smpctlWrite c (sysMerge w.op (s.smpNext c 0x050) w.val (smpRw 0x050)))
  | 0x051 => s.plan s.now 0 (.smpbufWrite c (sysMerge w.op (s.smpNext c 0x051) w.val (smpRw 0x051)))
  | 0x052 => s.plan s.now 0 (.smpptrRdWrite c (sysMerge w.op (s.smpNext c 0x052) w.val (smpRw 0x052)))
  | 0x053 =>
    s.modCore c fun k =>
      { k with smp := { k.smp with
          dropped := (sysMerge w.op (k.smp.dropped.zeroExtend 64) w.val (smpRw 0x053)).truncate 32 } }
  | _ => s

/-! ### `sysr`, `sysw`, `syss`, `sysc` (R205) -/

/-- Indices 0x800 to 0xFFF are privileged (R172, R177). -/
def privIdx (idx : BitVec 12) : Bool := idx.getLsbD 11

/-- Keys of the system registers that an earlier instruction of the stream may not have written yet: EPCFG and EPIDX (R252), SRCTR
(R72, R145). -/
def State.sysKeys (s : State) (idx : BitVec 12) : List Nat :=
  if s.at.2 ≠ .e ∧ eOnly idx.toNat then [] else if idx = 0x022 || idx = 0x023 then [keyEp] else [keySys idx.toNat]

/-- The registers of the DEU's array that a read of an index meets (R371). -/
def State.sysArr (s : State) (idx : BitVec 12) : List (Nat × Nat × Nat) :=
  if idx = 0x021 then dstatArr else if s.at.2 = .e && (idx = 0x022 || idx = 0x023) then epArr else []

def execSysr (t : Tok) (gd : G) (idx : BitVec 12) (s : State) : Out :=
  s.issue { t := t, priv := privIdx idx, reads := s.sysKeys idx, writes := [keyG gd] } fun s =>
    match s.sysGet s.at.1 s.at.2 idx.toNat with
    | some v => s.reading (s.sysArr idx) fun s => .seq (s.setG gd v)
    | none => .trap 0x45 (idx.zeroExtend 64) 0

/-- `sysw`, `syss` and `sysc` of an index. A write of SRCTR replaces what earlier instructions still add to it (R214); one of SMPPTR
waits for the vector loads that its stream has issued, as a store of that stream does (R354; log 35). -/
def State.sysWriteInstr (s : State) (t : Tok) (gs : G) (idx : BitVec 12) (op : Nat) : Out :=
  s.issue { t := t, priv := privIdx idx, reads := keyG gs :: (if op = 0 then [] else [keySys idx.toNat]), writes := [keySys idx.toNat]
            wait := if idx = 0x052 ∧ s.at.2 = .e ∧ s.now < s.myCore.vmPort then some .issued else none } fun s =>
    let (c, i) := s.at
    let v := s.gr gs
    if (s.sysGet c i idx.toNat).isNone then .trap 0x45 (idx.zeroExtend 64) 0
    else
      let smp := (s.core c).smp
      let r := sysMerge op smp.buf v (smpRw 0x051)
      if idx = 0x051 ∧ !smp.ctl.getLsbD 0 ∧ smpbufBad r then valueTrap r gs
      else .seq (s.sysSet c i idx.toNat op v)

def execSysw (t : Tok) (gs : G) (idx : BitVec 12) (s : State) : Out := s.sysWriteInstr t gs idx 0
def execSyss (t : Tok) (gs : G) (idx : BitVec 12) (s : State) : Out := s.sysWriteInstr t gs idx 1
def execSysc (t : Tok) (gs : G) (idx : BitVec 12) (s : State) : Out := s.sysWriteInstr t gs idx 2

/-! ### Control of the stream (R208, R209) -/

def execNop (t : Tok) (s : State) : Out := s.issue { t := t } fun s => .seq s

/-- The boundary after it is a pre-emption point. -/
def execYield (t : Tok) (s : State) : Out := s.issue { t := t, y := true } fun s => .seq s

/-- The stream issues nothing more; its address stays that of the `halt` (R349). -/
def execHalt (t : Tok) (s : State) : Out :=
  s.issue { t := t } fun s => .stay (s.modMe fun x => { x with halted := true })

def execTrap (t : Tok) (ga : G) (n : BitVec 7) (s : State) : Out :=
  s.issue { t := t, reads := [keyG ga] } fun s => .soft 0xE0 (s.gr ga) (n.zeroExtend 64)

def execEret (t : Tok) (s : State) : Out :=
  s.issue { t := t, priv := true, reads := [keySys 0x800] } fun s =>
    if s.me.nest then .jump (s.modMe fun x => { x with nest := false }) (s.me.eret).pc false else .trap 0x48 0 0

/-- A copy command that stream `i` pushed has not retired (R208, R286). -/
def Core.cePending (k : Core) (i : StreamId) : Bool := k.ce.any fun e => e.stream = i

def execFence (t : Tok) (s : State) : Out :=
  s.issue { t := t, wait := if s.myCore.cePending s.at.2 then some .sync else none } fun s => .seq s

/-! ### The Meridian count (R206, R207, R210) -/

def execReadm (t : Tok) (gd : G) (s : State) : Out :=
  s.issue { t := t, writes := [keyG gd] } fun s => .seq (s.setG gd (dw s.tick))

/-- Holds the stream while the count is below G[ga]. -/
def execWaitm (t : Tok) (ga : G) (s : State) : Out :=
  s.issue { t := t, reads := [keyG ga] } fun s =>
    if s.tick < (s.gr ga).toNat then .hold s (.meridian (s.gr ga)) else .seq s

/-- STATE becomes LOST: a MERIDIAN record, and the schedule is void (R435, R437). -/
def State.muLost (s : State) : State :=
  ({ s with mu := { s.mu with st := 3, slew := none, pending := none, delays := [] } }.raise 5 4 0 { unit := uMu } none 0 0).voidsAll 5 4

/-- Greatest magnitude of an adjustment (R28). -/
def madjMax : Int := 2 ^ 20

/-- `madj`: the pending adjustment, or LOST when it is too large (R28). -/
def State.adjust (s : State) (a : Int) : State :=
  if a.natAbs ≤ madjMax.natAbs then { s with mu := { s.mu with pending := some a } } else s.muLost

def execMadj (t : Tok) (ga : G) (s : State) : Out :=
  s.issue { t := t, streams := [.c], priv := true, reads := [keyG ga] } fun s => .seq (s.adjust (s.gr ga).toInt)

/-- `phase`: the pending request of an island; islands 994 to 1023 do not exist (R210, R340). -/
def State.requestPoint (s : State) (isl : Nat) (pt : BitVec 2) : State :=
  if 994 ≤ isl then s
  else
    let x := Sparse.get ⟨0, none⟩ s.islands isl
    { s with islands := Sparse.insert s.islands isl { x with pending := some pt } }

def execPhase (t : Tok) (ga : G) (s : State) : Out :=
  s.issue { t := t, streams := [.c], priv := true, reads := [keyG ga] } fun s =>
    let v := s.gr ga
    if bits v 63 12 ≠ 0 then valueTrap v ga
    else .seq (s.requestPoint (bits v 9 0) (BitVec.ofNat 2 (bits v 11 10)))

/-- The counters that exist (R355). -/
def perfAssigned (n : Nat) : Bool := if n < 64 then n % 16 ≤ 10 else n ≤ 75

def execPerf (t : Tok) (gd : G) (n : BitVec 7) (s : State) : Out :=
  s.issue { t := t, writes := [keyG gd] } fun s =>
    if perfAssigned n.toNat then .seq (s.setG gd (dw (Sparse.get 0 s.myCore.ctr n.toNat)))
    else .trap 0x46 (n.zeroExtend 64) 0

/-! ### TRAPCTL.FREEZE -/

/-- The trap in TRAPCAUSE escalates to the freeze of the fret, class PROGRAM (R380, R383). -/
def execTrapctlFreeze (core : Nat) (i : StreamId) (s : State) : Out :=
  let x := s.str core i
  let t := s.timedAt core
  let s := (s.raise 4 x.trapCause.toNat 0 { core := some core, stream := some i, unit := uStream } none x.trapInfo0 x.trapInfo1).freeze core
  .next (if t then s.voids core 4 x.trapCause.toNat else s)

end Sys2Proof.Machine
end

