-- ==== Sys2Proof/Machine/Xa.lean ====
section
/-! DEFINITION. The exact accumulator: one product, the counter, the store's columns, XA records in memory, and the
conversion of one element by a drain (spec 07 R148 to R158). -/

namespace Sys2Proof.Machine

/-- 2^96 units: the ceiling of one product (R149 PR). -/
def xaCeil : Nat := 2 ^ 96

/-- A finite product in units, and its IX and PR flags (R150). -/
def unitsOf (exact : Bool) (p : Int) : Int × BitVec 6 :=
  (p, (if exact then 0 else 1) ||| (if xaCeil ≤ p.natAbs then 16 else 0))

/-- One product of a float pairing under an anchor: what it adds to X, and the flags it sets (R149, R150). -/
def product (anchor : Int) (a b : FVal) : Int × BitVec 6 :=
  match a.mul b with
  | .nan => (0, 2)
  | .inf neg => (0, if neg then 8 else 4)
  | .fin x =>
    let y := x.scale (96 - anchor)
    unitsOf (y.num % y.den = 0) (roundInt .rne 0 y)

/-- One product of an integer pairing (R150). -/
def productInt (a b : Int) : Int × BitVec 6 := unitsOf true (a * b)

/-- Float types, against integer ones (R150). -/
def isFloat (t : Ty) : Bool := (tyFmt t).isSome

/-- One product of two elements by their types; a missing second factor is 1. -/
def productOf (anchor : Int) (ta : Ty) (a : Nat) (tb : Ty) (b : Option Nat) : Int × BitVec 6 :=
  if isFloat ta then product anchor (valOf ta a) (b.elim (.fin (Ex.ofInt 1)) (valOf tb))
  else productInt (intOf ta a) (b.elim 1 (intOf tb))

/-- Sum of products and OR of their flags (R152). -/
def sumProducts (l : List (Int × BitVec 6)) : Int × BitVec 6 := l.foldl (fun x y => (x.1 + y.1, x.2 ||| y.2)) (0, 0)

/-- Add to a 32-bit counter; GX when it carries (R151). -/
def countUp (cnt : BitVec 32) (n : Nat) : BitVec 32 × BitVec 6 :=
  (cnt + BitVec.ofNat 32 n, if cnt.toNat + n < 2 ^ 32 then 0 else 32)

/-- X + p modulo 2^136 (R150). -/
def xAdd (x : BitVec 136) (p : Int) : BitVec 136 := x + BitVec.ofInt 136 p

/-! ### The store of a core (R148) -/

def ColSide.zero : ColSide := ⟨0, 0, 0⟩
def Core.colSide (k : Core) (c : Nat) : ColSide := Sparse.get .zero k.side c
def Core.modSide (k : Core) (c : Nat) (f : ColSide → ColSide) : Core :=
  { k with side := Sparse.set .zero k.side c (f (k.colSide c)) }
def Core.xaOf (k : Core) (r c : Nat) : BitVec 136 := Sparse.get 0 k.xa (r * 512 + c)
def Core.setXa (k : Core) (r c : Nat) (x : BitVec 136) : Core := { k with xa := Sparse.set 0 k.xa (r * 512 + c) x }

/-- Products enter element (r, c): X and the column's flags. -/
def Core.addXa (k : Core) (r c : Nat) (p : Int × BitVec 6) : Core :=
  let k := if p.1 = 0 then k else k.setXa r c (xAdd (k.xaOf r c) p.1)
  if p.2 = 0 then k else k.modSide c fun d => { d with flags := d.flags ||| p.2 }

/-- `n` products have been added to each element of column `c` (R151). -/
def Core.countXa (k : Core) (c n : Nat) : Core :=
  if n = 0 then k
  else k.modSide c fun d => let (v, g) := countUp d.cnt n; { d with cnt := v, flags := d.flags ||| g }

/-- X of all rows, flags and counter of a column become zero; the anchor stays (R247, R251). -/
def Core.zeroCol (k : Core) (c : Nat) : Core :=
  ({ k with xa := k.xa.filter fun e => e.1 % 512 ≠ c }).modSide c fun d => { d with flags := 0, cnt := 0 }

/-! ### XA records (R156) -/

/-- The 32 bytes of a record. -/
def xaRecord (x : BitVec 136) (d : ColSide) : List Byte :=
  leBytes 17 x.toNat ++ [d.flags.zeroExtend 8] ++ leBytes 2 d.anchor.toNat ++ leBytes 4 0 ++ leBytes 4 d.cnt.toNat ++ leBytes 4 0

def xaOfRecord (bs : List Byte) : BitVec 136 := BitVec.ofNat 136 (leNat (bs.take 17))
def sideOfRecord (bs : List Byte) : ColSide where
  flags := BitVec.ofNat 6 (leNat ((bs.drop 17).take 1))
  anchor := BitVec.ofNat 10 (leNat ((bs.drop 18).take 2))
  cnt := BitVec.ofNat 32 (leNat ((bs.drop 24).take 4))

/-- `xadd`: one FP32 product a × 1 enters a record (R156, R281). -/
def xaddRecord (bs : List Byte) (v : Nat) : List Byte :=
  let d := sideOfRecord bs
  let p := product d.anchor.toInt (f32 v) (.fin (Ex.ofInt 1))
  let (n, g) := countUp d.cnt 1
  xaRecord (xAdd (xaOfRecord bs) p.1) { d with flags := d.flags ||| p.2 ||| g, cnt := n }

/-! ### Drain of one element (R154) -/

/-- The bits of the target, the OV case, and whether the rounding of the conversion overflowed. -/
def drainElem (x : BitVec 136) (d : ColSide) (t : Ty) (rm : Rm) (sat : Bool) (r : Nat) : Nat × Bool × Bool :=
  let fl (i : Nat) : Bool := d.flags.getLsbD i
  let v := x.toInt
  if fl 1 || (fl 2 && fl 3) then ((convF t rm sat r .nan).1, false, false)
  else if fl 2 then let c := convF t rm sat r (.inf false); (c.1, false, c.2)
  else if fl 3 then let c := convF t rm sat r (.inf true); (c.1, false, c.2)
  else if v < -(2 ^ 127 : Int) || (2 ^ 127 : Int) ≤ v || fl 4 || fl 5 then
    ((match tyFmt t with
      | some m => m.infIn sat (v < 0)
      | none => (convF t rm sat r (.inf (v < 0))).1), true, false)
  else let c := convF t rm sat r (.fin ((Ex.ofInt v).scale (d.anchor.toInt - 96))); (c.1, false, c.2)

/-! ### Pairings (R158) -/

/-- TAG codes of a legal pairing: the width G of a column group (R248). -/
def pairing (a b : Nat) : Option Nat :=
  if (a = 1 ∧ b = 1) ∨ (a = 2 ∧ b = 2) then some 4
  else if (a = 3 ∨ a = 4) ∧ (b = 3 ∨ b = 4) then some 8
  else if (a = 5 ∨ a = 9) ∧ b = 5 then some 8
  else none

end Sys2Proof.Machine
end

