-- ==== Sys2Proof/Machine/Port.lean ====
section
/-! DEFINITION. The vector memory port: the ticks of an access, its line accesses, and what becomes of the bytes (spec 10
R214 to R220, R233; 11 R243, R244, R252, R258, R259; 04 R100 to R102). -/

namespace Sys2Proof.Machine

/-! ### Lines of an access -/

/-- The pieces of `n` bytes at scratchpad offset `o`, one for each line: offset and length. -/
def pieces (o n : Nat) : List (Nat × Nat) :=
  (List.range (linesOf o n)).map fun i =>
    let lo := if i = 0 then o else (o / 64 + i) * 64
    (lo, min (o + n) ((o / 64 + i + 1) * 64) - lo)

/-- Read items of `n` bytes at `o`. -/
def readItems (o n : Nat) : List PortItem := (pieces o n).map fun (a, m) => ⟨a, m, none, none, none⟩

/-- Write items of bytes at `o`. -/
def writeItems (o : Nat) (bs : List Byte) : List PortItem :=
  (pieces o bs.length).map fun (a, m) => ⟨a, m, some ((bs.drop (a - o)).take m), none, none⟩

/-- Bytes at rising offsets, joined where they follow each other within one line. -/
def joinBytes : List (Nat × Byte) → List PortItem
  | [] => []
  | (a, b) :: r =>
    match joinBytes r with
    | ⟨a', n, some bs, none, _⟩ :: l =>
      if a' = a + 1 && a' % 64 ≠ 0 then ⟨a, n + 1, some (b :: bs), none, none⟩ :: l else ⟨a, 1, some [b], none, none⟩ :: ⟨a', n, some bs, none, none⟩ :: l
    | l => ⟨a, 1, some [b], none, none⟩ :: l

/-- The first 32 lines of a contiguous access, and its 33rd where it has one (R101). -/
def splitLines (o : Nat) (items : List PortItem) : List (List PortItem) :=
  let late := items.filter fun i => o / 64 + 32 ≤ i.off / 64
  if late.isEmpty then [items] else [items.filter fun i => i.off / 64 < o / 64 + 32, late]

/-- Distinct lines of items, in order. -/
def linesOfItems (l : List PortItem) : List Nat := (l.map fun i => i.off / 64).eraseDups

/-! ### Arbitration (R102, R219) -/

/-- The lines that are granted in one tick, and how many are kept away by other requesters: one line a bank, the first of
the instruction's own. -/
def grantLines (held : List Nat) : List Nat → List Nat → List Nat × Nat
  | [], _ => ([], 0)
  | l :: r, used =>
    let b := l % 32
    if used.contains b then grantLines held r used
    else
      let (g, n) := grantLines held r (b :: used)
      if held.contains b then (g, n + 1) else (l :: g, n)

/-- Banks of core `c` that someone has been granted in this period. -/
def State.heldBanks (s : State) (c : Nat) : List Nat := ((s.core c).bankUse.filter (·.1 = s.now)).map (·.2.1)

/-- Ticks that a group takes by itself: the most distinct lines that it has in one bank, and at least one (R219). -/
def groupNeed (items : List PortItem) : Nat :=
  let banks := (linesOfItems items).map (· % 32)
  banks.foldl (fun n b => max n (banks.filter (· = b)).length) 1

/-- Ticks of an access: one a group in the timed regime (R220), in the free one as many as its own lines need (R219). -/
def State.portTicks (s : State) (c : Nat) (groups : List (List PortItem)) : Nat :=
  if s.timedAt c then groups.length else (groups.map groupNeed).foldl (· + ·) 0

/-- The port is taken for an access of the instruction that issues now: what the latency `lat` of one tick a group becomes with the
ticks that its own lines add. In the free regime a tick that it loses to another requester adds one more (`portDelay`). -/
def State.portStart (s : State) (what : PortWhat) (groups : List (List PortItem)) (lat : Nat) : State × Nat :=
  let c := s.at.1
  let (id, s) := s.fresh
  let timed := s.timedAt c
  let n := s.portTicks c groups
  let lat := lat + (n - groups.length)
  let own := s.now + lat - 1
  let due (q : Chan) : Nat := (q.due.filter fun e => e.1 = .at (s.me.retireAt + 1)).length
  let k := s.myCore
  let op : PortOp :=
    { id := id, pc := s.me.pc, timed := timed, what := what, got := [], rest := if timed then [] else groups, own := own, prev := s.me.retireAt
      skip := (due s.me.tokPred, due s.me.tokSucc, (k.pendW.filter fun w => w.1 = s.me.retireAt && w.2.order = 4).length) }
  let s := s.modCore c fun k => { k with port := some op, vmPort := s.now + n, vmRetry := [] }
  (if timed then (groups.mapIdx fun i g => (i, g)).foldl (fun s (i, g) => s.plan (s.now + 1 + i) 17 (.portStep c id g (i + 1 = groups.length))) s
   else s.plan (s.now + 1) 17 (.portStep c id [] false), lat)

/-- Words that can be taken from period `p` on, past the first `n` of them, come one period later. -/
def Chan.later (q : Chan) (p n : Nat) : Chan :=
  let go (a : List (Due × DWord) × Nat) (e : Due × DWord) : List (Due × DWord) × Nat :=
    if e.1 = .at p then (if a.2 < n then (a.1 ++ [e], a.2 + 1) else (a.1 ++ [(.at (p + 1), e.2)], a.2)) else (a.1 ++ [e], a.2)
  { q with due := (q.due.foldl go ([], 0)).1 }

/-- The retirements of the instruction on the port and of those after it that wait for it alone come one period later, with the
tokens and the delayed writes that go with them (R67, R219). -/
def Core.retireLater (k : Core) (op : PortOp) : Core :=
  let r := max op.prev op.own
  if op.own < op.prev then k
  else
    let tie := op.own = op.prev
    let mine (w : Nat × SysWrite) : Bool := w.1 = r && w.2.order = 4
    let l := (k.pendW.filter mine).map (·.2)
    let moved := l.drop (if tie then op.skip.2.2 else 0)
    let k := { k with pendW := k.pendW.filter (!mine ·) }
    let k := (l.take (l.length - moved.length)).foldl (fun k w => k.delayWrite r w) k
    let k := moved.foldl (fun k w => k.delayWrite (r + 1) w) k
    k.modStr .e fun x =>
      { x with tokPred := x.tokPred.later (r + 1) (if tie then op.skip.1 else 0), tokSucc := x.tokSucc.later (r + 1) (if tie then op.skip.2.1 else 0)
               retireAt := if x.retireAt = r then r + 1 else x.retireAt
               busy := x.busy.map fun (b : Nat × Nat) => if b.1 = keySr && b.2 = r + 1 && moved.any (·.idx = 0x011) then (b.1, b.2 + 1) else b }

/-- The register or table that an access writes, by its scoreboard key. -/
def PortWhat.key : PortWhat → Option Nat
  | .load dst _ _ _ => some (100 + dst)
  | .table k _ _ _ _ => some (keyT k)
  | .epilogue _ => some keyEp
  | _ => none

/-- A tick is lost: the results, the retirement and the later effects of the access come one period later (R219, R244). -/
def Core.portDelay (k : Core) (now : Nat) (op : PortOp) : Core :=
  let more := 1 < op.rest.length
  let tail := match op.what with
    | .columns .. => 1
    | _ => 0
  let tile (e : TileEff) : TileEff := if e.id = op.id && (e.wr || more) then { e with last := e.last + 1 } else e
  let col (e : ColEff) : ColEff := if e.id = op.id && now + tail ≤ e.last then { e with last := e.last + 1 } else e
  let k := (k.retireLater op).modStr .e fun x =>
    { x with busy := x.busy.map fun (b : Nat × Nat) => if some b.1 = op.what.key && b.2 = op.own + 1 then (b.1, b.2 + 1) else b }
  { k with vmPort := k.vmPort + 1, epReady := if op.what.key = some keyEp then max k.epReady (k.vmPort + 2) else k.epReady
           tileEff := k.tileEff.map tile, colEff := k.colEff.map col, port := k.port.map fun o => { o with own := o.own + 1 } }

/-- The port is taken for `n` ticks by an access that uses no bank (R138, R219). -/
def State.portIdle (s : State) (n : Nat) : State := s.modMyCore fun k => { k with vmPort := s.now + n, vmRetry := [] }

/-! ### Tiles and tables -/

/-- Contents of a tile; unlisted is zero. -/
def Core.tileOf (k : Core) (n : TN) : Sparse Byte := Sparse.get [] k.tiles n.toNat
def Core.setTile (k : Core) (n : TN) (x : Sparse Byte) : Core := { k with tiles := Sparse.set [] k.tiles n.toNat x }

/-- Bytes of a tile row from column byte `b` on (R242). -/
def Core.tileBytes (k : Core) (n : TN) (row b len : Nat) : List Byte := Sparse.getAll 0 (k.tileOf n) (row * 1024 + b) len
def Core.writeTile (k : Core) (n : TN) (row b : Nat) (bs : List Byte) : Core :=
  k.setTile n (Sparse.setAll 0 (k.tileOf n) (row * 1024 + b) bs)

/-- The 258 entries of a table from its bytes (R233). -/
def tableEntries (bs : List Byte) : List Word := (chunks 258 4 bs).map fun b => BitVec.ofNat 32 (leNat b)

/-- `n` FP32 words by number. -/
def wordsSparse (bs : List Byte) : Sparse Word :=
  ((chunks 512 4 bs).mapIdx fun i b => (i, BitVec.ofNat 32 (leNat b))).filter fun e => e.2 ≠ 0

/-- Period from which the settings of the last `epcfg` apply (R252). -/
def Core.epFrom (k : Core) : Nat := (k.epPend.getLast?.map (·.1)).getD 0

/-! ### A tick of the port -/

/-- A byte read before, by its offset. -/
def gotByte (got : List (Nat × Option Nat × List Byte)) (o : Nat) : Nat :=
  match got.find? fun e => e.1 ≤ o && o < e.1 + e.2.2.length with
  | some e => (e.2.2.getD (o - e.1) 0).toNat
  | none => 0

def gotNat (got : List (Nat × Option Nat × List Byte)) (o : Nat) : Nat → Nat
  | 0 => 0
  | n + 1 => gotByte got o + 256 * gotNat got (o + 1) n

/-- The element of a lane from the bytes read: from the sample made for that lane, where lanes are read one by one (R220). -/
def gotElem (got : List (Nat × Option Nat × List Byte)) (ty : Ty) (i o nib : Nat) : Lane :=
  let got := got.filter fun e => e.2.1.isNone || e.2.1 = some i
  if tyWidth ty = 4 then toLane ty (gotByte got o / 16 ^ nib) else toLane ty (gotNat got o (tyWidth ty / 8))

/-- Listed lanes of a function of the lane number. -/
def lanesBy (f : Nat → Lane) : Sparse Lane := ((List.range 512).map fun i => (i, f i)).filter fun e => e.2 ≠ 0

/-- Bytes of `[o, o+n)` from the items read. -/
def gotBytes (got : List (Nat × Option Nat × List Byte)) (o n : Nat) : List Byte :=
  (List.range n).map fun i => BitVec.ofNat 8 (gotByte got (o + i))

/-- When the items read so far complete a row of a tile, or a column of accumulators, it is written (R244, R259). -/
def Core.portGot (k : Core) (op : PortOp) : Core :=
  let m := op.got.length
  match op.what with
  | .tile td off pitch _ rb =>
    let p := linesOf off rb
    if m % p = 0 then
      let r := m / p - 1
      k.writeTile td r 0 (gotBytes (op.got.drop (m - p)) (off + r * pitch) rb)
    else k
  | .columns c _ off =>
    let p := linesOf off 2048
    if m % p = 0 then
      let j := m / p - 1
      let recs := chunks 64 32 (gotBytes (op.got.drop (m - p)) (off + 2048 * j) 2048)
      let k := (recs.mapIdx fun i b => (i, b)).foldl (fun k (i, b) => k.setXa i (c + j) (xaOfRecord b)) k
      { k with side := Sparse.set .zero k.side (c + j) (sideOfRecord (recs.headD [])) }
    else k
  | _ => k

/-- The ranges of the arrays that the row or column takes which the items read so far complete. -/
def PortOp.fills (op : PortOp) : List (Nat × Nat × Nat) :=
  let m := op.got.length
  match op.what with
  | .tile td off _ _ rb => let p := linesOf off rb; if m % p = 0 then tileArr td.toNat (m / p - 1) 0 rb else []
  | .columns c _ off =>
    let p := linesOf off 2048
    if m % p = 0 then bodyArr 0 64 (c + (m / p - 1)) 1 ++ sideArr (c + (m / p - 1)) 1 else []
  | _ => []

/-- The end of an access. -/
def State.portDone (s : State) (c : Nat) (op : PortOp) : State :=
  let s := s.modCore c fun k => { k with port := none }
  match op.what with
  | .load dst ty z lanes =>
    s.modCore c fun k =>
      let old := Sparse.get [] k.v dst
      let val (i : Nat) : Lane :=
        match lanes.find? (·.1 = i) with
        | some (_, o, nib) => gotElem op.got ty i o nib
        | none => if z then 0 else Sparse.get 0 old i
      { k with v := Sparse.set [] k.v dst (lanesBy val) }
  | .table t cfg va kind off =>
    let y := tableEntries (gotBytes op.got off 1032)
    s.plan (s.now + 4) 0 (.tieTable c t ⟨cfg, va, kind, y⟩)
  | .epilogue off =>
    s.plan (max (s.now + 1) (s.core c).epFrom) 0
      (.epilogueData c (wordsSparse (gotBytes op.got off 2048)) (wordsSparse (gotBytes op.got (off + 2048) 2048)))
  | _ => s

/-- The first line of a tick that another requester keeps away in the timed regime: bank and performer (R422, R423). -/
def State.portRefused (s : State) (c : Nat) (items : List PortItem) : Option (Nat × Nat) :=
  let banks := (linesOfItems items).map (· % 32)
  banks.findSome? fun b =>
    match ((s.core c).bankUse.filter fun e => e.1 = s.now && e.2.1 = b && e.2.2 < 3).map (·.2.2) with
    | h :: _ => some (b, h)
    | [] => if 1 < (banks.filter (· = b)).length then some (b, 3) else none

/-- One item: a read adds to the bytes gathered; a write stores its bytes, or one nibble. -/
def State.portItem (s : State) (c : Nat) (i : PortItem) : State :=
  let l := spadOf c + i.off
  match i.data, i.half with
  | none, _ =>
    let bs := s.load l i.n
    let who : Who := { core := some c, stream := some .e, unit := uVec }
    let s := s.touch who l i.n
    match (s.core c).port with
    | some op =>
      let op := { op with got := op.got ++ [(i.off, i.lane, bs)] }
      (s.modCore c fun k => { k.portGot op with port := some op }).softFill who c op.fills
    | none => s
  | some bs, half =>
    let old := (s.mem.get l).toNat
    let v := (bs.headD 0).toNat
    let bs := match half with
      | none => bs
      | some hi => [BitVec.ofNat 8 (if hi then old % 16 + v % 16 * 16 else old / 16 * 16 + v % 16)]
    (s.store { core := some c, stream := some .e, unit := uVec } l bs).modCore c fun k =>
      { k with port := k.port.map fun op => { op with got := op.got ++ [(i.off, none, [])] } }

/-- The lines of one tick perform; after the last ones the access ends. A read that no code can correct is contained (R375). -/
def State.portPerform (s : State) (c : Nat) (items : List PortItem) (last : Bool) : State :=
  match items.findSome? fun i => if i.data.isNone then s.uncorr (spadOf c + i.off) i.n else none with
  | some g =>
    (s.modCore c fun k => { k with port := none }).contain 1 1 { core := some c, stream := some .e, unit := uVec } (some (mkPpa s.pkg g))
  | none =>
    let s := items.foldl (fun s i => s.portItem c i) (s.modCore c (·.useBanks s.now s.now 3 ((linesOfItems items).map (· % 32))))
    if last then
      match (s.core c).port with
      | some op => s.portDone c op
      | none => s
    else s

/-- A tick of the vector memory port in the free regime: of the group in progress, the lines whose banks are free perform; what has
lost the arbitration retries in the next tick (R102, R219, R244). -/
def State.portFree (s : State) (c : Nat) (op : PortOp) : State :=
  match op.rest with
  | [] => s
  | g :: r =>
    let (l, lost) := grantLines (s.heldBanks c) (linesOfItems g) []
    let later := g.filter fun i => !l.contains (i.off / 64)
    let s := if lost = 0 then s else s.modCore c fun k => { k.count 70 lost with vmRetry := k.vmRetry.filter (s.now ≤ ·) ++ [s.now + 1] }
    let s := if !later.isEmpty && groupNeed g ≤ groupNeed later then s.modCore c (·.portDelay s.now op) else s
    let rest := if later.isEmpty then r else later :: r
    let s := s.modCore c fun k => { k with port := k.port.map fun o => { o with rest := rest } }
    let s := s.portPerform c (g.filter fun i => l.contains (i.off / 64)) rest.isEmpty
    if rest.isEmpty then s else s.plan (s.now + 1) 17 (.portStep c op.id [] false)

/-- A tick of the vector memory port (R214, R219, R220, R244). -/
def State.portStep (s : State) (c id : Nat) (items : List PortItem) (last : Bool) : State :=
  match (s.core c).port with
  | none => s
  | some op =>
    if op.id ≠ id then s
    else if !op.timed then s.portFree c op
    else
      match s.portRefused c items with
      | some (b, h) =>
        (s.modCore c fun k => { k with port := none }).schedErr c (some .e) uVec 0xC2 (dw b) (bankInfo h 3)
          ((items.find? fun i => i.off / 64 % 32 = b).map fun i => mkPpa s.pkg (spadOf c + i.off)) (some op.pc)
      | none => s.portPerform c items last

/-- The table that a `vtiload` replaces at s + 5 (R233). -/
def State.tieTable (s : State) (c t : Nat) (x : TieTable) : State :=
  s.modCore c fun k => { k with tie := Sparse.insert k.tie t x }

/-- The DEU's copy of BIAS and SCALE (R252). -/
def State.epilogueData (s : State) (c : Nat) (bias scale : Sparse Word) : State :=
  (s.modCore c fun k => { k with bias := bias, scale := scale }).softFill { core := some c, stream := some .e, unit := uDeu } c (biasArr 0 1024)

end Sys2Proof.Machine
end

