-- ==== Sys2Proof/Machine/Vector.lean ====
section
/-! DEFINITION. Vector arithmetic, moves, comparison, conversion, permutes, the table-interpolation engine, random draws,
exact reduction and candidate selection (spec 10 R212 to R215, R221 to R238). -/

namespace Sys2Proof.Machine

/-! ### Shared forms -/

/-- TYPE: the code, and the source code of `vcvt` (R392). -/
def typeTrap (t : Ty) (src : Nat := 0xFF) : Res := .trap 0x41 (dw (tyCode t).toNat) (dw src)

/-- The check that a type is one an instruction accepts. -/
def tyIn (ok : Bool) (t : Ty) : Option Res := if ok then none else some (typeTrap t)

/-- Types 0 to 2, and types 5 to 8. -/
def tyArith (t : Ty) : Bool := (tyCode t).toNat ≤ 2
def tyInt (t : Ty) : Bool := 5 ≤ (tyCode t).toNat && (tyCode t).toNat ≤ 8

/-- Predicates that an instruction reads under `pg`: P0 is always there. -/
def Core.rdP (k : Core) (pg : P) : List Nat := if pg = 0 then [] else [k.keyP pg]
def Core.wrP (k : Core) (pd : P) : List Nat := if pd = 0 then [] else [k.keyP pd]
/-- A destination whose lanes or bits are kept is a source too (R214). -/
def Core.keepV (k : Core) (pg : P) (z : Bool) (vd : V) : List Nat := if pg = 0 || z then [] else [k.keyV vd]
def Core.keepP (k : Core) (pg : P) (z : Bool) (pd : P) : List Nat := if pg = 0 || z || pd = 0 then [] else [k.keyP pd]

/-- Lane `i` of a register. -/
def laneOf (x : Sparse Lane) (i : Nat) : Lane := Sparse.get 0 x i
/-- The element of a type in a lane (R212). -/
def elemOf (t : Ty) (x : Lane) : Nat := x.toNat % 2 ^ tyWidth t

/-- Active lanes take `f`; the others keep their value, or become zero under Z (R213). -/
def Core.writeLanes (k : Core) (vd : V) (pg : P) (z : Bool) (f : Nat → Lane) : Core :=
  let p := k.preg pg
  let old := k.vreg vd
  k.setVreg vd (lanesBy fun i => if p.getLsbD i then f i else if z then 0 else laneOf old i)

/-- A vector instruction with a vector destination: registers read in the issue tick, results after `lat` ticks (R214). -/
def State.vop (s : State) (t : Tok) (y : Bool) (lat : Nat) (vd : V) (pg : P) (z : Bool) (vs : List V) (gs : List G)
    (chk : Option Res) (f : Core → State → Nat → Lane) (also : State → State := id) (more : List Nat := []) : Out :=
  let k := s.myCore
  s.issue { t := t, len := 2, streams := [.e], y := y, writes := [k.keyV vd], lat := lat,
            reads := vs.map k.keyV ++ gs.map keyG ++ k.rdP pg ++ k.keepV pg z vd ++ more } fun s =>
    match chk with
    | some r => r
    | none => .seq (also (s.modMyCore fun k => k.writeLanes vd pg z (f k s)))

/-- Forms of one, two and three sources: a function of the lanes. -/
def State.v1 (s : State) (t : Tok) (y : Bool) (lat : Nat) (vd : V) (pg : P) (z : Bool) (va : V) (chk : Option Res)
    (f : Lane → Lane) : Out :=
  s.vop t y lat vd pg z [va] [] chk fun k _ => let a := k.vreg va; fun i => f (laneOf a i)
def State.v2 (s : State) (t : Tok) (y : Bool) (lat : Nat) (vd : V) (pg : P) (z : Bool) (va vb : V) (chk : Option Res)
    (f : Lane → Lane → Lane) : Out :=
  s.vop t y lat vd pg z [va, vb] [] chk fun k _ => let a := k.vreg va; let b := k.vreg vb; fun i => f (laneOf a i) (laneOf b i)

/-! ### Rounding (R143 to R145) -/

/-- The rounding mode of an instruction of the stream that issues (R143, R144). -/
def Stream.rmOf (x : Stream) : Rm → Rm
  | .dyn =>
    match bits x.round 2 0 with
    | 1 => .rtz
    | 2 => .rdn
    | 3 => .rup
    | 4 => .rna
    | 5 => .sr
    | _ => .rne
  | r => r

/-- KEY of stochastic rounding: the RNG stream register that ROUND.SRH names (R145). -/
def State.srKey (s : State) (c : Nat) (i : StreamId) : DWord :=
  (Sparse.get 0 (s.ctxOf c).rngReg (bits (s.str c i).round 15 8)).truncate 64

/-- The 32-bit draw of a lane (R145). -/
def srDraw (rm : Rm) (key ctr : DWord) (lane : Nat) : Nat := if rm = .sr then drawBits (cbg64 key (ctr + dw lane)) 32 else 0
def State.draw (s : State) (rm : Rm) (lane : Nat) : Nat := srDraw rm (s.srKey s.at.1 s.at.2) s.me.srctr lane

/-- Period in which an instruction of latency `lat` that issues now retires (R67). -/
def State.retireTick (s : State) (lat : Nat) : Nat := max s.me.retireAt (s.now + lat - 1)

/-- An instruction that rounds under mode 5 reads SRCTR, so it waits until those before it have advanced it: the draws follow
from the instruction sequence alone (R72, R145; log 35). -/
def State.srReads (s : State) (rm : Rm) : List Nat := (if rm = .dyn then [keyRound] else []) ++ (if s.me.rmOf rm = .sr then [keySr] else [])

/-- SRCTR advances by 512 at retirement, under mode 5; it can be read from the next period on (R145). -/
def State.srAdvance (s : State) (rm : Rm) (lat : Nat) : State :=
  if s.me.rmOf rm = .sr then
    (s.modMe (·.setBusy s.now (s.retireTick lat + 1) [keySr])).modMyCore (·.delayWrite (s.retireTick lat) ⟨4, 0x011, 4, 512⟩)
  else s

/-- A float result of an active lane, rounded to its type (R222). -/
def State.roundLane (s : State) (t : Ty) (rm : Rm) (sat : Bool) (i : Nat) (x : FVal) : Lane :=
  match tyFmt t with
  | some m => BitVec.ofNat 32 (m.result rm sat (s.draw rm i) x)
  | none => 0

/-- The value of a lane in a type. -/
def laneVal (t : Ty) (x : Lane) : FVal := valOf t (elemOf t x)

/-! ### Moves (R221) -/

def execVbcast (t : Tok) (o : VBcOp) (s : State) : Out :=
  s.vop t o.y 1 o.vd o.pg o.z [] [o.gs] none fun _ s => let v := toLane o.ty (s.gr o.gs).toNat; fun _ => v

def execVmovg (t : Tok) (y : Bool) (gd : G) (va : V) (gl : G) (s : State) : Out :=
  s.issue { t := t, len := 2, streams := [.e], y := y, reads := [s.myCore.keyV va, keyG gl], writes := [keyG gd], lat := 2 } fun s =>
    .seq (s.setG gd ((laneOf (s.myCore.vreg va) (bits (s.gr gl) 8 0)).zeroExtend 64))

/-- One lane changes; the others are kept, so the destination is read. -/
def execVmovl (t : Tok) (y : Bool) (vd : V) (gs gl : G) (s : State) : Out :=
  let k := s.myCore
  s.issue { t := t, len := 2, streams := [.e], y := y, reads := [k.keyV vd, keyG gs, keyG gl], writes := [k.keyV vd] } fun s =>
    .seq (s.modMyCore fun k => k.setVreg vd (Sparse.set 0 (k.vreg vd) (bits (s.gr gl) 8 0) ((s.gr gs).truncate 32)))

/-! ### Floating-point arithmetic (R222, R223) -/

/-- Two sources, one rounding. -/
def State.vfloat2 (s : State) (t : Tok) (o : VBinR) (lat : Nat) (f : Rm → FVal → FVal → FVal) : Out :=
  s.vop t o.y lat o.vd o.pg o.z [o.va, o.vb] [] (tyIn (tyArith o.ty) o.ty)
    (fun k s =>
      let a := k.vreg o.va
      let b := k.vreg o.vb
      let rm := s.me.rmOf o.rm
      fun i => s.roundLane o.ty rm o.sat i (f rm (laneVal o.ty (laneOf a i)) (laneVal o.ty (laneOf b i))))
    (·.srAdvance o.rm lat) (s.srReads o.rm)

/-- Three sources, one rounding of the whole. -/
def State.vfloat3 (s : State) (t : Tok) (o : VTriR) (f : Rm → FVal → FVal → FVal → FVal) : Out :=
  s.vop t o.y 4 o.vd o.pg o.z [o.va, o.vb, o.vc] [] (tyIn (tyArith o.ty) o.ty)
    (fun k s =>
      let a := k.vreg o.va
      let b := k.vreg o.vb
      let c := k.vreg o.vc
      let rm := s.me.rmOf o.rm
      fun i => s.roundLane o.ty rm o.sat i
        (f rm (laneVal o.ty (laneOf a i)) (laneVal o.ty (laneOf b i)) (laneVal o.ty (laneOf c i))))
    (·.srAdvance o.rm 4) (s.srReads o.rm)

def State.vfloat1 (s : State) (t : Tok) (o : VUnR) (lat : Nat) (f : FVal → FVal) : Out :=
  s.vop t o.y lat o.vd o.pg o.z [o.va] [] (tyIn (tyArith o.ty) o.ty)
    (fun k s =>
      let a := k.vreg o.va
      let rm := s.me.rmOf o.rm
      fun i => s.roundLane o.ty rm o.sat i (f (laneVal o.ty (laneOf a i))))
    (·.srAdvance o.rm lat) (s.srReads o.rm)

def execVadd (t : Tok) (o : VBinR) (s : State) : Out := s.vfloat2 t o 4 fun rm a b => a.add rm b
def execVsub (t : Tok) (o : VBinR) (s : State) : Out := s.vfloat2 t o 4 fun rm a b => a.add rm b.flip
def execVmul (t : Tok) (o : VBinR) (s : State) : Out := s.vfloat2 t o 4 fun _ a b => a.mul b
def execVdiv (t : Tok) (o : VBinR) (s : State) : Out := s.vfloat2 t o 20 fun _ a b => a.div b
def execVfma (t : Tok) (o : VTriR) (s : State) : Out := s.vfloat3 t o fun rm a b c => (a.mul b).add rm c
def execVfms (t : Tok) (o : VTriR) (s : State) : Out := s.vfloat3 t o fun rm a b c => (a.mul b).add rm c.flip
def execVfnma (t : Tok) (o : VTriR) (s : State) : Out := s.vfloat3 t o fun rm a b c => (a.mul b).flip.add rm c
def execVrcp (t : Tok) (o : VUnR) (s : State) : Out := s.vfloat1 t o 12 ((FVal.fin (Ex.ofInt 1)).div ·)
def execVrsqrt (t : Tok) (o : VUnR) (s : State) : Out := s.vfloat1 t o 12 (·.rsqrt)
def execVsqrt (t : Tok) (o : VUnR) (s : State) : Out := s.vfloat1 t o 20 (·.sqrt)

/-- The smaller or larger of two elements by their bits; a NaN gives the canonical NaN (R223). -/
def vpick (t : Ty) (big : Bool) (a b : Lane) : Lane :=
  match tyFmt t with
  | some m =>
    let x := elemOf t a
    let y := elemOf t b
    if m.isNan x || m.isNan y then BitVec.ofNat 32 m.nan
    else
      let less : Bool := m.key x ≤ m.key y
      BitVec.ofNat 32 (if less = big then y else x)
  | none => 0

def State.vminmax (s : State) (t : Tok) (o : VBinT) (big : Bool) : Out :=
  s.v2 t o.y 2 o.vd o.pg o.z o.va o.vb (tyIn (tyArith o.ty) o.ty) (vpick o.ty big)

def execVmin (t : Tok) (o : VBinT) (s : State) : Out := s.vminmax t o false
def execVmax (t : Tok) (o : VBinT) (s : State) : Out := s.vminmax t o true

/-- Sign bit of an element cleared, and inverted (R223). -/
def execVabs (t : Tok) (o : VUnT) (s : State) : Out :=
  s.v1 t o.y 2 o.vd o.pg o.z o.va (tyIn (tyArith o.ty) o.ty) fun a => BitVec.ofNat 32 (elemOf o.ty a % 2 ^ (tyWidth o.ty - 1))
def execVneg (t : Tok) (o : VUnT) (s : State) : Out :=
  s.v1 t o.y 2 o.vd o.pg o.z o.va (tyIn (tyArith o.ty) o.ty) fun a =>
    BitVec.ofNat 32 ((elemOf o.ty a + 2 ^ (tyWidth o.ty - 1)) % 2 ^ tyWidth o.ty)

/-! ### Compare, classify, select (R224 to R226) -/

/-- A predicate from a test of its lanes. -/
def predBy (f : Nat → Bool) : Pred := BitVec.ofNat 512 ((List.range 512).foldl (fun n i => if f i then n + 2 ^ i else n) 0)

/-- Active bits take `x`; the others keep their value, or become zero under Z (R213). -/
def Core.writePred (k : Core) (pd : P) (pg : P) (z : Bool) (x : Pred) : Core :=
  let m := k.preg pg
  k.setPreg pd ((x &&& m) ||| (if z then 0 else k.preg pd &&& ~~~m))

/-- The condition on two elements (R224). -/
def cmpHolds (t : Ty) (c : VCond) (a b : Lane) : Bool :=
  let x := laneVal t a
  let y := laneVal t b
  match x, y with
  | .nan, _ => c = .ne || c = .un
  | _, .nan => c = .ne || c = .un
  | _, _ =>
    let lt (x y : FVal) : Bool :=
      match x, y with
      | .inf n, .inf m => n && !m
      | .inf n, _ => n
      | _, .inf m => !m
      | .fin x, .fin y => x.lt y
      | _, _ => false
    let l := lt x y
    let g := lt y x
    match c with
    | .eq => !l && !g
    | .ne => l || g
    | .lt => l
    | .le => !g
    | .gt => g
    | .ge => !l
    | .un => false
    | .or => true

def execVcmp (t : Tok) (o : VCmpOp) (s : State) : Out :=
  let k := s.myCore
  s.issue { t := t, len := 2, streams := [.e], y := o.y, lat := 2, writes := k.wrP o.pd,
            reads := [k.keyV o.va, k.keyV o.vb] ++ k.rdP o.pg ++ k.keepP o.pg o.z o.pd } fun s =>
    if o.ty = .int4 then typeTrap o.ty
    else if !isFloat o.ty ∧ (o.cond = .un ∨ o.cond = .or) then s.combo 2
    else
      let a := s.myCore.vreg o.va
      let b := s.myCore.vreg o.vb
      .seq (s.modMyCore fun k => k.writePred o.pd o.pg o.z (predBy fun i => cmpHolds o.ty o.cond (laneOf a i) (laneOf b i)))

/-- The class bit of an element (R225). -/
def classBit (m : Fmt) (v : Nat) : Nat :=
  let neg := v / 2 ^ (m.w - 1) % 2 = 1
  let mag := v % 2 ^ (m.w - 1)
  match m.dec v with
  | .nan => 8
  | .inf n => if n then 0 else 7
  | .fin x =>
    if x.num = 0 then (if neg then 3 else 4)
    else if mag < 2 ^ m.f then (if neg then 2 else 5)
    else (if neg then 1 else 6)

def execVclass (t : Tok) (o : VUnT) (s : State) : Out :=
  s.v1 t o.y 2 o.vd o.pg o.z o.va (tyIn (isFloat o.ty) o.ty) fun a =>
    match tyFmt o.ty with
    | some m => BitVec.ofNat 32 (2 ^ classBit m (elemOf o.ty a))
    | none => 0

/-- Every lane is written. -/
def execVsel (t : Tok) (o : VSelOp) (s : State) : Out :=
  let k := s.myCore
  s.issue { t := t, len := 2, streams := [.e], y := o.y, lat := 2, writes := [k.keyV o.vd],
            reads := [k.keyV o.va, k.keyV o.vb] ++ k.rdP o.pg } fun s =>
    .seq (s.modMyCore fun k =>
      let p := k.preg o.pg
      let a := k.vreg o.va
      let b := k.vreg o.vb
      k.setVreg o.vd (lanesBy fun i => laneOf (if p.getLsbD i then a else b) i))

/-! ### Integer operations (R227) -/

/-- An exact integer placed in a lane: clamped, or its low bits. -/
def intLane (t : Ty) (sat : Bool) (v : Int) : Lane := toLane t (wrap (if sat then (clampTo t v).1 else v) (tyWidth t))

def State.vint2 (s : State) (t : Tok) (o : VBinS) (lat : Nat) (f : Int → Int → Int) : Out :=
  s.v2 t o.y lat o.vd o.pg o.z o.va o.vb (tyIn (tyInt o.ty) o.ty) fun a b =>
    intLane o.ty o.sat (f (intOf o.ty a.toNat) (intOf o.ty b.toNat))

def execViadd (t : Tok) (o : VBinS) (s : State) : Out := s.vint2 t o 2 fun a b => a + b
def execVisub (t : Tok) (o : VBinS) (s : State) : Out := s.vint2 t o 2 fun a b => a - b
def execVimul (t : Tok) (o : VBinS) (s : State) : Out := s.vint2 t o 4 fun a b => a * b

/-- Forms of two typed integers with no saturation. -/
def State.vintU (s : State) (t : Tok) (o : VBinT) (lat : Nat) (f : Int → Int → Int) : Out :=
  s.v2 t o.y lat o.vd o.pg o.z o.va o.vb (tyIn (tyInt o.ty) o.ty) fun a b =>
    intLane o.ty false (f (intOf o.ty a.toNat) (intOf o.ty b.toNat))

def execVimulh (t : Tok) (o : VBinT) (s : State) : Out := s.vintU t o 4 fun a b => a * b / 2 ^ tyWidth o.ty
def execVimin (t : Tok) (o : VBinT) (s : State) : Out := s.vintU t o 2 fun a b => if a ≤ b then a else b
def execVimax (t : Tok) (o : VBinT) (s : State) : Out := s.vintU t o 2 fun a b => if a ≤ b then b else a

/-- A shift by the low eight bits of the lane of vb. -/
def State.vshift (s : State) (t : Tok) (o : VBinT) (f : Nat → Nat → Nat) : Out :=
  s.v2 t o.y 2 o.vd o.pg o.z o.va o.vb (tyIn (tyInt o.ty) o.ty) fun a b =>
    toLane o.ty (f (elemOf o.ty a) (b.toNat % 256))

def execVshl (t : Tok) (o : VBinT) (s : State) : Out :=
  s.vshift t o fun a n => if tyWidth o.ty ≤ n then 0 else a * 2 ^ n
def execVshr (t : Tok) (o : VBinT) (s : State) : Out :=
  s.vshift t o fun a n => if tyWidth o.ty ≤ n then 0 else a / 2 ^ n
def execVsra (t : Tok) (o : VBinT) (s : State) : Out :=
  s.vshift t o fun a n => wrap (sext a (tyWidth o.ty) / 2 ^ min n (tyWidth o.ty)) (tyWidth o.ty)

def execViabs (t : Tok) (o : VUnS) (s : State) : Out :=
  s.v1 t o.y 2 o.vd o.pg o.z o.va (tyIn (tyInt o.ty) o.ty) fun a => intLane o.ty o.sat (intOf o.ty a.toNat).natAbs

/-- All 32 bits of each lane. -/
def execVand (t : Tok) (o : VBinB) (s : State) : Out := s.v2 t o.y 2 o.vd o.pg o.z o.va o.vb none (· &&& ·)
def execVor (t : Tok) (o : VBinB) (s : State) : Out := s.v2 t o.y 2 o.vd o.pg o.z o.va o.vb none (· ||| ·)
def execVxor (t : Tok) (o : VBinB) (s : State) : Out := s.v2 t o.y 2 o.vd o.pg o.z o.va o.vb none (· ^^^ ·)
def execVnot (t : Tok) (o : VUnB) (s : State) : Out := s.v1 t o.y 2 o.vd o.pg o.z o.va none (~~~·)

/-! ### Conversion and INT4 packing (R228 to R230) -/

/-- One element of `vcvt`: its bits, and the condition of CV. -/
def cvtElem (src dst : Ty) (rm : Rm) (sat : Bool) (r : Nat) (v : Nat) : Nat × Bool :=
  if isFloat src then convF dst rm sat r (valOf src v) else convI dst rm sat r (intOf src v)

/-- CV is set at retirement by an active lane; SRCTR advances under mode 5 whether or not a lane rounded (R228, R229). -/
def execVcvt (t : Tok) (o : VCvtOp) (s : State) : Out :=
  let bad := o.dst = o.src || o.dst = .int4 || o.src = .int4
  let cv (s : State) : Bool :=
    let k := s.myCore
    let a := k.vreg o.va
    let rm := s.me.rmOf o.rm
    (List.range 512).any fun i =>
      (k.preg o.pg).getLsbD i && (cvtElem o.src o.dst rm o.sat (s.draw rm i) (elemOf o.src (laneOf a i))).2
  let flag := cv s
  s.vop t o.y 4 o.vd o.pg o.z [o.va] [] (if bad then some (typeTrap o.dst (tyCode o.src).toNat) else none)
    (fun k s =>
      let a := k.vreg o.va
      let rm := s.me.rmOf o.rm
      fun i => toLane o.dst (cvtElem o.src o.dst rm o.sat (s.draw rm i) (elemOf o.src (laneOf a i))).1)
    (fun s =>
      let s := s.srAdvance o.rm 4
      if flag then s.modMyCore (·.delayWrite (s.retireTick 4) ⟨4, 0x020, 3, 0x80⟩) else s)
    (s.srReads o.rm)

/-- Bytes of a register packed from the INT32 lanes of two. -/
def execVpack4 (t : Tok) (o : VPackOp) (s : State) : Out :=
  s.vop t o.y 2 o.vd 0 false [o.va, o.vb] [] none fun k _ =>
    let a := k.vreg o.va
    let b := k.vreg o.vb
    let e (j : Nat) : Nat :=
      let v := (laneOf (if j < 512 then a else b) (j % 512)).toInt
      wrap (if o.sat then (clampTo .int4 v).1 else v) 4
    fun i => if 128 ≤ i then 0 else BitVec.ofNat 32 ((List.range 8).foldl (fun n j => n + e (8 * i + j) * 16 ^ j) 0)

def execVunpack4 (t : Tok) (o : VUnpackOp) (s : State) : Out :=
  s.vop t o.y 2 o.vd o.pg o.z [o.va] [] none fun k _ =>
    let a := k.vreg o.va
    fun i =>
      let j := i + (if o.half then 512 else 0)
      toLane .int4 ((laneOf a (j / 8)).toNat / 16 ^ (j % 8))

/-! ### Permutes (R231, R232) -/

/-- Byte `j` of a register. -/
def byteOf (x : Sparse Lane) (j : Nat) : Nat := (laneOf x (j / 4)).toNat / 256 ^ (j % 4) % 256

def execVpermb (t : Tok) (o : VTriB) (s : State) : Out :=
  s.vop t o.y 3 o.vd o.pg o.z [o.va, o.vb, o.vc] [] none fun k _ =>
    let a := k.vreg o.va
    let b := k.vreg o.vb
    let c := k.vreg o.vc
    let byte (j : Nat) : Nat :=
      let x := byteOf c j
      let l := j / 64 * 64
      if 128 ≤ x then 0 else if x < 64 then byteOf a (l + x) else byteOf b (l + x - 64)
    fun i => BitVec.ofNat 32 (byte (4 * i) + byte (4 * i + 1) * 2 ^ 8 + byte (4 * i + 2) * 2 ^ 16 + byte (4 * i + 3) * 2 ^ 24)

def execVpermw (t : Tok) (o : VTriB) (s : State) : Out :=
  s.vop t o.y 3 o.vd o.pg o.z [o.va, o.vb, o.vc] [] none fun k _ =>
    let a := k.vreg o.va
    let b := k.vreg o.vb
    let c := k.vreg o.vc
    fun i =>
      let m := (laneOf c i).toNat
      let j := m % 1024
      if 2 ^ 31 ≤ m then 0 else if j < 512 then laneOf a j else laneOf b (j - 512)

def execVrot (t : Tok) (o : VRotOp) (s : State) : Out :=
  s.vop t o.y 3 o.vd o.pg o.z [o.va] [o.gk] none fun k s =>
    let a := k.vreg o.va
    let n := bits (s.gr o.gk) 8 0
    fun i => laneOf a ((i + n) % 512)

def execVslide (t : Tok) (o : VSlideOp) (s : State) : Out :=
  s.vop t o.y 3 o.vd o.pg o.z [o.va, o.vb] [o.gk] none fun k s =>
    let a := k.vreg o.va
    let b := k.vreg o.vb
    let n := bits (s.gr o.gk) 8 0
    fun i => if i + n < 512 then laneOf a (i + n) else laneOf b (i + n - 512)

/-! ### The table-interpolation engine (R233, R234) -/

/-- Fields of a table's configuration word. -/
def tieMode (w : DWord) : Nat := bits w 21 20
def tieE (w : DWord) : Nat := bits w 19 12
def tieM (w : DWord) : Nat := bits w 10 8
def tieEmin (w : DWord) : Int := sext (bits w 7 0) 8
def tieSegs (w : DWord) : Nat := tieE w * 2 ^ tieM w

/-- The word is legal. -/
def tieOk (w : DWord) : Bool :=
  bits w 63 22 = 0 && bits w 11 11 = 0
    && (tieMode w = 3
      || (1 ≤ tieE w && -126 ≤ tieEmin w && tieEmin w + tieE w ≤ 128
        && tieSegs w ≤ (if tieMode w = 2 then 127 else 256)))

/-- Entry `i` of a table as a value. -/
def TieTable.val (x : TieTable) (i : Nat) : FVal := f32 (x.y.getD i 0).toNat

/-- A linear interpolation by exact values; NaN where an entry is not finite. DESIGN CHOICE (log 46): the spec does not say which zero an exact
zero sum is; the model takes the one of round-to-nearest, whatever rm is. -/
def TieTable.lerp (x : TieTable) (seg : Nat) (t : Ex) : FVal :=
  match x.val seg, x.val (seg + 1) with
  | .fin a, .fin b => .fin (a.add .rne (t.mul (b.add .rne a.flip)))
  | _, _ => .nan

/-- Integer part of a non-negative value, and what is left. -/
def Ex.split (x : Ex) : Nat × Ex := (x.num / x.den, ⟨false, x.num % x.den, x.den⟩)

/-- The value of a table at an FP32 input, before rounding (R234). -/
def TieTable.at (x : TieTable) (v : FVal) : FVal :=
  let w := x.cfg
  match v with
  | .nan => .nan
  | _ =>
    if tieMode w = 3 then
      match v, x.val 257 with
      | .fin a, .fin q =>
        if q.neg || q.num = 0 then .nan
        else
          -- x/Q minus its floor, times 256
          let n := a.snum * q.den
          let d := q.num * a.den
          let (seg, t) := (Ex.mk false ((n % (d : Int)).toNat * 256) d).split
          x.lerp seg t
      | _, _ => .nan
    else
      let neg := match v with
        | .inf n => n
        | .fin a => a.neg
        | .nan => false
      let split := tieMode w = 2 && neg
      let lo := (Ex.mk false 1 1).scale (tieEmin w)
      let hi := (Ex.mk false 1 1).scale (tieEmin w + tieE w)
      let entry (i : Nat) : FVal :=
        match x.val i with
        | .fin a => .fin a
        | _ => .nan
      let r : FVal :=
        match v with
        | .fin a =>
          let m := a.abs
          if m.lt lo then entry 257
          else if !m.lt hi then entry (if split then 128 + tieSegs w else tieSegs w)
          else
            let e := ilog2 m.num m.den
            let y := (m.scale (-e))
            let (k, t) := (Ex.mk false ((y.num - y.den) * 2 ^ tieM w) y.den).split
            x.lerp ((e - tieEmin w).toNat * 2 ^ tieM w + k + (if split then 128 else 0)) t
        | _ => entry (if split then 128 + tieSegs w else tieSegs w)
      if tieMode w = 1 && neg then r.flip else r

/-- No active lane, no check of the table (R398). -/
def execVti (t : Tok) (o : VTiOp) (s : State) : Out :=
  let k := s.myCore
  let tbl := Sparse.get? k.tie o.k.toNat
  s.issue { t := t, len := 2, streams := [.e], y := o.y, lat := 6, writes := [k.keyV o.vd],
            reads := [k.keyV o.va, keyT o.k.toNat] ++ k.rdP o.pg ++ k.keepV o.pg o.z o.vd ++ s.srReads o.rm } fun s =>
    match tyIn (tyArith o.ty) o.ty with
    | some r => r
    | none =>
      if tbl.isNone && s.myCore.preg o.pg ≠ 0 then .trap 0x47 (o.k.zeroExtend 64) 0
      else
        let rm := s.me.rmOf o.rm
        let x := tbl.getD ⟨0, 0, 0, []⟩
        .seq ((s.modMyCore fun k =>
          let a := k.vreg o.va
          k.writeLanes o.vd o.pg o.z fun i => s.roundLane o.ty rm o.sat i (x.at (f32 (laneOf a i).toNat))).srAdvance o.rm 6)

/-! ### Random draws (R236) -/

def execVrand (t : Tok) (o : VRandOp) (s : State) : Out :=
  s.vop t o.y 6 o.vd o.pg o.z [] [o.gk, o.gc] (tyIn (o.ty = .fp32 || tyInt o.ty) o.ty) fun _ s =>
    let key : DWord := (Sparse.get 0 (s.ctxOf s.at.1).rngReg (bits (s.gr o.gk) 7 0)).truncate 64
    let c := s.gr o.gc
    fun i =>
      let x := cbg64 key (c + dw i)
      if o.ty = .fp32 then BitVec.ofNat 32 (drawUnitBits x) else toLane o.ty (drawBits x (tyWidth o.ty))

/-! ### Exact reduction (R237) -/

/-- The products of the active lanes of group `j`, of `l` lanes. -/
def xsumGroup (k : Core) (o : VXSumOp) (anchor : Int) (l j : Nat) : List (Int × BitVec 6) :=
  let a := k.vreg o.va
  let b := o.vb.map k.vreg
  let p := k.preg o.pg
  ((List.range l).map (j * l + ·)).filterMap fun i =>
    if p.getLsbD i then some (productOf anchor o.ty (elemOf o.ty (laneOf a i)) o.ty (b.map fun x => elemOf o.ty (laneOf x i))) else none

/-- All additions of a `vxsum` to row `r` from column `c` on. -/
def Core.xsum (k : Core) (o : VXSumOp) (r c : Nat) : Core :=
  let l := 2 ^ o.grp.toNat
  (List.range (512 / l)).foldl (fun k' j =>
    let ps := xsumGroup k o (k.colSide (c + j)).anchor.toInt l j
    (k'.addXa r (c + j) (sumProducts ps)).countXa (c + j) ps.length) k

/-! ### Candidate selection (R238) -/

/-- A pair as it is ranked: value, index. -/
abbrev Cand := Word × Word

/-- Is pair `a` ranked before pair `b` by value and index: greater value first, −0 equal to +0, NaN last; then the lower
index (R238, R257). -/
def candBefore (a b : Cand) : Bool :=
  let key (w : Word) : Int :=
    if fmtFP32.isNan w.toNat then -(2 ^ 40 : Int)
    else
      let k := fmtFP32.key w.toNat
      if k = -1 then 0 else k
  key b.1 < key a.1 || (key a.1 = key b.1 && a.2.toNat < b.2.toNat)

/-- Insert a pair after every pair that does not rank behind it. -/
def candInsert (x : Cand) : List Cand → List Cand
  | [] => [x]
  | y :: r => if candBefore x y then x :: y :: r else y :: candInsert x r

/-- What an empty place reads as. -/
def candNone : Cand := (0x7FC00000, 0xFFFFFFFF)

def execVtopk (t : Tok) (o : VTopkOp) (s : State) : Out :=
  s.vop t o.y 12 o.vd 0 false [o.va, o.vb] [] none fun k _ =>
    let pairs (x : Sparse Lane) : List Cand := (List.range 256).map fun p => (laneOf x (2 * p), laneOf x (2 * p + 1))
    let best := (pairs (k.vreg o.va) ++ pairs (k.vreg o.vb)).foldl (fun l x => candInsert x l) []
    let out := best.take (o.km1.toNat + 1)
    fun i =>
      let x := out.getD (i / 2) candNone
      if i % 2 = 0 then x.1 else x.2

end Sys2Proof.Machine
end

