-- ==== Sys2Proof/Machine/Predicate.lean ====
section
/-! DEFINITION. Predicate instructions (spec 10 R239). -/

namespace Sys2Proof.Machine

/-- A predicate written under `pg` and Z from predicates and registers (R213, R239). -/
def State.pop (s : State) (t : Tok) (y : Bool) (pd : P) (pg : P) (z : Bool) (ps : List P) (gs : List G)
    (f : Core → State → Pred) : Out :=
  let k := s.myCore
  s.issue { t := t, len := 2, streams := [.e], y := y, writes := k.wrP pd,
            reads := ps.flatMap k.rdP ++ gs.map keyG ++ k.rdP pg ++ k.keepP pg z pd } fun s =>
    .seq (s.modMyCore fun k => k.writePred pd pg z (f k s))

def execPset (t : Tok) (o : PSetOp) (s : State) : Out :=
  s.pop t o.y o.pd o.pg o.z [] [o.gn, o.gr] fun _ s =>
    let n := bits (s.gr o.gn) 9 0
    let r := bits (s.gr o.gr) 9 0
    predBy fun i => 1 ≤ n && i % n = r % n

def execPand (t : Tok) (o : PBinOp) (s : State) : Out :=
  s.pop t o.y o.pd o.pg o.z [o.pa, o.pb] [] fun k _ => k.preg o.pa &&& k.preg o.pb
def execPor (t : Tok) (o : PBinOp) (s : State) : Out :=
  s.pop t o.y o.pd o.pg o.z [o.pa, o.pb] [] fun k _ => k.preg o.pa ||| k.preg o.pb
def execPxor (t : Tok) (o : PBinOp) (s : State) : Out :=
  s.pop t o.y o.pd o.pg o.z [o.pa, o.pb] [] fun k _ => k.preg o.pa ^^^ k.preg o.pb
def execPnot (t : Tok) (o : PUnOp) (s : State) : Out := s.pop t o.y o.pd o.pg o.z [o.pa] [] fun k _ => ~~~k.preg o.pa
def execPmov (t : Tok) (o : PUnOp) (s : State) : Out := s.pop t o.y o.pd o.pg o.z [o.pa] [] fun k _ => k.preg o.pa

def execPlen (t : Tok) (o : PLenOp) (s : State) : Out :=
  s.pop t o.y o.pd o.pg o.z [] [o.gn] fun _ s =>
    let n := min (s.gr o.gn).toNat 512
    BitVec.ofNat 512 (2 ^ n - 1)

/-- A scalar from the active bits of a predicate. -/
def State.ptog (s : State) (t : Tok) (o : PToGOp) (f : Pred → Nat) : Out :=
  let k := s.myCore
  s.issue { t := t, len := 2, streams := [.e], y := o.y, lat := 2, writes := [keyG o.gd],
            reads := k.rdP o.pa ++ k.rdP o.pg } fun s =>
    .seq (s.setG o.gd (dw (f (s.myCore.preg o.pa &&& s.myCore.preg o.pg))))

def execPcnt (t : Tok) (o : PToGOp) (s : State) : Out := s.ptog t o fun x => ((List.range 512).filter x.getLsbD).length
def execPfirst (t : Tok) (o : PToGOp) (s : State) : Out :=
  s.ptog t o fun x => ((List.range 512).find? x.getLsbD).getD 512

end Sys2Proof.Machine
end

