-- ==== Sys2Proof/Machine/VecMem.lean ====
section
/-! DEFINITION. Vector loads and stores, the load of a table, and exact reduction (spec 10 R216 to R220, R233, R237; 21
R453; 19 R391, R398). -/

namespace Sys2Proof.Machine

/-- Where the elements of a vector access lie: contiguous, at a signed stride, at offsets in a register (R217, R218). -/
inductive VForm
  | flat
  | stride (str : DWord)
  | index (x : Sparse Lane)
deriving DecidableEq, Repr

/-- Exact handle offset of the element of lane `i`, with no wrap (R218), and its nibble. -/
def VForm.disp (f : VForm) (w o i : Nat) : Int × Nat :=
  match f with
  | .flat => if w = 4 then ((o + i / 2 : Nat), i % 2) else ((o + i * (w / 8) : Nat), 0)
  | .stride d => (o + i * d.toInt, 0)
  | .index x => ((o + (laneOf x i).toNat : Nat), 0)

/-- The same for a lane whose offset has passed the bounds. -/
def VForm.off (f : VForm) (w o i : Nat) : Nat × Nat := let (a, nib) := f.disp w o i; (a.toNat, nib)

/-- Active lanes in ascending order. -/
def activeLanes (p : Pred) : List Nat := (List.range 512).filter p.getLsbD

/-- Groups of 16 lanes, those without active lanes included (R219). -/
def laneGroups (act : List Nat) : List (List Nat) := (List.range 32).map fun g => act.filter fun i => i / 16 = g

/-- The handle checks of a vector access over its active lanes, in the order of R391 and R398: VALID to PERM, bounds and
map, the descriptor, alignment. -/
def State.vecChk (s : State) (c : Nat) (n : H) (st : Bool) (f : VForm) (ty : Ty) (o : Nat) (act : List Nat) : Option Res :=
  let h := (s.core c).hreg n
  let w := tyWidth ty
  let e := max 1 (w / 8)
  let perm := if st then (if h.kind = kGen then 0 else pW) else pR
  let wdesc := if h.kind = kGen then s.winBad c h else none
  match f with
  | .flat =>
    let len := (f.off w o (act.getLastD 0)).1 + e - o
    firstOf [s.hUse c n 4 [kMem, kGen] perm (s.loadSpace c) (dw o) 0xFFFF len, hBounds h n 4 o len, s.hMapped h n 4 o len, wdesc,
      if o % e = 0 then none else some (.trap 0x81 (dw o) 0)]
  | _ =>
    let al (i : Nat) : Option Res :=
      let a := (f.off w o i).1
      if h.alignBase a % e = 0 then none else some (.trap 0x81 (dw a) (dw i))
    firstOf [s.hRanges c n 4 [kMem, kGen] perm (s.loadSpace c) (act.map fun i => ((f.disp w o i).1, e, i)), wdesc, act.findSome? al]

/-- Ticks of the port beyond which results come, and the groups: 1 and one group, or 32 (R214, R219). -/
def VForm.lat (f : VForm) (st : Bool) : Nat :=
  match f, st with
  | .flat, false => 6
  | .flat, true => 2
  | _, false => 37
  | _, true => 33
def VForm.ticks : VForm → Nat
  | .flat => 1
  | _ => 32

/-- An access with no active lane: a contiguous one makes none, and a group of another form still takes its tick (R217, R219). -/
def State.portNone (s : State) (f : VForm) : State := if f = .flat then s else s.portIdle f.ticks

/-- A vector load (R217 to R220): through a window the values are read at once, without a bank (R138). -/
def State.vload (s : State) (vd : V) (n : H) (o : Nat) (pg : P) (z : Bool) (ty : Ty) (f : VForm) : Res :=
  let c := s.at.1
  let k := s.core c
  let h := k.hreg n
  let w := tyWidth ty
  let e := max 1 (w / 8)
  let act := activeLanes (k.preg pg)
  if act.isEmpty then .seqLat ((s.modMyCore fun k => k.writeLanes vd pg z fun _ => 0).portNone f) (f.lat false)
  else
    match s.vecChk c n false f ty o act with
    | some r => r
    | none =>
      if h.kind = kGen then
        let x := s.ctxOf c
        let val (i : Nat) : Lane :=
          let (a, nib) := f.off w o i
          let v := leNat (x.winBytes h.desc (h.woff + a) e)
          toLane ty (if w = 4 then v / 16 ^ nib else v)
        .seqLat ((s.modMyCore fun k => k.writeLanes vd pg z val).portIdle f.ticks) (f.lat false)
      else
        let at_ (i : Nat) : Nat × Nat := let (a, nib) := f.off w o i; (h.local a - spadOf c, nib)
        let lanes := act.map fun i => (i, (at_ i).1, (at_ i).2)
        let groups := match f with
          | .flat =>
            let b := h.local o - spadOf c
            splitLines b (readItems b ((at_ (act.getLastD 0)).1 + e - b))
          | _ => (laneGroups act).map fun g => g.map fun i => ⟨(at_ i).1, e, none, none, some i⟩
        let (t, lat) := s.portStart (.load (k.vphys vd) ty z lanes) groups (f.lat false + (groups.length - f.ticks))
        .seqLat t lat

/-- The bytes that a group of lanes stores, the highest lane last (R217, R218). DESIGN CHOICE (log 64): a line that holds no byte of an active
lane is not accessed and takes no bank. -/
def storeItems (ty : Ty) (vs : Sparse Lane) (at_ : Nat → Nat × Nat) (flat : Bool) (g : List Nat) : List PortItem :=
  if tyWidth ty = 4 then
    let both (i : Nat) : Bool := g.contains (i / 2 * 2) && g.contains (i / 2 * 2 + 1)
    let nib (i : Nat) : Nat := (laneOf vs i).toNat % 16
    joinBytes ((g.filter fun i => both i && i % 2 = 0).map fun i => ((at_ i).1, BitVec.ofNat 8 (nib i + nib (i + 1) * 16)))
      ++ (g.filter fun i => !both i).map fun i => ⟨(at_ i).1, 1, some [BitVec.ofNat 8 (nib i)], some (i % 2 = 1), none⟩
  else
    let e := tyWidth ty / 8
    let bytes (i : Nat) : List (Nat × Byte) := (leBytes e (laneOf vs i).toNat).mapIdx fun j b => ((at_ i).1 + j, b)
    if flat then joinBytes (g.flatMap bytes)
    else joinBytes (g.foldl (fun m i => (bytes i).foldl (fun m x => Sparse.insert m x.1 x.2) m) [])

/-- A vector store (R217 to R220); through a window it changes nothing and is counted, or traps (R139, R453). -/
def State.vstore (s : State) (vs : V) (n : H) (o : Nat) (pg : P) (ty : Ty) (f : VForm) : Res :=
  let c := s.at.1
  let k := s.core c
  let h := k.hreg n
  let w := tyWidth ty
  let act := activeLanes (k.preg pg)
  if act.isEmpty then .seqLat (s.portNone f) (f.lat true)
  else
    match s.vecChk c n true f ty o act with
    | some r => r
    | none =>
      if h.kind = kGen then
        if s.strap c h then strapTrap n (f.off w o (act.headD 0)).1 else .seqLat ((s.modMyCore (·.count 75)).portIdle f.ticks) (f.lat true)
      else
        let at_ (i : Nat) : Nat × Nat := let (a, nib) := f.off w o i; (h.local a - spadOf c, nib)
        let x := k.vreg vs
        let groups := match f with
          | .flat => splitLines (h.local o - spadOf c) (storeItems ty x at_ true act)
          | _ => (laneGroups act).map (storeItems ty x at_ false)
        let (t, lat) := s.portStart .store groups (f.lat true + (groups.length - f.ticks))
        .seqLat t lat

/-- Offset of the memory operand (R216). -/
def State.vecOff (s : State) (ga : G) (off : BitVec 6) : Nat := (s.gr ga + dw (64 * off.toNat)).toNat

/-- A strided or indexed form does not take INT4 (R216). -/
def vecTy (flat : Bool) (ty : Ty) : Option Res := tyIn (flat || ty ≠ .int4) ty

def State.vldInstr (s : State) (t : Tok) (o : VLdOp) (gs : List G) (vi : List V) (flat : Bool) (f : State → VForm) : Out :=
  let k := s.myCore
  s.issue { t := t, len := 2, streams := [.e], y := o.y, port := true, writes := [k.keyV o.vd],
            reads := [keyG o.ga, keyH o.h] ++ gs.map keyG ++ vi.map k.keyV ++ k.rdP o.pg ++ k.keepV o.pg o.z o.vd } fun s =>
    match vecTy flat o.ty with
    | some r => r
    | none => s.vload o.vd o.h (s.vecOff o.ga o.off) o.pg o.z o.ty (f s)

def State.vstInstr (s : State) (t : Tok) (o : VStOp) (gs : List G) (vi : List V) (flat : Bool) (f : State → VForm) : Out :=
  let k := s.myCore
  s.issue { t := t, len := 2, streams := [.e], y := o.y, port := true,
            reads := [keyG o.ga, keyH o.h, k.keyV o.vs] ++ gs.map keyG ++ vi.map k.keyV ++ k.rdP o.pg } fun s =>
    match vecTy flat o.ty with
    | some r => r
    | none => s.vstore o.vs o.h (s.vecOff o.ga o.off) o.pg o.ty (f s)

def execVld (t : Tok) (o : VLdOp) (s : State) : Out := s.vldInstr t o [] [] true fun _ => .flat
def execVst (t : Tok) (o : VStOp) (s : State) : Out := s.vstInstr t o [] [] true fun _ => .flat
def execVlds (t : Tok) (o : VLdsOp) (s : State) : Out :=
  s.vldInstr t ⟨o.y, o.z, o.vd, o.ga, o.h, o.off, o.pg, o.ty⟩ [o.gs] [] false fun s => .stride (s.gr o.gs)
def execVsts (t : Tok) (o : VStsOp) (s : State) : Out :=
  s.vstInstr t ⟨o.y, o.vs, o.ga, o.h, o.off, o.pg, o.ty⟩ [o.gs] [] false fun s => .stride (s.gr o.gs)
def execVgath (t : Tok) (o : VGathOp) (s : State) : Out :=
  s.vldInstr t ⟨o.y, o.z, o.vd, o.ga, o.h, o.off, o.pg, o.ty⟩ [] [o.vi] false fun s => .index (s.myCore.vreg o.vi)
def execVscat (t : Tok) (o : VScatOp) (s : State) : Out :=
  s.vstInstr t ⟨o.y, o.vs, o.ga, o.h, o.off, o.pg, o.ty⟩ [] [o.vi] false fun s => .index (s.myCore.vreg o.vi)

/-! ### `vtiload` (R233, R235) -/

def execVtiload (t : Tok) (o : VTiLoadOp) (s : State) : Out :=
  s.issue { t := t, len := 2, streams := [.e], y := o.y, port := true, lat := 6,
            reads := [keyG o.ga, keyH o.h, keyG o.gcfg], writes := [keyT o.k.toNat] } fun s =>
    let c := s.at.1
    let h := s.myCore.hreg o.h
    let cfg := s.gr o.gcfg
    let off := (s.gr o.ga).toNat
    if !tieOk cfg then .trap 0x47 (o.k.zeroExtend 64) cfg
    else
      match firstOf [s.chkLoad c o.h off 1032, if off % 4 = 0 then none else some (.trap 0x81 (dw off) 0)] with
      | some r => r
      | none =>
        if h.kind = kGen then
          let x : TieTable := ⟨cfg, h.va + off, 1, tableEntries (s.readH c h off 1032)⟩
          .seq ((s.portIdle 1).plan (s.now + 5) 0 (.tieTable c o.k.toNat x))
        else
          let b := h.local off - spadOf c
          let (t, lat) := s.portStart (.table o.k.toNat cfg (h.va + off) 0 b) (splitLines b (readItems b 1032)) 6
          .seqLat t lat

/-! ### `vxsum` (R237, R250) -/

/-- Two ranges of columns have one in common. -/
def rangesMeet (lo hi lo' hi' : Nat) : Bool := lo ≤ hi' && lo' ≤ hi

/-- Classes 0 ADD, 1 RD and 2 XW: two ADD, or two RD, do not conflict (R250). -/
def clsMeet (a b : Nat) : Bool := !(a = b && a < 2)

/-- Width of a column group of a pairing (R248). -/
def MaRun.width (r : MaRun) : Nat := (pairing r.aTag.toNat r.bTag.toNat).getD 8
def MaOp.cls (o : MaOp) : Nat := if o.zero then 2 else 0

/-- A conflicting instruction accepted earlier has an effect on columns lo to hi in this period or later (R250). -/
def Core.colBusy (k : Core) (now cls lo hi : Nat) : Bool :=
  k.colEff.any (fun e => clsMeet cls e.cls && rangesMeet lo hi e.lo e.hi && now ≤ e.last)
    || k.maQueue.any (fun o => clsMeet cls o.cls && rangesMeet lo hi o.c (o.c + o.n - 1))
    || k.maRun.any (fun r =>
      let w := r.width
      clsMeet cls r.op.cls && r.groups * w < r.op.n && rangesMeet lo hi (r.op.c + r.groups * w) (r.op.c + r.op.n - 1))
    || k.drains.any (fun d => clsMeet cls 1 && d.read < d.chunks && rangesMeet lo hi d.c (d.c + d.n - 1))

/-- Enter the column order. -/
def Core.addEff (k : Core) (now : Nat) (e : ColEff) : Core := { k with colEff := e :: k.colEff.filter fun x => now ≤ x.last }

/-- What keeps an instruction on columns c to c + n − 1 from issuing, where its range is legal. -/
def Core.colWait (k : Core) (now cls c n : Nat) : Option Cls :=
  if 1 ≤ n && c + n ≤ 512 && k.colBusy now cls c (c + n - 1) then some .issued else none

/-- The additions fall in tick s + 7; nothing can tell them from additions at the issue, because every instruction that
reads or replaces the columns waits for that tick (R250; log 17). -/
def execVxsum (t : Tok) (o : VXSumOp) (s : State) : Out :=
  let k := s.myCore
  let cols := 512 / 2 ^ o.grp.toNat
  s.issue { t := t, len := 2, streams := [.e], y := o.y, lat := 8, wait := k.colWait s.now 0 (s.gr o.gc).toNat cols,
            reads := [keyG o.gr, keyG o.gc, k.keyV o.va] ++ (o.vb.elim [] fun v => [k.keyV v]) ++ k.rdP o.pg } fun s =>
    let r := (s.gr o.gr).toNat
    let c := (s.gr o.gc).toNat
    if 63 < r then valueTrap (s.gr o.gr) o.gr
    else if 512 < c + cols then valueTrap (s.gr o.gc) o.gc
    else if o.ty = .int4 then typeTrap o.ty
    else if k.preg o.pg = 0 then .seq s
    else
      let cells := bodyArr r 1 c cols ++ sideArr c cols
      s.reading cells fun s => .seq ((s.modMyCore fun k => (k.xsum o r c).addEff s.now ⟨c, c + cols - 1, 0, s.now + 7, 0⟩).filling cells)

end Sys2Proof.Machine
end

