-- ==== Sys2Proof/Machine/Tile.lean ====
section
/-! DEFINITION. Tile registers, the matrix array, and the order at tiles and columns (spec 11 R241 to R251, R259). -/

namespace Sys2Proof.Machine

/-! ### Descriptors (R241) -/

def tdCols (d : DWord) : Nat := bits d 27 16
def tdRows (d : DWord) : Nat := bits d 14 8
def tdTag (d : DWord) : Nat := bits d 3 0

/-- Width in bits of an element of a TAG. -/
def tagWidth (t : Nat) : Nat :=
  match t with
  | 0 => 32
  | 8 => 32
  | 1 => 16
  | 2 => 16
  | 7 => 16
  | 9 => 4
  | _ => 8

/-- A legal descriptor. -/
def tdOk (d : DWord) : Bool :=
  let t := tdTag d
  (t ≤ 9 || t = 15) && 1 ≤ tdRows d && tdRows d ≤ 64
    && (t = 15 || (1 ≤ tdCols d && tdCols d * tagWidth t ≤ 8192 && (t ≠ 9 || tdCols d % 2 = 0)))

/-- The reserved bits are zero. -/
def tdRsv (d : DWord) : Bool := d &&& ~~~0x0FFF7F0F = 0

/-- Bytes of a row. -/
def tdRowBytes (d : DWord) : Nat := tdCols d * tagWidth (tdTag d) / 8

def tileTrap (d : DWord) (n : TN) : Res := .trap 0x43 d (n.zeroExtend 64)

/-! ### Order at a tile (R245) -/

/-- A `cpyt` whose writes have entered the order of its tile and have not all landed: the period in which they entered is
the third number of its list, after rows and row bytes (R245, R274). -/
def CeEntry.tileSince (e : CeEntry) : Option Nat :=
  match e.kind with
  | .tile .. => e.idxBuf[2]?
  | _ => none
def CeEntry.tileOpen (e : CeEntry) (n : TN) : Bool :=
  match e.kind with
  | .tile td .. => td = n && e.tileSince.isSome && e.prog < e.tileLines
  | _ => false

/-- The instruction reads the tile. -/
def MaOp.uses (o : MaOp) (n : TN) : Bool := o.ta = n || o.tb = n

/-- A started instruction still reads the tile in this period: ta in tick b, tb up to its last group read (R248). -/
def MaRun.reads (r : MaRun) (now : Nat) (n : TN) : Bool :=
  (r.op.ta = n && now ≤ r.b) || (r.op.tb = n && now + r.op.done / r.width + 1 ≤ r.b + r.op.n / r.width)

/-- A conflicting access entered earlier has not finished with the tile; a `cpyt` that enters in this period comes after an instruction
of the E stream. -/
def Core.tileBusy (k : Core) (now : Nat) (wr : Bool) (n : TN) : Bool :=
  k.tileEff.any (fun e => e.tile = n && (wr || e.wr) && now ≤ e.last)
    || (wr && (k.maQueue.any (·.uses n) || k.maRun.any (·.reads now n)))
    || k.ce.any fun e => e.tileOpen n && e.tileSince ≠ some now

def Core.tileWait (k : Core) (now : Nat) (wr : Bool) (n : TN) : Option Cls :=
  if k.tileBusy now wr n then some .issued else none

def Core.addTile (k : Core) (now : Nat) (e : TileEff) : Core := { k with tileEff := e :: k.tileEff.filter fun x => now ≤ x.last }

/-! ### `tcfg`, `tzero`, `tfromv` (R243) -/

def Core.setTdesc (k : Core) (n : TN) (d : DWord) : Core := { k with tdesc := Sparse.set tdescReset k.tdesc n.toNat d }

def execTcfg (t : Tok) (y : Bool) (td : TN) (gs : G) (s : State) : Out :=
  s.issue { t := t, len := 2, streams := [.e], y := y, reads := [keyG gs], writes := [keyTd td], wait := s.myCore.tileWait s.now true td } fun s =>
    let d := s.gr gs
    if !tdOk d || !tdRsv d then tileTrap d td
    else .seq (s.modMyCore fun k => (k.setTdesc td d).addTile s.now ⟨td, true, s.now, 0⟩)

def execTzero (t : Tok) (y : Bool) (td : TN) (s : State) : Out :=
  s.issue { t := t, len := 2, streams := [.e], y := y, wait := s.myCore.tileWait s.now true td } fun s =>
    .seq ((s.modMyCore fun k => (k.setTile td []).addTile s.now ⟨td, true, s.now, 0⟩).filling (tileArr td.toNat 0 0 0x10000))

/-- The row is written in tick s + 1. -/
def execTfromv (t : Tok) (o : TFromVOp) (s : State) : Out :=
  let k := s.myCore
  s.issue { t := t, len := 2, streams := [.e], y := o.y, lat := 2, reads := [keyG o.gr, k.keyV o.va],
            wait := k.tileWait s.now true o.td } fun s =>
    .seq ((s.modMyCore fun k =>
      let v := k.vreg o.va
      let bs := (List.range 1024).map fun j => BitVec.ofNat 8 (byteOf v (j + (if o.half then 1024 else 0)))
      (k.writeTile o.td (bits (s.gr o.gr) 5 0) 0 bs).addTile s.now ⟨o.td, true, s.now + 1, 0⟩).filling
        (tileArr o.td.toNat (bits (s.gr o.gr) 5 0) 0 1024))

/-! ### `tld`, `tst` (R243, R244) -/

/-- ALIGN_ISSUE: a value that is not a multiple of `m` (R392). -/
def alignIssue (v : Nat) (m : Nat := 64) : Option Res := if v % m = 0 then none else some (.trap 0x82 (dw v) (dw m))

/-- The same for an element that must be naturally aligned: its address decides, and the trap reports its offset (log 29). -/
def Handle.alignAt (h : Handle) (off m : Nat) : Option Res := if (h.base + off) % m = 0 then none else some (.trap 0x82 (dw off) (dw m))

/-- Handle checks of rows of `rb` bytes at a pitch, in the own scratchpad, then the alignment of offset and pitch. -/
def State.rowsChk (s : State) (c : Nat) (n : H) (perm off pitch rows rb : Nat) : Option Res :=
  firstOf [s.hRanges c n 4 [kMem] perm (s.ownSpad c) ((List.range rows).map fun r => ((off + r * pitch : Nat), rb, 0xFFFF)),
    alignIssue off, alignIssue pitch]

/-- The descriptor takes its TAG at issue; row r is sampled at s + 1 + r and written at s + 6 + r. -/
def execTld (t : Tok) (o : TLdOp) (s : State) : Out :=
  s.issue { t := t, len := 2, streams := [.e], y := o.y, port := true, reads := [keyG o.go, keyG o.gp, keyH o.h, keyTd o.td],
            writes := [keyTd o.td], wait := s.myCore.tileWait s.now true o.td } fun s =>
    let c := s.at.1
    let d := (s.myCore.tdescOf o.td.toNat &&& ~~~0xF) ||| (tyCode o.ty).zeroExtend 64
    let off := (s.gr o.go).toNat
    let pitch := (s.gr o.gp).toNat
    if !tdOk d then tileTrap d o.td
    else
      match s.rowsChk c o.h pR off pitch (tdRows d) (tdRowBytes d) with
      | some r => r
      | none =>
        let b := (s.myCore.hreg o.h).local off - spadOf c
        let (t, lat) := s.portStart (.tile o.td b pitch (tdRows d) (tdRowBytes d))
          ((List.range (tdRows d)).map fun r => readItems (b + r * pitch) (tdRowBytes d)) (tdRows d + 6)
        .seqLat (t.modMyCore fun k => (k.setTdesc o.td d).addTile s.now ⟨o.td, true, k.vmPort + 5, s.serial⟩) lat

/-- Row r is read from the tile at s + r and completes at s + 1 + r. -/
def execTst (t : Tok) (o : TStOp) (s : State) : Out :=
  s.issue { t := t, len := 2, streams := [.e], y := o.y, port := true, reads := [keyG o.go, keyG o.gp, keyH o.h, keyTd o.td],
            wait := s.myCore.tileWait s.now false o.td } fun s =>
    let c := s.at.1
    let d := s.myCore.tdescOf o.td.toNat
    let off := (s.gr o.go).toNat
    let pitch := (s.gr o.gp).toNat
    if tdTag d = 15 then tileTrap d o.td
    else
      match s.rowsChk c o.h pW off pitch (tdRows d) (tdRowBytes d) with
      | some r => r
      | none =>
        s.reading ((List.range (tdRows d)).flatMap fun r => tileArr o.td.toNat r 0 (tdRowBytes d)) fun s =>
        let b := (s.myCore.hreg o.h).local off - spadOf c
        let k := s.myCore
        let (t, lat) := s.portStart .store
          ((List.range (tdRows d)).map fun r => writeItems (b + r * pitch) (k.tileBytes o.td r 0 (tdRowBytes d))) (tdRows d + 1)
        .seqLat (t.modMyCore fun k => k.addTile s.now ⟨o.td, false, k.vmPort - 1, s.serial⟩) lat

/-! ### Matrix multiply (R246 to R249) -/

/-- The legality of an `mma`, in the order of R391: N, c, the descriptors, the pairing. -/
def mmaChk (c n : DWord) (gc gn : G) (ta tb : TN) (da db : DWord) : Option Res :=
  if n.toNat % 16 ≠ 0 ∨ n.toNat < 16 ∨ 512 < n.toNat then some (valueTrap n gn)
  else if 512 < c.toNat + n.toNat then some (valueTrap c gc)
  else if tdRows da ≠ 64 ∨ tdCols da < 64 then some (tileTrap da ta)
  else if tdRows db ≠ 64 ∨ tdCols db < n.toNat then some (tileTrap db tb)
  else if (pairing (tdTag da) (tdTag db)).isNone then some (.trap 0x42 (dw (tdTag da)) (dw (tdTag db)))
  else none

/-- Put an instruction into a place of the MA; it may start from the next period on. -/
def State.maAccept (s : State) (c : Nat) (op : MaOp) : State :=
  let idle := (s.core c).maQueue.isEmpty
  let s := s.modCore c fun k => { k with maQueue := k.maQueue ++ [op] }
  if idle then s.plan (max (s.now + 1) (op.arrive + 1)) 8 (.maStart c) else s

/-- What an `mma` or `mmaz` of the E stream waits for: a place, its tiles, its columns (R245, R248, R250). -/
def Core.mmaWait (k : Core) (now : Nat) (ta tb : TN) (cls c n : Nat) : Option Cls :=
  if 4 ≤ k.maQueue.length || k.tileBusy now false ta || k.tileBusy now false tb then some .issued else k.colWait now cls c n

def State.mmaInstr (s : State) (t : Tok) (o : MmaOp) (zero : Bool) : Out :=
  let k := s.myCore
  s.issue { t := t, len := 2, streams := [.e], y := o.y, reads := [keyG o.gc, keyG o.gn, keyTd o.ta, keyTd o.tb],
            wait := k.mmaWait s.now o.ta o.tb (if zero then 2 else 0) (s.gr o.gc).toNat (s.gr o.gn).toNat } fun s =>
    let k := s.myCore
    match mmaChk (s.gr o.gc) (s.gr o.gn) o.gc o.gn o.ta o.tb (k.tdescOf o.ta.toNat) (k.tdescOf o.tb.toNat) with
    | some r => r
    | none =>
      let (id, s) := s.fresh
      .seq (s.maAccept s.at.1 ⟨id, zero, o.ta, o.tb, (s.gr o.gn).toNat, (s.gr o.gc).toNat, o.split, s.now, 0, false⟩)

def execMma (t : Tok) (o : MmaOp) (s : State) : Out := s.mmaInstr t o false
def execMmaz (t : Tok) (o : MmaOp) (s : State) : Out := s.mmaInstr t o true

/-- The first period from `now` on that no drain which has started reads in. -/
def Core.deuNext (k : Core) (now : Nat) : Nat :=
  k.drains.foldl (fun p d => if d.started && d.read < d.chunks then max p (now + (d.chunks - d.read)) else p) (max now k.deuFree)

/-- Last read of a drain that has chunks to read, as it stands before the reads of period `now`: a drain that has not started starts in the
period after its acceptance, or in `next` (R255). -/
def DrainRec.lastRead (d : DrainRec) (now next : Nat) : Nat :=
  (if d.started then now else max (d.arrive + 1) next) + (d.chunks - d.read) - 1

/-- Effects of accepted RD and XW instructions, and of an accepted drain, that an instruction which starts in this period
would overtake: its first group adds nine ticks later, each further group one tick after (R248, R250). -/
def Core.maHeld (k : Core) (now : Nat) (o : MaOp) (w : Nat) : Bool :=
  let tickOf (col : Nat) : Nat := now + 9 + (col - (o.c + o.done)) / w
  let meets (lo hi cls : Nat) : Bool := clsMeet o.cls cls && rangesMeet lo hi (o.c + o.done) (o.c + o.n - 1)
  k.colEff.any (fun e => meets e.lo e.hi e.cls && tickOf (max e.lo (o.c + o.done)) ≤ e.last)
    || k.maRun.any (fun r =>
      meets (r.op.c + r.groups * r.width) (r.op.c + r.op.n - 1) r.op.cls && now + 9 ≤ r.b + (r.op.n - r.op.done) / r.width + 8)
    || k.drains.any (fun d =>
      d.arrive ≤ o.arrive && d.read < d.chunks && meets d.c (d.c + d.n - 1) 1
        && (!d.timed || tickOf (max d.c (o.c + o.done)) ≤ d.lastRead now (k.deuNext now)))

/-- The MA as the unit that reads. -/
def maWho (c : Nat) : Who := { core := some c, stream := some .e, unit := uMa }

/-- What an instruction of the MA reads of its tiles: 64 columns of ta, N of tb, every row (R242, R247). -/
def MaOp.arr (o : MaOp) (da db : DWord) : List (Nat × Nat × Nat) :=
  (List.range 64).flatMap fun r => tileArr o.ta.toNat r 0 (8 * tagWidth (tdTag da)) ++ tileArr o.tb.toNat r 0 (o.n * tagWidth (tdTag db) / 8)

/-- The oldest instruction starts: it reads all of ta now, and tb group by group, while R245 keeps both as they are. DESIGN CHOICE (log 61): a
follow-on that enters in the tick of a `cpyt` comes after it. -/
def State.maStart (s : State) (c : Nat) : State :=
  let k := s.core c
  match k.maQueue with
  | [] => s
  | op :: rest =>
    let da := k.tdescOf op.ta.toNat
    let db := k.tdescOf op.tb.toNat
    let w := (pairing (tdTag da) (tdTag db)).getD 8
    let tile (n : TN) : Bool :=
      k.tileEff.any (fun e => e.tile = n && e.wr && s.now ≤ e.last)
        || k.ce.any fun e => e.tileOpen n && (e.tileSince.getD 0) < op.arrive + (if op.fo then 1 else 0)
    if s.stopping c || s.now < k.maFree || s.now ≤ op.arrive || tile op.ta || tile op.tb || k.maHeld s.now op w then
      s.plan (s.now + 1) 8 (.maStart c)
    else
      let drop (s : State) : State :=
        let s := s.modCore c fun k => { k with maQueue := rest }
        if rest.isEmpty then s else s.plan (s.now + 1) 8 (.maStart c)
      if k.parity.contains (parityKey .e (keyTd op.ta)) || k.parity.contains (parityKey .e (keyTd op.tb)) then (drop s).contain 2 18 (maWho c) none else
      s.arrays (maWho c) c (op.arr da db) drop fun s =>
      let groups := (op.n - op.done) / w
      let run : MaRun := ⟨op, s.now, BitVec.ofNat 4 (tdTag da), BitVec.ofNat 4 (tdTag db), k.tileOf op.ta, k.tileOf op.tb, op.done / w⟩
      let s := s.modCore c fun k => { k with maQueue := rest, maRun := k.maRun ++ [run], maFree := s.now + groups }
      let s := if rest.isEmpty then s else s.plan (s.now + 1) 8 (.maStart c)
      (List.range groups).foldl (fun s g => s.plan (s.now + g + 9) 9 (.maGroupAddition c op.id (op.done / w + g))) s

/-- Element `j` of row `r` of a tile as it was read (R242). -/
def tileElem (x : Sparse Byte) (tag : Nat) (r j : Nat) : Nat :=
  let w := tagWidth tag
  let at_ (b : Nat) : Nat := (Sparse.get 0 x (r * 1024 + b)).toNat
  if w = 4 then at_ (j / 2) / 16 ^ (j % 2) % 16
  else (List.range (w / 8)).foldl (fun v b => v + at_ (j * (w / 8) + b) * 256 ^ b) 0

/-- The type of a TAG. -/
def tyOfTag (t : Nat) : Ty :=
  match t with
  | 0 => .fp32
  | 1 => .bf16
  | 2 => .fp16
  | 3 => .e4m3
  | 4 => .e5m2
  | 5 => .int8
  | 6 => .uint8
  | 7 => .int16
  | 8 => .int32
  | _ => .int4

/-- One column of an `mma`: all 64 × 64 products, and the counter (R247, R151). -/
def Core.maColumn (k : Core) (r : MaRun) (a : List (List Nat)) (n : Nat) : Core :=
  let col := r.op.c + n
  let ta := tyOfTag r.aTag.toNat
  let tb := tyOfTag r.bTag.toNat
  let k := if r.op.zero then k.zeroCol col else k
  let anchor := (k.colSide col).anchor.toInt
  let b := (List.range 64).map fun i => tileElem r.bt r.bTag.toNat i n
  let k := (a.mapIdx fun m row => (m, row)).foldl (fun k (m, row) =>
    k.addXa m col (sumProducts ((row.zip b).map fun (x, y) => productOf anchor ta x tb (some y)))) k
  k.countXa col 64

/-- The instruction may be stopped before its next group (R80, R249). -/
def MaRun.atSplit (r : MaRun) : Bool := r.op.split ≠ 0 && r.groups * r.width % (16 * 2 ^ (r.op.split.toNat - 1)) = 0

/-- A pre-emption stops the MA before the next group of run `id`: no instruction that has started behind it is one that has to be
finished. -/
def State.maStops (s : State) (c id : Nat) (r : MaRun) : Bool :=
  s.stopping c && r.atSplit && ((s.core c).maRun.dropWhile (·.op.id ≠ id)).all (·.op.split ≠ 0)

/-- The MA stops where it is; each instruction keeps its count of columns and its operands (R249). -/
def State.maStop (s : State) (c : Nat) : State :=
  let mine (w : Work) : Bool := match w with
    | .maGroupAddition k _ _ => k = c
    | _ => false
  { s with agenda := s.agenda.filter fun e => !mine e.2.2 }.modCore c fun k =>
    { k with maRun := k.maRun.map fun (r : MaRun) => { r with op := { r.op with done := r.groups * r.width } } }

/-- The MA goes on with what it had started: the remaining groups, in order (R249). -/
def State.maResume (s : State) (c : Nat) : State :=
  let (s, b) := (s.core c).maRun.foldl (fun (s, b) r =>
    let n := (r.op.n - r.op.done) / r.width
    let s := s.modCore c fun k => { k with maRun := k.maRun.map fun (x : MaRun) => if x.op.id = r.op.id then { x with b := b } else x }
    ((List.range n).foldl (fun s g => s.plan (b + g + 9) 9 (.maGroupAddition c r.op.id (r.groups + g))) s, b + n)) (s, s.now)
  s.modCore c fun k => { k with maFree := b }

/-- Column group `g` takes its additions (R248), unless the MA stops before it. -/
def State.maGroup (s : State) (c id g : Nat) : State :=
  match (s.core c).maRun.find? (·.op.id = id) with
  | none => s
  | some r =>
    if s.maStops c id r then s.maStop c else
    let w := r.width
    let lo := r.op.c + g * w
    let cells := (if r.op.zero then [] else bodyArr 0 64 lo w) ++ sideArr lo w
    s.arrays (maWho c) c cells (·.modCore c fun k => { k with maRun := k.maRun.filter (·.op.id ≠ id) }) fun s =>
    let s := s.softFill (maWho c) c (bodyArr 0 64 lo w ++ sideArr lo w)
    let a := (List.range 64).map fun m => (List.range 64).map fun i => tileElem r.a r.aTag.toNat m i
    s.modCore c fun k =>
      let k := (List.range w).foldl (fun k j => k.maColumn r a (g * w + j)) (k.count 66 w)
      let k := k.addEff s.now ⟨lo, lo + w - 1, r.op.cls, s.now, 0⟩
      let last := (g + 1) * w = r.op.n
      let next := k.maRun.map fun x => if x.op.id = id then { x with groups := g + 1 } else x
      { k with maRun := next.filter fun x => !(last && x.op.id = id) }

def execMaStart (core : Nat) (s : State) : Out := .next (s.maStart core)
def execMaGroupAddition (core id g : Nat) (s : State) : Out := .next (s.maGroup core id g)

/-! ### `anchor`, `acczero`, `accflags` (R251) -/

/-- The range of columns, N first (R391, R399). -/
def rangeChk (c n : DWord) (gc gn : G) : Option Res :=
  if n.toNat < 1 ∨ 512 < n.toNat then some (valueTrap n gn)
  else if 512 < c.toNat + n.toNat then some (valueTrap c gc)
  else none

/-- Columns c to c + n − 1. -/
def colRange (c n : Nat) : List Nat := (List.range n).map (c + ·)

/-- `rd` and `wr` say which ranges of the accumulator arrays the columns `c` to c + n − 1 it reads and writes. -/
def State.colInstr (s : State) (t : Tok) (y : Bool) (gc gn : G) (rs ws : List Nat) (lat cls : Nat)
    (rd wr : Nat → Nat → List (Nat × Nat × Nat)) (f : State → List Nat → State) : Out :=
  s.issue { t := t, len := 2, streams := [.e], y := y, reads := [keyG gc, keyG gn] ++ rs, writes := ws, lat := lat,
            wait := s.myCore.colWait s.now cls (s.gr gc).toNat (s.gr gn).toNat } fun s =>
    match rangeChk (s.gr gc) (s.gr gn) gc gn with
    | some r => r
    | none =>
      let c := (s.gr gc).toNat
      let n := (s.gr gn).toNat
      s.reading (rd c n) fun s =>
        .seq ((f (s.modMyCore fun k => k.addEff s.now ⟨c, c + n - 1, cls, s.now, 0⟩) (colRange c n)).filling (wr c n))

def execAnchor (t : Tok) (y : Bool) (gc gn ga : G) (s : State) : Out :=
  s.colInstr t y gc gn [keyG ga] [] 1 2 sideArr sideArr fun s cs =>
    s.modMyCore fun k => cs.foldl (fun k c => k.modSide c fun d => { d with anchor := (s.gr ga).truncate 10 }) k

def execAcczero (t : Tok) (y : Bool) (gc gn : G) (s : State) : Out :=
  s.colInstr t y gc gn [] [] 1 2 sideArr (fun c n => bodyArr 0 64 c n ++ sideArr c n) fun s cs => s.modMyCore fun k => cs.foldl (·.zeroCol ·) k

/-- OR of the flags of columns. -/
def Core.orFlags (k : Core) (cs : List Nat) : BitVec 6 := cs.foldl (fun f c => f ||| (k.colSide c).flags) 0

def execAccflags (t : Tok) (y : Bool) (gd gc gn : G) (clr : Bool) (s : State) : Out :=
  s.colInstr t y gc gn [] [keyG gd] 2 (if clr then 2 else 1) sideArr (if clr then sideArr else fun _ _ => []) fun s cs =>
    let s := s.setG gd ((s.myCore.orFlags cs).zeroExtend 64)
    if clr then s.modMyCore fun k => cs.foldl (fun k c => k.modSide c fun d => { d with flags := 0 }) k else s

/-! ### `accsv`, `accrs` (R259) -/

/-- The checks of both. -/
def State.accChk (s : State) (gc gn go : G) (h : H) (perm : Nat) : Option Res :=
  let c := s.at.1
  let off := (s.gr go).toNat
  firstOf [rangeChk (s.gr gc) (s.gr gn) gc gn,
    s.hCheck c h 4 [kMem] perm (s.ownSpad c) off (2048 * (s.gr gn).toNat), alignIssue off]

/-- Enter the order for one column a tick from `first` on, as part of the port access `id`. -/
def Core.addCols (k : Core) (now cls c n first id : Nat) : Core :=
  (List.range n).foldl (fun k i => k.addEff now ⟨c + i, c + i, cls, first + i, id⟩) k

/-- The records of a column. -/
def Core.columnBytes (k : Core) (c : Nat) : List Byte :=
  ((List.range 64).map fun r => xaRecord (k.xaOf r c) (k.colSide c)).flatten

def execAccsv (t : Tok) (y : Bool) (gc gn go : G) (h : H) (s : State) : Out :=
  s.issue { t := t, len := 2, streams := [.e], y := y, port := true, reads := [keyG gc, keyG gn, keyG go, keyH h],
            wait := s.myCore.colWait s.now 1 (s.gr gc).toNat (s.gr gn).toNat } fun s =>
    match s.accChk gc gn go h pW with
    | some r => r
    | none =>
      let k := s.myCore
      let c := (s.gr gc).toNat
      let n := (s.gr gn).toNat
      let b := (k.hreg h).local (s.gr go).toNat - spadOf s.at.1
      s.reading (bodyArr 0 64 c n ++ sideArr c n) fun s =>
      let (t, lat) := s.portStart .store ((List.range n).map fun i => writeItems (b + 2048 * i) (k.columnBytes (c + i))) (n + 1)
      .seqLat (t.modMyCore fun k => k.addCols s.now 1 c n (s.now + 1) s.serial) lat

def execAccrs (t : Tok) (y : Bool) (gc gn go : G) (h : H) (s : State) : Out :=
  s.issue { t := t, len := 2, streams := [.e], y := y, port := true, reads := [keyG gc, keyG gn, keyG go, keyH h],
            wait := s.myCore.colWait s.now 2 (s.gr gc).toNat (s.gr gn).toNat } fun s =>
    match s.accChk gc gn go h pR with
    | some r => r
    | none =>
      let k := s.myCore
      let c := (s.gr gc).toNat
      let n := (s.gr gn).toNat
      let b := (k.hreg h).local (s.gr go).toNat - spadOf s.at.1
      let (t, lat) := s.portStart (.columns c n b) ((List.range n).map fun i => readItems (b + 2048 * i) 2048) (n + 2)
      .seqLat (t.modMyCore fun k => k.addCols s.now 2 c n (s.now + 2) s.serial) lat

end Sys2Proof.Machine
end

