-- ==== Sys2Proof/Machine/Drain.lean ====
section
/-! DEFINITION. The drain epilogue unit and the top-k heaps (spec 11 R252 to R258, R260; 07 R154, R155). -/

namespace Sys2Proof.Machine

/-! ### EPCFG (R252) -/

def epRm1 (w : DWord) : Nat := bits w 2 0
def epBias (w : DWord) : Bool := w.getLsbD 3
def epTab (w : DWord) : Bool := w.getLsbD 4
def epTk (w : DWord) : Nat := bits w 8 5
def epScale (w : DWord) : Bool := w.getLsbD 9
def epOut (w : DWord) : Nat := bits w 13 10
def epRm2 (w : DWord) : Nat := bits w 16 14
def epSat (w : DWord) : Bool := w.getLsbD 17
def epTopk (w : DWord) : Bool := w.getLsbD 18
def epNowr (w : DWord) : Bool := w.getLsbD 19

/-- The rounding mode of a code 0 to 6 (R143). -/
def rmOfCode (n : Nat) : Rm :=
  match n with
  | 0 => .rne
  | 1 => .rtz
  | 2 => .rdn
  | 3 => .rup
  | 4 => .rna
  | 5 => .sr
  | _ => .dyn

/-- Values and combinations that EPCFG forbids. -/
def State.epChk (s : State) (cfg idx : DWord) (o : EpcfgOp) : Option Res :=
  if bits cfg 63 20 ≠ 0 ∨ 8 < epOut cfg ∨ epRm1 cfg = 7 ∨ epRm2 cfg = 7 then some (valueTrap cfg o.gcfg)
  else if bits idx 63 32 ≠ 0 then some (valueTrap idx o.gidx)
  else if (epTopk cfg ∧ 4 < epOut cfg) ∨ (epRm1 cfg = 5 ∧ epRm2 cfg = 5) then some (s.combo 2)
  else none

/-- Settings that a drain issuing now follows: those of the last `epcfg` that applies already (R252). -/
def Core.epNow (k : Core) (now : Nat) : DWord × DWord := ((k.epPend.filter (·.1 ≤ now)).getLast?.map (·.2)).getD k.epOld

/-- The two registers load now; a `drain` follows the new settings from s + 3, and waits for BIAS and SCALE. -/
def execEpcfg (t : Tok) (o : EpcfgOp) (s : State) : Out :=
  let cfg := s.gr o.gcfg
  let rd := epBias cfg || epScale cfg
  s.issue { t := t, len := 2, streams := [.e], y := o.y, lat := 3, port := rd, writes := [keyEp],
            reads := [keyG o.gcfg, keyG o.gidx] ++ (if rd then [keyG o.go, keyH o.h] else []),
            wait := if s.myCore.drains.isEmpty then none else some .issued } fun s =>
    let c := s.at.1
    let idx := s.gr o.gidx
    let off := (s.gr o.go).toNat
    match firstOf [s.epChk cfg idx o,
      if rd then firstOf [s.hCheck c o.h 4 [kMem] pR (s.ownSpad c) off 4096, alignIssue off] else none] with
    | some r => r
    | none =>
      let set (s : State) (rdy : Nat) : State := (s.modCore c fun k =>
        { k with epOld := k.epNow s.now, epcfg := cfg, epidx := idx, epReady := rdy
                 epPend := (k.epPend.filter fun e => s.now < e.1) ++ [(s.now + 3, cfg, idx)] }).filling epArr
      if rd then
        let b := (s.myCore.hreg o.h).local off - spadOf c
        let (t, lat) := (set s 0).portStart (.epilogue b) [readItems b 2048, readItems (b + 2048) 2048] 3
        .seqLat (t.modCore c fun k => { k with epReady := max (s.now + 3) (k.vmPort + 1) }) lat
      else .seq (set s (s.now + 3))

/-! ### One element (R254) -/

/-- One FP32 step of the epilogue: result, and whether its rounding overflowed. -/
def fpStep (x : FVal) : Nat × Bool :=
  match x with
  | .fin v => fmtFP32.round .rne false 0 v
  | x => (fmtFP32.result .rne false 0 x, false)

/-- The element (r, j) of the accumulator as a drain delivers it: OUT bits, FP32 bits, OV, CV. -/
def DrainRec.elem (d : DrainRec) (k : Core) (r j : Nat) : Nat × Nat × Bool × Bool :=
  let out := tyOfTag (epOut d.cfg)
  let draw (rm : Rm) : Nat := srDraw rm d.key d.ctr (r * 512 + j)
  let fin (y : Nat) (ov cv : Bool) : Nat × Nat × Bool × Bool :=
    (y, if out = .fp32 then (if fmtFP32.isNan y then fmtFP32.nan else y) else (convF .fp32 .rne false 0 (valOf out y)).1, ov, cv)
  if !epBias d.cfg && !epTab d.cfg && !epScale d.cfg then
    let (y, ov, cv) := drainElem (k.xaOf r j) (k.colSide j) out d.rm1 (epSat d.cfg) (draw d.rm1)
    fin y ov cv
  else
    let (y, ov, cv) := drainElem (k.xaOf r j) (k.colSide j) .fp32 d.rm1 false (draw d.rm1)
    let (y, c1) := if epBias d.cfg then fpStep ((f32 y).add .rne (f32 (Sparse.get 0 d.bias j).toNat)) else (y, false)
    let (y, c2) := if epTab d.cfg then fpStep ((d.table.getD ⟨0, 0, 0, []⟩).at (f32 y)) else (y, false)
    let (y, c3) := if epScale d.cfg then fpStep ((f32 y).mul (f32 (Sparse.get 0 d.scale j).toNat)) else (y, false)
    let (y, c4) := convF out d.rm2 (epSat d.cfg) (draw d.rm2) (f32 y)
    fin y ov (cv || c1 || c2 || c3 || c4)

/-- The elements of chunk `q`. -/
def DrainRec.els (d : DrainRec) (k : Core) (q : Nat) : List DrainElem :=
  let (r, n0, w) := d.chunk q
  (List.range w).map fun n =>
    let (y, x, _, _) := d.elem k (d.frow + r) (d.c + n0 + n)
    ⟨d.frow + r, d.c + n0 + n, BitVec.ofNat 32 y, BitVec.ofNat 32 x⟩

/-- DSTAT (R256). -/
def DrainRec.status (d : DrainRec) (k : Core) : DWord :=
  let all := (List.range d.nrow).flatMap fun r => (List.range d.n).map fun n => d.elem k (d.frow + r) (d.c + n)
  dw ((k.orFlags (colRange d.c d.n)).toNat + (if all.any (·.2.2.1) then 64 else 0) + (if all.any (·.2.2.2) then 128 else 0))

/-! ### `drain` (R253, R255) -/

/-- The rows from a G register: FROW, NROW, PITCH. -/
def rowsOf (v : DWord) : Nat × Nat × Nat := (bits v 5 0, bits v 14 8, bits v 47 16)

/-- Heap rows that a `topkrd` on the port still has to write (R258). -/
def Core.heapRowsLeft (k : Core) : List Nat :=
  match k.port with
  | some op =>
    match op.what with
    | .heaps frow nrow off =>
      ((List.range nrow).filter fun i =>
        let n := (Sparse.get ⟨64, []⟩ k.heaps (frow + i)).k
        (op.got.filter fun e => off + 512 * i ≤ e.1 && e.1 < off + 512 * i + 512).length < linesOf (off + 512 * i) (8 * n)).map (frow + ·)
    | _ => []
  | none => []

/-- Rows with heap insertions outstanding (R258). -/
def Core.heapRowsDue (k : Core) : List Nat :=
  k.drains.flatMap fun d =>
    if epTopk d.cfg then (List.range d.nrow).filterMap fun i => if d.past / d.perRow ≤ i then some (d.frow + i) else none else []

/-- Rows frow to frow + nrow − 1 meet a list. -/
def rowsMeet (frow nrow : Nat) (l : List Nat) : Bool := l.any fun r => frow ≤ r && r < frow + nrow

def drainChk (s : State) (cfg : DWord) (o : DrainOp) : Option Res :=
  let c := s.at.1
  let n := (s.gr o.gn).toNat
  let (frow, nrow, pitch) := rowsOf (s.gr o.grows)
  let e := fmtBytes (epOut cfg)
  let off := (s.gr o.go).toNat
  firstOf [rangeChk (s.gr o.gc) (s.gr o.gn) o.gc o.gn,
    if nrow < 1 ∨ 64 < frow + nrow then some (valueTrap (s.gr o.grows) o.grows) else none,
    if !epNowr cfg ∧ 1 < nrow ∧ pitch < n * e then some (valueTrap (s.gr o.grows) o.grows) else none,
    if epTab cfg ∧ (Sparse.get? s.myCore.tie (epTk cfg)).isNone then some (.trap 0x47 (dw (epTk cfg)) 0) else none,
    if epNowr cfg then none else s.rowsChk c o.h pW off pitch nrow (n * e)]

/-- The next drain starts in period `p` at the earliest. -/
def State.drainNext (s : State) (c p : Nat) : State :=
  match (s.core c).drains.find? (!·.started) with
  | some d => s.plan (max p (d.arrive + 1)) 9 (.drainStart c)
  | none => s

/-- What chunk `q` of a drain reads of its core's arrays (R254): accumulators, BIAS and SCALE. -/
def DrainRec.cells (d : DrainRec) (q : Nat) : List (Nat × Nat × Nat) :=
  let (r, n0, w) := d.chunk q
  let c := d.c + n0
  bodyArr (d.frow + r) 1 c w ++ sideArr c w ++ (if epBias d.cfg then biasArr c w else []) ++ (if epScale d.cfg then scaleArr c w else [])

/-- The DEU as the unit that reads. -/
def deuWho (c : Nat) : Who := { core := some c, stream := some .e, unit := uDeu }

/-- A `drain` is accepted, and retires, in its issue tick: DSTAT, NUMSTAT and SRCTR change there (R253, R254, R256). DESIGN CHOICE (log 62): a
drain keeps its place in the DEU until its last chunk is written, and one whose RM1 or RM2 resolves to SR advances SRCTR whether or not its
epilogue has a step. -/
def execDrain (t : Tok) (o : DrainOp) (s : State) : Out :=
  let k := s.myCore
  let cfg := (k.epNow s.now).1
  let (frow, nrow, _) := rowsOf (s.gr o.grows)
  let full := 2 ≤ k.drains.length || (k.epFrom ≤ s.now && s.now < k.epReady)
    || (epTopk cfg && rowsMeet frow nrow (k.heapLeft ++ k.heapRowsLeft))
  s.issue { t := t, len := 2, streams := [.e], y := o.y,
            reads := [keyG o.gc, keyG o.gn, keyG o.grows, keyG o.go, keyH o.h] ++ s.srReads (rmOfCode (epRm1 cfg)) ++ s.srReads (rmOfCode (epRm2 cfg)),
            wait := if full then some .issued else k.colWait s.now 1 (s.gr o.gc).toNat (s.gr o.gn).toNat } fun s =>
    match drainChk s cfg o with
    | some r => r
    | none =>
      let c := s.at.1
      if epTab cfg && s.myCore.parity.contains (keyT (epTk cfg)) then .contain 2 23 uStream none else
      s.reading epArr fun s =>
      let (id, s) := s.fresh
      let k := s.core c
      let (frow, nrow, pitch) := rowsOf (s.gr o.grows)
      let rm1 := s.me.rmOf (rmOfCode (epRm1 cfg))
      let rm2 := s.me.rmOf (rmOfCode (epRm2 cfg))
      let base := if epNowr cfg then 0 else (k.hreg o.h).local (s.gr o.go).toNat - spadOf c
      let d : DrainRec :=
        { id := id, c := (s.gr o.gc).toNat, n := (s.gr o.gn).toNat, frow := frow, nrow := nrow, pitch := pitch, base := base,
          cfg := cfg, idxBase := ((k.epNow s.now).2).truncate 32, rm1 := rm1, rm2 := rm2, key := s.srKey c .e, ctr := s.me.srctr,
          table := if epTab cfg then Sparse.get? k.tie (epTk cfg) else none, bias := k.bias, scale := k.scale, split := o.split,
          arrive := s.now, timed := s.timedAt c, pc := s.me.pc, words := encode (.drain t o), vals := [s.gr o.gc, s.gr o.gn, s.gr o.grows, s.gr o.go],
          started := false, read := 0, written := 0, past := 0 }
      let st := d.status k
      let s := s.modCore c fun k =>
        let k := (k.delayWrite s.now ⟨4, 0x021, 0, st⟩).delayWrite s.now ⟨4, 0x020, 3, st⟩
        let k := if rm1 = .sr || rm2 = .sr then k.modStr .e fun x => { x with srctr := x.srctr + 32768 } else k
        { k with drains := k.drains ++ [d] }
      let s := s.filling dstatArr
      .seq (if k.drains.any (!·.started) then s else if k.drains.all (fun x => x.read = x.chunks) then s.drainNext c k.deuFree else s)

/-- Change an accepted drain. -/
def Core.modDrain (k : Core) (id : Nat) (f : DrainRec → DrainRec) : Core :=
  { k with drains := k.drains.map fun d => if d.id = id then f d else d }

/-- The DEU starts the oldest drain that has not started: its first chunk is read in this period (R255). -/
def State.drainStart (s : State) (c : Nat) : State :=
  match (s.core c).drains.find? (!·.started) with
  | none => s
  | some d =>
    if s.stopping c || s.now < (s.core c).deuFree || s.now ≤ d.arrive then s.plan (s.now + 1) 9 (.drainStart c)
    else (s.modCore c (·.modDrain d.id fun d => { d with started := true })).plan s.now 10 (.drainChunkRead c d.id d.read)

/-- The drain may be stopped before chunk `q` (R80, R261). -/
def DrainRec.atSplit (d : DrainRec) (q : Nat) : Bool := d.split ≠ 0 && q % (d.perRow * 2 ^ (d.split.toNat - 1)) = 0

/-- What a drain still had to do does not happen (R422). -/
def State.dropDrain (s : State) (c id : Nat) : State :=
  let mine (w : Work) : Bool :=
    match w with
    | .drainChunkRead c' id' _ => c' = c && id' = id
    | .drainChunkWrite c' id' _ _ => c' = c && id' = id
    | _ => false
  let s := { s with agenda := s.agenda.filter fun e => !mine e.2.2 }
  let s := s.modCore c fun k => { k with drains := k.drains.filter (·.id ≠ id), deuFree := max k.deuFree (s.now + 1) }
  s.drainNext c (s.now + 1)

/-- Chunk `q` is read, unless a pre-emption stops the drain before its row; its output completes 14 ticks later. -/
def State.drainRead (s : State) (c id q : Nat) : State :=
  let k := s.core c
  match k.drains.find? (·.id = id) with
  | none => s
  | some d =>
    if s.stopping c && d.atSplit q then
      (s.modCore c (·.modDrain id fun d => { d with started := false })).plan (s.now + 1) 9 (.drainStart c) else
    s.arrays (deuWho c) c (d.cells q) (·.dropDrain c id) fun s =>
    let s := s.plan (s.now + 14) 16 (.drainChunkWrite c id q (d.els k q))
    let s := s.modCore c fun k => k.modDrain id fun d => { d with read := q + 1 }
    if q + 1 < d.chunks then s.plan (s.now + 1) 10 (.drainChunkRead c id (q + 1))
    else
      let s := s.modCore c fun k => { k.addEff s.now ⟨d.c, d.c + d.n - 1, 1, s.now, d.id⟩ with deuFree := s.now + 1 }
      s.drainNext c (s.now + 1)

/-- What the DEU and the heaps show at the start of a period: a drain whose last chunk was written in an earlier one has
finished (R255, R258). -/
def Core.startDeu (k : Core) : Core :=
  { k with heapLeft := k.heapRowsLeft
           drains := k.drains.filterMap fun d => if d.chunks ≤ d.written then none else some { d with past := d.written } }

/-- Insert a pair: the best K stay (R257). -/
def Core.heapInsert (k : Core) (r : Nat) (x : Cand) : Core :=
  let h := Sparse.get ⟨64, []⟩ k.heaps r
  { k with heaps := Sparse.set ⟨64, []⟩ k.heaps r { h with items := (candInsert x h.items).take h.k } }

/-- The last read tick of a drain moves with a write that waits before that tick has passed; with it the effect on the columns and the start of the
next drain (R255). DEDUCED (log 60): a write that waits later moves no read, since all are made. -/
def Core.lastReadLater (k : Core) (now id q : Nat) : Core :=
  if k.drains.any (fun d => d.id = id && d.read = d.chunks && q + 1 < d.chunks) && now < k.deuFree then
    { k with deuFree := k.deuFree + 1, colEff := k.colEff.map fun e => if e.id = id then { e with last := e.last + 1 } else e }
  else k

/-- Every later chunk of a drain, and the start of the next drain, comes one tick later (R255). -/
def State.delayDrain (s : State) (c id q : Nat) : State :=
  let s := s.modCore c (·.lastReadLater s.now id q)
  let later (w : Work) : Bool :=
    match w with
    | .drainChunkRead c' id' _ => c' = c && id' = id
    | .drainChunkWrite c' id' q' _ => c' = c && id' = id && q < q'
    | .drainStart c' => c' = c && (s.core c).drains.any fun d => d.id = id && d.read < d.chunks
    | _ => false
  let moved := s.agenda.filter fun e => later e.2.2
  let rest := s.agenda.filter fun e => !later e.2.2
  { s with agenda := moved.foldl (fun a e => agendaInsert (e.1 + 1, e.2) a) rest }

/-- The output of a chunk, little-endian elements. -/
def DrainRec.outOf (d : DrainRec) (els : List DrainElem) : List Byte := els.flatMap fun e => leBytes d.outBytes e.out.toNat

/-- An access of the vector memory port that issued before the drain has not ended: the DEU's writes come after it (R255). -/
def Core.portBefore (k : Core) (d : DrainRec) : Bool := k.port.any fun o => !o.timed && o.id < d.id && !epNowr d.cfg

/-- Banks that the vector memory port of core `c` takes in this period in the timed regime, where its accesses are ordered before the DEU's writes
(R255). -/
def State.portBanks (s : State) (c : Nat) : List (Nat × Nat) :=
  s.agenda.flatMap fun e =>
    match e.2.2 with
    | .portStep k id items _ =>
      if k = c && e.1 = s.now && (s.core c).port.any (·.id = id) then ((linesOfItems items).map (· % 32)).map fun b => (b, 3) else []
    | _ => []

/-- The output lines of chunk `q` complete and its pairs enter their heap, or its writes wait a tick (R255, R257). In the timed regime a bank that the
vector memory port takes in the same tick refuses the DEU (log 63). -/
def State.drainWrite (s : State) (c id q : Nat) (els : List DrainElem) : State :=
  match (s.core c).drains.find? (·.id = id) with
  | none => s
  | some d =>
    let (o, n) := d.chunkOut q
    let banks := if epNowr d.cfg then [] else banksOf o n
    if (s.core c).portBefore d then (s.delayDrain c id q).plan (s.now + 1) 16 (.drainChunkWrite c id q els)
    else match (s.ceClash c 3 d.timed banks).or (if d.timed then (s.portBanks c).find? fun e => banks.contains e.1 else none) with
    | some (b, h) =>
      if d.timed then
        (s.dropDrain c id).schedErr c (some .e) uDeu 0xC2 (dw b) (bankInfo h 3) (some (mkPpa s.pkg (spadOf c + o))) (some d.pc)
      else ((s.modCore c (·.count 70 (banks.filter fun b => (s.ceClash c 3 false [b]).isSome).length)).delayDrain c id q).plan (s.now + 1) 16 (.drainChunkWrite c id q els)
    | none =>
      let s := s.modCore c (·.useBanks s.now s.now 3 banks)
      let s := if epNowr d.cfg then s
        else s.store { core := some c, stream := some .e, unit := uDeu } (spadOf c + o) (d.outOf els)
      let heap := if epTopk d.cfg then els.head?.toList.flatMap fun e => heapArr e.row 1 else []
      s.arrays (deuWho c) c heap (·.dropDrain c id) fun s => (s.softFill (deuWho c) c heap).modCore c fun k =>
        let k := if epTopk d.cfg then els.foldl (fun k e => k.heapInsert e.row (e.wide, d.idxBase + BitVec.ofNat 32 e.col)) k else k
        let k := if (q + 1) % d.perRow = 0 then k.count 67 else k
        k.modDrain id fun d => { d with written := q + 1 }

def execDrainStart (core : Nat) (s : State) : Out := .next (s.drainStart core)
def execDrainChunkRead (core id q : Nat) (s : State) : Out := .next (s.drainRead core id q)
def execDrainChunkWrite (core id q : Nat) (els : List DrainElem) (s : State) : Out := .next (s.drainWrite core id q els)

/-! ### Heaps (R257, R258) -/

/-- The rows of `topkrd` and `topkclr`. -/
def heapChk (v : DWord) (g : G) : Option Res :=
  let (frow, nrow, _) := rowsOf v
  if nrow < 1 ∨ 64 < frow + nrow then some (valueTrap v g) else none

/-- What a heap instruction on these rows waits for. -/
def Core.heapWait (k : Core) (v : DWord) : Option Cls :=
  let (frow, nrow, _) := rowsOf v
  if rowsMeet frow nrow k.heapRowsDue || rowsMeet frow nrow (k.heapLeft ++ k.heapRowsLeft) then some .issued else none

def execTopkclr (t : Tok) (y : Bool) (grows gk : G) (s : State) : Out :=
  s.issue { t := t, len := 2, streams := [.e], y := y, reads := [keyG grows, keyG gk], wait := s.myCore.heapWait (s.gr grows) } fun s =>
    let k := (s.gr gk).toNat
    match firstOf [heapChk (s.gr grows) grows, if k < 1 ∨ 64 < k then some (valueTrap (s.gr gk) gk) else none] with
    | some r => r
    | none =>
      let (frow, nrow, _) := rowsOf (s.gr grows)
      .seq ((s.modMyCore fun c =>
        { c with heaps := (List.range nrow).foldl (fun h i => Sparse.set ⟨64, []⟩ h (frow + i) ⟨k, []⟩) c.heaps }).filling (heapArr frow nrow))

/-- The K pairs of a heap, empty places included. -/
def Heap.bytes (h : Heap) : List Byte :=
  (List.range h.k).flatMap fun i => let x := h.items.getD i candNone; leBytes 4 x.1.toNat ++ leBytes 4 x.2.toNat

def execTopkrd (t : Tok) (y : Bool) (grows go : G) (h : H) (s : State) : Out :=
  s.issue { t := t, len := 2, streams := [.e], y := y, port := true, reads := [keyG grows, keyG go, keyH h],
            wait := s.myCore.heapWait (s.gr grows) } fun s =>
    let c := s.at.1
    let (frow, nrow, _) := rowsOf (s.gr grows)
    let off := (s.gr go).toNat
    let hd := s.myCore.hreg h
    let heap (i : Nat) : Heap := Sparse.get ⟨64, []⟩ s.myCore.heaps (frow + i)
    let rows := List.range nrow
    match firstOf [heapChk (s.gr grows) grows, s.hRanges c h 4 [kMem] pW (s.ownSpad c) (rows.map fun i => ((off + 512 * i : Nat), 8 * (heap i).k, 0xFFFF)),
      alignIssue off] with
    | some r => r
    | none =>
      let b := hd.local off - spadOf c
      s.reading (heapArr frow nrow) fun s =>
      let (t, lat) := s.portStart (.heaps frow nrow b) (rows.map fun i => writeItems (b + 512 * i) (heap i).bytes) (nrow + 1)
      .seqLat t lat

end Sys2Proof.Machine
end

