-- ==== Sys2Proof/Machine/Copy.lean ====
section
/-! DEFINITION. The copy instructions: checks and push of a command, the checker of R271, waits and results, shape records
(spec 12 R262 to R266, R269 to R288, R296 to R298; 05 R119; 19 R391, R400, R402). -/

namespace Sys2Proof.Machine

/-! ### Ranges of the own scratchpad (R271) -/

/-- Displacements of a whole command side: write, lowest, end; `none` where the range runs to the end of the handle. -/
structure Reach where
  wr : Bool
  side : Side
  lo : Int
  hi : Option Int
deriving DecidableEq, Repr

/-- What the sides of a command may touch (R271 to R279, R283, R296 to R298). -/
def CeEntry.reach (e : CeEntry) (tileRows tileBytes : Nat) : List Reach :=
  let rd (d : Side) (lo : Int) (n : Nat) : Reach := ⟨false, d, lo, some (lo + n)⟩
  let wr (d : Side) (n : Nat) : Reach := ⟨true, d, 0, some n⟩
  e.flag.toList.map (wr · 8) ++ match e.kind with
  | .cpy n => [wr e.dst n, rd e.src 0 n]
  | .shaped sh d =>
    let (lo, hi) := shExtent sh
    let pk := shCount sh * shE sh
    if d then [⟨true, e.dst, lo, some hi⟩, rd e.src 0 pk] else [wr e.dst pk, ⟨false, e.src, lo, some hi⟩]
  | .tile _ pitch .. => [rd e.src 0 ((tileRows - 1) * pitch + tileBytes)]
  | .gath n esz => [wr e.dst (n * 2 ^ esz), ⟨false, e.src, 0, none⟩, rd e.idx 0 (4 * n)]
  | .scat n esz => [⟨true, e.dst, 0, none⟩, rd e.src 0 (n * 2 ^ esz), rd e.idx 0 (4 * n)]
  | .acc op n esz b _ idx =>
    (if idx then [⟨true, e.dst, 0, none⟩, rd e.idx 0 (4 * n)] else [wr e.dst (n * accD op esz)])
      ++ (if b.isSome then [] else [rd e.src 0 (n * accS op esz)])
  | .cas esz _ _ => [wr e.dst (2 ^ esz)]
  | .send _ _ _ n => [rd e.src 0 n]
  | .recv _ _ _ n => [wr e.dst n]
  | .sendu n _ => [rd e.src 0 n, wr e.dst n]

/-- The bytes of the own scratchpad that a side reaches: write, first offset, end. -/
def Reach.own (r : Reach) (s : State) (c : Nat) : Option (Bool × Nat × Nat) :=
  if r.side.h.kind = kGen then none
  else
    let mine := mkPpa s.pkg (spadOf c)
    let start := r.side.addr r.lo
    let stop := match r.hi with
      | some hi => start + (hi - r.lo).toNat
      | none => r.side.h.base + r.side.h.len
    let lo := max start mine - mine
    let hi := min stop (mine + spadSize) - mine
    if lo < hi then some (r.wr, lo, hi) else none

/-- First common offset of two commands, a range that one of them writes meeting a range of the other. -/
def overlapAt (a b : List (Bool × Nat × Nat)) : Option Nat :=
  (a.flatMap fun x => b.filterMap fun y =>
    if (x.1 || y.1) && max x.2.1 y.2.1 < min x.2.2 y.2.2 then some (max x.2.1 y.2.1) else none).foldl
      (fun m v => some (match m with
        | some w => min v w
        | none => v)) none

/-- The entries that a chain of `pred` links reaches. -/
def predChain (l : List CeEntry) : Nat → Option Nat → List Nat
  | 0, _ => []
  | _, none => []
  | fuel + 1, some id =>
    match l.find? (·.id = id) with
    | some e => id :: predChain l fuel e.pred
    | none => []

/-- Rows and bytes of a tile as its descriptor stands. -/
def Core.tileSize (k : Core) (e : CeEntry) : Nat × Nat :=
  match e.kind with
  | .tile td .. => let d := k.tdescOf td.toNat; (tdRows d, tdRowBytes d)
  | _ => (0, 0)

def State.ownReach (s : State) (c : Nat) (e : CeEntry) : List (Bool × Nat × Nat) :=
  let (r, b) := (s.core c).tileSize e
  (e.reach r b).filterMap (·.own s c)

/-- The checker of R271: the first entry in push order that the command overlaps and is unordered with. -/
def State.overlap (s : State) (c : Nat) (e : CeEntry) : Option Res :=
  let l := (s.core c).ce
  let ordered := predChain l 64 e.pred
  let mine := s.ownReach c e
  (l.filter fun x => !ordered.contains x.id).findSome? fun x =>
    (overlapAt mine (s.ownReach c x)).map fun o => .trap 0x4E (x.seq.zeroExtend 64) (dw o)

/-- SELFLAP of a `cpy` (R272). -/
def State.selfLap (s : State) (c : Nat) (e : CeEntry) : Option Res :=
  match s.ownReach c { e with flag := none } with
  | [a, b] => if (overlapAt [a] [b]).isSome then some (.trap 0x4D (dw b.2.1) (dw a.2.1)) else none
  | _ => none

/-! ### The push (R266, R267) -/

/-- What an instruction gives the push: its checks by sub-step of R391, and the entry. -/
structure Push where
  vals : List (Option Res)
  shape : Option Res := none
  /-- Memory that the push reads. -/
  seen : List (Nat × Nat) := []
  handles : List (Option Res)
  align : List (Option Res)
  self : Bool := false
  kind : CmdKind
  dst : Side := noSide
  src : Side := noSide
  idx : Side := noSide
  flag : Option Side := none
  ord : Ord := .relaxed
  ford : Bool := false
  split : BitVec 4 := 0

/-- A side through a handle register at an offset. -/
def State.side (s : State) (n : H) (off : Nat) : Side := let h := s.myCore.hreg n; ⟨h, h.va, off, false⟩

/-- The timed regime applies to a command: its requested tick lies at SCHEDBASE or later (R111, R267). -/
def State.strictCmd (s : State) (c : Nat) (gt : G) : Bool :=
  let k := s.core c
  k.timed && gt ≠ 0 && k.schedbase.toNat ≤ (s.me.gr gt).toNat

/-- Ask for a look at the CE buffer in period `p`. -/
def State.planStart (s : State) (c p : Nat) : State :=
  if s.agenda.any fun e => e.2.2 = .ceCommandStart c && e.1 ≤ p && s.now < e.1 then s else s.plan p 5 (.ceCommandStart c)

/-- The CE word of an entry (R392). -/
def CeEntry.word (e : CeEntry) (side : Nat) : DWord := dw (e.seq.toNat + side * 2 ^ 8 + e.prog % 2 ^ 32 * 2 ^ 32)

/-- An error of the schedule in a command: it becomes FAULTED, and the error follows R423. -/
def State.cmdSchedErr (s : State) (c : Nat) (e : CeEntry) (cause side : Nat) (i0 i1 : DWord) (addr : Option Nat) : State :=
  let s := s.modCore c fun k => { k with ce := k.ce.map fun x => if x.id = e.id then { x with st := .faulted (BitVec.ofNat 8 cause) side } else x }
  s.schedErr c (some e.stream) uCe cause i0 i1 addr

def State.push (s : State) (hdr : CmdHdr) (p : Push) : Res :=
  let (c, i) := s.at
  let k := s.core c
  let w := s.infoWords c s.me.pc 4
  if s.timedAt c ∧ hdr.gt = 0 then .late uStream 0xCA w.1 w.2 none
  else
    let strict := s.strictCmd c hdr.gt
    let (id, t) := s.fresh
    let e : CeEntry :=
      { id := id, seq := hdr.seq, stream := i, kind := p.kind, dst := p.dst, src := p.src, idx := p.idx, flag := p.flag
        pred := if hdr.aft then (k.ce.reverse.find? fun x => x.seq = hdr.pred).map (·.id) else none
        req := if hdr.gt = 0 then s.now + 1 else (s.gr hdr.gt).toNat, timed := hdr.gt ≠ 0, strict := strict
        ord := p.ord, ford := p.ford, split := p.split, st := .queued, base := 0, el := 0, sub := 0, ev := 0, m := 0, nextAt := 0
        prog := 0, outstanding := 0, idxBuf := [], dataBuf := [], landBuf := [], flagSent := false, foHeld := false, pushed := s.tick, born := s.now, noticed := false }
    match firstOf (p.vals ++ [if k.ce.any fun x => x.seq = hdr.seq then some (.trap 0x4B (hdr.seq.zeroExtend 64) 0) else none, p.shape]
        ++ p.handles ++ p.align ++ [if p.self then s.selfLap c e else none, s.overlap c e]) with
    | some r => r
    | none =>
      let t := (p.seen.foldl (fun t x => t.touch (s.myWho uStream) x.1 x.2) t).modCore c fun k => { k with ce := k.ce ++ [e] }
      if e.timed ∧ e.req ≤ s.tick then .seq (t.cmdSchedErr c e 0xC0 0 (e.word 0) (dw e.req) none)
      else .seq (t.planStart c (s.now + 1))

/-- The issue of a copy command: the mode rules of R171 and R277, a full buffer, the registers it reads. -/
def State.copyCmd (s : State) (t : Tok) (hdr : CmdHdr) (streams : List StreamId) (flg timedOnly : Bool) (gs : List G) (hs : List H)
    (f : State → Push) : Out :=
  let k := s.myCore
  let ok := (k.timed || (hdr.gt = 0 && !timedOnly)) && !(k.timed && flg)
  s.issue { t := t, len := 4, streams := streams, y := hdr.y, mode := ok, wait := if 64 ≤ k.ce.length then some .cefull else none,
            reads := (hdr.gt :: gs).map keyG ++ hs.map keyH } fun s => s.push hdr (f s)

/-! ### Checks of sides -/

/-- Own memory of the machine, any package: everything but the hub's registers (log 19). -/
def State.anySpace (s : State) (c : Nat) : Space := s.inSpace c fun l => l ≠ .hub

/-- Source of a command: in the timed regime neither another core's scratchpad nor another package (R110). -/
def State.srcSpace (s : State) (c : Nat) (strict : Bool) : Space :=
  s.inSpace c fun
    | .hub => false
    | .core _ => !strict
    | .pkg _ => !strict
    | _ => true

/-- Destination of a command: in the timed regime not another package (R110). -/
def State.dstSpace (s : State) (c : Nat) (strict : Bool) : Space :=
  s.inSpace c fun
    | .hub => false
    | .pkg _ => !strict
    | _ => true

/-- Checks of one handle over displacements lo to hi of offset `off`. -/
def State.spanChk (s : State) (c : Nat) (n : H) (role : Nat) (kinds : List Nat) (perm : Nat) (space : Space) (off : Nat)
    (lo hi : Int) : Option Res :=
  let h := (s.core c).hreg n
  let a : Int := off + lo
  let i0 := hInfo n role 0xFFFF
  firstOf [s.hUse c n role kinds perm space (negOff a) 0xFFFF (if a < 0 then 0 else (hi - lo).toNat),
    if a < 0 then some (.trap 0x65 i0 (negOff a)) else hBounds h n role a.toNat (hi - lo).toNat,
    s.hMapped h n role a.toNat (hi - lo).toNat,
    if h.kind = kGen then s.winBad c h else none]

/-- Checks of a handle whose elements are checked when they are reached (R276, R279). -/
def State.useChk (s : State) (c : Nat) (n : H) (role : Nat) (kinds : List Nat) (perm : Nat) (space : Space) (off : Nat) :
    Option Res :=
  let h := (s.core c).hreg n
  firstOf [s.hUse c n role kinds perm space (dw off), if h.kind = kGen then s.winBad c h else none]

/-- The index list: own scratchpad, readable, at a multiple of 64 (R276). -/
def State.idxChk (s : State) (c : Nat) (n : H) (off cnt : Nat) : Option Res :=
  s.spanChk c n 2 [kMem] pR (s.ownSpad c) off 0 (4 * cnt : Nat)

/-- The flag word (R277). -/
def State.flagChk (s : State) (c : Nat) (o : FlagOp) : Option Res :=
  if o.flg then s.spanChk c o.hf 3 [kMem] pA (s.anySpace c) (s.gr o.gf).toNat 0 8 else none
def State.flagAlign (s : State) (o : FlagOp) : Option Res :=
  if o.flg then (s.myCore.hreg o.hf).alignAt (s.gr o.gf).toNat 8 else none
def State.flagSide (s : State) (o : FlagOp) : Option Side := if o.flg then some (s.side o.hf (s.gr o.gf).toNat) else none
def flagGs (o : FlagOp) : List G := if o.flg then [o.gf] else []
def flagHs (o : FlagOp) : List H := if o.flg then [o.hf] else []

/-- VALUE of a count outside its limits. -/
def countChk (v : DWord) (g : G) (lo hi : Nat) : Option Res := if v.toNat < lo ∨ hi < v.toNat then some (valueTrap v g) else none

def cond (b : Bool) (r : Res) : Option Res := if b then some r else none

/-! ### `cpy` (R272, R273) -/

/-- Local address of a shape record. -/
def State.shapeAddr (s : State) (ctx n : Nat) : Nat := ppaLocal (Sparse.get CtxRec.idle s.ctxs ctx).shapes.toNat + 64 * n

/-- The 64 bytes of a shape record of the context of core `c` (R103, R104). -/
def State.shapeRec (s : State) (ctx : Byte) (n : Nat) : ShapeWords := dwords 8 (s.load (s.shapeAddr ctx.toNat n) 64)

def shValid (sh : ShapeWords) : Bool := (shW sh 0).getLsbD 15
def shCtx (sh : ShapeWords) : Nat := bits (shW sh 0) 23 16

/-- The push of a shaped `cpy` reads its record: in HBM it issues as any access there; a record that no code can correct stops it (R89, R338, R375). -/
def State.shapeSeen (s : State) (n : Nat) : Option Res :=
  let a := s.shapeAddr s.myCore.ctx.toNat n
  (s.hbmIssue a s.tick false).or ((s.uncorr a 64).map fun g => .contain 1 (arrayOf g) uStream (some (mkPpa s.pkg g)))

/-- The checks and the entry of a `cpy`. -/
def State.cpyPush (s : State) (o : CpyOp) : Push :=
  let c := s.at.1
  let strict := s.strictCmd c o.hdr.gt
  let od := (s.gr o.gdo).toNat
  let os := (s.gr o.gso).toNat
  let shaped := o.gshape ≠ 0
  let n := (s.gr o.gv).toNat
  let idx := bits (s.gr o.gshape) 15 0
  let sh := s.shapeRec s.myCore.ctx idx
  let (lo, hi) := shExtent sh
  let pk : Int := (shCount sh * shE sh : Nat)
  let flat : Int := n
  let dr := if !shaped then (0, flat) else if o.side then (lo, hi) else (0, pk)
  let sr := if !shaped then (0, flat) else if o.side then (0, pk) else (lo, hi)
  let al := 2 ^ shAlign sh
  let k := s.myCore
  let hAl := if o.side then (k.hreg o.hd).alignBase od else (k.hreg o.hs).alignBase os
  { vals := [if shaped then none else countChk (s.gr o.gv) o.gv 1 (2 ^ 30), cond (o.side && !shaped) (s.combo 4),
             cond (shaped && o.gv ≠ 0) (s.combo 4)]
    shape := if shaped then (s.shapeSeen idx).or (cond (!shValid sh || shCtx sh ≠ k.ctx.toNat) (.trap 0x4C (dw idx) (shW sh 0))) else none
    seen := if shaped then [(s.shapeAddr k.ctx.toNat idx, 64)] else []
    handles := [s.spanChk c o.hd 0 [kMem] pW (s.dstSpace c strict) od dr.1 dr.2,
                s.spanChk c o.hs 1 [kMem, kGen] pR (s.srcSpace c strict) os sr.1 sr.2, s.flagChk c o.flag]
    align := [if shaped then alignIssue hAl al else none, s.flagAlign o.flag]
    self := true
    kind := if shaped then .shaped sh o.side else .cpy n
    dst := s.side o.hd od
    src := s.side o.hs os
    flag := s.flagSide o.flag
    split := o.split }

def execCpy (t : Tok) (o : CpyOp) (s : State) : Out :=
  s.copyCmd t o.hdr [.a, .w] o.flag.flg false ([o.gdo, o.gso, o.gv, o.gshape] ++ flagGs o.flag) ([o.hd, o.hs] ++ flagHs o.flag) (·.cpyPush o)

/-! ### `cpyt` (R274, R275) -/

def execCpyt (t : Tok) (o : CpytOp) (s : State) : Out :=
  s.copyCmd t o.hdr [.a, .w] false false ([o.gso, o.gv] ++ (if o.fo then [o.fgn, o.fgc] else [])) [o.hs] fun s =>
    let c := s.at.1
    let os := (s.gr o.gso).toNat
    let pitch := (s.gr o.gv).toNat
    { vals := [], handles := [s.useChk c o.hs 1 [kMem, kGen] pR (s.srcSpace c (s.strictCmd c o.hdr.gt)) os]
      align := [alignIssue os, alignIssue pitch]
      kind := .tile o.td pitch o.fo o.fz o.fta o.ftb (if o.fo then (s.gr o.fgn).toNat else 0) (if o.fo then (s.gr o.fgc).toNat else 0) o.fsplit
      src := s.side o.hs os, split := o.split }

/-! ### `gath`, `scat` (R276) -/

def execGath (t : Tok) (o : GathOp) (s : State) : Out :=
  s.copyCmd t o.hdr [.a, .w] false false [o.gdo, o.gso, o.gv, o.gio] [o.hd, o.hs, o.hi] fun s =>
    let c := s.at.1
    let n := (s.gr o.gv).toNat
    let od := (s.gr o.gdo).toNat
    let os := (s.gr o.gso).toNat
    let oi := (s.gr o.gio).toNat
    { vals := [countChk (s.gr o.gv) o.gv 1 65536]
      handles := [s.spanChk c o.hd 0 [kMem] pW (s.ownSpad c) od 0 (n * 2 ^ o.esz.toNat : Nat),
                  s.useChk c o.hs 1 [kMem, kGen] pR (s.srcSpace c (s.strictCmd c o.hdr.gt)) os, s.idxChk c o.hi oi n]
      align := [alignIssue od, alignIssue oi]
      kind := .gath n o.esz.toNat, dst := s.side o.hd od, src := s.side o.hs os, idx := s.side o.hi oi, split := o.split }

def execScat (t : Tok) (o : ScatOp) (s : State) : Out :=
  s.copyCmd t o.hdr [.a, .w] o.flag.flg false ([o.gdo, o.gso, o.gv, o.gio] ++ flagGs o.flag) ([o.hd, o.hs, o.hi] ++ flagHs o.flag) fun s =>
    let c := s.at.1
    let n := (s.gr o.gv).toNat
    let od := (s.gr o.gdo).toNat
    let os := (s.gr o.gso).toNat
    let oi := (s.gr o.gio).toNat
    { vals := [countChk (s.gr o.gv) o.gv 1 65536]
      handles := [s.useChk c o.hd 0 [kMem] pW (s.dstSpace c (s.strictCmd c o.hdr.gt)) od,
                  s.spanChk c o.hs 1 [kMem] pR (s.ownSpad c) os 0 (n * 2 ^ o.esz.toNat : Nat), s.idxChk c o.hi oi n, s.flagChk c o.flag]
      align := [alignIssue os, alignIssue oi, s.flagAlign o.flag]
      kind := .scat n o.esz.toNat, dst := s.side o.hd od, src := s.side o.hs os, idx := s.side o.hi oi, flag := s.flagSide o.flag
      split := o.split }

/-! ### `cpyacc` (R279, R280) -/

/-- ESZ is zero for operations of one width, and 2 or 3 for the others (R280). -/
def accEszOk (op : AccKind) (esz : BitVec 2) : Bool :=
  match op with
  | .iadd32 => esz = 0
  | .iadd64 => esz = 0
  | .xadd => esz = 0
  | .fmin => esz = 0
  | .fmax => esz = 0
  | _ => esz = 2 || esz = 3

def State.accPush (s : State) (o : CpyAccOp) (op : AccKind) : Push :=
  let c := s.at.1
  let n := (s.gr o.gv).toNat
  let od := (s.gr o.gdo).toNat
  let oi := (s.gr o.gio).toNat
  let esz := o.esz.toNat
  let d := accD op esz
  let strict := s.strictCmd c o.hdr.gt
  let (src, chk, al, b) := match o.src with
    | .packed hs gso =>
      let os := (s.gr gso).toNat
      (s.side hs os, s.spanChk c hs 1 [kMem] pR (s.ownSpad c) os 0 (n * accS op esz : Nat), alignIssue os, none)
    | .bcast => (noSide, none, none, some (s.gr o.gw))
  { vals := [countChk (s.gr o.gv) o.gv 1 65536, cond (!accEszOk op o.esz || (o.ret && op = .xadd)) (s.combo 4)]
    handles := [if o.idx then s.useChk c o.hd 0 [kMem] pA (s.dstSpace c strict) od
                else s.spanChk c o.hd 0 [kMem] pA (s.dstSpace c strict) od 0 (n * d : Nat), chk,
                if o.idx then s.idxChk c o.hi oi n else none, s.flagChk c o.flag]
    align := [if o.idx then none else (s.myCore.hreg o.hd).alignAt od d, al, if o.idx then alignIssue oi else none,
              s.flagAlign o.flag]
    kind := .acc op n esz b o.ret o.idx, dst := s.side o.hd od, src := src, idx := if o.idx then s.side o.hi oi else noSide
    flag := s.flagSide o.flag, ord := o.ord, split := o.split }

/-- The registers and handles that a `cpyacc` reads. -/
def State.accCmd (s : State) (t : Tok) (o : CpyAccOp) (op : AccKind) : Out :=
  let (gs, hs) := match o.src with
    | .packed h g => ([g], [h])
    | .bcast => ([o.gw], [])
  s.copyCmd t o.hdr [.a, .w] o.flag.flg false ([o.gdo, o.gv] ++ gs ++ (if o.idx then [o.gio] else []) ++ flagGs o.flag)
    ([o.hd] ++ hs ++ (if o.idx then [o.hi] else []) ++ flagHs o.flag) (·.accPush o op)

def execCpyaccIadd32 (t : Tok) (o : CpyAccOp) (s : State) : Out := s.accCmd t o .iadd32
def execCpyaccIadd64 (t : Tok) (o : CpyAccOp) (s : State) : Out := s.accCmd t o .iadd64
def execCpyaccXadd (t : Tok) (o : CpyAccOp) (s : State) : Out := s.accCmd t o .xadd
def execCpyaccOr (t : Tok) (o : CpyAccOp) (s : State) : Out := s.accCmd t o .or
def execCpyaccAnd (t : Tok) (o : CpyAccOp) (s : State) : Out := s.accCmd t o .and
def execCpyaccXor (t : Tok) (o : CpyAccOp) (s : State) : Out := s.accCmd t o .xor
def execCpyaccImin (t : Tok) (o : CpyAccOp) (s : State) : Out := s.accCmd t o .imin
def execCpyaccImax (t : Tok) (o : CpyAccOp) (s : State) : Out := s.accCmd t o .imax
def execCpyaccFmin (t : Tok) (o : CpyAccOp) (s : State) : Out := s.accCmd t o .fmin
def execCpyaccFmax (t : Tok) (o : CpyAccOp) (s : State) : Out := s.accCmd t o .fmax
def execCpyaccSwap (t : Tok) (o : CpyAccOp) (s : State) : Out := s.accCmd t o .swap

/-! ### `cpycas` (R283) -/

def execCpycas (t : Tok) (o : CpyCasOp) (s : State) : Out :=
  s.copyCmd t o.hdr [.a, .w] false false [o.gdo, o.gv, o.gw] [o.hd] fun s =>
    let c := s.at.1
    let od := (s.gr o.gdo).toNat
    let e := 2 ^ o.esz.toNat
    { vals := [cond (o.esz = 0 || o.esz = 1) (s.combo 4)]
      handles := [s.spanChk c o.hd 0 [kMem] pR (s.dstSpace c (s.strictCmd c o.hdr.gt)) od 0 (e : Nat)]
      align := [(s.myCore.hreg o.hd).alignAt od e]
      kind := .cas o.esz.toNat (dw ((s.gr o.gv).toNat % 2 ^ (8 * e))) (dw ((s.gr o.gw).toNat % 2 ^ (8 * e)))
      dst := s.side o.hd od, ord := o.ord, ford := o.ford }

/-! ### `send`, `recv`, `sendu` (R296 to R298) -/

/-- Bytes of a staging slot from a first unit: a multiple of 64, from 64. -/
def slotChk (v : DWord) (g : G) (first : BitVec 3) : Option Res :=
  if v.toNat % 64 ≠ 0 ∨ v.toNat < 64 ∨ 4096 - 512 * first.toNat < v.toNat then some (valueTrap v g) else none

def execSend (t : Tok) (o : SendOp) (s : State) : Out :=
  s.copyCmd t o.hdr [.w] false true [o.gso, o.gv] [o.hs] fun s =>
    let c := s.at.1
    let os := (s.gr o.gso).toNat
    let n := (s.gr o.gv).toNat
    { vals := [slotChk (s.gr o.gv) o.gv o.first], handles := [s.spanChk c o.hs 1 [kMem] pR (s.ownSpad c) os 0 n], align := [alignIssue os]
      kind := .send o.port.toNat o.slot.toNat o.first.toNat n, src := s.side o.hs os }

def execRecv (t : Tok) (o : RecvOp) (s : State) : Out :=
  s.copyCmd t o.hdr [.a] false true [o.gdo, o.gv] [o.hd] fun s =>
    let c := s.at.1
    let od := (s.gr o.gdo).toNat
    let n := (s.gr o.gv).toNat
    { vals := [slotChk (s.gr o.gv) o.gv o.first], handles := [s.spanChk c o.hd 0 [kMem] pW (s.ownSpad c) od 0 n], align := [alignIssue od]
      kind := .recv o.port.toNat o.slot.toNat o.first.toNat n, dst := s.side o.hd od }

/-- Legal in both modes; the destination is an address to send to, so any place will do (R171, R298). -/
def execSendu (t : Tok) (o : SenduOp) (s : State) : Out :=
  s.copyCmd t o.hdr [.w] o.flag.flg false ([o.gdo, o.gso, o.gv, o.gw] ++ flagGs o.flag) ([o.hd, o.hs] ++ flagHs o.flag) fun s =>
    let c := s.at.1
    let od := (s.gr o.gdo).toNat
    let os := (s.gr o.gso).toNat
    let n := (s.gr o.gv).toNat
    { vals := [countChk (s.gr o.gv) o.gv 1 4096]
      handles := [s.spanChk c o.hd 0 [kMem] pW (s.anySpace c) od 0 n, s.spanChk c o.hs 1 [kMem] pR (s.ownSpad c) os 0 n, s.flagChk c o.flag]
      align := [s.flagAlign o.flag]
      kind := .sendu n (s.gr o.gw), dst := s.side o.hd od, src := s.side o.hs os, flag := s.flagSide o.flag }

/-! ### `cpywait`, `cpypop` (R284 to R286) -/

def execCpywait (t : Tok) (y : Bool) (sel : Option (BitVec 8)) (s : State) : Out :=
  let k := s.myCore
  let busy := match sel with
    | some q => k.ce.any fun e => e.seq = q
    | none => k.cePending s.at.2
  s.issue { t := t, len := 4, streams := [.a, .w], y := y, wait := if busy then some .sync else none } fun s => .seq s

/-- Result FIFO of a stream. -/
def Core.rf (k : Core) : StreamId → List (Nat × DWord)
  | .a => k.rfA
  | _ => k.rfW
def Core.setRf (k : Core) (i : StreamId) (l : List (Nat × DWord)) : Core :=
  match i with
  | .a => { k with rfA := l }
  | _ => { k with rfW := l }

def execCpypop (t : Tok) (y : Bool) (gw : G) (s : State) : Out :=
  let (c, i) := s.at
  let ready : Bool := match (s.core c).rf i with
    | x :: _ => decide (x.1 ≤ s.now)
    | [] => false
  s.issue { t := t, len := 4, streams := [.a, .w], y := y, reads := [keyRf i], writes := [keyG gw], wait := if ready then none else some .queue } fun s =>
    match (s.core c).rf i with
    | x :: r => .seq ((s.modCore c (·.setRf i r)).setG gw x.2)
    | [] => .seq s

/-! ### Shape records (R104, R105, R287, R288, R402) -/

/-- The first failing check of the record stage, 0 for none. -/
def shapeStatus (sh : ShapeWords) : Nat :=
  let e := shE sh
  let int4 := shFmt sh = 9
  let dims := List.range (shDim sh)
  let al := 2 ^ shAlign sh
  let tr := bits (shW sh 0) 30 24
  let tcBits := bits (shW sh 0) 42 32 * (if int4 then 4 else 8 * e)
  if 9 < shFmt sh then 1
  else if shDim sh < 1 ∨ 4 < shDim sh then 2
  else if dims.any fun d => shSize sh d = 0 then 3
  else if 12 < shAlign sh ∨ (!int4 ∧ al < e) then 4
  else if (if int4 then shStride sh 0 ≠ 0 ∨ shSize sh 0 % 2 ≠ 0 else shStride sh 0 = 0 ∨ shStride sh 0 % (e : Int) ≠ 0) then 5
  else if dims.any fun d => d ≠ 0 && shStride sh d % (al : Int) ≠ 0 then 6
  else if tr < 1 ∨ 64 < tr ∨ tcBits % 512 ≠ 0 ∨ 8192 < tcBits then 7
  else 0

/-- Word 0 of a record as it is stored: VALID and the context set, the source's ignored, reserved bits zero (R7, R104). -/
def shStored (w : DWord) (ctx : Nat) : DWord := (w &&& 0x7FF7F007FFF) ||| 0x8000 ||| dw (ctx * 2 ^ 16)

/-- The eight words of a record as they are stored: sizes and strides past NDIM, and reserved bits, are zero (R7, R104). -/
def shRecord (sh : ShapeWords) (ctx : Nat) : ShapeWords :=
  let n := shDim sh
  let size (d : Nat) : Nat := if d < n then shSize sh d else 0
  let stride (d : Nat) : DWord := if d < n then shW sh (3 + d) else 0
  [shStored (shW sh 0) ctx, dw (size 0 + size 1 * 2 ^ 32), dw (size 2 + size 3 * 2 ^ 32), stride 0, stride 1, stride 2, stride 3, 0]

/-- Ticks of `shpset`, `shpclr` and `sobind` (R287, R295). -/
def shapeLat : Nat := 424

/-- The record is written and the stream goes on; commands pushed from s + 424 read it. -/
def execShpset (t : Tok) (o : ShpsetOp) (s : State) : Out :=
  s.issue { t := t, len := 4, streams := [.a, .w], priv := true, y := o.y, lat := shapeLat, writes := [keyG o.gw],
            reads := [keyG o.gshape, keyG o.gv, keyG o.gso, keyH o.hs] } fun s =>
    let c := s.at.1
    let off := (s.gr o.gso).toNat
    match firstOf [s.spanChk c o.hs 1 [kMem] pR (s.ownSpad c) off 0 64, alignIssue off] with
    | some r => r
    | none =>
      let l := (s.myCore.hreg o.hs).local off
      match s.uncorr l 64 with
      | some g => .contain 1 1 uStream (some (mkPpa s.pkg g))
      | none =>
        let sh := dwords 8 (s.load l 64)
        let ctx := bits (s.gr o.gv) 7 0
        let st := shapeStatus sh
        let a := s.shapeAddr ctx (bits (s.gr o.gshape) 15 0)
        match if st = 0 then s.hbmIssue a (s.tick + shapeLat) true else none with
        | some r => r
        | none =>
          let s := (s.touch (s.myWho uStream) l 64).setG o.gw (dw st)
          if st ≠ 0 then .seq s
          else .seq (s.plan (s.now + shapeLat) 1 (.shapeRecord c a ((shRecord sh ctx).flatMap fun w => leBytes 8 w.toNat)))

def execShpclr (t : Tok) (y : Bool) (gshape gv gw : G) (s : State) : Out :=
  s.issue { t := t, len := 4, streams := [.a, .w], priv := true, y := y, lat := shapeLat, writes := [keyG gw],
            reads := [keyG gshape, keyG gv] } fun s =>
    let a := s.shapeAddr (bits (s.gr gv) 7 0) (bits (s.gr gshape) 15 0)
    match s.hbmIssue a (s.tick + shapeLat) true with
    | some r => r
    | none => .seq ((s.setG gw 0).plan (s.now + shapeLat) 1 (.shapeRecord s.at.1 a []))

/-- A shape record is written, or its VALID bit cleared, at s + 424: the access has issued at s (R287, R288). -/
def State.shapeRecord (s : State) (c a : Nat) (bs : List Byte) : State :=
  let who : Who := { core := some c, unit := uStream }
  if bs.isEmpty then
    match s.uncorr a 2 with
    | some g => s.contain 1 (arrayOf g) who (some (mkPpa s.pkg g))
    | none => s.store who a (leBytes 2 (leNat (s.load a 2) % 2 ^ 15))
  else s.store who a bs

end Sys2Proof.Machine
end

