-- ==== Sys2Proof/Machine/HandleOps.lean ====
section
/-! DEFINITION. The handle instructions, translation with its misses, and shootdowns (spec 04 R92 to R99; 09 R199, R200; 20
R409 to R412, R429). -/

namespace Sys2Proof.Machine

/-! ### Slices (R95, R375) -/

/-- Key under which the parity of slot `j` of a core's slice is kept. -/
def sliceKey (j : Nat) : Nat := 10000 + j

/-- Look a VA up in the slices; an entry with a parity error is dropped, and the lookup misses (R375). -/
def State.lookup (s : State) (ctx : Byte) (va : Nat) : Option SliceEnt × State :=
  match s.sliceHit ctx va with
  | none => (none, s)
  | some (hm, j, e) =>
    if (s.core hm).parity.contains (sliceKey j) then
      let s := { s with slices := Sparse.insert s.slices hm (Sparse.erase (Sparse.get [] s.slices hm) j) }
      let s := s.modCore hm fun k => ({ k with parity := k.parity.filter (· ≠ sliceKey j) }).count 74
      (none, s.raise 1 2 24 { core := some hm, unit := uStream } none 0 0)
    else (some e, s)

/-- The MC fills slot `slot` of the home slice from a walk, and sets the accessed and dirty bits of the requesting core's
die; none where the walk finds no leaf (R94, R95, R97). -/
def State.fillSlice (s : State) (die : Nat) (ctx : Byte) (va slot : Nat) (req : Nat) : Option State :=
  (s.walkCtx ctx va).map fun (leaf, comp) =>
    let psz := bits leaf 55 54
    let k := pageShift psz
    let hm := homeOf va k
    let e : SliceEnt := ⟨ctx, va % 2 ^ 48 / 2 ^ k * 2 ^ k, BitVec.ofNat 2 psz, leaf⟩
    let w := s.word comp ||| 2 ^ die ||| (if req &&& (pW ||| pA) ≠ 0 then 2 ^ (4 + die) else 0)
    let s := { s with slices := Sparse.insert s.slices hm (Sparse.insert (Sparse.get [] s.slices hm) (slot % 512) e) }
    let s := s.modCore hm fun k => { k with parity := k.parity.filter (· ≠ sliceKey (slot % 512)) }
    s.store { unit := uMc } comp (leBytes 8 w)

/-- A hit: the handle is written 95 ticks after period `d` (R96). -/
def State.xlateHit (s : State) (c d : Nat) (hd : H) (leaf : DWord) (va : Nat) (req : Nat) : State :=
  s.modCore c fun k => { k with pendH := k.pendH ++ [(d + 95, hd.toNat, leafHandle s.pkg c k.ctx leaf va req)] }

/-- A translation miss in a fret asserts its stall wire from the next tick (R75). -/
def State.missStart (s : State) (c : Nat) : State :=
  s.modFret (s.core c).fret fun f => { f.assert s.now with misses := f.misses + 1 }

/-- A miss has been filled or declined: the wire drops in the next tick, unless something else holds it (R409). -/
def State.missEnd (s : State) (c : Nat) : State :=
  s.modFret (s.core c).fret fun f => ({ f with misses := f.misses - 1 }).release s.now

/-- The lookup of an `xlate`: a timed launch is not touched by a parity error of a slice (R370, R375). -/
def State.lookupFor (s : State) (c va : Nat) : Option SliceEnt × State :=
  if (s.core c).timed then ((s.sliceHit (s.core c).ctx va).map (·.2.2), s) else s.lookup (s.core c).ctx va

/-- `xlate` (R97, R199). -/
def execXlate (t : Tok) (hd : H) (ga : G) (req : BitVec 4) (s : State) : Out :=
  s.issue { t := t, streams := [.a], reads := [keyG ga, keyH hd], writes := [keyH hd], lat := 96 } fun s =>
    let c := s.at.1
    let va := (s.gr ga).toNat % 2 ^ 48
    match s.lookupFor c va with
    | (some e, s) => .seq (s.xlateHit c s.now hd e.leaf va req.toNat)
    | (none, s) =>
      if (s.core c).timed then .late uStream 0xC7 (dw va) 0 none
      else .hold ((s.missStart c).emit (.walkMiss c s.at.2)) (.miss hd va req)

/-- The MC answers the miss of stream `i`'s `xlate`, by a walk into slot `slot`, or by declining (R97, R410). -/
def State.fillXlate (s : State) (c : Nat) (i : StreamId) (hd : H) (va : Nat) (req : BitVec 4) (slot : Option Nat) : State :=
  match slot with
  | some slot =>
    match s.fillSlice (dieOfCore c) (s.core c).ctx va slot req.toNat, s.walkCtx (s.core c).ctx va with
    | some t, some (leaf, _) => (t.modStr c i fun x => { x with hold := some (.filled hd va req leaf false) }).missEnd c
    | _, _ => s.emit (.pageFault c i va)
  | none =>
    let i1 := req.zeroExtend 64
    let pc := (s.str c i).pc
    let s := (s.withdraw c i).missEnd c
    let n := (s.str c i).nest
    let s := s.takeTrap c i 0x68 (dw va) i1 pc
    if n then s else (s.raise 4 0x68 0 { core := some c, stream := some i, unit := uStream } none (dw va) i1).freeze c
where
  /-- The compute die of a core (R11). -/
  dieOfCore (c : Nat) : Nat := c / 24 / 10 * 2 + c % 24 / 12

/-- In the tick in which the stall wire drops, an `xlate` whose entry was filled goes on as a hit issued in that tick; it writes VALID = 0
where a shootdown has covered its page (R97, R199, R412). -/
def State.xlateResume (s : State) (c : Nat) (i : StreamId) : State :=
  match (s.str c i).hold with
  | some (.filled hd va req leaf shot) =>
    let h := leafHandle s.pkg c (s.core c).ctx leaf va req.toNat
    let s := s.modCore c fun k => { k with pendH := k.pendH ++ [(s.now + 95, hd.toNat, if shot then h.invalidate else h)] }
    let s := s.releaseHold c i (s.now + 96)
    s.modStr c i fun x => { x.setBusy s.now (s.now + 96) [keyH hd] with notBefore := s.now + 1 }
  | _ => s

/-! ### `hinv`, `hqry`, `hmov`, `hnarrow` (R200) -/

def execHinv (t : Tok) (hd : H) (s : State) : Out :=
  s.issue { t := t, streams := [.a], reads := [keyH hd], writes := [keyH hd] } fun s =>
    .seq (s.modMyCore fun k => k.setHreg hd.toNat (k.hreg hd).invalidate)

def hwOf (h : Handle) : HWSel → DWord
  | .hw0 => h.w0
  | .hw1 => h.w1
  | .hw2 => h.w2

def execHqry (t : Tok) (gd : G) (hs : H) (k : HWSel) (s : State) : Out :=
  s.issue { t := t, streams := [.a], reads := [keyH hs], writes := [keyG gd] } fun s =>
    .seq (s.setG gd (hwOf (s.myCore.hreg hs) k))

def execHmov (t : Tok) (hd hs : H) (s : State) : Out :=
  s.issue { t := t, streams := [.a], reads := [keyH hs, keyH hd], writes := [keyH hd] } fun s =>
    .seq (s.modMyCore fun k => k.setHreg hd.toNat (k.hreg hs))

/-- The value check is made before the handle check (R391). -/
def execHnarrow (t : Tok) (hd hs : H) (gb : G) (s : State) : Out :=
  s.issue { t := t, streams := [.a], reads := [keyH hs, keyH hd, keyG gb], writes := [keyH hd] } fun s =>
    let h := s.myCore.hreg hs
    let v := s.gr gb
    let off := bits v 31 0
    let nlen := bits v 63 32
    if nlen = 0 ∨ h.len < off + nlen then valueTrap v gb
    else if !h.valid then .trap 0x60 (hInfo hs 1 0xFFFF) (dw off)
    else .seq (s.modMyCore fun k => k.setHreg hd.toNat (h.narrow off nlen))

/-! ### Shootdowns (R99, R412, R429) -/

/-- The page that starts at `page` lies in the VPN range of a shootdown. -/
def shotPage (lo hi : Nat) (psz : BitVec 2) (page : Nat) : Bool :=
  let k := pageShift psz.toNat
  lo * 2 ^ k ≤ page && page < (hi + 1) * 2 ^ k

/-- A handle that a shootdown covers. -/
def shotHandle (ctx : Byte) (lo hi : Nat) (psz : BitVec 2) (h : Handle) : Bool :=
  h.valid && h.ctx = ctx.toNat && shotPage lo hi psz h.page

/-- An `xlate` whose page a shootdown covers after its fill (R199, R412). -/
def Stream.shoot (ctx : Byte) (lo hi : Nat) (psz : BitVec 2) (pkg core : Nat) (x : Stream) : Stream :=
  match x.hold with
  | some (.filled hd va req leaf _) =>
    if shotHandle ctx lo hi psz (leafHandle pkg core ctx leaf va req.toNat) then { x with hold := some (.filled hd va req leaf true) } else x
  | _ => x

def Side.shoot (ctx : Byte) (lo hi : Nat) (psz : BitVec 2) (d : Side) : Side :=
  if shotHandle ctx lo hi psz d.h then { d with marked := true } else d

/-- What a core does in the delivery tick: handles cleared, entries and digest sessions marked (R99, R356). -/
def Core.shoot (ctx : Byte) (lo hi : Nat) (psz : BitVec 2) (pkg core : Nat) (k : Core) : Core :=
  let inv (h : Handle) : Handle := if shotHandle ctx lo hi psz h then h.invalidate else h
  let rng (r : DgRegion) : Bool := k.ctx = ctx && shotPage lo hi psz (r.va / 4096 * 4096)
  let str (x : Stream) : Stream := if k.ctx = ctx then x.shoot ctx lo hi psz pkg core else x
  { k with
    c := str k.c, a := str k.a, e := str k.e, w := str k.w
    h := k.h.map fun e => (e.1, inv e.2)
    pendH := k.pendH.map fun e => (e.1, e.2.1, inv e.2.2)
    ce := k.ce.map fun e =>
      { e with dst := e.dst.shoot ctx lo hi psz, src := e.src.shoot ctx lo hi psz, idx := e.idx.shoot ctx lo hi psz,
               flag := e.flag.map (·.shoot ctx lo hi psz) }
    dg := k.dg.map fun e => if e.2.regions.any rng then (e.1, { e.2 with marked := true }) else e }

end Sys2Proof.Machine
end

