-- ==== Sys2Proof/Machine/CopyEngine.lean ====
section
/-! DEFINITION. The copy engine at work: staging slots (spec 02 R35, R36), start, events, landings, faults, flags, results and
retirement of commands (12 R267 to R284; 05 R107 to R110, R118 to R122, R459; 18 R375; 19 R393, R394; 20 R422, R423). -/

namespace Sys2Proof.Machine

/-! ### Staging slots (R35, R36, R422) -/

def slotKey (port slot : Nat) : Nat := 64 * port + slot
def State.slot (s : State) (port slot : Nat) : Slot := Sparse.get .free s.slots (slotKey port slot)
def State.modSlot (s : State) (port slot : Nat) (f : Slot → Slot) : State :=
  { s with slots := Sparse.set .free s.slots (slotKey port slot) (f (s.slot port slot)) }

/-- A fill announces its lines, each with the period in which it is to land. -/
def Slot.announce (x : Slot) (lines : List (Nat × Nat)) (sender : Option Nat) : Slot := { x with sender := sender, full := x.full ++ lines }

/-- The lines of a `send` of `n` bytes whose first one lands in period `p` (R110, R296). -/
def sendLines (p first n : Nat) : List (Nat × Nat) := (List.range (n / 64)).map fun i => (8 * first + i, p + i)

/-- The slot is being read out in this period. -/
def Slot.taken (x : Slot) (now : Nat) : Bool := x.busyTo ≠ 0 && x.busyFrom ≤ now && now ≤ x.busyTo

/-- Where a slot lies in the staging array (log 40). -/
def slotOff (port slot : Nat) : Nat := 0x40000 * port + 0x1000 * slot

/-- Lines land from line `line` on; the first one after a read-out begins a new occupancy, of the lines that were to land after it. -/
def Slot.put (x : Slot) (now line : Nat) (bs : List Byte) : Slot :=
  let x := if x.busyTo ≠ 0 && x.busyTo < now then
      { x with full := x.full.filter fun e => x.busyTo < e.2, landed := [], busyFrom := 0, busyTo := 0 }
    else x
  { x with data := Sparse.setAll 0 x.data (64 * line) bs
           landed := (List.range (bs.length / 64)).map (fun i => (line + i, now)) ++ x.landed }

/-- Some line of the occupancy that is read out up to period `last`, or every line of a unit that is read, has not landed before this period. A
line that was to land after an earlier read-out belongs to the next occupancy, of which nothing has landed while that read-out is the
last thing known of the slot. -/
def Slot.missing (x : Slot) (now last first units : Nat) : Bool :=
  let has (l : Nat) : Bool := x.landed.any fun e => e.1 = l && e.2 < now
  x.full.any (fun e => e.2 ≤ last && (!has e.1 || (x.busyTo ≠ 0 && x.busyTo < e.2))) || (List.range units).any fun u => (List.range 8).all fun i => !has (8 * (first + u) + i)

/-- INFO0 of SLOTEMPTY and SLOTBUSY: port and slot (R392). -/
def slotInfo (port slot : Nat) : DWord := dw (port * 256 + slot)

/-! ### Entries -/

def State.entry (s : State) (c id : Nat) : Option CeEntry := (s.core c).ce.find? (·.id = id)
def State.modCe (s : State) (c id : Nat) (f : CeEntry → CeEntry) : State :=
  s.modCore c fun k => { k with ce := k.ce.map fun e => if e.id = id then f e else e }

/-- A side as the CE word numbers them (R392). -/
def CeEntry.sideOf (e : CeEntry) : Nat → Side
  | 0 => e.src
  | 1 => e.dst
  | 2 => e.idx
  | _ => e.flag.getD noSide
def CeEntry.setSide (e : CeEntry) (n : Nat) (d : Side) : CeEntry :=
  match n with
  | 0 => { e with src := d }
  | 1 => { e with dst := d }
  | 2 => { e with idx := d }
  | _ => { e with flag := e.flag.map fun _ => d }

/-- The sides that a shootdown has marked, in the role order of R391. -/
def CeEntry.marks (e : CeEntry) : List Nat := [1, 0, 2, 3].filter fun n => (e.sideOf n).marked

/-- The command is running. -/
def CeEntry.active (e : CeEntry) : Bool := e.st = .running

/-- The first element that no event has begun (R270). -/
def CeEntry.begun (e : CeEntry) : Nat :=
  match e.kind with
  | .cpy _ => e.base + (if e.skewed then e.ev - 1 else e.ev)
  | _ => e.el * e.unitElems

/-- The progress count of a command that stops now: once it runs, every begun element will have performed. -/
def CeEntry.stopAt (e : CeEntry) : Nat := if e.active then e.begun else e.prog

/-- The command returns old values to the result FIFO (R279, R283). -/
def CeEntry.returns (e : CeEntry) : Bool :=
  match e.kind with
  | .acc _ _ _ _ ret _ => ret
  | .cas .. => true
  | _ => false

/-- Index of element `k` as its list stands. -/
def State.idxNow (s : State) (e : CeEntry) (k : Nat) : Nat := s.word (ppaLocal (e.idx.addr (4 * k : Nat))) 4

/-- Displacements of element `k` on the source and the destination (R272 to R279). -/
def State.dispNow (s : State) (e : CeEntry) (k : Nat) : Int × Int :=
  match e.kind with
  | .cpy n => let x := (flatRest e.dst.phase n k).1; (x, x)
  | .shaped sh d =>
    let u := k / e.unitElems
    if d then ((u * shE sh : Nat), shDisp sh u) else (shDisp sh u, (u * shE sh : Nat))
  | .tile _ pitch .. => ((e.tileLine pitch k).1, 0)
  | .gath _ esz => (s.idxNow e k, (k * 2 ^ esz : Nat))
  | .scat _ esz => ((k * 2 ^ esz : Nat), s.idxNow e k)
  | .acc op _ esz _ _ idx => ((k * accS op esz : Nat), if idx then (s.idxNow e k : Int) else (k * accD op esz : Nat))
  | .cas .. => (0, 0)
  | _ => ((64 * k : Nat), (64 * k : Nat))

/-- VA of element `k` on a side. -/
def State.vaOfElem (s : State) (e : CeEntry) (side k : Nat) : Int :=
  let (a, b) := s.dispNow e k
  match side with
  | 0 => e.src.vaOf a
  | 1 => e.dst.vaOf b
  | 2 => e.idx.vaOf (4 * k : Nat)
  | _ => (e.sideOf 3).vaOf 0

/-- What an event touches: side, displacement, length, and the size that its address must be a multiple of. -/
def CeEntry.accesses (e : CeEntry) (v : Ev) : List (Nat × Int × Nat × Nat) :=
  match v with
  | .index lo hi => [(2, (4 * lo : Nat), 4 * (hi - lo), 1)]
  | .packed lo hi => [(0, (e.packSize * lo : Nat), e.packSize * (hi - lo), 1)]
  | .line j =>
    match e.kind with
    | .cpy n => (e.srcLine n j).toList.map (fun x => (0, (x.1 : Int), x.2, 1)) ++ (e.dstLine n j).toList.map fun x => (1, (x.1 : Int), x.2, 1)
    | _ => []
  | .run lo hi =>
    match e.kind with
    | .shaped sh d =>
      let n := (hi - lo) * shE sh
      let p : Int := (lo * shE sh : Nat)
      [(0, if d then p else shDisp sh lo, n, 1), (1, if d then shDisp sh lo else p, n, 1)]
    | _ => []
  | .elem k =>
    match e.kind with
    | .tile _ pitch .. => let (o, n) := e.tileLine pitch k; [(0, o, n, 1)]
    | .gath _ esz => [(0, e.idxOf k, 2 ^ esz, 2 ^ esz), (1, (k * 2 ^ esz : Nat), 2 ^ esz, 1)]
    | .scat _ esz => [(1, e.idxOf k, 2 ^ esz, 2 ^ esz)]
    | .acc op _ esz _ _ idx => let d := accD op esz; [(1, if idx then (e.idxOf k : Int) else (k * d : Nat), d, d)]
    | .cas esz _ _ => [(1, 0, 2 ^ esz, 2 ^ esz)]
    | .send .. => [(0, (64 * k : Nat), 64, 1)]
    | .recv .. => [(1, (64 * k : Nat), 64, 1)]
    | .sendu n _ => let (x, m) := e.senduLine n k; [(0, x, m, 1)]
    | _ => []

/-- `len` bytes at displacement `x` of a side lie where the side may reach: in the own package inside the map and not among the hub's
registers, and in the timed regime, for a source, neither in another core's scratchpad nor in another package, for a destination not in
another package (R43, R110, R403). -/
def State.reaches (s : State) (c : Nat) (e : CeEntry) (n : Nat) (x : Int) (len : Nat) : Bool :=
  let d := e.sideOf n
  match s.locAt c d x with
  | .gen => true
  | .pkg _ => !e.strict
  | .hub => false
  | .gap => false
  | .core _ => !(e.strict && n = 0) && (unmappedAt (ppaLocal (d.addr x)) len).isNone
  | _ => (unmappedAt (ppaLocal (d.addr x)) len).isNone

/-- The first access that leaves its copy or what the side may reach, or else is misaligned: cause, side, VA (R276, R394, R403). -/
def State.badAccess (s : State) (c : Nat) (e : CeEntry) (v : Ev) : Option (Nat × Nat × DWord) :=
  (e.accesses v).findSome? fun (n, x, len, al) =>
    let d := e.sideOf n
    if (d.at x len).isNone || !s.reaches c e n x len then some (0xA1, n, negOff (d.vaOf x))
    else if d.addr x % al ≠ 0 then some (0xA0, n, negOff (d.vaOf x))
    else none

/-- HBM addresses that an event issues accesses to (R89, R338). -/
def State.hbmIssues (s : State) (c : Nat) (e : CeEntry) (v : Ev) : List Nat :=
  (e.accesses v).filterMap fun (n, x, _, _) =>
    let d := e.sideOf n
    if s.locAt c d x = .hbm then some (d.addr x) else none

/-- An event writes HBM. -/
def State.hbmWrites? (s : State) (c : Nat) (e : CeEntry) (v : Ev) : Bool :=
  (e.accesses v).any fun (n, x, _, _) => n = 1 && s.locAt c (e.sideOf n) x = .hbm

/-! ### Stopping for a save (R79, R80) -/

/-- The command stands at a whole multiple of its split granule. -/
def CeEntry.atSplit (e : CeEntry) : Bool := e.split ≠ 0 && e.sub = 0 && e.begun % 2 ^ (e.split.toNat - 1) = 0

/-! ### Retries -/

/-- Work of a command. -/
def Work.ofCmd (c id : Nat) : Work → Bool
  | .ceEvent c' id' _ _ => c' = c && id' = id
  | .remoteLineSample c' id' _ _ _ => c' = c && id' = id
  | _ => false

/-- A tick is lost: everything that the command has still to do comes one tick later (R268). -/
def State.delayCmd (s : State) (c id : Nat) : State :=
  let moved := s.agenda.filter fun e => e.2.2.ofCmd c id
  let rest := s.agenda.filter fun e => !e.2.2.ofCmd c id
  let s := { s with agenda := moved.foldl (fun a (e : Nat × Nat × Work) => agendaInsert (e.1 + 1, e.2) a) rest }
  s.modCe c id fun e => { e with nextAt := e.nextAt + 1 }

/-- The next event comes in the next period. -/
def State.nextRun (s : State) (c id : Nat) : State :=
  (s.modCe c id fun e => { e with nextAt := s.now + 1 }).plan (s.now + 1) 12 (.ceEvent c id 0 .run)

/-! ### Faults of commands (R393) -/

/-- A fault takes its place among those of its stream: by tick, then in push order (R393). -/
def faultInsert (f : CmdFault) : List CmdFault → List CmdFault
  | [] => [f]
  | x :: r => if x.at_ < f.at_ || (x.at_ = f.at_ && x.id ≤ f.id) then x :: faultInsert f r else f :: x :: r

/-- Deliver a fault of what was pushed under a serial number to the pushing stream: at once into step 2 of R383 in the timed regime,
else as a trap from the next tick on. -/
def State.cmdFault (s : State) (c : Nat) (i : StreamId) (id cause : Nat) (i0 i1 : DWord) (freeze : Bool := false) : State :=
  if s.timedAt c then s.takeTrap c i cause i0 i1 (s.str c i).pc
  else
    (s.modStr c i fun x => { x with faults := faultInsert ⟨s.now, id, BitVec.ofNat 8 cause, i0, i1, freeze⟩ x.faults }).plan (s.now + 1) 25
      (.commandFaultTrap c i)

/-- Elements of a `gath` that have landed and whose packed line is not complete are written when the command stops. -/
def State.flushGath (s : State) (c id : Nat) : State :=
  match s.entry c id with
  | some e =>
    if e.landBuf.isEmpty ∨ e.outstanding ≠ 0 then s
    else
      let x := match e.kind with
        | .gath _ esz => e.prog * 2 ^ esz - e.landBuf.length
        | _ => 0
      (s.store { core := some c, unit := uCe } (ppaLocal (e.dst.addr (x : Nat))) e.landBuf).modCe c id fun e => { e with landBuf := [] }
  | none => s

/-- The entry becomes FAULTED with progress `p`. -/
def State.ceStop (s : State) (c id cause side p : Nat) : State :=
  (s.modCe c id fun e => { e with st := .faulted (BitVec.ofNat 8 cause) side, prog := p }).flushGath c id

/-- A fault of the CE word kind (R392, R393). -/
def State.ceFault (s : State) (c : Nat) (e : CeEntry) (cause side p : Nat) (i1 : DWord) : State :=
  (s.ceStop c e.id cause side p).cmdFault c e.stream e.id cause (({ e with prog := p }).word side) i1

/-- A schedule error of a command: it stops at its refused element (R422, R423). -/
def State.ceSched (s : State) (c : Nat) (e : CeEntry) (cause side : Nat) (i0 i1 : DWord) (addr : Option Nat) : State :=
  (s.ceStop c e.id cause side e.stopAt).schedErr c (some e.stream) uCe cause i0 i1 addr

/-- The element that event or line `k` completes (R272). -/
def CeEntry.elemOf (e : CeEntry) (k : Nat) : Nat :=
  match e.kind with
  | .cpy _ => e.base + (if e.skewed then k - 1 else k)
  | _ => k * e.unitElems

/-- Samples still to come, which belong to elements past one that stops. -/
def Work.samples : Work → Bool
  | .ceEvent _ _ _ (.sample _ _) => true
  | .remoteLineSample .. => true
  | _ => false

/-- A read of an array that no code can correct, or a parity error: the command stops at element `p`, contained; of its work, what `gone`
holds of does not happen (R270, R375). -/
def State.ceContained (s : State) (c : Nat) (e : CeEntry) (code array : Nat) (addr : Option Nat) (p : Nat) (gone : Work → Bool) : State :=
  let out (x : Nat × Nat × Work) : Bool := x.2.2.ofCmd c e.id && gone x.2.2
  let n := (s.agenda.filter out).length
  let s := { s with agenda := s.agenda.filter fun x => !out x }.modCe c e.id fun e => { e with outstanding := e.outstanding - n }
  (s.ceStop c e.id 0 0 p).contain code array { core := some c, unit := uCe } addr (({ e with prog := p }).word 0)

/-- The same for memory at local address `l`. -/
def State.ceContain (s : State) (c : Nat) (e : CeEntry) (l p : Nat) (gone : Work → Bool) : State :=
  s.ceContained c e 1 (arrayOf l) (some (mkPpa s.pkg l)) p gone

/-- The oldest command fault of a stream becomes a trap once its NEST is 0 and everything it has issued has retired. -/
def State.faultTrap (s : State) (c : Nat) (i : StreamId) : State :=
  let x := s.str c i
  match x.faults with
  | [] => s
  | f :: r =>
    if x.nest || x.hold.isSome || s.now ≤ x.retireAt || x.stopped || (s.fretOf c).stalled s.now then s.plan (s.now + 1) 25 (.commandFaultTrap c i)
    else
      let s := (s.modStr c i fun x => { x with faults := r }).takeTrap c i f.cause.toNat f.info0 f.info1 x.pc
      if f.freeze then (s.raise 4 f.cause.toNat 0 { core := some c, stream := some i, unit := uStream } none f.info0 f.info1).freeze c
      else s

/-! ### The end of a command (R268, R275, R277) -/

/-- The command ends in this period, and its entry is free from the next one (R268, R355). -/
def State.ceEnds (s : State) (c id : Nat) : State := (s.modCore c (·.count 68)).plan (s.now + 1) 0 (.ceCommandRetire c id)

/-- After the last element: the flag increment, the follow-on, or the retirement. -/
def State.ceSettle (s : State) (c id : Nat) : State :=
  match s.entry c id with
  | none => s
  | some e =>
    if !e.active || e.outstanding ≠ 0 || e.next.isSome then s
    else
      let fo := match e.kind with
        | .tile _ _ fo .. => fo
        | _ => false
      match if e.flagSent then none else e.flag with
      | some f =>
        if f.marked then s.ceFault c e 0xA7 3 e.prog (negOff (f.vaOf 0))
        else (s.modCe c id fun e => { e with st := .finishing, flagSent := true }).plan (s.now + 1) 15 (.flagIncrement c id)
      | none =>
        let s := s.modCe c id fun e => { e with st := .finishing, foHeld := fo }
        if fo then s.plan s.now (tileRank + 1) (.followOnHandoff c id) else s.ceEnds c id

/-- Elements have performed; a stopped command keeps its count (R270). -/
def CeEntry.bump (e : CeEntry) (units : Nat) : CeEntry := { e with prog := if e.active then e.prog + units else e.prog }

/-- An access has ended, and with it `units` elements; a stopped `gath` writes what has landed. -/
def State.ceDone (s : State) (c id units : Nat) : State :=
  let s := (s.modCe c id fun e => { e.bump units with outstanding := e.outstanding - 1 }).ceSettle c id
  match s.entry c id with
  | some e => if e.active || e.st = .finishing then s else s.flushGath c id
  | none => s

/-- An access has ended without an effect. -/
def State.ceDrop (s : State) (c id : Nat) : State := s.modCe c id fun e => { e with outstanding := e.outstanding - 1 }

/-- The command leaves the buffer (R268). -/
def State.ceRetire (s : State) (c id : Nat) : State := s.modCore c fun k => { k with ce := k.ce.filter (·.id ≠ id) }

/-- What a command still had to do does not happen (R422). -/
def State.dropCmd (s : State) (c id : Nat) : State :=
  { s with agenda := s.agenda.filter fun e => !e.2.2.ofCmd c id }.modCe c id fun e => { e with outstanding := 0 }

/-! ### Packets (R278, R298, R299) -/

/-- The hub of the sender takes a packet: it is delivered here when its route is exhausted, else forwarded. -/
def State.sendPacket (s : State) (p : Packet) : State :=
  if bits p.route 3 0 = 0 then s.plan (s.now + 1) 42 (.untimedPacketDelivery p) else s.plan (s.now + 1) 20 (.untimedPacketForward p)

/-- Ticks without a notice after which a command with a packet fails (R443). -/
def noticeTicks : Nat := 2 ^ 22

/-- The route table's entry toward the package of a PPA is read (R278, R375). -/
def State.routeRead (s : State) (ppa : Nat) (f : State → State) : State := s.hubRead 11 (0x200000 + 8 * ppaPkg ppa) 8 f

/-- Send a packet of a command, whose notice is one more thing to come. -/
def State.cePacket (s : State) (c : Nat) (e : CeEntry) (kind : PktKind) (route : DWord) (target : Nat) (data : List Byte)
    (flag : Option Nat := none) : State :=
  let p : Packet :=
    { kind := kind, route := route, target := target, data := data, ctx := (s.core c).ctx, flag := flag, srcPkg := s.pkg, srcCore := c,
      srcStream := e.stream, cmd := e.id }
  ((s.modCe c e.id fun e => { e with outstanding := e.outstanding + 1 }).sendPacket p).planTick
    (max (s.tick + 1) (e.pushed + noticeTicks)) 20 (.routeTimeout c e.id)

/-- The route word of the hub's table toward the package of a PPA (R278). -/
def State.routeTo (s : State) (ppa : Nat) : DWord := Sparse.get 0 s.routes (ppaPkg ppa)

/-! ### Landing (R107 to R109, R118, R279 to R284) -/

/-- Order of FP32 bits in which a NaN with sign 1 is lowest and one with sign 0 highest (R280). -/
def fpOrder (b : Nat) : Int := if b < 2 ^ 31 then b else -((b - 2 ^ 31 : Nat) : Int) - 1

/-- The new value of an element of `cpyacc` (R280, R281). -/
def accNew (op : AccKind) (esz : Nat) (old : List Byte) (src : Nat) : List Byte :=
  let d := accD op esz
  let o := leNat old
  let pick (b : Bool) : List Byte := if b then leBytes d src else old
  match op with
  | .iadd32 => leBytes 4 (o + src)
  | .iadd64 => leBytes 8 (o + src)
  | .xadd => xaddRecord old src
  | .or => leBytes d (o ||| src)
  | .and => leBytes d (o &&& src)
  | .xor => leBytes d (o ^^^ src)
  | .imin => pick (sext src (8 * d) < sext o (8 * d))
  | .imax => pick (sext o (8 * d) < sext src (8 * d))
  | .fmin => pick (fpOrder src < fpOrder o)
  | .fmax => pick (fpOrder o < fpOrder src)
  | .swap => leBytes d src

/-- The CE as the unit that reads for an entry. -/
def ceWho (c : Nat) (e : CeEntry) : Who := { core := some c, stream := some e.stream, unit := uCe }

/-- A result from local address `l`, or from elsewhere, is on its way to the FIFO of the pushing stream (R284). -/
def State.ceResult (s : State) (c : Nat) (e : CeEntry) (l : Option Nat) (v : DWord) (undo : Option (Nat × Nat)) : State :=
  let loc := match l with
    | some l => s.locOf c (mkPpa s.pkg l)
    | none => s.locAt c e.dst 0
  s.plan (s.now + s.oneWay c loc) 20 (.resultFifoEntry c e.stream e.id v undo)

/-- The element at local address `l` is read and written in this period. -/
def State.ceRmw (s : State) (c : Nat) (e : CeEntry) (l : Nat) (src : List Byte) : State :=
  let who : Who := { core := some c, stream := some e.stream, unit := uCe }
  let n := e.landLen 0
  let old := s.sampled l n
  let v := dw (leNat old)
  match e.kind with
  | .acc op _ esz _ ret _ =>
    let s := s.modify who l (accNew op esz old (leNat src))
    if ret then (s.modCe c e.id (·.bump 1)).ceResult c e l v (some (l, n)) else s.ceDone c e.id 1
  | .cas _ exp new =>
    if v = exp then
      if e.dst.h.perm &&& pA = 0 then
        ((s.touch who l n).ceDrop c e.id).ceFault c e 0xA2 1 e.prog (negOff (e.dst.vaOf 0))
      else ((s.modify who l (leBytes n new.toNat)).modCe c e.id (·.bump 1)).ceResult c e l v (some (l, n))
    else ((s.touch who l n).modCe c e.id (·.bump 1)).ceResult c e l v none
  | _ => s

/-- Units of a landing of `n` bytes. -/
def CeEntry.unitsOf (e : CeEntry) (n : Nat) : Nat :=
  match e.kind with
  | .shaped sh _ => n / shE sh * e.unitElems
  | _ => 1

/-- The element of a `cpycas` fails its comparison, and so is a read only (R122). -/
def State.casFails (s : State) (e : CeEntry) (l n : Nat) : Bool :=
  match e.kind with
  | .cas _ exp _ => dw (leNat (s.sampled l n)) ≠ exp
  | _ => false

/-- A write that a command of a lower core, or of an earlier stream of the same core, makes in this period to the same HBM line, or to a byte of
the same scratchpad with the same requester code (R108, R422). -/
def State.rival (s : State) (c : Nat) (i : StreamId) (code l n : Nat) : Bool :=
  s.agenda.any fun (p, _, w) =>
    match w with
    | .ceEvent k id j (.land d) =>
      p = s.now && (s.entry k id).any fun e =>
        let a := ppaLocal (e.dst.addr (dispOf j))
        let m := e.landLen d.length
        4 * k + streamNum e.stream < 4 * c + streamNum i && (match s.locAt k e.dst (dispOf j) with
          | .hbm => place l = .hbm && a / 64 = l / 64
          | .core _ => code = 0 && a < l + n && l < a + m
          | .own => code = 1 && a < l + n && l < a + m
          | _ => false) && !s.casFails e a m
    | _ => false

/-- Bytes of a command land at displacement `x` of its destination, `n` bytes of memory, unless the port is taken: in the
timed regime an error, else a tick is lost. Where two writes meet on a line of HBM, this one alone does not take effect
(SAMETICK, R422). -/
def State.ceWrite (s : State) (c : Nat) (e : CeEntry) (x : Int) (n : Nat) (again : Work) (f : State → Nat → State) : State :=
  let ppa := e.dst.addr x
  let l := ppaLocal ppa
  let retry (s : State) : State := (s.delayCmd c e.id).plan (s.now + 1) 15 again
  let fail (s : State) (cause : Nat) (i0 i1 : DWord) : State :=
    (s.dropCmd c e.id).ceSched c { e with st := .queued } cause 1 i0 i1 (some ppa)
  let same (s : State) : State := s.schedErr c (some e.stream) uCe 0xC3 (dw ppa) 0 (some ppa)
  match s.uncorr l (if e.landLen 0 = 0 then 0 else n) with
  | some g => (s.ceDrop c e.id).ceContain c e g e.prog fun _ => true
  | none =>
    match place l with
    | .spad tc o =>
      let code := if tc ≠ c then 0 else match e.kind with
        | .recv .. => 0
        | _ => 1
      let banks := banksOf o n
      if tc ≠ c && !e.strict && !s.slotOpen tc then retry s
      else if e.strict && !s.casFails e l n && ((s.core tc).sameByte s.now code o n || s.rival c e.stream code l n) then same s
      else match s.ceClash tc code e.strict banks with
      | some (b, h) =>
        if e.strict then fail s 0xC2 (dw b) (dw (h + code * 256))
        else retry (s.modCore tc (·.count 70))
      | none =>
        let s := s.modCore tc (·.useBanks s.now s.now code banks)
        f (if e.strict && !s.casFails e l n then s.modCore tc (·.noteBytes s.now code o n) else s) l
    | _ =>
      if !s.casFails e l n && (s.lineWritten (l / 64) || (e.strict && s.rival c e.stream 1 l n)) then
        if e.strict then same s else retry s
      else f s l

/-- A `cpyt` line waits for the accesses of its tile that are earlier in the order of R245. -/
def Core.tileHeld (k : Core) (e : CeEntry) (now : Nat) (td : TN) : Bool :=
  let since := e.tileSince.getD 0
  k.tileEff.any (fun x => x.tile = td && now ≤ x.last)
    || k.maQueue.any (fun o => o.uses td && o.arrive + (if o.fo then 1 else 0) ≤ since)
    || k.maRun.any (fun r => r.reads now td)
    || k.ce.any fun x => x.tileOpen td && (x.tileSince.getD 0) < since

/-- Data for displacement `k` of a destination in another package leave the core in a packet (R278, R459). -/
def State.ceOut (s : State) (c : Nat) (e : CeEntry) (k : Nat) (data : List Byte) : State :=
  let ppa := e.dst.addr (dispOf k)
  let s := s.ceDrop c e.id
  match e.kind with
  | .acc op _ esz _ _ _ => s.routeRead ppa fun s => s.cePacket c e (.rmw 0 (accCode op) esz none) (s.routeTo ppa) ppa data
  | .cas esz exp new =>
    s.routeRead ppa fun s =>
    if e.dst.h.perm &&& pA = 0 then s.cePacket c e (.readReq 0 (2 ^ esz)) (s.routeTo ppa) ppa []
    else s.cePacket c e (.rmw 0 11 esz (some exp)) (s.routeTo ppa) ppa (leBytes (2 ^ esz) new.toNat)
  | _ => s.routeRead ppa fun s => s.cePacket c e .write (s.routeTo ppa) ppa data
where
  accCode : AccKind → BitVec 4
    | .iadd32 => 0
    | .iadd64 => 1
    | .xadd => 2
    | .or => 3
    | .and => 4
    | .xor => 5
    | .imin => 6
    | .imax => 7
    | .fmin => 8
    | .fmax => 9
    | .swap => 10

/-- The destination of a command at displacement `x`, as R110 sees it; a tile and a slot of an own port lie in this package. -/
def State.dstLoc (s : State) (c : Nat) (e : CeEntry) (x : Int) : Loc :=
  match e.kind with
  | .tile .. | .send .. => .own
  | _ => s.locAt c e.dst x

/-- The destination has its port in this package. -/
def State.isFar (s : State) (c : Nat) (e : CeEntry) (k : Nat) : Bool :=
  match s.dstLoc c e (dispOf k) with
  | .pkg _ => true
  | _ => false

/-- Data of a command arrive where they go: `k` is a destination displacement, or a line of a tile or slot. -/
def State.ceLand (s : State) (c id k : Nat) (data : List Byte) : State :=
  match s.entry c id with
  | none => s
  | some e =>
    let who : Who := { core := some c, stream := some e.stream, unit := uCe }
    let again : Work := .ceEvent c id k (.land data)
    let x := dispOf k
    if s.isFar c e k then s.ceOut c e k data
    else match e.kind with
    | .tile td pitch .. =>
      if (s.core c).tileHeld e s.now td then (s.delayCmd c id).plan (s.now + 1) 15 again
      else
        let row := k / e.perRow
        let at_ := (e.tileLine pitch k).1 - row * pitch
        let s := (s.modCore c fun q => q.writeTile td row at_ data).softFill who c (tileArr td.toNat row at_ data.length)
        let s := if k + 1 = e.tileLines then s.modCore c (·.addTile s.now ⟨td, true, s.now, 0⟩) else s
        s.ceDone c id 1
    | .send port slot first _ =>
      if (s.slot port slot).taken s.now then
        (s.ceDone c id 1).schedErr c (some e.stream) uCe 0xC6 (slotInfo port slot) (dw s.tick)
      else
        ((s.modSlot port slot (·.put s.now (8 * first + k) data)).softWrite who none 7 (slotOff port slot + 64 * (8 * first + k)) data.length).ceDone c id 1
    | .gath n esz =>
      let el := k / 2 ^ esz
      let buf := e.landBuf ++ data
      let keep (s : State) : State := s.modCe c id fun e => { e with landBuf := buf }
      match e.gathLine n esz el with
      | some (y, m) =>
        s.ceWrite c e y m again fun s l => ((s.store who l buf).modCe c id fun e => { e with landBuf := [] }).ceDone c id 1
      | none => (keep s).ceDone c id 1
    | .acc .. => s.ceWrite c e x (e.landLen 0) again fun s l => s.ceRmw c e l data
    | .cas .. => s.ceWrite c e x (e.landLen 0) again fun s l => s.ceRmw c e l data
    | _ => s.ceWrite c e x data.length again fun s l => (s.store who l data).ceDone c id (e.unitsOf data.length)

/-! ### Getting data (R110, R137, R268, R459) -/

/-- Data for displacement `x` land `dly` periods from now, or at once. A line of HBM is written after every read of its tick (R107). -/
def State.ceSend (s : State) (c : Nat) (e : CeEntry) (k : Nat) (data : List Byte) (dly : Nat) : State :=
  match s.dstLoc c e (dispOf k) with
  | .core _ => s.plan (s.now + dly) 14 (.ceEvent c e.id k (.land data))
  | .hbm => s.plan (s.now + dly) 15 (.ceEvent c e.id k (.land data))
  | _ =>
    if dly ≠ 0 then s.plan (s.now + dly) 15 (.ceEvent c e.id k (.land data))
    else if e.tileSince = some s.now then s.plan s.now tileRank (.ceEvent c e.id k (.land data))
    else s.ceLand c e.id k data

/-- Source bytes of event `k` have been sampled; what they complete lands `dly` periods from now. -/
def State.ceGot (s : State) (c id k : Nat) (bs : List Byte) (dly : Nat) : State :=
  match s.entry c id with
  | none => s
  | some e =>
    match e.kind with
    | .cpy n =>
      let buf := e.dataBuf ++ bs
      match e.dstLine n k with
      | some (x, m) => (s.modCe c id fun e => { e with dataBuf := buf.drop m }).ceSend c e (ofDisp x) (buf.take m) dly
      | none => s.modCe c id fun e => { e with dataBuf := buf, outstanding := e.outstanding - 1 }
    | .shaped sh d => s.ceSend c e (ofDisp (if d then shDisp sh k else (k * shE sh : Nat))) bs dly
    | .gath _ esz => s.ceSend c e (k * 2 ^ esz) bs dly
    | _ => s.ceSend c e k bs dly

/-- Read `n` source bytes at displacement `x` for event `k`. -/
def State.ceFetch (s : State) (c : Nat) (e : CeEntry) (k : Nat) (x : Int) (n : Nat) : State :=
  let dly := s.writeDelay c e.m (s.locAt c e.src x) (s.dstLoc c e (s.dispNow e (e.elemOf k)).2)
  let a := e.src.addr x
  match s.locAt c e.src x with
  | .gen =>
    if (s.core c).parity.contains (keyWin e.src.h.desc) then (s.ceDrop c e.id).ceContained c e 2 23 none (e.elemOf k) Work.samples
    else s.ceGot c e.id k ((s.ctxOf c).winBytes e.src.h.desc a n) dly
  | .own =>
    let l := ppaLocal a
    match s.uncorr l n with
    | some g => (s.ceDrop c e.id).ceContain c e g (e.elemOf k) Work.samples
    | none => (s.touch (ceWho c e) l n).ceGot c e.id k (s.load l n) dly
  | .hbm => s.plan (s.now + 210) 10 (.ceEvent c e.id k (.sample (ofDisp x) n))
  | .core t => s.plan (s.now + s.meshLat c t) 10 (.remoteLineSample c e.id k (ofDisp x) n)
  | .pkg _ =>
    if n = 0 then s.ceGot c e.id k [] dly
    else s.routeRead a fun s => (s.ceDrop c e.id).cePacket c e (.readReq k n) (s.routeTo a) a []
  | _ => s

/-- A line of HBM is sampled (R110). -/
def State.ceSample (s : State) (c id k x n : Nat) : State :=
  match s.entry c id with
  | none => s
  | some e =>
    let l := ppaLocal (e.src.addr (dispOf x))
    match s.uncorr l n with
    | some g => (s.ceDrop c id).ceContain c e g (e.elemOf k) Work.samples
    | none =>
      (s.touch (ceWho c e) l n).ceGot c id k (s.sampled l n) (s.writeDelay c e.m .hbm (s.dstLoc c e (s.dispNow e (e.elemOf k)).2) - 210)

/-- A line of another core's scratchpad is sampled at that core's LE delivery port (R100, R459). -/
def State.ceRemote (s : State) (c id k x n : Nat) : State :=
  match s.entry c id with
  | none => s
  | some e =>
    let a := e.src.addr (dispOf x)
    match spadAt s.pkg a with
    | none => s
    | some (t, o) =>
      let banks := banksOf o n
      if !s.slotOpen t then (s.delayCmd c id).plan (s.now + 1) 10 (.remoteLineSample c id k x n)
      else match s.ceClash t 0 false banks with
      | some _ => ((s.modCore t (·.count 70)).delayCmd c id).plan (s.now + 1) 10 (.remoteLineSample c id k x n)
      | none =>
        match s.uncorr (ppaLocal a) n with
        | some g => (s.ceDrop c id).ceContain c e g (e.elemOf k) Work.samples
        | none =>
          let s := (s.touch (ceWho c e) (ppaLocal a) n).modCore t (·.useBanks s.now s.now 0 banks)
          s.ceGot c id k (s.load (ppaLocal a) n) (s.writeDelay c e.m (.core t) (s.dstLoc c e (s.dispNow e (e.elemOf k)).2) - s.meshLat c t)

/-! ### Events (R268) -/

/-- Words of an index line. -/
def words4 (bs : List Byte) : List Nat := (chunks (bs.length + 1) 4 bs).map leNat

/-- The event performs: its own reads are granted. -/
def State.cePerform (s : State) (c : Nat) (e : CeEntry) (v : Ev) : State :=
  let own (d : Side) (x : Int) : Nat := ppaLocal (d.addr x)
  let take (s : State) : State := s.modCe c e.id fun e => { e with outstanding := e.outstanding + 1 }
  /- read bytes of the own scratchpad -/
  let p := match v with
    | .elem k => k
    | _ => e.begun
  let read (s : State) (l n : Nat) (f : State → List Byte → State) : State :=
    match s.uncorr l n with
    | some g => s.ceContain c e g p Work.samples
    | none => f (s.touch (ceWho c e) l n) (s.load l n)
  let out (x : Int) : Nat := s.writeDelay c e.m .own (s.dstLoc c e x)
  match v with
  | .index lo hi => read s (own e.idx (4 * lo : Nat)) (4 * (hi - lo)) fun s bs => s.modCe c e.id fun e => { e with idxBuf := words4 bs }
  | .packed lo hi =>
    let first := lo = max (lo / 16 * 16) e.base
    read s (own e.src (e.packSize * lo : Nat)) (e.packSize * (hi - lo)) fun s bs =>
      s.modCe c e.id fun e => { e with dataBuf := if first then bs else e.dataBuf ++ bs }
  | .line j =>
    match e.kind with
    | .cpy n => let (x, m) := (e.srcLine n j).getD (0, 0); (take s).ceFetch c e j x m
    | _ => s
  | .run lo hi =>
    match e.kind with
    | .shaped sh d => (take s).ceFetch c e lo (if d then (lo * shE sh : Nat) else shDisp sh lo) ((hi - lo) * shE sh)
    | _ => s
  | .elem k =>
    let at_ (ps : Nat) : List Byte := (e.dataBuf.drop ((k - max (k / 16 * 16) e.base) * ps)).take ps
    match e.kind with
    | .tile _ pitch .. => let (x, m) := e.tileLine pitch k; (take s).ceFetch c e k x m
    | .gath _ esz => (take s).ceFetch c e k (e.idxOf k) (2 ^ esz)
    | .scat _ esz => (take s).ceSend c e (e.idxOf k) (at_ (2 ^ esz)) (out (e.idxOf k))
    | .acc op _ esz b _ idx =>
      let src := match b with
        | some w => leBytes (accS op esz) w.toNat
        | none => at_ (accS op esz)
      let x := if idx then e.idxOf k else k * accD op esz
      (take s).ceSend c e x src (out x)
    | .cas .. => (take s).ceSend c e 0 [] (out 0)
    | .send port slot first n =>
      let s := if k = 0 then s.modSlot port slot (·.announce (sendLines (s.now + s.hubDist c) first n) (some c)) else s
      read s (own e.src (64 * k : Nat)) 64 fun s bs =>
        (s.modCe c e.id fun e => { e with outstanding := e.outstanding + 1 }).plan (s.now + s.hubDist c) 15 (.ceEvent c e.id k (.land bs))
    | .recv port slot first n =>
      let x := s.slot port slot
      let bad := k = 0 && x.missing s.now (s.now + n / 64 - 1) first ((n + 511) / 512)
      let s := if k = 0 then s.modSlot port slot fun x => { x with busyFrom := s.now, busyTo := s.now + n / 64 - 1 } else s
      let bs := Sparse.getAll 0 x.data (512 * first + 64 * k) 64
      match s.softRead (ceWho c e) none 7 (slotOff port slot + 512 * first + 64 * k) 64 with
      | (s, some g) => s.ceContained c e 1 7 (some g) k Work.samples
      | (s, none) =>
      let s := ((s.modCe c e.id fun e => { e with outstanding := e.outstanding + 1 }).plan (s.now + s.hubDist c) 14
        (.ceEvent c e.id (64 * k) (.land bs)))
      if bad then s.schedErr c (some e.stream) uCe 0xC5 (slotInfo port slot) (dw s.tick) else s
    | .sendu n route =>
      let (x, m) := e.senduLine n k
      read s (own e.src (x : Nat)) m fun s bs =>
        let buf := e.dataBuf ++ bs
        let s := s.modCe c e.id fun e => { e with dataBuf := buf }
        if buf.length < n then s
        else
          let f := e.flag.map fun f => f.addr 0
          (s.modCe c e.id fun e => { e with flagSent := true }).cePacket c e .write route (e.dst.addr 0) buf f
    | _ => s

/-- Results of a stream on their way, and in its FIFO (R284). -/
def Core.resultsOf (k : Core) (i : StreamId) : Nat :=
  (k.rf i).length + (k.ce.filter fun e => e.returns && e.stream = i).foldl (fun n e => n + e.outstanding) 0

/-- An event that moves an element. -/
def Ev.isElem : Ev → Bool
  | .elem _ => true
  | _ => false

/-- In the timed regime an event's own write, where it lands in the tick of its read, takes a bank from it: the bank. The write alone ranks first,
but carries what the read samples (R268, R422; log 16). -/
def State.selfBank (s : State) (c : Nat) (e : CeEntry) (v : Ev) : Option Nat :=
  let w := (e.accesses v).flatMap fun (n, x, m, _) =>
    if n = 1 && s.locAt c e.dst x = .own && s.writeDelay c e.m .own .own = 0 && (e.accesses v).any fun a => a.1 = 0 && s.locAt c e.src a.2.1 = .own then
      banksOf (ppaLocal (e.dst.addr x) - spadOf c) m
    else []
  ((e.ownReads s c v).flatMap fun (o, n) => banksOf o n).find? (w.contains ·)

/-- Rows, row bytes and the period of a `cpyt` that enters the order of R245 now; none where its descriptor or the source does not allow it
(R274). -/
def State.tileStart (s : State) (c : Nat) (e : CeEntry) (td : TN) (pitch : Nat) : Option (List Nat) :=
  let d := (s.core c).tdescOf td.toNat
  let rb := tdRowBytes d
  if tdTag d = 15 || !tdOk d || (List.range (tdRows d)).any fun r => (e.src.at (r * pitch : Nat) rb).isNone then none
  else some [tdRows d, rb, s.now]

/-- A `cpyt` reads its descriptor with its first line, where its writes enter the order of R245 (R274); none where the descriptor or the source
does not allow it. -/
def State.tileOpening (s : State) (c : Nat) (e : CeEntry) : Option CeEntry :=
  match e.kind with
  | .tile td pitch .. =>
    if e.idxBuf.isEmpty then
      (s.tileStart c e td pitch).map fun l =>
        let e := { e with idxBuf := l }
        { e with m := e.count64 }
    else some e
  | _ => some e

/-- An event of a running command falls due (R268, R270). A fault, or the mark of a shootdown, stops the command at its element once every element
below it has performed, so that the progress count is what R270 says. -/
def State.ceRun (s : State) (c id : Nat) : State :=
  match s.entry c id with
  | none => s
  | some e =>
    if !e.active then s
    else if (s.core c).parity.contains (keyCe e.seq) then s.ceContained c e 2 21 none e.begun Work.samples
    else
      match s.tileOpening c e with
      | none => if (s.fretOf c).stalled s.now then s.nextRun c id else s.plan s.now tileRank (.tileEntry c id)
      | some e =>
      match e.next with
      | none => s.ceSettle c id
      | some (v, e') =>
        let far := (e.accesses v).any fun (n, x, _, _) =>
          match s.locAt c (e.sideOf n) x with
          | .pkg _ => true
          | _ => false
        if (s.fretOf c).stalled s.now || (s.stopping c && e.atSplit) then s.nextRun c id
        else
          match e.marks with
          | n :: _ => if e.outstanding ≠ 0 then s.nextRun c id else s.ceFault c e 0xA7 n e.begun (negOff (s.vaOfElem e n e.begun))
          | [] =>
            match s.badAccess c e v with
            | some (cause, n, va) => if e.outstanding ≠ 0 then s.nextRun c id else s.ceFault c e cause n e.begun va
            | none =>
              let hbm := s.hbmIssues c e v
              let shut := s.refreshing || (!e.strict && hbm.any fun a => !s.slotOpen (portOf (ppaLocal a)))
              if !hbm.isEmpty && s.refreshing && e.strict then s.ceSched c e 0xC4 0 (dw s.tick) (dw (hbm.headD 0)) hbm.head?
              else if (!e.strict && s.ckptOpen && s.hbmWrites? c e v) || (!hbm.isEmpty && shut) || (far && e.outstanding ≠ 0)
                || (e.returns && !e.strict && v.isElem && 32 ≤ (s.core c).resultsOf e.stream) then s.nextRun c id
              else
                let banks := (e.ownReads s c v).flatMap fun (o, n) => banksOf o n
                match (s.ceClash c 2 e.strict banks).or (if e.strict then (s.selfBank c e v).map fun b => (b, 1) else none) with
                | some (b, h) =>
                  if e.strict then s.ceSched c e 0xC2 0 (dw b) (dw (h + 2 * 256)) ((e.ownReads s c v).head?.map fun (o, _) => mkPpa s.pkg (spadOf c + o))
                  else (s.modCore c (·.count 70)).nextRun c id
                | none =>
                  let s := s.modCore c fun k => (k.useBanks s.now s.now 2 banks).count 69
                  let s := s.modCe c id fun _ => { e' with nextAt := s.now + 1 }
                  let s := if e.tileSince = some s.now then s.plan s.now tileRank (.tileEntry c id) else s
                  let s := if e'.next.isSome then s.plan (s.now + 1) 12 (.ceEvent c id 0 .run) else s
                  (s.cePerform c { e' with idxBuf := e.idxBuf, dataBuf := e.dataBuf } v).ceSettle c id

/-! ### Start (R267, R120) -/

/-- No event is left to the command that holds the issue slot. -/
def Core.slotFree (k : Core) : Bool := !k.ce.any fun e => e.active && e.next.isSome

/-- `pred` has retired, and the orders of R120 let the command start. DEDUCED (log 38): a FORD of acquire holds the stream's later
commands as an ORD of acquire does, and in the timed regime a command so held at its requested tick is late. -/
def Core.ceReady (k : Core) (e : CeEntry) : Bool :=
  let before := k.ce.filter fun x => x.id < e.id && x.stream = e.stream
  let acq (x : CeEntry) : Bool := x.ord = .acquire || x.ord = .acqRel || x.ford
  !(k.ce.any fun x => some x.id = e.pred) && !((e.ord = .release || e.ord = .acqRel) && !before.isEmpty) && !before.any acq

/-- The requested tick has come. -/
def State.ceDue (s : State) (e : CeEntry) : Bool := if e.timed then e.req ≤ s.tick else e.req ≤ s.now

/-- Start at the progress count. -/
def State.ceBegin (s : State) (c : Nat) (e : CeEntry) : State :=
  let e := { e with st := .running, base := e.prog / e.unitElems, el := e.prog / e.unitElems, sub := 0, ev := 0, dataBuf := [], nextAt := s.now }
  let e := match e.kind with
    | .tile .. => e
    | _ => { e with idxBuf := [] }
  (s.modCe c e.id fun _ => { e with m := e.count64 }).plan s.now 12 (.ceEvent c e.id 0 .run)

/-- A `cpyt` enters the order at its tile, after an instruction that the E stream issues in the same tick: where that one has changed the
descriptor, in the next tick (R245, R274). -/
def State.tileEntry (s : State) (c id : Nat) : State :=
  match s.entry c id with
  | none => s
  | some e =>
    if !e.active then s
    else match e.kind with
    | .tile td pitch .. =>
      match s.tileStart c e td pitch with
      | none => (s.dropCmd c id).ceFault c e 0xA4 4 0 ((s.core c).tdescOf td.toNat)
      | some l =>
        if e.idxBuf = l then s
        else ((s.dropCmd c id).modCe c id fun e => { e with st := .queued, idxBuf := [], dataBuf := [] }).planStart c (s.now + 1)
    | _ => s

/-- A timed command whose requested tick has come starts now or is late (R422 LATECMD). -/
def State.ceStrict (s : State) (c id : Nat) : State :=
  match s.entry c id with
  | none => s
  | some e =>
    if !(e.st = .queued && e.timed && e.m = 0 && s.ceDue e) || (s.fretOf c).stalled s.now then s
    else
      match e.marks with
      | n :: _ => s.ceFault c e 0xA7 n e.prog (negOff (s.vaOfElem e n e.prog))
      | [] =>
        if (s.core c).slotFree && (s.core c).ceReady e then s.ceBegin c e
        else s.cmdSchedErr c e 0xC0 0 (e.word 0) (dw e.req) none

/-- A command in the free regime that could start but for the stall wire, a mark and the refresh window. -/
def State.ceFree (s : State) (c : Nat) (e : CeEntry) : Bool :=
  e.st = .queued && !(e.timed && e.m = 0) && e.outstanding = 0 && s.ceDue e && (s.core c).ceReady e

/-- The refresh window holds the first event of a command. -/
def State.ceHeld (s : State) (c : Nat) (e : CeEntry) : Bool :=
  let e := { e with base := e.prog / e.unitElems, el := e.prog / e.unitElems, sub := 0, ev := 0 }
  s.refreshing && (e.next.any fun v => !(s.hbmIssues c e v.1).isEmpty)

/-- The CE looks at its buffer in this period. -/
def State.ceStart (s : State) (c : Nat) : State :=
  let s := ((s.core c).ce.map (·.id)).foldl (fun s id => s.ceStrict c id) s
  let s :=
    if (s.fretOf c).stalled s.now || s.stopping c then s
    else
      let s := (((s.core c).ce.filter fun e => s.ceFree c e && !e.marks.isEmpty)).foldl (fun s e =>
        let n := e.marks.headD 0
        s.ceFault c e 0xA7 n e.prog (negOff (s.vaOfElem e n e.prog))) s
      if !(s.core c).slotFree then s
      else
        match (s.core c).ce.find? fun e => s.ceFree c e && !s.ceHeld c e with
        | some e => s.ceBegin c e
        | none => s
  if (s.core c).ce.any fun e => e.st = .queued then s.planStart c (s.now + 1) else s

/-! ### Flag, result, follow-on -/

/-- The flag word is increased by 1 once its port is free (R277). -/
def State.flagInc (s : State) (c id : Nat) : State :=
  match s.entry c id with
  | none => s
  | some e =>
    let again := s.plan (s.now + 1) 15 (.flagIncrement c id)
    match e.flag with
    | none => s
    | some f =>
      let ppa := f.addr 0
      let l := ppaLocal ppa
      let inc (s : State) : State :=
        match s.uncorr l 8 with
        | some g => s.ceContain c e g e.prog fun _ => true
        | none => (s.modify (ceWho c e) l (leBytes 8 (leNat (s.sampled l 8) + 1))).ceEnds c id
      if ppaPkg ppa ≠ s.pkg then s.routeRead ppa fun s => s.cePacket c e .flagOnly (s.routeTo ppa) ppa []
      else
        match place l with
        | .spad tc o =>
          let code := if tc = c then 1 else 0
          let banks := banksOf o 8
          if tc ≠ c && !s.slotOpen tc then again
          else if (s.ceClash tc code false banks).isSome then (s.modCore tc (·.count 70)).plan (s.now + 1) 15 (.flagIncrement c id)
          else inc (s.modCore tc (·.useBanks s.now s.now code banks))
        | _ =>
          match s.lineGrant 2 l 8 true with
          | some s => inc s
          | none => again

/-- A result of a command on its way: the old value, and where it was read if the element wrote. -/
def Work.resultOf (c id : Nat) : Work → Option (DWord × Option (Nat × Nat))
  | .resultFifoEntry k _ n v u => if k = c ∧ n = id then some (v, u) else none
  | _ => none

/-- A result enters its FIFO; in the timed regime a full FIFO is an error, and neither the element nor a later one of its
command performs (R284, R422). -/
def State.resultIn (s : State) (c : Nat) (i : StreamId) (id : Nat) (v : DWord) (undo : Option (Nat × Nat)) : State :=
  let k := s.core c
  if 32 ≤ (k.rf i).length then
    match s.entry c id with
    | some e =>
      if e.strict then
        let rest := s.agenda.filterMap fun x => x.2.2.resultOf c id
        let back (s : State) (x : DWord × Option (Nat × Nat)) : State :=
          match x.2 with
          | some (l, n) => s.store { core := some c, stream := some i, unit := uCe } l (leBytes n x.1.toNat)
          | none => s
        let s := ((v, undo) :: rest).reverse.foldl back s
        let s := { s with agenda := s.agenda.filter fun x => (x.2.2.resultOf c id).isNone }
        let e := { e with st := .queued, prog := e.prog - 1 - rest.length }
        (s.dropCmd c id).ceSched c e 0xCB 1 (e.word 1) 0 none
      else s.plan (s.now + 1) 20 (.resultFifoEntry c i id v undo)
    | none => s
  else (s.modCore c fun k => k.setRf i (k.rf i ++ [(s.now + 1, v)])).ceDone c id 0

/-- The follow-on arrives at the MA, which checks it and takes it into a place (R275, R248). -/
def State.followOn (s : State) (c id : Nat) : State :=
  match s.entry c id with
  | none => s
  | some e =>
    match e.kind with
    | .tile _ _ _ fz ta tb n col split =>
      let k := s.core c
      if 4 ≤ k.maQueue.length then s.plan (s.now + 1) (tileRank + 1) (.followOnHandoff c id)
      else
        match mmaChk (dw col) (dw n) 0 0 ta tb (k.tdescOf ta.toNat) (k.tdescOf tb.toNat) with
        | some (.trap code _ _) => s.ceFault c e 0xA3 4 e.prog (dw code)
        | some _ => s
        | none =>
          let (op, s) := s.fresh
          let s := s.modCe c id fun e => { e with foHeld := false }
          (s.maAccept c ⟨op, fz, ta, tb, n, col, split, s.now, 0, true⟩).ceEnds c id
    | _ => s

/-! ### CEFCTL (R394) -/

/-- The FAULTED entry of a stream that carries a seq value, with its cause and side. -/
def Core.faultedBy (k : Core) (i : StreamId) (q : BitVec 8) : Option (CeEntry × Byte × Nat) :=
  k.ce.findSome? fun e =>
    match e.st with
    | .faulted cause side => if e.stream = i ∧ e.seq = q then some (e, cause, side) else none
    | _ => none

/-- The entry retires; accesses of elements below its count end first. -/
def State.ceAbandon (s : State) (c : Nat) (i : StreamId) (q : BitVec 8) : State :=
  match (s.core c).faultedBy i q with
  | none => s
  | some (e, _) => if e.outstanding ≠ 0 then s.plan (s.now + 1) 6 (.cefctlAbandon c i q) else (s.modCore c (·.count 68)).ceRetire c e.id

/-- The entry resumes at its progress count. -/
def State.ceResume (s : State) (c : Nat) (i : StreamId) (q : BitVec 8) : State :=
  match (s.core c).faultedBy i q with
  | none => s
  | some (e, _) => (s.modCe c e.id fun e => { e with st := .queued }).planStart c s.now

/-- Permissions that a side requires (R91); of a `cpycas` both that it may use. -/
def CeEntry.reqOf (e : CeEntry) (side : Nat) : Nat :=
  match side with
  | 1 =>
    match e.kind with
    | .acc .. => pA
    | .cas .. => pR + pA
    | _ => pW
  | 3 => pA
  | _ => pR

/-- VA that a retranslation of a side looks up. -/
def State.retransVa (s : State) (e : CeEntry) (side : Nat) : Nat := wrap (s.vaOfElem e side e.prog) 48

/-- Sides that a resumption translates again: after STALECMD all marked ones, else the faulting one. -/
def CeEntry.stale (e : CeEntry) : List Nat :=
  match e.st with
  | .faulted cause side => if cause = 0xA7 then e.marks else [side]
  | .retranslating _ l => l
  | _ => []

/-- First side of a list whose VA no slice entry covers. -/
def State.missSide (s : State) (c : Nat) (e : CeEntry) (l : List Nat) : Option Nat :=
  l.find? fun n => (s.sliceHit (s.core c).ctx (s.retransVa e n)).isNone

def State.ceRetranslate (s : State) (c : Nat) (i : StreamId) (q : BitVec 8) : State :=
  match (s.core c).faultedBy i q with
  | none => s
  | some (e, cause, _) =>
    if e.outstanding ≠ 0 then s.plan (s.now + 1) 6 (.cefctlRetranslate c i q)
    else if cause ≠ 0xA1 ∧ cause ≠ 0x68 ∧ cause ≠ 0xA7 then s.ceAbandon c i q
    else
      let l := e.stale
      let mark (stage : Nat) (s : State) : State :=
        s.modCe c e.id fun e => { e with st := .retranslating stage l }
      match s.missSide c e l with
      | none => (mark 2 s).plan (s.now + 95) 1 (.ceRetranslationComplete c e.id)
      | some n =>
        if (s.core c).timed then s.schedErr c (some i) uCe 0xC7 (dw (s.retransVa e n)) 0
        else ((mark 0 s).missStart c).emit (.walkMiss c i)

/-- The new translations are written into the copies, and the entry resumes. DESIGN CHOICE (log 39): the spec does not say what happens
where the new leaf lacks a permission of the side, or is of another kind; the remaining elements are held to the copy and to what a
side may reach, not to the leaf's permissions and kind. -/
def State.ceRetranslated (s : State) (c id : Nat) : State :=
  match s.entry c id with
  | none => s
  | some e =>
    let ctx := (s.core c).ctx
    let l := e.stale
    match s.missSide c e l with
    | some _ => (s.modCe c id fun e => { e with st := .retranslating 0 l }).missStart c
    | none =>
      let e' := l.foldl (fun e' n =>
        let va := s.retransVa e n
        match s.sliceHit ctx va with
        | some (_, _, x) => e'.setSide n { e.sideOf n with h := leafHandle s.pkg c ctx x.leaf va (e.reqOf n), marked := false }
        | none => e') e
      (s.modCe c id fun _ => { e' with st := .queued }).planStart c s.now

/-! ### The steps -/

def execCeCommandStart (core : Nat) (s : State) : Out := .next (s.ceStart core)
def execCeEvent (core id k : Nat) (ph : CePhase) (s : State) : Out :=
  .next (match ph with
    | .run => s.ceRun core id
    | .sample x n => s.ceSample core id k x n
    | .land data => s.ceLand core id k data)
def execRemoteLineSample (core id k x n : Nat) (s : State) : Out := .next (s.ceRemote core id k x n)
def execCeCommandRetire (core id : Nat) (s : State) : Out := .next (s.ceRetire core id)
def execFlagIncrement (core id : Nat) (s : State) : Out := .next (s.flagInc core id)
def execResultFifoEntry (core : Nat) (i : StreamId) (id : Nat) (v : DWord) (s : State) : Out := .next (s.resultIn core i id v none)
def execFollowOnHandoff (core id : Nat) (s : State) : Out := .next (s.followOn core id)
def execCommandFaultTrap (core : Nat) (i : StreamId) (s : State) : Out := .next (s.faultTrap core i)
def execCefctlAbandon (core : Nat) (i : StreamId) (q : BitVec 8) (s : State) : Out := .next (s.ceAbandon core i q)
def execCefctlRetranslate (core : Nat) (i : StreamId) (q : BitVec 8) (s : State) : Out := .next (s.ceRetranslate core i q)
def execCefctlResume (core : Nat) (i : StreamId) (q : BitVec 8) (s : State) : Out := .next (s.ceResume core i q)
def execCeRetranslationComplete (core id : Nat) (s : State) : Out := .next (s.ceRetranslated core id)

end Sys2Proof.Machine
end

