-- ==== Sys2Proof/Machine/Sync.lean ====
section
/-! DEFINITION. Synchronisation objects and their agents (spec 12 R289 to R295; 05 R115 to R117; 20 R420, R426 to R429), and
untimed packets (12 R277, R278, R298, R299; 03 R85; 20 R419; 21 R443). -/

namespace Sys2Proof.Machine

/-! ### Records (R289) -/

/-- A sync object's record. -/
structure SyncRec where
  w0 : DWord
  w1 : DWord
  w2 : DWord
  w3 : DWord
deriving DecidableEq, Repr

def SyncRec.kind (r : SyncRec) : Nat := bits r.w0 1 0
def SyncRec.held (r : SyncRec) : Bool := r.w1.getLsbD 63
def SyncRec.arrived (r : SyncRec) : Nat := bits r.w1 31 16
def SyncRec.goal (r : SyncRec) : Nat := bits r.w1 15 0
def SyncRec.phase (r : SyncRec) : Nat := bits r.w2 31 0
/-- Package, core and stream that hold the lock. -/
def SyncRec.holder (r : SyncRec) : Nat × Nat × Nat := (bits r.w1 41 32, bits r.w1 8 0, bits r.w1 15 14)

/-- A free lock; the lock as held by a stream. -/
def SyncRec.freeLock (r : SyncRec) : SyncRec := { r with w1 := 0 }
def SyncRec.lockBy (r : SyncRec) (q : SyncReq) : SyncRec :=
  { r with w1 := dw (2 ^ 63 + q.pkg % 1024 * 2 ^ 32 + streamNum q.stream * 2 ^ 14 + q.core % 512) }
def SyncRec.setBarrier (r : SyncRec) (arrived phase : Nat) : SyncRec :=
  { r with w1 := dw (arrived % 2 ^ 16 * 2 ^ 16 + r.goal), w2 := dw (phase % 2 ^ 32) }

def State.syncRec (s : State) (l : Nat) : SyncRec := ⟨dw (s.word l), dw (s.word (l + 8)), dw (s.word (l + 16)), dw (s.word (l + 24))⟩

/-- Statuses (R290). -/
abbrev syOk : Nat := 0
abbrev syReset : Nat := 1
abbrev syInvalid : Nat := 2
abbrev syHeld : Nat := 3
abbrev syFull : Nat := 4

/-! ### Replies -/

/-- The reply of a request leaves the agent in this period and is usable after its way back. -/
def State.syncAnswer (s : State) (r : SyncReq) (a : SyncAns) : State :=
  if r.pkg = s.pkg then s.plan (s.now + r.q) 1 (.syncReply r a) else s.emit (.syncReply r a)

def State.syncStatus (s : State) (r : SyncReq) (v : Nat) : State := s.syncAnswer r (.word (dw v))

/-- A reply reaches its stream (R262, R290, R428): the register it names, the stream that waits for it, or a command fault
without an entry. -/
def State.syncReply (s : State) (r : SyncReq) (a : SyncAns) : State :=
  let c := r.core
  let i := r.stream
  let held : Bool := match (s.str c i).hold with
    | some (.sync id _ _) => id = r.id
    | _ => false
  let free (s : State) : State := if held then s.releaseHold c i s.now else s
  let drop (s : State) : State := s.modStr c i fun x => { x with await := x.await.filter (·.2.1 ≠ r.id) }
  match a with
  | .word w => if held then free (s.modStr c i (·.setG r.gw w)) else s.modStr c i (·.answered r.gw r.id w)
  | .done => free s
  | .kindFault w => (free (drop s)).cmdFault c i r.id 0xA5 0 w
  | .ownerFault w => (free (drop s)).cmdFault c i r.id 0xA6 0 w

/-- `soinit` and `sorel` end at their perform tick; only another package waits to hear of it (R290). -/
def State.syncDone (s : State) (r : SyncReq) : State := if r.pkg = s.pkg then s else s.syncAnswer r .done

/-! ### The agent (R290 to R294, R426, R427) -/

/-- Waiters on a record, in the order in which they joined. -/
def State.waitersOf (s : State) (ppa : Nat) : List SyncReq := (Sparse.get [] s.waiters ppa).map (·.req)
def State.setWaiters (s : State) (ppa : Nat) (l : List SyncReq) : State :=
  { s with waiters := Sparse.set [] s.waiters ppa (l.map fun r => ⟨r⟩) }

/-- The queued request for a lock that is first in its order. -/
def firstAcq : List SyncReq → Option (SyncReq × List SyncReq)
  | [] => none
  | r :: l =>
    if r.op = .acq then some (r, l) else (firstAcq l).map fun (x, y) => (x, r :: y)

/-- Every waiter is examined against the record as it stands (R427). -/
def State.syncRecheck (s : State) (ppa : Nat) (r : SyncRec) : State × SyncRec :=
  let out (q : SyncReq) : Bool :=
    match q.op with
    | .wait p => r.phase ≠ p.toNat
    | _ => false
  let l := s.waitersOf ppa
  let s := (l.filter out).foldl (fun s q => s.syncStatus q syOk) s
  let l := l.filter fun q => !out q
  match (if r.held then none else firstAcq l) with
  | some (q, l) => ((s.setWaiters ppa l).syncStatus q syOk, r.lockBy q)
  | none => (s.setWaiters ppa l, r)

/-- A barrier arrival (R293). -/
def State.syncArrive (s : State) (ppa : Nat) (r : SyncRec) : State × SyncRec :=
  if (r.arrived + 1) % 2 ^ 16 = r.goal then
    let waits (q : SyncReq) : Bool := q.op ≠ .acq
    let l := s.waitersOf ppa
    (((l.filter waits).foldl (fun s q => s.syncStatus q syOk) s).setWaiters ppa (l.filter fun q => !waits q),
      r.setBarrier 0 (r.phase + 1))
  else (s, r.setBarrier (r.arrived + 1) r.phase)

/-- The operation itself, on the record as the waiters leave it. -/
def State.syncOp (s : State) (q : SyncReq) (r : SyncRec) : State × SyncRec :=
  let lock (s : State) (f : State × SyncRec) : State × SyncRec :=
    if r.kind = 0 then (s.syncStatus q syInvalid, r) else if r.kind ≠ 1 then (s.syncAnswer q (.kindFault r.w0), r) else f
  let barrier (s : State) (f : State × SyncRec) : State × SyncRec :=
    if r.kind = 0 then (s.syncStatus q syInvalid, r) else if r.kind ≠ 2 then (s.syncAnswer q (.kindFault r.w0), r) else f
  let me := (q.pkg % 1024, q.core % 512, streamNum q.stream)
  let l := s.waitersOf q.ppa
  match q.op with
  | .init kind count ctx =>
    let s := l.foldl (fun s x => s.syncStatus x (if kind = 0 then syInvalid else syReset)) s
    ((s.setWaiters q.ppa []).syncDone q,
      ⟨dw (ctx.toNat * 256 + kind.toNat), dw (if kind = 2 then count.toNat else 0), 0, dw ((bits r.w3 31 0 + 1) % 2 ^ 32)⟩)
  | .acq =>
    lock s (if !r.held then (s.syncStatus q syOk, r.lockBy q)
      else if r.holder = me then (s.syncStatus q syHeld, r)
      else (s.setWaiters q.ppa (l ++ [q]), r))
  | .rel =>
    if r.kind ≠ 1 then (s.syncAnswer q (.kindFault r.w0), r)
    else if !r.held || r.holder ≠ me then (s.syncAnswer q (.ownerFault r.w1), r)
    else
      match firstAcq l with
      | some (x, l) => (((s.setWaiters q.ppa l).syncStatus x syOk).syncDone q, r.lockBy x)
      | none => (s.syncDone q, r.freeLock)
  | .withdraw =>
    let mine (x : SyncReq) : Bool := x.pkg = q.pkg && x.core = q.core && x.stream = q.stream
    (s.setWaiters q.ppa (l.filter fun x => !mine x), r)
  | .arr => let s1 := s.syncStatus q r.phase; barrier s (s1.syncArrive q.ppa r)
  | .wait p => barrier s (if r.phase ≠ p.toNat then (s.syncStatus q syOk, r) else (s.setWaiters q.ppa (l ++ [q]), r))
  | .stat =>
    (s.syncAnswer q (.word (dw (r.kind + min 255 l.length * 2 ^ 8 + (if r.kind = 1 then (if r.held then 2 ^ 16 else 0) else r.arrived * 2 ^ 16)
      + r.phase * 2 ^ 32))), r)

/-- Place of a request in the order of one tick (R290). -/
def syncRank (r : SyncReq) : Nat := (r.pkg * 512 + r.core) * 4 + streamNum r.stream

/-- A request of another package whose context is swapped out here (R85). Of two saved launches of one context the spec does not say whose log
takes the arrival: the model takes the first of its list (log 53). -/
def State.swappedOut (s : State) (ctx : Byte) : Option (Nat × Launch) := s.launches.find? fun e => e.2.phase = .saved && e.2.ctx = ctx

/-- Records in a launch's arrival log (R416 LOGN). -/
def State.logN (s : State) (x : Launch) : Nat := leNat (s.saveLoad x 0x1010 8) % 1024

/-- The hub may write to a launch's arrival log in this period, as an arrival of the untimed fabric (R44, R89, R108, R338, R339). -/
def State.logGrant (s : State) (x : Launch) : Option State :=
  match (x.savePieces 0x1010 8).head? with
  | some (a, _, _) => s.classGrant 2 a 8 true
  | none => some s

/-- Append a record to an arrival log, or refuse it and set LOGFULL (R85, R419). A flag increment has length 8, a barrier arrival the 64 bytes of
the record's line (log 15). -/
def State.logArrival (s : State) (id : Nat) (x : Launch) (kind target flag : Nat) (data : List Byte) : State × Bool :=
  let n := s.logN x
  if 512 ≤ n then
    ({ s with launches := Sparse.insert s.launches id { x with svLogFull := true } }.saveStore x 0x1000
      (leBytes 8 (leNat (s.saveLoad x 0x1000 8) ||| 4)), false)
  else
    let len := if kind = 1 then data.length else if kind = 2 then 8 else 64
    let r := leBytes 8 (kind + len * 256) ++ leBytes 8 target ++ leBytes 8 flag ++ leBytes 8 s.tick ++ data
      ++ List.replicate (96 - data.length) 0
    ((s.saveStore x (0x10000 + 128 * n) r).saveStore x 0x1010 (leBytes 8 (n + 1)), true)

/-- A request that no schedule places performs in a free slot of the record's port; one of HBM not in a checkpoint window, nor where its access
issues only now in the refresh window; one of another package takes a unit of class 2 (R44, R89, R338, R339). -/
def State.syncGrant (s : State) (q : SyncReq) : Option State :=
  let l := ppaLocal q.ppa
  let mine := q.pkg = s.pkg
  if mine && q.timed then some s
  else if !s.slotOpen (portOf l) || (place l = .hbm && (s.ckptOpen || ((!mine || q.again) && s.refreshing))) then none
  else if mine then some s else s.spend 2 l

/-- The bytes of a record. -/
def SyncRec.bytes (r : SyncRec) : List Byte := leBytes 8 r.w0.toNat ++ leBytes 8 r.w1.toNat ++ leBytes 8 r.w2.toNat ++ leBytes 8 r.w3.toNat

/-- An operation of the agent on the record at local address `l`: its waiters are examined against the bytes as they stand, then `f` acts (R290,
R427). -/
def State.syncEdit (s : State) (who : Who) (l : Nat) (f : State → SyncRec → State × SyncRec) : State :=
  let (s, r) := (s.touch who l 64).syncRecheck (mkPpa s.pkg l) (s.syncRec l)
  let (s, r) := f s r
  s.store who l r.bytes

/-- A barrier takes an arrival for which nobody waits for a reply; a record of another KIND stays as it is (R85, R125, R428). -/
def State.syncLateArrival (s : State) (ppa : Nat) (r : SyncRec) : State × SyncRec := if r.kind = 2 then s.syncArrive ppa r else (s, r)

/-- A request performs at the record's memory port (R290, R427). Which requester it is at a bank the spec does not say: the model's takes no bank
of a scratchpad (log 54). -/
def State.syncPerform (s : State) (q : SyncReq) : State :=
  let first := s.agenda.any fun (p, _, w) =>
    match w with
    | .syncOperationPerform x => p = s.now && x.ppa = q.ppa && syncRank x < syncRank q
    | _ => false
  let l := ppaLocal q.ppa
  let who : Who := { core := if q.pkg = s.pkg then some q.core else none, stream := if q.pkg = s.pkg then some q.stream else none, unit := uStream }
  if first then s.plan s.now 1 (.syncOperationPerform q)
  else match s.syncGrant q with
  | none => s.plan (s.now + 1) 1 (.syncOperationPerform { q with again := true })
  | some s =>
    match (if q.pkg = s.pkg then none else if q.op = .arr then s.swappedOut q.ctx else none) with
    | some (id, x) =>
      if (s.logGrant x).isNone then s.plan (s.now + 1) 1 (.syncOperationPerform { q with again := true })
      else
      let (s, ok) := s.logArrival id x 3 l 0 []
      s.syncStatus q (if ok then (s.syncRec l).phase else syFull)
    | none =>
      match s.uncorr l 64 with
      | some g => s.contain 1 (arrayOf l) who (some (mkPpa s.pkg g))
      | none => s.syncEdit who l fun s r => s.syncOp q r

/-- A shootdown of a SYNC page releases every waiter on a record in it, whichever context or address it came through (R429). -/
def State.syncShoot (s : State) (hit : SyncReq → Bool) : State :=
  s.waiters.foldl (fun s e =>
    let l := e.2.map (·.req)
    ((l.filter hit).foldl (fun s q => s.syncStatus q syInvalid) s).setWaiters e.1 (l.filter fun q => !hit q)) s

/-! ### The instructions -/

/-- Checks of a sync object's handle (R400). -/
def State.syncChk (s : State) (hd : H) : Option Res :=
  let (c, _) := s.at
  let h := s.myCore.hreg hd
  let space : Space := s.inSpace c fun
    | .hub => false
    | .pkg _ => !s.myCore.timed
    | _ => true
  firstOf [s.hUse c hd 0 [kSync] (pR + pW) space 0 0xFFFF 64, hBounds h hd 0 0 64, s.hMapped h hd 0 0 64,
    if h.base % 64 = 0 then none else some (.trap 0x82 (dw h.base) 64)]

/-- Ask the agent. A local request performs after q ticks, which count from the end of a refresh window where it would reach HBM in one
(R89); one to another package leaves in a packet, and its stream waits for the reply (R290). `late` gives the latency until retirement from q. -/
def State.syncAsk (s : State) (hd : H) (op : SyncOp) (gw : G) (late : Nat → Nat) (wait : Bool) : Res :=
  match s.syncChk hd with
  | some r => r
  | none =>
    let (c, i) := s.at
    let h := s.myCore.hreg hd
    let loc := s.locH c h
    let q := s.oneWay c loc
    let held := if loc = .hbm && s.refreshing then 3886 - s.tick % 4096 else 0
    if held ≠ 0 && s.timedAt c then .late uStream 0xC4 (dw s.tick) (dw h.base) (some h.base)
    else
    let (id, s) := s.fresh
    let r : SyncReq := { pkg := s.pkg, core := c, stream := i, ppa := h.base, op := op, gw := gw, q := q, va := h.va, ctx := s.myCore.ctx, id := id,
                         timed := (s.timedAt c), again := false }
    match loc with
    | .pkg _ =>
      .hold (s.routeRead h.base fun s => s.sendPacket { kind := .sync r, route := s.routeTo h.base, target := h.base, data := [], ctx := r.ctx,
                                                        flag := none, srcPkg := s.pkg, srcCore := c, srcStream := i, cmd := id }) (.sync id wait (some h.base))
    | _ =>
      let s := s.plan (s.now + held + q) 1 (.syncOperationPerform r)
      if wait then .hold s (.sync id true none) else .seqLat (s.modMe (·.awaits gw id true)) (late q + held)

/-- `sorel` and `soarr` wait until the stream's earlier stores and commands have completed (R116, R292). -/
def State.syncWait (s : State) : Option Cls :=
  if s.myCore.cePending s.at.2 || s.now ≤ s.me.retireAt then some .sync else none

def State.syncInstr (s : State) (t : Tok) (y : Bool) (hd : H) (gs : List G) (wait : Option Cls) (f : State → Res) : Out :=
  s.issue { t := t, len := 4, streams := [.w], y := y, wait := wait, reads := keyH hd :: gs.map keyG } f

def execSoinit (t : Tok) (y : Bool) (hd : H) (gv : G) (s : State) : Out :=
  s.syncInstr t y hd [gv] none fun s =>
    let v := s.gr gv
    let kind := bits v 1 0
    let count := bits v 31 16
    if kind = 3 || v &&& ~~~0xFFFF0003 ≠ 0 || (kind = 2 && count = 0) then valueTrap v gv
    else s.syncAsk hd (.init (BitVec.ofNat 2 kind) (BitVec.ofNat 16 count) s.myCore.ctx) 0 (· + 1) false

def execSoacq (t : Tok) (y : Bool) (hd : H) (gw : G) (s : State) : Out :=
  s.syncInstr t y hd [] none fun s => s.syncAsk hd .acq gw id true

def execSorel (t : Tok) (y : Bool) (hd : H) (s : State) : Out :=
  s.syncInstr t y hd [] s.syncWait fun s => s.syncAsk hd .rel 0 (· + 1) false

def execSoarr (t : Tok) (y : Bool) (hd : H) (gw : G) (s : State) : Out :=
  s.syncInstr t y hd [] s.syncWait fun s => s.syncAsk hd .arr gw (2 * ·) false

def execSowait (t : Tok) (y : Bool) (hd : H) (gv gw : G) (s : State) : Out :=
  s.syncInstr t y hd [gv] none fun s => s.syncAsk hd (.wait ((s.gr gv).truncate 32)) gw id true

def execSostat (t : Tok) (y : Bool) (hd : H) (gw : G) (s : State) : Out :=
  s.syncInstr t y hd [] none fun s => s.syncAsk hd .stat gw (2 * ·) false

/-- Entry `n` of the binding table of a context (R295). -/
def State.bindAddr (s : State) (ctx : Byte) (n : Nat) : Nat := ppaLocal (Sparse.get CtxRec.idle s.ctxs ctx.toNat).syncb.toNat + 32 * n

/-- The edit of the binding table takes place, and the status is usable, 424 ticks later; the table's accesses issue with the instruction (R295). -/
def execSobind (t : Tok) (o : SobindOp) (s : State) : Out :=
  s.syncInstr t o.y o.hd [o.gso, o.gv] none fun s =>
    match s.syncChk o.hd with
    | some r => r
    | none =>
      let (c, i) := s.at
      match s.hbmIssue (s.bindAddr s.myCore.ctx 0) (s.tick + shapeLat) true with
      | some r => r
      | none =>
      let (id, s) := s.fresh
      let s := s.plan (s.now + shapeLat) 1
        (.syncBind c i o.gw id ((s.gr o.gso).toNat % 2 ^ 48) (s.gr o.gv).toNat (s.myCore.hreg o.hd).va)
      .seqLat (s.modMe (·.awaits o.gw id true)) (shapeLat + 1)

/-- START with VALID, and LEN, of an entry of a binding table (R295). -/
def bindStart (e : List Byte) : Nat := leNat (e.take 8)
def bindLen (e : List Byte) : Nat := leNat ((e.drop 8).take 8)

/-- The entries of a binding table, 32 bytes each, after the edit for the region of `len` bytes at `start`, and the status; with `len` zero the
region holds no byte, and an entry meets it that holds the byte there (R295). -/
def bindTable (tbl : List (List Byte)) (start len obj : Nat) : List (List Byte) × Nat :=
  let valid (e : List Byte) : Bool := bindStart e / 2 ^ 63 = 1
  let meets (e : List Byte) : Bool := valid e && start < bindStart e % 2 ^ 48 + bindLen e && bindStart e % 2 ^ 48 < start + max len 1
  let cleared := tbl.map fun e => if meets e then List.replicate 32 0 else e
  if len = 0 then (cleared, syOk)
  else
    match cleared.findIdx? (!valid ·) with
    | none => (tbl, syFull)
    | some k => (cleared.set k (leBytes 8 (start + 2 ^ 63) ++ leBytes 8 len ++ leBytes 8 (obj % 2 ^ 48) ++ List.replicate 8 0), syOk)

/-- The bytes at `a` become `new`: each line of 64 bytes in which they differ is written once (R108). -/
def State.storeLines (s : State) (w : Who) (a : Nat) (old new : List Byte) : State :=
  (List.range ((a + new.length + 63) / 64 - a / 64)).foldl (fun s i =>
    let lo := max a ((a / 64 + i) * 64) - a
    let n := min (a + new.length) ((a / 64 + i + 1) * 64) - a - lo
    if (old.drop lo).take n = (new.drop lo).take n then s else s.store w (a + lo) ((new.drop lo).take n)) s

/-- The edit of the table and its status, at s + 424 (R295); a table that no code can correct stops the stream, contained (R375). -/
def State.syncBind (s : State) (c : Nat) (i : StreamId) (gw : G) (id start len obj : Nat) : State :=
  let ctx := (s.core c).ctx
  let a := s.bindAddr ctx 0
  let n := bits (Sparse.get CtxRec.idle s.ctxs ctx.toNat).syncbN 15 0
  let who : Who := { core := some c, stream := some i, unit := uStream }
  match s.uncorr a (32 * n) with
  | some g => s.contain 1 (arrayOf g) who (some (mkPpa s.pkg g))
  | none =>
    let s := s.touch who a (32 * n)
    let (tbl, v) := bindTable (chunks n 32 (s.load a (32 * n))) start len obj
    (s.storeLines who a (s.load a (32 * n)) tbl.flatten).modStr c i (·.answered gw id (dw v))

def execSyncOperationPerform (r : SyncReq) (s : State) : Out := .next (s.syncPerform r)
def execSyncReply (r : SyncReq) (a : SyncAns) (s : State) : Out := .next (s.syncReply r a)

/-! ### Untimed packets (R298, R299, R443) -/

/-- A notice goes back to the sender along the reverse route. -/
def State.sendNotice (s : State) (p : Packet) (k : NoticeKind) : State :=
  if p.srcPkg = s.pkg then s.plan (s.now + 1) 20 (.deliveryNotice p.srcCore p.cmd k) else s.emit (.notice p.srcPkg p.srcCore p.cmd k)

/-- ROUTE after a hop, and the port of that hop (R299). -/
def hopPort (r : DWord) : Nat := bits r 7 4
def hopRoute (r : DWord) : DWord := (r >>> 8) <<< 4 ||| dw (bits r 3 0 - 1)

/-- The packet is queued for its next port, or dropped (R299, R443). -/
def State.forward (s : State) (p : Packet) : State :=
  let port := hopPort p.route
  let le := Sparse.get .idle s.les port
  if bits p.route 3 0 = 0 then s.plan (s.now + 1) 42 (.untimedPacketDelivery p)
  else if 11 < port || le.failed.isSome then s.sendNotice p (.failed 0)
  else { s with les := Sparse.insert s.les port { le with out := le.out ++ [{ p with route := hopRoute p.route }] } }

/-- The data lines of a packet, no line across a 64-byte boundary. -/
def lineCut (a n : Nat) : Nat := min n (64 - a % 64)

/-- The old value and the new bytes of an element that a packet changes (R280, R283). -/
def rmwNew (op esz : Nat) (exp : Option DWord) (old data : List Byte) : List Byte :=
  match exp with
  | some x => if leNat old = x.toNat % 2 ^ (8 * old.length) then data else old
  | none =>
    let k : AccKind := match op with
      | 0 => .iadd32
      | 1 => .iadd64
      | 2 => .xadd
      | 3 => .or
      | 4 => .and
      | 5 => .xor
      | 6 => .imin
      | 7 => .imax
      | 8 => .fmin
      | 9 => .fmax
      | _ => .swap
    accNew k esz old (leNat data)

/-- Size of the element that a packet changes. -/
def rmwSize (op esz : Nat) : Nat :=
  match op with
  | 0 => 4
  | 1 => 8
  | 2 => 32
  | 8 => 4
  | 9 => 4
  | _ => 2 ^ esz

/-- Byte-wise exclusive or. -/
def xorBytes (a b : List Byte) : List Byte := List.zipWith (· ^^^ ·) a b

/-- The flag increment that a packet carries, once its data is there: here in a later tick; in another package the hub of that package applies it,
and a packet goes there in the sender's name (R277, R298). -/
def State.flagPacket (s : State) (p : Packet) (f : Nat) : State :=
  let q : Packet := { p with kind := .flagOnly, target := f, data := [], flag := none }
  if ppaPkg f = s.pkg then s.plan (s.now + 1) 42 (.untimedPacketDelivery q) else s.routeRead f fun s => s.sendPacket { q with route := s.routeTo f }

/-- A block of this package's share of an extent that holds local address `a` has been rebuilt where it had to be (R336). -/
def State.builtAt (s : State) (a : Nat) : Bool :=
  s.rebuilt.all fun e =>
    let x := Sparse.get ⟨0, 0, 0, 0⟩ s.extents e.1
    let n := bits x.share 31 0 * 2 ^ 21
    a < x.base.toNat || x.base.toNat + n ≤ a || e.2.contains ((a - x.base.toNat) / 4096)

/-- A packet whose route is exhausted takes effect here, one line at a time (R299, R339). DESIGN CHOICE (log 37): the arrival log of R85
has no KIND for accumulates, compare-and-swaps and reads of a swapped-out context, so they perform on the memory at the address. -/
def State.deliver (s : State) (p : Packet) : State :=
  let a := ppaLocal p.target
  let who : Who := { unit := uLe }
  let again (p : Packet) : State := s.plan (s.now + 1) 42 (.untimedPacketDelivery p)
  let line (n : Nat) (wr : Bool) (f : State → State) : State :=
    match s.classGrant 2 a n wr with
    | some s => f s
    | none => again p
  let logged (x : Launch) (f : State → State) : State :=
    match s.logGrant x with
    | some s => f s
    | none => again p
  let onward (s : State) (n : Nat) (rest : List Byte) : State :=
    s.plan (s.now + 1) 42 (.untimedPacketDelivery { p with target := p.target + n, data := rest, lines := p.lines + 1 })
  if ppaPkg p.target ≠ s.pkg ∨ (place a ≠ .hbm ∧ (spadAt s.pkg p.target).isNone) then s.sendNotice p (.failed 0)
  else
    match p.kind with
    | .write =>
      let n := lineCut p.target p.data.length
      let rest := p.data.drop n
      let far := p.flag.filter fun f => ppaPkg f ≠ s.pkg
      let flagAway (s : State) : State := match far with
        | some f => s.flagPacket p f
        | none => s.sendNotice p (.done 0)
      match s.swappedOut p.ctx with
      | some (id, x) =>
        logged x fun s =>
          let (s, ok) := s.logArrival id x 1 a (if rest.isEmpty && far.isNone then p.flag.getD 0 % 2 ^ 48 else 0) (p.data.take n)
          if !ok then s.sendNotice p (.failed p.lines)
          else if rest.isEmpty then flagAway s else onward s n rest
      | none =>
        line n true fun s =>
          let s := s.store who a (p.data.take n)
          if !rest.isEmpty then onward s n rest
          else
            match p.flag with
            | some f => s.flagPacket p f
            | none => s.sendNotice p (.done 0)
    | .flagOnly =>
      match s.swappedOut p.ctx with
      | some (id, x) =>
        logged x fun s =>
          let (s, ok) := s.logArrival id x 2 a a []
          s.sendNotice p (if ok then .done 0 else .failed 0)
      | none =>
        line 8 true fun s =>
          match s.uncorr a 8 with
          | some g => s.raise 2 1 (arrayOf a) who (some (mkPpa s.pkg g)) 0 0
          | none => (s.modify who a (leBytes 8 (leNat (s.sampled a 8) + 1))).sendNotice p (.done 0)
    | .readReq k n =>
      line n false fun s =>
        match s.uncorr a n with
        | some g => s.raise 2 1 (arrayOf a) who (some (mkPpa s.pkg g)) 0 0
        | none => (s.touch who a n).sendNotice p (.data k (s.sampled a n))
    | .rmw k op esz exp =>
      let n := rmwSize op.toNat esz
      let old := s.sampled a n
      /- a comparison that fails is a read only (R122) -/
      let fails := match exp with
        | some x => leNat old ≠ x.toNat % 2 ^ (8 * n)
        | none => false
      line n (!fails) fun s =>
        match s.uncorr a n with
        | some g => s.raise 2 1 (arrayOf a) who (some (mkPpa s.pkg g)) 0 0
        | none =>
          (if fails then s.touch who a n else s.modify who a (rmwNew op.toNat esz exp old p.data)).sendNotice p (.data k old)
    | .sync r => s.plan (s.now + 1) 1 (.syncOperationPerform r)
    | .extent op =>
      let n := match op with
        | .read n => n
        | _ => p.data.length
      if !s.builtAt a then s.sendNotice p (if op = .parity then .done 0 else .failed 2)
      else
        line n (op = .data || op = .parity) fun s =>
          match op, s.uncorr a n with
          | .read _, some _ => s.sendNotice p (.failed 1)
          | .read _, none => (s.touch who a n).sendNotice p (.data 0 (s.sampled a n))
          | _, some g => (s.raise 2 1 (arrayOf a) who (some (mkPpa s.pkg g)) 0 0).sendNotice p (.failed 1)
          | .data, none => (s.modify who a p.data).sendNotice p (.data 0 (s.sampled a n))
          | .parity, none => (s.modify who a (xorBytes (s.sampled a n) p.data)).sendNotice p (.done 0)

/-- A command with a packet out is undone by a failure notice, or by none coming (R443). -/
def State.noticeFail (s : State) (c : Nat) (e : CeEntry) (lines : Nat) : State :=
  let route := match e.kind with
    | .sendu _ r => r
    | _ => s.routeTo (match s.dstLoc c e 0 with
      | .pkg _ => e.dst.addr 0
      | _ => e.src.addr 0)
  (s.ceDrop c e.id).ceFault c e 0xA8 1 (e.prog + lines) route

/-- A notice reaches the sender's core (R278, R299). -/
def State.notice (s : State) (c id : Nat) (k : NoticeKind) : State :=
  match s.entry c id with
  | none => s
  | some e =>
    let s := s.modCe c id fun e => { e with noticed := true }
    match k with
    | .failed n => s.noticeFail c e n
    | .done _ => if e.st = .finishing then s.ceEnds c id else s.ceDone c id (e.begun - e.prog)
    | .data j bs =>
      match e.kind with
      | .acc _ _ _ _ ret _ => if ret then (s.modCe c id (·.bump 1)).ceResult c e none (dw (leNat bs)) none else s.ceDone c id 1
      | .cas _ exp _ =>
        if e.dst.h.perm &&& pA = 0 ∧ dw (leNat bs) = exp then (s.ceDrop c id).ceFault c e 0xA2 1 e.prog (negOff (e.dst.vaOf 0))
        else (s.modCe c id (·.bump 1)).ceResult c e none (dw (leNat bs)) none
      | _ => s.ceGot c id j bs (s.writeDelay c e.m .hub (s.dstLoc c e (s.dispNow e e.prog).2))

/-- No notice has come for 2^22 ticks after the push (R443). -/
def State.noticeTimeout (s : State) (c id : Nat) : State :=
  match s.entry c id with
  | some e => if (e.active || e.st = .finishing) && e.outstanding ≠ 0 && !e.noticed then s.noticeFail c e 0 else s
  | none => s

def execUntimedPacketForward (p : Packet) (s : State) : Out := .next (s.forward p)
def execUntimedPacketDelivery (p : Packet) (s : State) : Out := .next (s.deliver p)
def execRouteTimeout (core id : Nat) (s : State) : Out := .next (s.noticeTimeout core id)

end Sys2Proof.Machine
end

