-- ==== Sys2Proof/Machine/Digest.lean ====
section
/-! DEFINITION. SHA-384 (FIPS 180-4), result digests (spec 12 R300 to R302; 15 R356; 19 R400), measurement digests (14 R343). -/

namespace Sys2Proof.Machine

/-! ### SHA-384 -/

/-- The 80 round constants: the fractions of the cube roots of the first 80 primes. -/
def shaK : List DWord :=
  [0x428A2F98D728AE22, 0x7137449123EF65CD, 0xB5C0FBCFEC4D3B2F, 0xE9B5DBA58189DBBC, 0x3956C25BF348B538,
   0x59F111F1B605D019, 0x923F82A4AF194F9B, 0xAB1C5ED5DA6D8118, 0xD807AA98A3030242, 0x12835B0145706FBE,
   0x243185BE4EE4B28C, 0x550C7DC3D5FFB4E2, 0x72BE5D74F27B896F, 0x80DEB1FE3B1696B1, 0x9BDC06A725C71235,
   0xC19BF174CF692694, 0xE49B69C19EF14AD2, 0xEFBE4786384F25E3, 0x0FC19DC68B8CD5B5, 0x240CA1CC77AC9C65] ++
  [0x2DE92C6F592B0275, 0x4A7484AA6EA6E483, 0x5CB0A9DCBD41FBD4, 0x76F988DA831153B5, 0x983E5152EE66DFAB,
   0xA831C66D2DB43210, 0xB00327C898FB213F, 0xBF597FC7BEEF0EE4, 0xC6E00BF33DA88FC2, 0xD5A79147930AA725,
   0x06CA6351E003826F, 0x142929670A0E6E70, 0x27B70A8546D22FFC, 0x2E1B21385C26C926, 0x4D2C6DFC5AC42AED,
   0x53380D139D95B3DF, 0x650A73548BAF63DE, 0x766A0ABB3C77B2A8, 0x81C2C92E47EDAEE6, 0x92722C851482353B] ++
  [0xA2BFE8A14CF10364, 0xA81A664BBC423001, 0xC24B8B70D0F89791, 0xC76C51A30654BE30, 0xD192E819D6EF5218,
   0xD69906245565A910, 0xF40E35855771202A, 0x106AA07032BBD1B8, 0x19A4C116B8D2D0C8, 0x1E376C085141AB53,
   0x2748774CDF8EEB99, 0x34B0BCB5E19B48A8, 0x391C0CB3C5C95A63, 0x4ED8AA4AE3418ACB, 0x5B9CCA4F7763E373,
   0x682E6FF3D6B2B8A3, 0x748F82EE5DEFB2FC, 0x78A5636F43172F60, 0x84C87814A1F0AB72, 0x8CC702081A6439EC] ++
  [0x90BEFFFA23631E28, 0xA4506CEBDE82BDE9, 0xBEF9A3F7B2C67915, 0xC67178F2E372532B, 0xCA273ECEEA26619C,
   0xD186B8C721C0C207, 0xEADA7DD6CDE0EB1E, 0xF57D4F7FEE6ED178, 0x06F067AA72176FBA, 0x0A637DC5A2C898A6,
   0x113F9804BEF90DAE, 0x1B710B35131C471B, 0x28DB77F523047D84, 0x32CAAB7B40C72493, 0x3C9EBE0A15C9BEBC,
   0x431D67C49C100D4C, 0x4CC5D4BECB3E42B6, 0x597F299CFC657E2A, 0x5FCB6FAB3AD6FAEC, 0x6C44198C4A475817]

/-- The initial hash value of SHA-384. -/
def shaInit : List DWord :=
  [0xCBBB9D5DC1059ED8, 0x629A292A367CD507, 0x9159015A3070DD17, 0x152FECD8F70E5939, 0x67332667FFC00B31,
   0x8EB44A8768581511, 0xDB0C2E0D64F98FA7, 0x47B5481DBEFA4FA4]

def shaBig0 (x : DWord) : DWord := x.rotateRight 28 ^^^ x.rotateRight 34 ^^^ x.rotateRight 39
def shaBig1 (x : DWord) : DWord := x.rotateRight 14 ^^^ x.rotateRight 18 ^^^ x.rotateRight 41
def shaSmall0 (x : DWord) : DWord := x.rotateRight 1 ^^^ x.rotateRight 8 ^^^ (x >>> 7)
def shaSmall1 (x : DWord) : DWord := x.rotateRight 19 ^^^ x.rotateRight 61 ^^^ (x >>> 6)

/-- The message schedule, newest word first. -/
def shaSched : Nat → List DWord → List DWord
  | 0, w => w
  | n + 1, w => shaSched n ((shaSmall1 (w.getD 1 0) + w.getD 6 0 + shaSmall0 (w.getD 14 0) + w.getD 15 0) :: w)

/-- One round on the working variables a to h. -/
def shaRound (v : List DWord) (kw : DWord × DWord) : List DWord :=
  match v with
  | [a, b, c, d, e, f, g, h] =>
    let t1 := h + shaBig1 e + ((e &&& f) ^^^ (~~~e &&& g)) + kw.1 + kw.2
    let t2 := shaBig0 a + ((a &&& b) ^^^ (a &&& c) ^^^ (b &&& c))
    [t1 + t2, a, b, c, d + t1, e, f, g]
  | v => v

/-- Big-endian bytes of a word, and back. -/
def beBytes (n v : Nat) : List Byte := (leBytes n v).reverse
def beNat (l : List Byte) : Nat := leNat l.reverse

/-- One block of 128 bytes. -/
def shaBlock (h : List DWord) (b : List Byte) : List DWord :=
  let w := (chunks 17 8 b).map fun x => dw (beNat x)
  let all := (shaSched 64 w.reverse).reverse
  let v := (shaK.zip all).foldl shaRound h
  (h.zip v).map fun (x, y) => x + y

/-- The padded message. -/
def shaPad (m : List Byte) : List Byte :=
  let n := m.length
  m ++ [0x80] ++ List.replicate ((239 - n % 128) % 128) 0 ++ beBytes 16 (8 * n)

/-- The 48 digest bytes in the standard's output order. -/
def sha384 (m : List Byte) : List Byte :=
  let p := shaPad m
  let h := (chunks (p.length + 1) 128 p).foldl shaBlock shaInit
  (h.take 6).flatMap fun x => beBytes 8 x.toNat

/-! ### Sessions (R300, R356) -/

def Core.session (k : Core) (n : BitVec 2) : DgSession := Sparse.get ⟨[], false⟩ k.dg n.toNat
def Core.setSession (k : Core) (n : BitVec 2) (x : DgSession) : Core := { k with dg := Sparse.set ⟨[], false⟩ k.dg n.toNat x }

def execDgbeg (t : Tok) (y : Bool) (n : BitVec 2) (s : State) : Out :=
  s.issue { t := t, len := 4, streams := [.c, .w], y := y } fun s => .seq (s.modMyCore (·.setSession n ⟨[], false⟩))

/-- Digest regions lie in memory: anything but the hub's registers. -/
def execDgadd (t : Tok) (y : Bool) (n : BitVec 2) (hs : H) (gso gv : G) (s : State) : Out :=
  s.issue { t := t, len := 4, streams := [.c, .w], y := y, reads := [keyG gso, keyG gv, keyH hs] } fun s =>
    let (c, _) := s.at
    let x := s.myCore.session n
    let off := (s.gr gso).toNat
    let len := (s.gr gv).toNat
    match firstOf [cond (64 ≤ x.regions.length) (.trap 0x4A (n.zeroExtend 64) 0), s.spanChk c hs 1 [kMem] pR (s.anySpace c) off 0 len] with
    | some r => r
    | none =>
      let h := s.myCore.hreg hs
      .seq (s.modMyCore (·.setSession n { x with regions := x.regions ++ [⟨h.va + off, h.base + off, len⟩] }))

/-! ### The message (R301) -/

/-- Insert a region in ascending order of VA. -/
def dgInsert (r : DgRegion) : List DgRegion → List DgRegion
  | [] => [r]
  | x :: l => if r.va < x.va then r :: x :: l else x :: dgInsert r l

/-- Pieces of the union in ascending VA, each byte once: what lies below `lo` is already taken. -/
def dgPieces : Nat → List DgRegion → List DgRegion
  | _, [] => []
  | lo, r :: l =>
    let skip := lo - r.va
    let rest := dgPieces (max lo (r.va + r.len)) l
    if r.len ≤ skip then rest else ⟨r.va + skip, r.ppa + skip, r.len - skip⟩ :: rest

def dgUnion (l : List DgRegion) : List DgRegion := dgPieces 0 (l.foldl (fun a r => dgInsert r a) [])

/-- The lines that the engine reads for a piece, by PPA and length: at most 64 bytes each, cut at multiples of 64. -/
def dgCut : Nat → Nat → Nat → List (Nat × Nat)
  | 0, _, _ => []
  | fuel + 1, a, n =>
    let k := min n (64 - a % 64)
    if n = 0 then [] else (a, k) :: dgCut fuel (a + k) (n - k)
def DgRegion.lines (r : DgRegion) : List (Nat × Nat) := dgCut (r.len / 64 + 2) r.ppa r.len
def dgLines (l : List DgRegion) : List (Nat × Nat) := (dgUnion l).flatMap (·.lines)

/-- Where the 48 bytes may go (R301). -/
def State.ownOrHbm (s : State) (c : Nat) : Space := s.inSpace c fun l => l = .own || l = .hbm

/-- The engine reads its first line in the next tick; the stream goes on once the digest is written (R302). -/
def execDgend (t : Tok) (y : Bool) (n : BitVec 2) (hd : H) (gdo : G) (s : State) : Out :=
  s.issue { t := t, len := 4, streams := [.c, .w], y := y, reads := [keyG gdo, keyH hd],
            wait := if s.myCore.dgRun.isSome then some .sync else none } fun s =>
    let (c, i) := s.at
    let x := s.myCore.session n
    let off := (s.gr gdo).toNat
    match firstOf [cond x.marked (.trap 0x4A (n.zeroExtend 64) 1), s.spanChk c hd 0 [kMem] pW (s.ownOrHbm c) off 0 48] with
    | some r => r
    | none =>
      let (id, s) := s.fresh
      let run : DgRun := ⟨id, i, dgLines x.regions, [], (s.myCore.hreg hd).base + off⟩
      .hold ((s.modMyCore fun k => { k with dgRun := some run }).plan (s.now + 1) 43 (.digestComplete c)) .digest

/-- The digest engine has something to do again in the next tick. -/
def State.dgNext (s : State) (core : Nat) : State := s.plan (s.now + 1) 43 (.digestComplete core)

/-- The bytes of pieces of one line, as this tick samples them. -/
def State.dgBytes (s : State) (l : List (Nat × Nat)) : List Byte := l.flatMap fun e => s.sampled (ppaLocal e.1) e.2

/-- The engine reads a line, once it is granted, and takes from it all pieces `l` that follow each other there, the first of `n` bytes at PPA `a`:
what lies in another package is a free value (log 8). -/
def State.dgRead (s : State) (core : Nat) (run : DgRun) (a n : Nat) (l r : List (Nat × Nat)) : State :=
  let who : Who := { core := some core, stream := some run.stream, unit := uDigest }
  let keep (s : State) (bs : List Byte) : State :=
    (s.modCore core fun k => { k.count 72 with dgRun := some { run with left := r, got := run.got ++ bs } }).dgNext core
  if ppaPkg a ≠ s.pkg then
    keep { s with freeCtr := s.freeCtr + 1 } (l.flatMap fun e => (List.range e.2).map fun i => Config.remoteByte s.freeCtr (e.1 + i))
  else
    match s.classGrant 3 (ppaLocal a) n false with
    | none => s.dgNext core
    | some t =>
      match l.findSome? fun e => t.uncorr (ppaLocal e.1) e.2 with
      | some g => (t.modCore core fun k => { k with dgRun := none }).contain 1 (arrayOf g) who (some (mkPpa t.pkg g))
      | none => keep (l.foldl (fun t e => t.touch who (ppaLocal e.1) e.2) t) (t.dgBytes l)

/-- The hub's one engine works for the `dgend` of another core that issued before (log 65). -/
def State.dgTaken (s : State) (run : DgRun) : Bool := s.cores.any fun e => e.2.dgRun.any (·.id < run.id)

/-- A tick of the digest engine for a core: the next line of its regions, or, after the last one, the 48 bytes, each within the
budget of class 3 (R302, R339). DESIGN CHOICE (log 65): the engine serves one `dgend` after the other, in the order of their issue. -/
def execDigestComplete (core : Nat) (s : State) : Out :=
  .next (match (s.core core).dgRun with
    | none => s
    | some run =>
      if s.gated 993 || s.dgTaken run then s.dgNext core
      else match run.left with
      | (a, n) :: r => s.dgRead core run a n ((a, n) :: r.takeWhile (·.1 / 64 = a / 64)) (r.dropWhile (·.1 / 64 = a / 64))
      | [] =>
        match s.classGrant 3 (ppaLocal run.dst) 48 true with
        | none => s.dgNext core
        | some t =>
          let t := t.store { core := some core, stream := some run.stream, unit := uDigest } (ppaLocal run.dst) (sha384 run.got)
          (t.modCore core fun k => { k with dgRun := none }).releaseHold core run.stream (t.now + 1))

end Sys2Proof.Machine
end

