-- ==== Sys2Proof/Machine/GeMath.lean ====
section
/-! DEFINITION. The arithmetic of the grammar engine: correctly rounded exponential and logarithm, the filter of candidates, the
draw and the length of an accepted path (spec 13 R322 to R324). -/

namespace Sys2Proof.Machine

/-! ### Exponential and logarithm (log 21)

Both are transcendental at every argument used but 0 and 1, and their distance from a rounding point of FP32 is far above
the error of 640 fraction bits. -/

def mathBits : Nat := 640

/-- Sum of z^k / k! from term `t` on, in units of 2^-640. -/
def expSeries (z : Nat) : Nat → Nat → Nat → Nat
  | 0, _, t => t
  | fuel + 1, k, t => t + expSeries z fuel (k + 1) (t * z / 2 ^ mathBits / k)

/-- Square n times. -/
def squareUp : Nat → Nat → Nat
  | 0, x => x
  | n + 1, x => squareUp n (x * x / 2 ^ mathBits)

/-- rne(exp(-x)) as FP32 bits, x a non-negative number of 2^-149. -/
def expNeg (x : Nat) : Nat :=
  if x = 0 then 0x3F800000
  else if 110 * 2 ^ 149 ≤ x then 0
  else
    let z := x * 2 ^ (mathBits - 149) / 2 ^ 8
    let e := squareUp 8 (expSeries z 120 1 (2 ^ mathBits))
    (fmtFP32.round .rne false 0 ⟨false, 2 ^ mathBits, e⟩).1

/-- Sum of (zn / zd)^(2j+1) / (2j+1) from term `t` on, in units of 2^-640. -/
def atanhSeries (zn zd : Nat) : Nat → Nat → Nat → Nat
  | 0, _, _ => 0
  | fuel + 1, k, t => t / k + atanhSeries zn zd fuel (k + 2) (t * zn * zn / (zd * zd))
def atanh640 (zn zd : Nat) : Nat := atanhSeries zn zd 220 1 (zn * 2 ^ mathBits / zd)

/-- rne(ln(n / 2^24)) as FP32 bits, for n below 2^24; ln(0) is −∞ (R324). -/
def lnDraw (n : Nat) : Nat :=
  if n = 0 then 0xFF800000
  else
    let k := Nat.log2 n
    let f := 2 * atanh640 (n - 2 ^ k) (n + 2 ^ k)
    let l := (24 - k) * (2 * atanh640 1 3)
    (fmtFP32.round .rne false 0 ⟨true, l - f, 2 ^ mathBits⟩).1

/-! ### Exact sums -/

/-- A finite FP32 pattern as a number of 2^-149. -/
def fp149 (v : Nat) : Int :=
  let m : Nat := v % 2 ^ 23
  let e : Nat := v / 2 ^ 23 % 256
  let a : Nat := if e = 0 then m else (2 ^ 23 + m) * 2 ^ (e - 1)
  let x : Int := a
  if v / 2 ^ 31 % 2 = 1 then -x else x

def isFin (v : Nat) : Bool := v / 2 ^ 23 % 256 ≠ 255
def isInf (v : Nat) : Bool := v % 2 ^ 31 = 0x7F800000
def isNanBits (v : Nat) : Bool := v / 2 ^ 23 % 256 = 255 && v % 2 ^ 23 ≠ 0

/-- T and p that R322 allows. -/
def filterOk (t p : Nat) : Bool := isFin t && t < 2 ^ 31 && isFin p && 0 < p && p < 2 ^ 31

/-- Weight of a candidate against the first one, as a number of 2^-149 (R322). -/
def weightOf (t v0 v : Nat) : Nat :=
  if isInf v0 then (if v = v0 then 2 ^ 149 else 0)
  else
    let d := ((f32 v).add .rne (f32 v0).flip).div (f32 t)
    let q := fmtFP32.result .rne false 0 d
    if isInf q then 0 else (fp149 (expNeg (fp149 q).natAbs)).toNat

/-- The least m ≥ 1 whose first m weights reach p x S; everything where p ≥ 1 (R322; log 21). -/
def keepGo (need : Nat) : List Nat → Nat → Nat → Nat
  | [], m, _ => m
  | w :: r, m, acc => if need ≤ (acc + w) * 2 ^ 149 then m + 1 else keepGo need r (m + 1) (acc + w)
def keepCount (p : Nat) (ws : List Nat) : Nat :=
  let pv := (fp149 p).toNat
  if 2 ^ 149 ≤ pv then ws.length else keepGo (pv * ws.foldl (· + ·) 0) ws 0 0

/-- FILTER (R322): the ranked list, the weights and the kept count; none where it is empty. -/
def filterCands (l : List Cand) (t k p : Nat) (masked : Word → Bool) : Option (List Cand × List Nat × Nat) :=
  let l := l.filter fun c => c.2 ≠ 0xFFFFFFFF && !isNanBits c.1.toNat && !masked c.2
  let c := (l.foldl (fun l x => candInsert x l) []).take k
  match c with
  | [] => none
  | x :: _ =>
    if t = 0 then some (c, 2 ^ 149 :: List.replicate (c.length - 1) 0, 1)
    else
      let ws := c.map fun y => weightOf t x.1.toNat y.1.toNat
      some (c, ws, keepCount p ws)

/-- The smallest j whose sum of weights passes u of the whole (R323); u is n / 2^24. -/
def chooseGo (n tot : Nat) : List Nat → Nat → Nat → Nat
  | [], j, _ => j - 1
  | w :: r, j, acc => if n * tot < (acc + w) * 2 ^ 24 then j else chooseGo n tot r (j + 1) (acc + w)
def chooseRank (n : Nat) (ws : List Nat) : Nat := chooseGo n (ws.foldl (· + ·) 0) ws 0 0

/-- The unit draw of a counter as a number of 2^-24 (R136). -/
def unit24 (key ctr : DWord) : Nat := (cbg64 key ctr).toNat / 2 ^ 40

/-- The length of the accepted path: records (lp, lq), draws, the sum so far, whether every term so far counts (R324). -/
def acceptGo (key ctr : DWord) : List (Nat × Nat) → Nat → Int → Bool → Nat → Nat
  | [], _, _, _, best => best
  | (lp, lq) :: r, j, sum, ok, best =>
    let ok := ok && isFin lp && isFin lq
    let sum := sum + (fp149 lp - fp149 lq)
    let l := lnDraw (unit24 key (ctr + dw j))
    let pass := ok && (isInf l || fp149 l ≤ sum)
    acceptGo key ctr r (j + 1) sum ok (if pass then j + 1 else best)

end Sys2Proof.Machine
end

