-- ==== Sys2Proof/Machine/Ge.lean ====
section
/-! DEFINITION. The grammar engine: images and walks, contexts and their records in memory, the timing of a command, and the
commands (spec 13 R303 to R327; 19 R401; 20 R422; 21 R449 to R451). -/

namespace Sys2Proof.Machine

/-! ### Images (R303 to R305) -/

/-- A grammar image's header, at a local address. -/
structure GeImg where
  base : Nat
  magic : Nat
  version : Nat
  vocab : Nat
  eos : Nat
  nstate : Nat
  start : Nat
  budget : Nat
  smax : Nat
  stateOff : Nat
  nedge : Nat
  edgeOff : Nat
  nnode : Nat
  trieOff : Nat
  rest : Nat
deriving DecidableEq, Repr

def State.geImg (s : State) (ppa : Nat) : GeImg :=
  let l := ppaLocal ppa
  let w (i : Nat) : Nat := s.word (l + 4 * i) 4
  ⟨l, w 0, w 1, w 2, w 3, w 4, w 5, w 6, w 7, w 8, w 9, w 10, w 11, w 12, s.word (l + 0x34) 12⟩

/-- The checks of R315; `avail` is what the handle holds from the header on. -/
def GeImg.ok (g : GeImg) (ppa avail : Nat) : Bool :=
  g.magic = 0x31524D47 && g.version = 1 && 1 ≤ g.vocab && g.vocab ≤ 262144 && g.eos < g.vocab && 1 ≤ g.nstate && g.nstate ≤ 65536
    && g.start < g.nstate && 1024 ≤ g.budget && g.budget ≤ 1048575 && 1 ≤ g.smax && g.smax ≤ 1024 && 2 ≤ g.nnode && g.nnode ≤ 2 ^ 24
    && g.stateOff % 8 = 0 && g.edgeOff % 8 = 0 && g.trieOff % 8 = 0 && g.rest = 0 && ppa % 4096 = 0
    && g.stateOff + 8 * g.nstate ≤ avail && g.edgeOff + 8 * g.nedge ≤ avail && g.trieOff + 8 * g.nnode ≤ avail

/-- Lines of a mask; a mask that allows no token. -/
def GeImg.maskLines (g : GeImg) : Nat := (g.vocab + 511) / 512
def GeImg.zeroMask (g : GeImg) : List (List Byte) := List.replicate g.maskLines (List.replicate 64 0)

/-! ### Walks (R306, R450, R451) -/

/-- Statuses (R314, R449). -/
abbrev geOk : Nat := 0
abbrev geEmpty : Nat := 1
abbrev geCancelled : Nat := 2
abbrev geReject : Nat := 3
abbrev geNosnap : Nat := 4
abbrev geBadimg : Nat := 5
abbrev geBound : Nat := 6
abbrev geRange : Nat := 7
abbrev geNock : Nat := 8
abbrev geNogram : Nat := 9
abbrev geOverrun : Nat := 10
abbrev geDamaged : Nat := 11
abbrev geUnbound : Nat := 12

/-- What an evaluation of step comes to; the stack has its top first. -/
inductive GeStep
  | fail
  | bad
  | to (state : Nat) (stack : List Nat)
deriving DecidableEq, Repr

/-- The edges of a state from edge `e` on, for byte `b`: the outcome, the records read (newest first), their number. -/
def GeImg.edges (g : GeImg) (s : State) (b : Nat) (stack : List Nat) : Nat → Nat → List Nat → Nat → GeStep × List Nat × Nat
  | 0, _, seen, n => (.fail, seen, n)
  | fuel + 1, e, seen, n =>
    if g.nedge ≤ e then (.bad, seen, n)
    else
      let l := g.base + g.edgeOff + 8 * e
      let w := s.word l
      let push := w / 2 ^ 36 % 2 ^ 12
      let next := w / 2 ^ 20 % 2 ^ 16
      let pop := w / 2 ^ 8 % 2 ^ 12
      let seen := l :: seen
      if w % 256 = b && (pop = 0xFFF || stack.head? = some pop) then
        let st := if pop = 0xFFF then stack else stack.tail
        if g.nstate ≤ next then (.bad, seen, n + 1)
        else if push = 0xFFF then (.to next st, seen, n + 1)
        else if st.length = g.smax then (.fail, seen, n + 1)
        else (.to next (push :: st), seen, n + 1)
      else GeImg.edges g s b stack fuel (e + 1) seen (n + 1)

/-- A walk: records read (newest first), tokens with the configuration that each reaches, cost, status where it stopped. -/
structure GeWalk where
  seen : List Nat
  found : List (Nat × Nat × List Nat)
  cost : Nat
  stop : Option Nat
deriving DecidableEq, Repr

/-- Go on with nodes still open: end of a subtree, next node, configuration. -/
def GeImg.walkGo (g : GeImg) (s : State) (limit : Option Nat) : Nat → List (Nat × Nat × Nat × List Nat) → GeWalk → GeWalk
  | 0, _, w => w
  | _ + 1, [], w => w
  | fuel + 1, (top, k, st, stack) :: fs, w =>
    if top ≤ k then GeImg.walkGo g s limit fuel fs w
    else
      let l := g.base + g.trieOff + 8 * k
      let v := s.word l
      let skip := v / 2 ^ 32
      let isEnd := v / 2 ^ 26 % 2 = 1
      let tok := v / 2 ^ 8 % 2 ^ 18
      let w := { w with seen := l :: w.seen }
      if skip < k + 1 || top < skip || (isEnd && (g.vocab ≤ tok || tok = g.eos)) then { w with stop := some geBadimg }
      else
        let sl := g.base + g.stateOff + 8 * st
        let sw := s.word sl
        let (r, seen, n) := g.edges s (v % 256) stack (sw / 2 ^ 32 % 2 ^ 16) (sw % 2 ^ 32) (sl :: w.seen) 0
        let w := { w with seen := seen, cost := w.cost + 1 + n }
        if limit.any (· < w.cost) then { w with stop := some geOverrun }
        else
          match r with
          | .bad => { w with stop := some geBadimg }
          | .fail => GeImg.walkGo g s limit fuel ((top, skip, st, stack) :: fs) w
          | .to st' stack' =>
            let w := if isEnd then { w with found := (tok, st', stack') :: w.found } else w
            GeImg.walkGo g s limit fuel ((skip, k + 1, st', stack') :: (top, skip, st, stack) :: fs) w

/-- The walk of a configuration: the tokens of its mask. -/
def GeImg.walk (g : GeImg) (s : State) (c : GeConf) (limit : Option Nat) : GeWalk :=
  if c.done then ⟨[], [], 0, none⟩
  else
    let root := g.base + g.trieOff
    let sl := g.base + g.stateOff + 8 * c.state
    if s.word root / 2 ^ 32 ≠ g.nnode then ⟨[root], [], 0, some geBadimg⟩
    else
      let w := g.walkGo s limit (2 * g.nnode + 2) [(g.nnode, 1, c.state, c.stack.reverse)] ⟨[sl, root], [], 0, none⟩
      if w.stop.isNone && s.word sl / 2 ^ 63 = 1 && c.stack.isEmpty then { w with found := (g.eos, c.state, []) :: w.found } else w

/-- Mask lines of a list of tokens (R317). -/
def maskOf (m : Nat) (toks : List Nat) : List (List Byte) :=
  let set := toks.foldl (fun (b : Sparse Byte) t => Sparse.set 0 b (t / 8) (Sparse.get 0 b (t / 8) ||| BitVec.ofNat 8 (2 ^ (t % 8)))) []
  (List.range m).map fun j => Sparse.getAll 0 set (64 * j) 64

/-! ### Contexts and the SSR (R307 to R309) -/

def State.geCtx (s : State) (n : Nat) : GeCtx := Sparse.get .idle s.ge n
def State.setGe (s : State) (n : Nat) (c : GeCtx) : State := { s with ge := Sparse.set .idle s.ge n c }
def State.modGe (s : State) (n : Nat) (f : GeCtx → GeCtx) : State := s.setGe n (f (s.geCtx n))

/-- GECTL (R308). -/
def GeCtx.ctl (c : GeCtx) : DWord :=
  dw (c.ctx.toNat * 2 ^ 24 + (if c.nogr then 4 else 0) + (if c.bound then 2 else 0) + (if c.cancel.isSome then 1 else 0))

def GeCtx.slot (c : GeCtx) (k : Nat) : GeSlot := Sparse.get ⟨.zero, 0, 0, false⟩ c.slots k
def GeCtx.setSlot (c : GeCtx) (k : Nat) (x : GeSlot) : GeCtx := { c with slots := Sparse.set ⟨.zero, 0, 0, false⟩ c.slots k x }
/-- Every slot becomes invalid; its contents stay. -/
def GeCtx.dropSlots (c : GeCtx) : GeCtx := { c with slots := c.slots.map fun e => (e.1, { e.2 with valid := false }) }

abbrev ssrSize : Nat := 0x43000

def State.ssrWord (s : State) (c : GeCtx) (off : Nat) : Nat := s.word (ppaLocal c.ssr + off)
def State.ssrSet (s : State) (c : GeCtx) (off v : Nat) : State := s.store { unit := uGe } (ppaLocal c.ssr + off) (leBytes 8 v)
def State.kvlen (s : State) (c : GeCtx) : Nat := s.ssrWord c 0x10
def State.commit (s : State) (c : GeCtx) : Nat := s.ssrWord c 0x18

/-- A configuration record (R309): what it writes, and what stands in one. -/
def GeConf.record (c : GeConf) (valid : Bool) : List Byte :=
  leBytes 8 (c.state % 2 ^ 16 + c.stack.length % 2 ^ 11 * 2 ^ 16 + (if c.done then 2 ^ 27 else 0) + (if valid then 2 ^ 28 else 0))
    ++ leBytes 8 c.lastTok.toNat ++ c.stack.flatMap fun x => leBytes 2 x
def State.confAt (s : State) (l : Nat) : GeConf × Bool :=
  let w := s.word l
  (⟨w % 2 ^ 16, (List.range (w / 2 ^ 16 % 2 ^ 11)).map fun i => s.word (l + 0x10 + 2 * i) 2, w / 2 ^ 27 % 2 = 1, BitVec.ofNat 32 (s.word (l + 8))⟩,
    w / 2 ^ 28 % 2 = 1)

/-- A configuration that a grammar can hold (R451). -/
def GeConf.legal (c : GeConf) (g : GeImg) : Bool := c.state < g.nstate && c.stack.length ≤ g.smax && c.stack.all (· ≤ 4094)

/-- A write of 1 to CANCEL in period `now` (R308). -/
def GeCtx.asked (c : GeCtx) (now : Nat) : GeCtx := { c with cancel := some ((c.cancel.map (·.1)).getD now, now) }

/-- A command that starts in period `b` sees CANCEL: of a write before it (R308). -/
def GeCtx.cancelled (c : GeCtx) (b : Nat) : Bool := c.cancel.any (·.1 < b)

/-- The cancellation takes effect at `b`: a write of that very period stands for later commands (R308, R448). -/
def GeCtx.uncancel (c : GeCtx) (b : Nat) : GeCtx := { c with cancel := c.cancel.bind fun e => if b ≤ e.2 then some (e.2, e.2) else none }

/-- Every CK entry above a position becomes invalid. -/
def State.dropCk (s : State) (c : GeCtx) (pos : Nat) : State :=
  (List.range 16).foldl (fun s i =>
    let v := s.ssrWord c (0x300 + 8 * i)
    if v / 2 ^ 63 = 1 && pos < v % 2 ^ 32 then s.ssrSet c (0x300 + 8 * i) (v % 2 ^ 63) else s) s

/-- The greatest valid checkpoint position. -/
def State.topCk (s : State) (c : GeCtx) : Option Nat :=
  (List.range 16).foldl (fun b i =>
    let v := s.ssrWord c (0x300 + 8 * i)
    if v / 2 ^ 63 = 1 then some (max (b.getD 0) (v % 2 ^ 32)) else b) none

/-! ### What a command does at its start tick -/

/-- What a command comes to: status, value, lines of a mask. -/
structure GeAns where
  s : State
  status : Nat
  val : Nat
  lines : List (List Byte)

def geAns (s : State) (status : Nat) (val : Nat := 0) : GeAns := ⟨s, status, val, []⟩

/-- An error that no code can correct in what a command reads: the record, and the context that it names is marked (R451). -/
def State.geDamage (s : State) (x : GeCmd) (array : Nat) (addr : Option Nat) : State :=
  let s := s.raise 2 6 array { unit := uGe } addr 0 0
  let s := if x.strict then s.voids x.core 2 6 else s
  match x.gctx with
  | some n => s.modGe n fun c => if c.bound then { c with damaged := true } else c
  | none => s

/-- Bytes that a context takes in the GE array; the spec gives the array no layout (R371; log 40). -/
abbrev geSpan : Nat := 2 ^ 19

/-- The command reads its context in the GE array (R371, R451). -/
def State.geArray (s : State) (x : GeCmd) : State × Option Nat :=
  s.softRead { unit := uGe } none 10 (geSpan * x.gctx.getD 0) geSpan

/-- A context is written whole (R373). -/
def State.newGe (s : State) (n : Nat) (c : GeCtx) : State := (s.softWrite { unit := uGe } none 10 (geSpan * n) geSpan).setGe n c

/-- The command reads memory: a granule that no code can correct marks its context, and the reply is DAMAGED (R451). -/
def State.geReads (s : State) (x : GeCmd) (rs : List (Nat × Nat)) (f : State → GeAns) : GeAns :=
  match rs.findSome? fun (l, n) => s.uncorr l n with
  | some g => geAns (s.geDamage x (arrayOf g) (some (mkPpa s.pkg g))) geDamaged
  | none => f (rs.foldl (fun s (l, n) => s.touch { unit := uGe } l n) s)

def geHdr (ppa : Nat) : Nat × Nat := (ppaLocal ppa, 64)

/-- `gbind` (R315). -/
def State.geBind (s : State) (x : GeCmd) (n ssr : Nat) (gram : Option (Nat × Nat)) (ckint : Nat) : GeAns :=
  if (s.geCtx n).bound then geAns s geBound
  else
    s.geReads x (gram.toList.map fun e => geHdr e.1) fun s =>
      let ok := match gram with
        | some (ppa, avail) => (s.geImg ppa).ok ppa avail
        | none => true
      if !ok || ckint = 0 then geAns s geBadimg
      else
        let conf : GeConf := match gram with
          | some (ppa, _) => ⟨(s.geImg ppa).start, [], false, 0⟩
          | none => .zero
        let g := gram.elim 0 (·.1)
        let c : GeCtx := { GeCtx.idle with bound := true, nogr := gram.isNone, ctx := x.ctx, grammar := g, ssr := ssr, ckint := ckint,
                                           live := conf, base := conf }
        let zero := leBytes 8 0
        let hdr := leBytes 8 0x31525353 ++ leBytes 8 (g + (if gram.isNone then 2 ^ 63 else 0)) ++ zero ++ zero ++ leBytes 8 ckint
          ++ leBytes 8 x.ctx.toNat ++ List.replicate (0x300 - 0x30) 0 ++ leBytes 8 (2 ^ 63) ++ List.replicate 120 0
        geAns ((s.newGe n c).store { unit := uGe } (ppaLocal ssr) hdr) geOk

/-- `gmask` (R317, R450). -/
def State.geMask (s : State) (x : GeCmd) (c : GeCtx) : GeAns :=
  let g := s.geImg c.grammar
  let w := g.walk s c.live (some (g.budget - g.maskLines - 16))
  let a := s.geReads x (geHdr c.grammar :: w.seen.reverse.map fun l => (l, 8)) fun s => geAns s (w.stop.getD geOk)
  { a with lines := if a.status = geOk then maskOf g.maskLines (w.found.map (·.1)) else g.zeroMask }

/-- `gadv` (R318). -/
def State.geAdv (s : State) (x : GeCmd) (n : Nat) (c : GeCtx) (t : BitVec 32) : GeAns :=
  let g := s.geImg c.grammar
  let w := g.walk s c.live none
  s.geReads x (geHdr c.grammar :: w.seen.reverse.map fun l => (l, 8)) fun s =>
    match w.stop, w.found.find? fun e => e.1 = t.toNat with
    | some st, _ => geAns s st
    | none, none => geAns s geReject
    | none, some (_, st, stack) =>
      let live : GeConf := if t.toNat = g.eos then { c.live with done := true, lastTok := t } else ⟨st, stack.reverse, false, t⟩
      geAns (s.setGe n { c with live := live }) geOk

/-- `gsave` that has started at `b` (R308, R316); a damaged context leaves an SSR that no `grest` accepts (R451). -/
def State.geSave (s : State) (n : Nat) (c : GeCtx) (b : Nat) : GeAns :=
  let at_ (s : State) (off : Nat) (bs : List Byte) : State := s.store { unit := uGe } (ppaLocal c.ssr + off) bs
  if c.damaged then geAns ((s.ssrSet c 0 0).setGe n .idle) geOk
  else
    let s := s.ssrSet c 0x08 (c.grammar + (if c.nogr then 2 ^ 63 else 0))
    let s := s.ssrSet c 0x28 (c.ctx.toNat + (if c.cancelled b then 2 ^ 8 else 0))
    let s := (List.range 64).foldl (fun s k =>
      let x := c.slot k
      s.ssrSet c (0x100 + 8 * k) (x.token.toNat + x.parent.toNat * 2 ^ 32 + (if x.valid then 2 ^ 63 else 0))) s
    let s :=
      if c.nogr then s
      else (List.range 64).foldl (fun s k => at_ s (0x3000 + 0x1000 * k) ((c.slot k).conf.record (c.slot k).valid))
        (at_ (at_ s 0x1000 (c.live.record true)) 0x2000 (c.base.record true))
    geAns (s.setGe n .idle) geOk

/-- The context that an SSR records. -/
def State.ssrCtx (s : State) (ssr : Nat) (ctx : Byte) : GeCtx :=
  let l := ppaLocal ssr
  let w := s.word (l + 8)
  let nogr := w / 2 ^ 63 = 1
  let st := s.word (l + 0x28)
  let c : GeCtx := { GeCtx.idle with bound := true, nogr := nogr, ctx := ctx, grammar := w % 2 ^ 58, ssr := ssr,
                                     ckint := s.word (l + 0x20) % 2 ^ 16, cancel := if st / 2 ^ 8 % 2 = 1 then some (0, 0) else none }
  let c := if nogr then c else { c with live := (s.confAt (l + 0x1000)).1, base := (s.confAt (l + 0x2000)).1 }
  (List.range 64).foldl (fun c k =>
    let v := s.word (l + 0x100 + 8 * k)
    let (conf, ok) := if nogr then (GeConf.zero, true) else s.confAt (l + 0x3000 + 0x1000 * k)
    c.setSlot k ⟨conf, BitVec.ofNat 32 v, BitVec.ofNat 7 (v / 2 ^ 32), ok && v / 2 ^ 63 = 1⟩) c

/-- `grest` (R316, R451). -/
def State.geRest (s : State) (x : GeCmd) (n ssr gram : Nat) : GeAns :=
  let l := ppaLocal ssr
  if (s.geCtx n).bound then geAns s geBound
  else
    s.geReads x [(l, 0x400)] fun s =>
      let w := s.word (l + 8)
      let nogr := w / 2 ^ 63 = 1
      if s.word l ≠ 0x31525353 || s.word (l + 0x28) % 256 ≠ x.ctx.toNat || (!nogr && w % 2 ^ 58 ≠ gram) then geAns s geBadimg
      else
        let conf (k : Nat) : Nat × Nat := (l + 0x1000 * (k + 1), 0x10 + 2 * (s.word (l + 0x1000 * (k + 1)) / 2 ^ 16 % 2 ^ 11))
        s.geReads x (if nogr then [] else geHdr gram :: (List.range 66).map conf) fun s =>
          let c := s.ssrCtx ssr x.ctx
          let g := s.geImg gram
          let ok := nogr || (c.live.legal g && c.base.legal g && c.slots.all fun e => !e.2.valid || e.2.conf.legal g)
          if ok then geAns (s.newGe n c) geOk else geAns s geBadimg

/-- The start tick of a command, in periods (R312). -/
def GeCmd.start (x : GeCmd) : Nat := (x.begun.map (·.1)).getD 0

/-- The end of `accept` and `accmb` (R325). -/
def State.geFinish (s : State) (x : GeCmd) (n : Nat) (c : GeCtx) (len : Nat) (node : Nat) : GeAns :=
  if c.cancelled x.start then
    s.geReads x [(ppaLocal c.ssr, 0x400)] fun s =>
      let c' := { (c.uncancel x.start).dropSlots with live := if c.nogr then c.live else c.base }
      let s := s.setGe n c'
      let s := (List.range 64).foldl (fun s k =>
        let v := s.ssrWord c (0x100 + 8 * k)
        if v / 2 ^ 63 = 1 then s.ssrSet c (0x100 + 8 * k) (v % 2 ^ 63) else s) s
      geAns ((s.ssrSet c 0x10 (s.commit c)).dropCk c (s.commit c)) geCancelled
  else if c.nogr then geAns s geOk len
  else if len = 0 then geAns (s.setGe n { c with live := c.base }) geOk
  else
    let k := c.slot node
    if 63 < node || !k.valid then geAns s geNosnap len
    else geAns (s.setGe n { c with live := { k.conf with lastTok := k.token } }) geOk len

/-- Pair `i` of a list in the layout of `topkrd`. -/
def GeCmd.pair (x : GeCmd) (first i : Nat) : Cand := (BitVec.ofNat 32 (x.word first (8 * i)), BitVec.ofNat 32 (x.word first (8 * i + 4)))

/-- `sample` (R323). -/
def State.geSample (s : State) (x : GeCmd) (n k : Nat) (tp ctr : DWord) (key : Nat) (masked : Bool) : GeAns :=
  let lines := (n + 7) / 8
  let off (w : Word) : Bool :=
    masked && !((List.range n).any fun i => (x.pair 0 i).2 = w && ((x.bytes (lines + i) 0 1).headD 0).getLsbD (w.toNat % 8))
  match filterCands ((List.range n).map (x.pair 0)) (bits tp 31 0) k (bits tp 63 32) off with
  | none => geAns s geEmpty 0xFFFFFFFF
  | some (c, ws, m) =>
    let kv : DWord := (Sparse.get 0 (s.ctxOf x.core).rngReg key).truncate 64
    let j := chooseRank (unit24 kv ctr) (ws.take m)
    geAns s geOk ((c.getD j candNone).2.toNat + j * 2 ^ 32 + m * 2 ^ 40)

/-- The path length of `accmb` (R326). -/
def blockLen (x : GeCmd) (n k : Nat) (tp : DWord) : Nat → Nat → Nat
  | 0, i => i
  | fuel + 1, i =>
    match filterCands ((List.range 64).map (x.pair ((n + 3) / 4 + 8 * i))) (bits tp 31 0) k (bits tp 63 32) fun _ => false with
    | some (c, _, m) => if (c.take m).any fun e => e.2.toNat = x.word 0 (16 * i) then blockLen x n k tp fuel (i + 1) else i
    | none => i

/-- The grammar commands (R401). -/
def GeOp.grammar : GeOp → Bool
  | .gmask _ => true
  | .gadv _ => true
  | .gfork _ _ => true
  | .groll _ => true
  | _ => false

/-- The command finds its context by name: it is not `gbind` without UNB, `grest` or `sample` (R311). -/
def GeOp.named : GeOp → Bool
  | .gbind .. => false
  | .grest .. => false
  | .sample .. => false
  | _ => true

/-- NODE of path record `i`. -/
def GeCmd.node (x : GeCmd) (i : Nat) : Nat := leNat (x.bytes 0 (16 * i + 12) 1)

/-- A command on a context that stands as its push found it. -/
def State.geDo (s : State) (x : GeCmd) : GeAns :=
  let n := x.gctx.getD 0
  let c := s.geCtx n
  match x.op with
  | .gbind ssr gram ck => s.geBind x n ssr gram ck
  | .unbind => geAns (s.setGe n .idle) geOk
  | .gmask _ => s.geMask x c
  | .gadv t => s.geAdv x n c t
  | .gfork k p =>
    if 63 < k.toNat then geAns s geRange else geAns (s.setGe n (c.setSlot k.toNat ⟨c.live, c.live.lastTok, p, true⟩)) geOk
  | .groll k =>
    if k = 127 then geAns (s.setGe n { c with live := c.base }) geOk
    else if k.toNat ≤ 63 && (c.slot k.toNat).valid then geAns (s.setGe n { c with live := (c.slot k.toNat).conf }) geOk
    else geAns s geNosnap
  | .gcommit =>
    s.geReads x [(ppaLocal c.ssr + 0x10, 8)] fun s =>
      let c' := { c.dropSlots with base := if c.nogr then c.base else c.live }
      geAns ((s.setGe n c').ssrSet c 0x18 (s.kvlen c)) geOk
  | .gsave => s.geSave n c x.start
  | .grest ssr gram => s.geRest x n ssr gram
  | .seqck p =>
    s.geReads x [(ppaLocal c.ssr + 0x18, 8)] fun s =>
      if p.toNat < s.commit c then geAns s geRange
      else
        let s := s.ssrSet c 0x10 p.toNat
        geAns (if p.toNat % c.ckint = 0 then s.ssrSet c (0x300 + 8 * (p.toNat / c.ckint % 16)) (p.toNat + 2 ^ 63) else s) geOk p.toNat
  | .seqroll a =>
    s.geReads x [(ppaLocal c.ssr + 0x10, 16), (ppaLocal c.ssr + 0x300, 128)] fun s =>
      if a.toNat < s.commit c || s.kvlen c < a.toNat then geAns s geRange
      else
        let s := (s.ssrSet c 0x10 a.toNat).dropCk c a.toNat
        match s.topCk c with
        | some q => geAns s geOk q
        | none => geAns s geNock
  | .sample _ n k tp ctr key mask => s.geSample x n k tp ctr key mask.isSome
  | .accept _ m ctr key =>
    let kv : DWord := (Sparse.get 0 (s.ctxOf x.core).rngReg key).truncate 64
    let rs := (List.range m).map fun i => (x.word 0 (16 * i + 4), x.word 0 (16 * i + 8))
    let len := acceptGo kv ctr rs 0 0 true 0
    s.geFinish x n c len (x.node (len - 1))
  | .accmb _ _ m k tp =>
    let len := blockLen x m k tp m 0
    s.geFinish x n c len (x.node (len - 1))

/-- The status of a command that changes nothing: its context has been released, or a grammar command meets a NOGR context (R311, R312, R401,
R451). -/
def State.geIdle (s : State) (x : GeCmd) : Option Nat :=
  let c := s.geCtx (x.gctx.getD 0)
  if x.op.named && (!c.bound || c.ctx ≠ x.ctx) then some geUnbound
  else if x.op.grammar && c.nogr then some (if c.damaged then geDamaged else geNogram)
  else none

/-- Ticks that a command takes its walker for (R312). -/
def State.geTicks (s : State) (x : GeCmd) : Nat :=
  if (s.geIdle x).isSome then 8
  else
    match x.op with
    | .gbind .. => 640
    | .unbind => 640
    | .gmask _ => (s.geImg (s.geCtx (x.gctx.getD 0)).grammar).budget
    | .gadv _ => 64
    | .gfork _ _ => 40
    | .groll _ => 40
    | .gcommit => 8
    | .gsave => 4736
    | .grest .. => 4736
    | .seqck _ => 440
    | .seqroll _ => 440
    | .sample .. => 160
    | .accept .. => 96
    | .accmb .. => 160

/-- What a command that has started comes to on its context as it stands (R311, R312, R401, R451). -/
def State.geWork (s : State) (x : GeCmd) : GeAns :=
  match s.geIdle x with
  | some st => geAns s st
  | none =>
    let c := s.geCtx (x.gctx.getD 0)
    let spared := match x.op with
      | .unbind => true
      | .gsave => true
      | .sample .. => true
      | _ => false
    let lost (s : State) : GeAns :=
      { geAns s geDamaged with lines := match x.op with
          | .gmask _ => (s.geImg c.grammar).zeroMask
          | _ => [] }
    if c.damaged && !spared then lost s
    else if x.op.named && x.op ≠ .unbind then
      match s.geArray x with
      | (s, none) => s.geDo x
      | (s, some o) => lost (s.geDamage x 10 (some o))
    else s.geDo x

/-- Memory that a command reads, and that it writes where the last part says so: its SSR, its image (R315 to R318, R325). -/
def State.geMem (s : State) (x : GeCmd) : List (Nat × Nat × Bool) :=
  let c := s.geCtx (x.gctx.getD 0)
  let ssr (off n : Nat) (wr : Bool) : Nat × Nat × Bool := (ppaLocal c.ssr + off, n, wr)
  let hdr (ppa : Nat) : Nat × Nat × Bool := (ppaLocal ppa, 64, false)
  let image (limit : Bool) : List (Nat × Nat × Bool) :=
    let g := s.geImg c.grammar
    hdr c.grammar :: (g.walk s c.live (if limit then some (g.budget - g.maskLines - 16) else none)).seen.map fun l => (l, 8, false)
  if (s.geIdle x).isSome then []
  else
    match x.op with
    | .gbind l gram _ => (ppaLocal l, 0x380, true) :: (gram.map fun e => hdr e.1).toList
    | .gmask _ => image true
    | .gadv _ => image false
    | .gcommit => [ssr 0x10 16 true]
    | .gsave => ssr 0 0x300 true :: if c.nogr then [] else [ssr 0x1000 0x42000 true]
    | .grest l gram => [(ppaLocal l, ssrSize, false), hdr gram]
    | .seqck _ => [ssr 0x10 16 true, ssr 0x300 128 true]
    | .seqroll _ => [ssr 0x10 16 true, ssr 0x300 128 true]
    | .accept .. => if c.cancelled x.start then [ssr 0 0x400 true] else []
    | .accmb .. => if c.cancelled x.start then [ssr 0 0x400 true] else []
    | _ => []

/-- The command may make its accesses of HBM in this period: not in the refresh window, nor where another write reaches a line of its writes;
where no schedule places it, in free slots, and writing in no checkpoint window (R44, R89, R108, R338). W covers the waits (R312); the model
makes all accesses in the first period in which it may (log 58). -/
def State.geOpen (s : State) (x : GeCmd) : Bool :=
  (s.geMem x).all fun (l, n, wr) =>
    (place l ≠ .hbm || !(s.refreshing || (wr && ((!x.strict && s.ckptOpen) || s.hbmWrites.any fun e => l / 64 ≤ e.1 && e.1 ≤ (l + n - 1) / 64))))
      && (x.strict || (List.range ((l + n - 1) / 4096 - l / 4096 + 1)).all fun i => s.slotOpen (portOf (l / 4096 * 4096 + 4096 * i)))

/-! ### The way of a command (R311 to R313) -/

def State.geCmd (s : State) (id : Nat) : Option GeCmd := s.geCmds.find? (·.id = id)
def State.modGeCmd (s : State) (id : Nat) (f : GeCmd → GeCmd) : State :=
  { s with geCmds := s.geCmds.map fun x => if x.id = id then f x else x }
def State.dropGeCmd (s : State) (id : Nat) : State := { s with geCmds := s.geCmds.filter (·.id ≠ id) }

/-- The command of `x` comes before that of `y` at the GE. -/
def GeCmd.before (x y : GeCmd) : Bool :=
  match x.arrive, y.arrive with
  | some a, some b => a < b || (a = b && (x.core < y.core || (x.core = y.core && x.id < y.id)))
  | some _, none => true
  | none, _ => false

/-- Use of a line of the own scratchpad through the LE delivery port: in the free regime a lost tick, whether it lost a bank, in the timed regime
an error (R100, R102, R312, R355). -/
def State.geLineUse (s : State) (x : GeCmd) (l n : Nat) (wr : Bool) (err : State → State) (ok : State → State) : Except Bool State :=
  match place l with
  | .spad c o =>
    let a := mkPpa s.pkg l
    if !x.strict && !s.slotOpen c then .error false
    else if wr && x.strict && (s.core c).sameByte s.now 0 o n then .ok ((err s).schedErr x.core (some .c) uGe 0xC3 (dw a) 0 (some a))
    else
      match s.ceClash c 0 x.strict (banksOf o n) with
      | some (b, h) =>
        if x.strict then .ok ((err s).schedErr x.core (some .c) uGe 0xC2 (dw b) (dw h) (some a))
        else .error true
      | none =>
        .ok (ok (s.modCore c fun k =>
          let k := k.useBanks s.now s.now 0 (banksOf o n)
          if wr && x.strict then k.noteBytes s.now 0 o n else k))
  | _ => .ok (ok s)

/-- A tick of the port is lost; BANK_LOSS counts the one that a bank has taken (R355). -/
def State.geLost (s : State) (x : GeCmd) (bank : Bool) : State := if bank then s.modCore x.core (·.count 70) else s

/-- A line that is read a tick later delays the arrival of its command, and so that of the core's later commands (R312). -/
def State.geSlip (s : State) (x : GeCmd) : State :=
  let a := x.arrive.map (· + 1)
  let late (y : GeCmd) : GeCmd :=
    if y.id = x.id then { y with own := y.own.map (· + 1), arrive := a }
    else if y.core = x.core && x.id < y.id then { y with arrive := y.arrive.map (max (a.getD 0)) }
    else y
  { s with geCmds := s.geCmds.map late }.modCore x.core fun k => { k with geLast := max k.geLast (a.getD 0) }

/-- Line `j` is read. -/
def State.geLine (s : State) (id j : Nat) : State :=
  match s.geCmd id with
  | none => s
  | some x =>
    let on (s : State) (bs : List Byte) : State :=
      let s := s.modGeCmd id fun x => { x with buf := Sparse.insert x.buf j bs, left := x.left - 1 }
      if x.left ≤ 1 then s else s.plan (s.now + 1) 10 (.geLine id (j + 1))
    match x.line j with
    | none => on s []
    | some (ppa, n) =>
      let l := ppaLocal ppa
      let w : Who := { core := some x.core, stream := some .c, unit := uGe }
      let use := s.geLineUse x l n false (·.dropGeCmd id) fun s =>
        match s.uncorr l n with
        | some g => (s.dropGeCmd id).contain 1 (arrayOf l) w (some (mkPpa s.pkg g))
        | none => on (s.touch w l n) (s.load l n)
      match use with
      | .ok s => s
      | .error b => ((s.geLost x b).geSlip x).plan (s.now + 1) 10 (.geLine id j)

/-- The requested tick of a command has come: its lines are read from the next tick on; it arrives in push order (R4, R312). -/
def State.geBegin (s : State) (x : GeCmd) : State :=
  let own := x.own.getD (s.now + x.left + s.hubDist x.core)
  let s := if x.own.isSome || x.left = 0 then s else s.plan (s.now + 1) 10 (.geLine x.id 0)
  let s := s.modGeCmd x.id fun y => { y with own := some own }
  if x.arrive.isSome || s.geCmds.any (fun y => y.core = x.core && y.id < x.id && y.arrive.isNone) then s
  else
    let a := max own (s.core x.core).geLast
    (s.modGeCmd x.id fun y => { y with arrive := some a }).modCore x.core fun k => { k with geLast := a }

/-- Lowest walker that is free in this period. -/
def State.freeWalker (s : State) : Option Nat := (List.range 32).find? fun w => Sparse.get 0 s.walkers w ≤ s.now

/-- A command that has started takes effect once it may make its accesses of HBM; its reply follows the end of its walker (R312, R313). -/
def State.geEffect (s : State) (id : Nat) : State :=
  match s.geCmd id with
  | none => s
  | some x =>
    match x.begun with
    | none => s
    | some (_, w) =>
      let till := max (Sparse.get 0 s.walkers w) s.now
      if !s.geOpen x then
        { s with walkers := Sparse.insert s.walkers w (max till (s.now + 1)) : State }.plan (s.now + 1) 11 (.geEffect id)
      else
        let a := s.geWork x
        let hub := s.hubDist x.core
        let out := match x.op with
          | .gmask d => ppaLocal d
          | _ => 0
        let t := a.s.modGeCmd id fun y =>
          { y with stop := some till, reply := dw (a.status * 2 ^ 56 + a.val), outAt := out, outLines := a.lines }
        let t := if a.lines.isEmpty then t else t.plan (max s.now (till + hub - a.lines.length)) 14 (.geWrite id)
        t.plan (till + hub + 1) 1 (.geReply id)

/-- The start tick is looked for from the arrival on. -/
def State.geTry (s : State) (id : Nat) : State :=
  match s.geCmd id with
  | none => s
  | some x =>
    let again (p : Nat) (s : State) : State := s.plan p 11 (.geCommandStart id)
    let due (y : GeCmd) : Bool := s.agenda.any fun e => e.1 = s.now && e.2.2 = .geCommandStart y.id
    if x.begun.isSome then s
    else if s.gated 987 || s.tick < x.req then again (s.now + 1) s
    else if x.arrive.all (s.now < ·) || x.left ≠ 0 then again (s.now + 1) (s.geBegin x)
    else if s.geCmds.any fun y => y.before x && y.begun.isNone && due y then again s.now s
    else
      let busy := s.geCmds.any fun y =>
        (y.before x && x.gctx.isSome && y.gctx = x.gctx && y.stop.all (s.now < ·)) || (y.arrive = x.arrive && y.core < x.core && y.begun.isNone)
      match s.freeWalker with
      | none => again (s.now + 1) (late s x)
      | some w =>
        if busy then again (s.now + 1) (late s x)
        else
          s.hubRead 11 (0x300000 + 8 * x.gctx.getD 0) (if x.gctx.isSome then 8 else 0) fun s =>
          { s with walkers := Sparse.insert s.walkers w (s.now + s.geTicks x) : State }.modGeCmd id (fun y => { y with begun := some (s.now, w) })
            |>.geEffect id
where
  /-- In timed mode a wait is a schedule error (R312, R422 GELATE). -/
  late (s : State) (x : GeCmd) : State :=
    if x.strict && !x.late then
      (s.modGeCmd x.id fun y => { y with late := true }).schedErr x.core (some .c) uGe 0xCC (dw (x.gctx.getD 0)) (dw s.tick)
    else s

/-- A line of a mask completes. -/
def State.geWrite (s : State) (id : Nat) : State :=
  match s.geCmd id with
  | none => s
  | some x =>
    match x.outLines with
    | [] => s
    | bs :: r =>
      let use := s.geLineUse x x.outAt 64 true (·.modGeCmd id fun x => { x with outLines := [] }) fun s =>
        let s := s.store { core := some x.core, stream := some .c, unit := uGe } x.outAt bs
        let s := s.modGeCmd id fun x => { x with outAt := x.outAt + 64, outLines := r }
        if r.isEmpty then s else s.plan (s.now + 1) 14 (.geWrite id)
      match use with
      | .ok s => s
      | .error b => (s.geLost x b).plan (s.now + 1) 14 (.geWrite id)

/-- The reply is usable from this period on (R312, R313). -/
def State.geReply (s : State) (id : Nat) : State :=
  match s.geCmd id with
  | none => s
  | some x =>
    if !x.outLines.isEmpty then s.plan (s.now + 1) 1 (.geReply id)
    else
      (s.dropGeCmd id).modCore x.core fun k =>
        let k := k.count 71
        if x.qa then k.modStr .c fun c => { c with qSucc := (c.qSucc.fill id s.now x.reply).now s.now }
        else k.modStr .c (·.answered x.gw id x.reply)

/-! ### The push (R311) -/

/-- What an instruction gives the push. -/
structure GePush where
  vals : List (Option Res) := []
  gctx : Option Nat := none
  handles : List (Option Res) := []
  align : List (Option Res) := []
  reads : Nat := 0
  op : GeOp

/-- A context that is not bound, or bound to another CTX. -/
def State.geBoundChk (s : State) (c : Nat) (n : Nat) : Option Res :=
  let x := s.geCtx n
  if x.bound && x.ctx = (s.core c).ctx then none else some (.trap 0x4F (dw n) x.ctl)

def State.gePush (s : State) (hdr : GeHdr) (qa : Bool) (p : GePush) : Res :=
  let (c, _) := s.at
  let k := s.core c
  let w := s.infoWords c s.me.pc 4
  if s.timedAt c ∧ hdr.gt = 0 then .late uStream 0xCA w.1 w.2 none
  else
    let bound := match p.gctx with
      | some n => if p.op.named then s.geBoundChk c n else none
      | none => none
    match firstOf (p.vals ++ [if qa && hdr.gw ≠ 0 then some (s.combo 4) else none, bound] ++ p.handles ++ p.align) with
    | some r => r
    | none =>
      let g := (s.gr hdr.gt).toNat
      if hdr.gt ≠ 0 ∧ g ≤ s.tick then .late uGe 0xC0 (dw (p.gctx.getD 0)) (dw g) none
      else
        let (id, s) := s.fresh
        let x : GeCmd :=
          { id := id, core := c, gw := hdr.gw, qa := qa, gctx := p.gctx, ctx := k.ctx, op := p.op, req := g, own := none, arrive := none, left := p.reads,
            buf := [], begun := none, stop := none, reply := 0, outAt := 0, outLines := [], strict := s.strictCmd c hdr.gt, late := false }
        let s := { s with geCmds := s.geCmds ++ [x] }.plan (s.now + 1) 11 (.geCommandStart id)
        .seq (s.modMe fun y => if qa then { y with qSucc := y.qSucc.reserve id } else y.awaits hdr.gw id false)

/-- The issue of a command (R311). -/
def State.geInstr (s : State) (t : Tok) (hdr : GeHdr) (qa : Bool) (gs : List G) (hs : List H) (f : State → GePush) : Out :=
  let c := s.at.1
  let k := s.myCore
  let wait : Option Cls :=
    if qa && 16 ≤ k.c.qSucc.used then some .queue
    else if 8 ≤ (s.geCmds.filter (·.core = c)).length then some .cefull else none
  s.issue { t := t, len := 4, streams := [.c], y := hdr.y, mode := k.timed || hdr.gt = 0, wait := wait,
            reads := (hdr.gt :: hdr.gv :: hdr.gw :: gs).map keyG ++ hs.map keyH } fun s => s.gePush hdr qa (f s)

/-- The context that bits [9:0] of a register name. -/
def State.geNum (s : State) (g : G) : Nat := bits (s.gr g) 9 0

/-- Local HBM, for an SSR; memory of this package, for an image. -/
def State.hbmSpace (s : State) (c : Nat) : Space := s.inSpace c (· = .hbm)
def State.pkgSpace (s : State) (c : Nat) : Space :=
  s.inSpace c fun
    | .pkg _ => false
    | .hub => false
    | _ => true

def execGbind (t : Tok) (o : GbindOp) (s : State) : Out :=
  let gs := match o.src with
    | some (_, g) => [o.gdo, g]
    | none => [o.gdo]
  let hs := match o.src with
    | some (h, _) => [o.hd, h]
    | none => [o.hd]
  s.geInstr t o.hdr false gs hs fun s =>
    let c := s.at.1
    let off := (s.gr o.gdo).toNat
    let src := match o.src with
      | some (h, g) => [s.spanChk c h 1 [kMem] pR (s.pkgSpace c) (s.gr g).toNat 0 64]
      | none => []
    let gram := o.src.map fun (h, g) => let x := s.myCore.hreg h; let a := (s.gr g).toNat; (x.base + a, x.len - a)
    { gctx := some (s.geNum o.hdr.gv), handles := s.spanChk c o.hd 0 [kMem] (pR + pW) (s.hbmSpace c) off 0 ssrSize :: src,
      align := [alignIssue off 4096],
      op := .gbind ((s.myCore.hreg o.hd).base + off) gram (bits (s.gr o.hdr.gv) 31 16) }

def execGbindUnbind (t : Tok) (hdr : GeHdr) (_nogr : Bool) (s : State) : Out :=
  s.geInstr t hdr false [] [] fun s => { gctx := some (s.geNum hdr.gv), op := .unbind }

def execGmask (t : Tok) (o : GmaskOp) (s : State) : Out :=
  s.geInstr t o.hdr false [o.gdo] [o.hd] fun s =>
    let c := s.at.1
    let n := s.geNum o.hdr.gv
    let x := s.geCtx n
    let off := (s.gr o.gdo).toNat
    let m := if x.nogr then 0 else (s.geImg x.grammar).maskLines
    { gctx := some n, handles := [s.spanChk c o.hd 0 [kMem] pW (s.ownSpad c) off 0 (64 * m : Nat)], align := [alignIssue off],
      op := .gmask ((s.myCore.hreg o.hd).base + off) }

def execGadv (t : Tok) (hdr : GeHdr) (gx : G) (s : State) : Out :=
  s.geInstr t hdr false [gx] [] fun s => { gctx := some (s.geNum hdr.gv), op := .gadv ((s.gr gx).truncate 32) }

def execGfork (t : Tok) (hdr : GeHdr) (gx gy : G) (s : State) : Out :=
  s.geInstr t hdr false [gx, gy] [] fun s =>
    { gctx := some (s.geNum hdr.gv), op := .gfork ((s.gr gx).truncate 7) ((s.gr gy).truncate 7) }

def execGroll (t : Tok) (hdr : GeHdr) (gx : G) (s : State) : Out :=
  s.geInstr t hdr false [gx] [] fun s => { gctx := some (s.geNum hdr.gv), op := .groll ((s.gr gx).truncate 7) }

def execGcommit (t : Tok) (hdr : GeHdr) (s : State) : Out :=
  s.geInstr t hdr false [] [] fun s => { gctx := some (s.geNum hdr.gv), op := .gcommit }

def execGsave (t : Tok) (hdr : GeHdr) (s : State) : Out :=
  s.geInstr t hdr false [] [] fun s => { gctx := some (s.geNum hdr.gv), op := .gsave }

def execGrest (t : Tok) (o : GrestOp) (s : State) : Out :=
  s.geInstr t o.hdr false [o.gdo, o.gso] [o.hd, o.hs] fun s =>
    let c := s.at.1
    let od := (s.gr o.gdo).toNat
    let os := (s.gr o.gso).toNat
    { gctx := some (s.geNum o.hdr.gv)
      handles := [s.spanChk c o.hd 0 [kMem] pR (s.hbmSpace c) od 0 ssrSize, s.spanChk c o.hs 1 [kMem] pR (s.pkgSpace c) os 0 64]
      op := .grest ((s.myCore.hreg o.hd).base + od) ((s.myCore.hreg o.hs).base + os) }

def execSeqck (t : Tok) (hdr : GeHdr) (gx : G) (s : State) : Out :=
  s.geInstr t hdr false [gx] [] fun s => { gctx := some (s.geNum hdr.gv), op := .seqck ((s.gr gx).truncate 32) }

def execSeqroll (t : Tok) (hdr : GeHdr) (gx : G) (s : State) : Out :=
  s.geInstr t hdr false [gx] [] fun s => { gctx := some (s.geNum hdr.gv), op := .seqroll ((s.gr gx).truncate 32) }

/-- VALUE for a T or p outside R322. -/
def State.filterChk (s : State) (gv : G) : Option Res :=
  let v := s.gr gv
  if filterOk (bits v 31 0) (bits v 63 32) then none else some (valueTrap v gv)

def execSample (t : Tok) (o : SampleOp) (s : State) : Out :=
  let gm := match o.mask with
    | some (_, g) => [g]
    | none => []
  let hm := match o.mask with
    | some (h, _) => [h]
    | none => []
  s.geInstr t o.hdr o.qa (o.gso :: o.gx :: o.gy :: gm) (o.hs :: hm) fun s =>
    let c := s.at.1
    let n := o.nc.toNat + 1
    let off := (s.gr o.gso).toNat
    let mchk := match o.mask with
      | some (h, g) => [s.hUse c h 0 [kMem] pR (s.ownSpad c) (s.gr g)]
      | none => []
    let mask := o.mask.map fun (h, g) => let x := s.myCore.hreg h; let a := (s.gr g).toNat; (x.base + a, x.len - a)
    { vals := [s.filterChk o.hdr.gv], handles := mchk ++ [s.spanChk c o.hs 1 [kMem] pR (s.ownSpad c) off 0 (8 * n : Nat)]
      align := [alignIssue off], reads := (n + 7) / 8 + (if mask.isSome then n else 0)
      op := .sample ((s.myCore.hreg o.hs).base + off) n (o.ktop.toNat + 1) (s.gr o.hdr.gv) (s.gr o.gx) (bits (s.gr o.gy) 7 0) mask }

def execAccept (t : Tok) (o : AcceptOp) (s : State) : Out :=
  s.geInstr t o.hdr o.qa [o.gso, o.gx, o.gy] [o.hs] fun s =>
    let c := s.at.1
    let n := o.nc.toNat + 1
    let off := (s.gr o.gso).toNat
    { vals := [if 16 < n then some (.trap 0x40 (dw n) 0) else none], gctx := some (s.geNum o.hdr.gv)
      handles := [s.spanChk c o.hs 1 [kMem] pR (s.ownSpad c) off 0 (16 * n : Nat)], align := [alignIssue off], reads := (n + 3) / 4
      op := .accept ((s.myCore.hreg o.hs).base + off) n (s.gr o.gx) (bits (s.gr o.gy) 7 0) }

def execAccmb (t : Tok) (o : AccmbOp) (s : State) : Out :=
  s.geInstr t o.hdr o.qa [o.gdo, o.gso, o.gy] [o.hd, o.hs] fun s =>
    let c := s.at.1
    let n := o.nc.toNat + 1
    let od := (s.gr o.gdo).toNat
    let os := (s.gr o.gso).toNat
    { vals := [s.filterChk o.hdr.gv], gctx := some (s.geNum o.gy)
      handles := [s.spanChk c o.hd 0 [kMem] pR (s.ownSpad c) od 0 (16 * n : Nat), s.spanChk c o.hs 1 [kMem] pR (s.ownSpad c) os 0 (512 * n : Nat)]
      align := [alignIssue od, alignIssue os], reads := (n + 3) / 4 + 8 * n
      op := .accmb ((s.myCore.hreg o.hd).base + od) ((s.myCore.hreg o.hs).base + os) n (o.ktop.toNat + 1) (s.gr o.hdr.gv) }

def execGeCommandStart (id : Nat) (s : State) : Out := .next (s.geTry id)
def execGeReply (id : Nat) (s : State) : Out := .next (s.geReply id)

end Sys2Proof.Machine
end

