-- ==== Sys2Proof/Machine/Links.lean ====
section
/-! DEFINITION. The Meridian count, link engines and their entries, ports and their failures (spec 02 R24 to R40; 19 R406; 20
R422, R423; 18 R376; 21 R432 to R437). -/

namespace Sys2Proof.Machine

/-! ### Ports -/

def State.le (s : State) (p : Nat) : Le := Sparse.get .idle s.les p
def State.modLe (s : State) (p : Nat) (f : Le → Le) : State := { s with les := Sparse.insert s.les p (f (s.le p)) }

/-- Length of a period of 2^20 ticks, and of a guard interval (R29). -/
abbrev guardPeriod : Nat := 2 ^ 20
def State.inGuard (s : State) : Bool := s.tick % guardPeriod < 512

/-- The port is out of service: from the tick after the failure on (R434). -/
def Le.down (x : Le) (now : Nat) : Bool := x.failed.any (· < now)

/-- Tick of an entry (R39). -/
def Le.at (x : Le) (i : Nat) : DWord := x.base + dw (bits (Sparse.get 0 x.mem i) 59 28) + x.d

/-- A running schedule uses the port: an entry whose tick is the present one or later (R434). -/
def Le.uses (x : Le) (tick : Nat) : Bool := x.on && x.mem.any fun e => tick ≤ (x.at e.1).toNat

/-- A record of a port, and the void of a schedule that uses it (R430, R434). -/
def State.portRecord (s : State) (p code : Nat) : State :=
  let s := s.raise 5 code 0 { unit := uLe, port := p } none 0 0
  if (s.le p).uses s.tick then s.voidsOf (s.le p).owner 5 code else s

/-! ### Untimed packets as units (R33, R34, R298) -/

/-- Units of a packet (R298). -/
def packetUnits (p : Packet) : Nat := (p.data.length + 64 + 511) / 512

/-- The 64-byte header (R298). -/
def packetHeader (p : Packet) : List Byte :=
  leBytes 8 p.route.toNat ++ leBytes 8 (p.target % 2 ^ 58) ++ leBytes 2 p.data.length ++ leBytes 2 (packetUnits p) ++ [p.ctx, if p.flag.isSome then 1 else 0]
    ++ List.replicate 2 0 ++ leBytes 8 ((p.flag.getD 0) % 2 ^ 58)
    ++ leBytes 8 (p.srcPkg % 1024 + p.srcCore % 512 * 2 ^ 16 + streamNum p.srcStream * 2 ^ 26) ++ List.replicate 24 0

/-- The bytes of a packet, filled up to whole units. -/
def packetBytes (p : Packet) : List Byte :=
  packetHeader p ++ p.data ++ List.replicate (512 * packetUnits p - 64 - p.data.length) 0

/-- Unit `k` of a packet. -/
def packetUnit (p : Packet) (k : Nat) : UntimedUnit := ⟨((packetBytes p).drop (512 * k)).take 512, p.kind, p.cmd⟩

/-- A packet from its units. -/
def packetOfUnits (l : List UntimedUnit) : Packet :=
  let bs := l.flatMap (·.data)
  let w (o n : Nat) : Nat := leNat ((bs.drop o).take n)
  { kind := (l.head?.map (·.kind)).getD .write, route := dw (w 0 8), target := w 8 8 % 2 ^ 58, data := (bs.drop 64).take (w 16 2)
    ctx := BitVec.ofNat 8 (w 20 1), flag := if w 21 1 % 2 = 1 then some (w 24 8 % 2 ^ 58) else none
    srcPkg := w 32 8 % 1024, srcCore := w 34 2 % 512, srcStream := streamOfNum (w 35 1 / 4), cmd := (l.head?.map (·.cmd)).getD 0 }

/-- Units of the packet that a unit begins (R298 UNITS). -/
def unitCount (u : UntimedUnit) : Nat := max 1 (leNat ((u.data.drop 18).take 2))

/-- Exactly 512 bytes (R33). -/
def unitBytes (l : List Byte) : List Byte := l.take 512 ++ List.replicate (512 - l.length) 0

/-- A unit of an untimed queue goes, and its place is credited to the peer (R34). -/
def State.dropUnits (s : State) (port n : Nat) : State :=
  let s := s.modLe port fun x => { x with untimed := x.untimed.drop n }
  { s with out := s.out ++ List.replicate n (.credit port) }

/-- A port becomes FAILED: its packets are dropped, with notices (R433, R434). -/
def State.portFail (s : State) (p : Nat) : State :=
  let x := s.le p
  if x.failed.isSome then s
  else
    let s := s.modLe p fun x => { x with failed := some s.now, up := false, out := [], sent := 0, pass := none, buf := [], again := [] }
    let s := match x.pass with
      | some (i, n, q) => (s.dropUnits i n).sendNotice q (.failed 0)
      | none => s
    x.out.foldl (fun s q => s.sendNotice q (.failed 0)) (s.portRecord p 2)

/-- A timed unit is lost (R376, R433): LOST saturates. -/
def Le.lose (x : Le) : Le := { x with lost := if x.lost = 0xFFFF then x.lost else x.lost + 1 }

/-- The package is the spare of its ring, which carries traffic in pass-through; the other port of its ring (R20, R47). -/
def State.spare (s : State) : Bool :=
  let e := Sparse.get 0 s.relabel s.ring
  !e.getLsbD 15 && (e.extractLsb' 12 3).toNat = s.member
def ringPeer (port : Nat) : Option Nat := if port = 6 then some 7 else if port = 7 then some 6 else none

/-- What passes through a spare leaves by the other port of the ring. -/
def State.through (s : State) (port : Nat) (o : Nat → Output) : Option State := if s.spare then (ringPeer port).map fun q => s.emit (o q) else none

/-- An untimed queue takes a unit in the place of its first arrival: how often it has failed, or zero once it is good. The spec has the receiver
count the failures of one unit and says nothing of how it knows the unit again, or of the order of units behind it: the model keeps its
place (R34, R376, R433; log 51). -/
def takeUnit (v : UntimedUnit) (ok : Bool) : List (UntimedUnit × Nat) → List (UntimedUnit × Nat)
  | [] => [(v, if ok then 0 else 1)]
  | (u, n) :: r => if u = v ∧ n ≠ 0 then (u, if ok then 0 else n + 1) :: r else (u, n) :: takeUnit v ok r

/-- An untimed unit arrives. What is good passes through a spare; the 16th failure of one unit fails the port (R34, R47, R376, R433). -/
def State.untimedIn (s : State) (port : Nat) (v : UntimedUnit) (ok : Bool) : State :=
  let q := takeUnit v ok (s.le port).untimed
  if 16 < q.length then s
  else
    match if ok then s.through port (.untimed · v) else none with
    | some t => t.modLe port fun x => { x with untimed := q.erase (v, 0) }
    | none =>
      let s := s.modLe port fun x => { x with untimed := q }
      if q.any (16 ≤ ·.2) then s.portFail port else s

/-- What one link slot brings, and the codewords that FEC has corrected in it; a slot of a guard interval is idle (R32, R34, R376, R432 to
R434). -/
def execLinkSlotReceive (port : Nat) (u : LinkSlot) (s : State) : Out :=
  .next (let x := s.le port
    if x.down s.now || s.gated (968 + port) then s
    else
      let s := s.modLe port fun x => { x with corr := BitVec.ofNat 32 (min (x.corr.toNat + u.corrected) (2 ^ 32 - 1)) }
      if s.inGuard then s
      else
        match u.unit with
        | .idle => s
        | .timed data ok =>
          match x.discard with
          | some seen =>
            let s := s.modLe port fun x => { x.lose with discard := some true }
            if seen then s else s.portRecord port 1
          | none =>
            if !ok then (s.modLe port (·.lose)).portRecord port 1
            else (s.through port (.unit · (unitBytes data))).getD (s.modLe port fun x => { x with arrived := x.arrived ++ [unitBytes data] })
        | .untimed v ok => s.untimedIn port { v with data := unitBytes v.data } ok)

/-- Some port is passing on the first packet of this port's queue. -/
def State.passing (s : State) (port : Nat) : Bool := s.les.any fun e => e.2.pass.any (·.1 = port)

/-- The first packet of an untimed queue, all of whose units are there. -/
def State.lePacket (s : State) (port : Nat) : Option Packet :=
  match (s.le port).untimed with
  | [] => none
  | (u, n) :: r =>
    let l := ((u, n) :: r).take (unitCount u)
    if s.passing port || n ≠ 0 || l.length < unitCount u || l.any (·.2 ≠ 0) then none else some (packetOfUnits (l.map (·.1)))

/-- The first packet of an untimed queue is delivered where its route is exhausted, and dropped where its next port is bad or failed;
else it waits for its next port (R34, R299, R434, R443). -/
def State.lePass (s : State) (port : Nat) : State :=
  match s.lePacket port with
  | none => s
  | some p =>
    if bits p.route 3 0 = 0 then (s.dropUnits port (packetUnits p)).sendPacket p
    else if 11 < hopPort p.route || (s.le (hopPort p.route)).failed.isSome then (s.dropUnits port (packetUnits p)).sendNotice p (.failed 0)
    else s

/-- A unit of an untimed packet leaves a port, a credit less, and stays in the credit buffer (R34, R376). -/
def State.unitSent (s : State) (port : Nat) (u : UntimedUnit) : State :=
  (s.modLe port fun x => { x with credits := x.credits - 1, buf := x.buf ++ [u] }).emit (.untimed port u)

/-- The slot of Meridian tick `t` may carry untimed units: in an `inj` window, or where no ephemeris runs (R38; log 22). -/
def Le.window (x : Le) (t : Nat) : Bool := t < x.injEnd || !x.on

/-- A packet of the own hub may use the slot: one of a timed launch only in an `inj` window (R298). -/
def State.mayLeave (s : State) (x : Le) (p : Packet) : Bool :=
  s.tick < x.injEnd || !(p.srcPkg = s.pkg && (s.core p.srcCore).timed)

/-- At the end of a period an idle slot of a port carries an untimed unit outward, under credits and outside guard intervals: the next
unit of a packet on its way, else the first of one from the queue of another port, else of one of the own hub (R32, R34, R38). Of several
packets that wait for the same port the spec does not say which goes first: the model takes the queues in the order of their ports, the own
hub last (log 52). -/
def State.leSend (s : State) (port : Nat) : State :=
  let x := s.le port
  if x.failed.isSome || s.inGuard || x.used = some s.now || !x.window s.tick then s
  else
    match x.again with
    | u :: r => (s.modLe port fun x => { x with again := r, buf := x.buf ++ [u] }).emit (.untimed port u)
    | [] =>
      if x.credits = 0 then s
      else
        match x.pass with
        | some (i, n, p) =>
          match (s.le i).untimed with
          | (u, _) :: _ => ((s.modLe port fun x => { x with pass := if n ≤ 1 then none else some (i, n - 1, p) }).dropUnits i 1).unitSent port u
          | [] => s
        | none =>
          let from_ := s.les.findSome? fun e =>
            (s.lePacket e.1).bind fun p => if bits p.route 3 0 ≠ 0 && hopPort p.route = port && x.sent = 0 then some (e.1, p) else none
          match from_ with
          | some (i, p) =>
            let n := packetUnits p
            let p := { p with route := hopRoute p.route }
            ((s.modLe port fun x => { x with pass := if n ≤ 1 then none else some (i, n - 1, p) }).dropUnits i 1).unitSent port (packetUnit p 0)
          | none =>
            match x.out with
            | [] => s
            | p :: r =>
              if !s.mayLeave x p then s
              else if x.sent + 1 < packetUnits p then (s.modLe port fun x => { x with sent := x.sent + 1 }).unitSent port (packetUnit p x.sent)
              else (s.modLe port fun x => { x with sent := 0, out := r }).unitSent port (packetUnit p x.sent)

/-- A unit that the peer has dropped is sent again from the credit buffer, whose units stand in the order of their last sending (R376). -/
def execUntimedRetransmit (r : Resend) (s : State) : Out :=
  .next (s.modLe r.port fun x => { x with again := x.again ++ (x.buf[r.nth]?).toList, buf := x.buf.eraseIdx r.nth })

/-- The peer has freed an entry of its untimed queue (R34); through a spare the credit passes on (R47). -/
def execCreditReturn (port : Nat) (s : State) : Out :=
  .next ((s.through port .credit).getD (s.modLe port fun x => { x with credits := min 16 (x.credits + 1), buf := x.buf.drop 1 }))

/-- The elastic buffer leaves its range outside a guard interval (R32, R433). -/
def execSlip (port : Nat) (s : State) : Out :=
  .next (if s.inGuard then s
    else
      let k := s.tick / guardPeriod
      let l := ((s.le port).slips.filter fun p => k ≤ p + 2) ++ [k]
      let s := (s.modLe port fun x => { x with slip := true, discard := some (x.discard.getD false), slips := l }).portRecord port 3
      if 3 ≤ l.length then s.portFail port else s)

/-- No codeword has decoded for 32 ticks (R433). -/
def execLossOfLock (port : Nat) (s : State) : Out := .next ((s.modLe port fun x => { x with lockLoss := true }).portFail port)

/-- The MC clears FAILED, which starts retraining; never while a schedule uses the port (R432, R434). -/
def State.failedClear (s : State) (port : Nat) : State :=
  if (s.le port).uses s.tick then s else s.modLe port fun x => { x with failed := none }

def execPortstatFailedClear (port : Nat) (s : State) : Out := .next (s.failedClear port)

/-- The link is trained and in lock again, its credits renewed (R34, R434; log 22). -/
def execRetrainingComplete (port : Nat) (s : State) : Out :=
  .next (s.modLe port fun x => if x.failed.isSome then x else { x with up := true, credits := 16, buf := [], again := [] })

/-! ### Entries (R38 to R40, R406) -/

/-- The LE that the step runs for. -/
def State.port (s : State) : Nat :=
  match s.cur with
  | .le p => p
  | _ => 0
def State.myLe (s : State) : Le := s.le s.port
def State.leNext (s : State) : State := s.modLe s.port fun x => { x with idx := x.idx + 1 }

/-- A schedule error found by an LE: a record with the port, and the LE stops (R423). -/
def State.leErr (s : State) (p cause : Nat) (i0 i1 : DWord) : State :=
  let s := s.raise 3 cause 0 { unit := uLe, port := p } none i0 i1
  (s.modLe p fun x => { x with on := false, stopped := true }).voidsOf (s.le p).owner 3 cause

/-- An LE reads ephemeris memory or a staging slot (ARRAY 9 and 7): what no code can correct stops it, contained, and its run is void (R375). -/
def State.leReads (s : State) (p array off n : Nat) (f : State → State) : State :=
  match s.softRead { unit := uLe, port := p } none array off n with
  | (s, some g) =>
    (s.raise 2 1 array { unit := uLe, port := p } (some g) 0 0).modLe p (fun x => { x with on := false, stopped := true }) |>.voidsOf (s.le p).owner 2 1
  | (s, none) => f s

/-- An error of the entry at which the LE stands: its index and the entry (R392). -/
def State.entryErr (s : State) (cause : Nat) : State :=
  let x := s.myLe
  s.leErr s.port cause (dw x.idx) (Sparse.get 0 x.mem x.idx)

def State.tInj (s : State) : Nat := s.alm 0x01C 12
def State.tEj (s : State) : Nat := s.alm 0x020 12

/-- Plan one piece of work for each unit. -/
def State.eachUnit (s : State) (um1 : BitVec 3) (rank : Nat) (due : Nat → Nat) (w : Nat → UnitWork) : State :=
  (List.range (um1.toNat + 1)).foldl (fun s i => s.plan (due i) rank (.unit (w i))) s

def execXfer (_off : BitVec 32) (slot : BitVec 6) (first um1 : BitVec 3) (s : State) : Out :=
  .next (if 7 < first.toNat + um1.toNat then s.entryErr 0xC8
    else
      s.leReads s.port 7 (slotOff s.port slot.toNat + 512 * first.toNat) (512 * (um1.toNat + 1)) fun s =>
      let p := s.port
      let sl := slot.toNat
      let n := um1.toNat + 1
      let x := s.slot p sl
      let bad := x.missing s.now (s.now + s.tInj + um1.toNat) first.toNat n
      let s := s.modSlot p sl fun x => { x with busyFrom := s.now, busyTo := s.now + s.tInj + um1.toNat }
      let s := (s.eachUnit um1 13 (fun i => s.now + s.tInj + i) fun i => .depart p (Sparse.getAll 0 x.data (512 * (first.toNat + i)) 512)).leNext
      if bad then s.leErr p 0xC5 (slotInfo p sl) (dw s.tick) else s)

def execFwd (_off : BitVec 32) (inp : BitVec 4) (um1 : BitVec 3) (s : State) : Out :=
  .next (if 11 < inp.toNat || inp.toNat = s.port then s.entryErr 0xC8
    else (s.eachUnit um1 13 (s.now + ·) fun _ => .forward inp.toNat s.port).leNext)

/-- The fill announces the lines that it will land. -/
def execDlv (_off : BitVec 32) (slot : BitVec 6) (first um1 : BitVec 3) (s : State) : Out :=
  .next (if 7 < first.toNat + um1.toNat then s.entryErr 0xC8
    else
      let p := s.port
      let lines := (List.range (8 * (um1.toNat + 1))).map fun i => (8 * first.toNat + i, s.now + i / 8 + s.tEj)
      let s := s.modSlot p slot.toNat (·.announce lines none)
      (s.eachUnit um1 13 (s.now + ·) fun i => .take p slot.toNat (first.toNat + i)).leNext)

def execInj (_off : BitVec 32) (len : BitVec 16) (s : State) : Out :=
  .next (if len = 0 then s.entryErr 0xC8
    else (s.modLe s.port fun x => { x with injEnd := max x.injEnd (s.tick + len.toNat) }).leNext)

def execHold (_off : BitVec 32) (s : State) : Out := .next s.leNext

def execGuard (_off : BitVec 32) (s : State) : Out :=
  .next (if s.tick % guardPeriod = 0 then s.leNext else s.entryErr 0xC9)

/-- `jump` (R40); its period is above zero (R406). -/
def execJump (off : BitVec 32) (target : BitVec 14) (lvl : BitVec 1) (count : BitVec 13) (s : State) : Out :=
  .next (s.leReads s.port 9 (0x20000 * s.port + 8 * target.toNat) 8 fun s =>
    let x := s.myLe
    let t := bits (Sparse.get 0 x.mem target.toNat) 59 28
    if off.toNat ≤ t then s.entryErr 0xC8
    else
      let act := if lvl = 0 then x.act0 else x.act1
      let jc := if act then (if lvl = 0 then x.jc0 else x.jc1) else count
      let set (jc : BitVec 13) (act : Bool) (x : Le) : Le :=
        if lvl = 0 then { x with jc0 := jc, act0 := act } else { x with jc1 := jc, act1 := act }
      if jc = 0 then s.modLe s.port fun x => { set 0 false x with idx := x.idx + 1 }
      else s.modLe s.port fun x => { set (jc - 1) true x with idx := target.toNat, d := x.d + dw (off.toNat - t) })

def execLeHalt (_off : BitVec 32) (s : State) : Out :=
  .next ((s.leNext.modLe s.port fun x => { x with on := false }).emit (.leStop s.port (dw s.tick)))

def execMark (_off : BitVec 32) (code : BitVec 16) (s : State) : Out :=
  .next (s.leNext.emit (.schedMark code (dw s.tick) s.port))

/-- What the LE of a port does in this period: nothing yet, an error of its entry, or the entry (R39, R406, R422). -/
inductive LeDue
  | wait
  | err (cause : Nat)
  | entry (i : Instr)
deriving DecidableEq, Repr

def State.leDue (s : State) (p : Nat) : LeDue :=
  let x := s.le p
  if !x.on || s.gated (968 + p) || s.tick < (x.at x.idx).toNat then .wait
  else if 16383 < x.idx then .err 0xC8
  else
    match decodeEph (Sparse.get 0 x.mem x.idx) with
    | none => .err 0xC8
    | some i => if (x.at x.idx).toNat < s.tick then .err 0xC0 else .entry i

/-! ### Units (R38, R39, R376, R434) -/

/-- A timed unit leaves a port; in a guard interval its slots are idle (R16, R31, R32). -/
def State.unitOut (s : State) (p : Nat) (data : List Byte) : State :=
  if (s.le p).down s.now || s.inGuard then s else (s.modLe p fun x => { x with used := some s.now }).emit (.unit p (unitBytes data))

def State.unitRun (s : State) : UnitWork → State
  | .depart p data => s.unitOut p data
  | .forward inp out =>
    match (s.le inp).arrived with
    | [] => s
    | d :: r => if (s.le out).stopped then s else (s.modLe inp fun x => { x with arrived := r }).unitOut out d
  | .take p slot unit =>
    match (s.le p).arrived with
    | [] => s
    | d :: r =>
      if (s.le p).stopped then s
      else (s.modLe p fun x => { x with arrived := r }).plan (s.now + s.tEj) 14 (.unit (.land p slot unit d))
  | .land p slot unit data =>
    if (s.slot p slot).taken s.now then s.leErr p 0xC6 (slotInfo p slot) (dw s.tick)
    else (s.modSlot p slot (·.put s.now (8 * unit) data)).softWrite { unit := uLe, port := p } none 7 (slotOff p slot + 512 * unit) 512

/-! ### The Meridian count (R24 to R30, R435 to R437) -/

/-- Half an exact difference, to the nearest unit, ties to even (log 22). -/
def halfRound (x : Int) : Int :=
  if x % 2 = 0 then x / 2 else if x / 2 % 2 = 0 then x / 2 else x / 2 + 1

/-- Step k of a slew by `a` (R28). -/
def slewInc (a : Int) (k : Nat) : Int :=
  let q := a.tdiv 480
  let e := a - q * 480
  65536 + q + (if k < e.natAbs then e.sign else 0)

/-- The end of a clock period: the count advances; one that has been found ahead stands until the parent's reaches it, and goes on with it (R24,
R28, R437). -/
def Mu.advance (m : Mu) : Mu :=
  if !m.running then m
  else if 65536 ≤ m.hold then { m with hold := m.hold - 65536 }
  else if m.hold ≠ 0 then { m with hold := 0, count := m.count + BitVec.ofNat 80 (65536 - m.hold) }
  else
    match m.slew with
    | some (a, k) =>
      if k < 480 then { m with count := m.count + BitVec.ofInt 80 (slewInc a k), slew := some (a, k + 1) }
      else { m with count := m.count + 65536 }
    | none => { m with count := m.count + 65536 }

/-- The delay of an exchange (R27), rounded as an offset is. -/
def Mu.delay (m : Mu) (t1 t2 t3 t4 : Int) : Int := halfRound ((t4 - t1) - (t3 - t2)) - m.asym.getD m.parent.toNat 0

/-- The mean of the delays measured, to the nearest unit (R25; log 22). -/
def Mu.meanDelay (m : Mu) : Int :=
  let n : Int := m.delays.length
  (2 * m.delays.foldl (· + ·) 0 + n) / (2 * n)

/-- A delay exchange, in 2^-16 ticks. As the parent of the child at a port the unit stamps its own count; as a child it completes with the
parent's stamps t1 and t4, its own count standing for t3 now and for t2 `turn` before (R25, R27, R435). One that fails reports the peer's
failed port (R433). -/
def execDelayExchange (parent : Exchange) (t1 t4 : Int) (turn : Nat) (s : State) : Out :=
  .next (let m := s.mu
    match parent with
    | .failed port => s.portRecord port 2
    | .asParent port => if m.st = 2 then s.emit (.stamp port m.count.toNat) else s
    | .asChild =>
      let t3 : Int := m.count.toNat
      let t2 := t3 - turn
      let d := m.delay t1 t2 t3 t4
      let off2 := (t2 - t1) - (t4 - t3)
      if m.root then s
      else if m.st = 2 then
        let s := { s with mu := { m with missed := 0, met := true, delays := [d] } }
        if 2 * 65536 < off2.natAbs then s.muLost else s.adjust (-(halfRound off2))
      else { s with mu := { m with st := if m.st = 0 then 1 else m.st, delays := (d :: m.delays).take 16 } })

/-- A child sets its count from its parent's timestamp, a tick and its fraction, plus the mean delay of 16 exchanges, and reports LOCKED to
the root (R24, R25). -/
def execMeridianAcquire (tick : Nat) (frac : BitVec 16) (s : State) : Out :=
  .next (let m := s.mu
    if m.root || m.st ≠ 1 || m.delays.length < 16 then s
    else
      { s with mu := { m with count := BitVec.ofInt 80 ((tick * 2 ^ 16 + frac.toNat : Nat) + m.meanDelay), running := true, st := 2, delays := [], missed := 0, met := true } }.emit
        (.up m.parent.toNat (.locked s.pkg)))

/-- Sixteen guard intervals without an exchange (R435). -/
def execExchangeTimeout (s : State) : Out :=
  .next (if !s.mu.root && s.mu.st = 2 && 16 ≤ s.mu.missed then s.muLost else s)

/-- A LOST unit has acquired again: a value at or above the count is taken in one step, below it the count waits for the
parent's (R437). -/
def execMeridianReacquire (value : Nat) (s : State) : Out :=
  .next (let m := s.mu
    if m.root || m.st ≠ 3 || m.delays.length < 16 then s
    else
      let m := { m with st := 2, delays := [], missed := 0, met := true }
      let c := m.count.toNat
      if c ≤ value then { s with mu := { m with count := BitVec.ofNat 80 value } }
      else { s with mu := { m with hold := c - value } })

/-- The 480 slewed periods are over (R28). -/
def execSlewEnd (s : State) : Out := .next { s with mu := { s.mu with slew := none } }

/-- The island serves a core of a bound launch that `f` holds of: its logic, its SRAM, the fabric of its die (log 22). -/
def State.islandServes (s : State) (i : Nat) (f : Core → Bool) : Bool :=
  s.cores.any fun e => e.2.owner.isSome && f e.2 && (i = e.1 || i = 480 + e.1 || i = 980 + dieOf e.1)

/-- Why a request is dropped, 0 if it is not (R341, R405). -/
def State.pointWhy (s : State) (i : Nat) (pt : BitVec 2) : Nat :=
  if pt ≠ 0 && (i = 984 || i = 986 || i = 989) then 1
  else if pt = 3 && i < 960 && s.islandServes i fun _ => true then 2
  else if pt ≠ 0 && s.islandServes i (·.timed) then 3 else 0

/-- A core whose logic has lost its power keeps its SRAM alone; one whose SRAM has lost it, its registers alone (R21, R341). -/
def Core.logicOff (k : Core) : Core :=
  { Core.idle with istore := k.istore, tiles := k.tiles, xa := k.xa, side := k.side, bias := k.bias, scale := k.scale, heaps := k.heaps
                   soft := k.soft, lastCtx := k.lastCtx }
def Core.sramOff (k : Core) : Core := { k with istore := [], tiles := [], xa := [], side := [], bias := [], scale := [], heaps := [], soft := [] }

/-- The hub unit that does a piece of work, by its UNIT number, and its island where it has one (R340, R386). -/
def Work.hubUnit : Work → Option (Option Nat × Nat)
  | .missFill .. => some (some 985, uMc)
  | .unmap .. => some (some 985, uMc)
  | .shootdownComplete .. => some (some 985, uMc)
  | .lines .. => some (some 985, uMc)
  | .preemptionTimeout _ => some (some 985, uMc)
  | .relabel _ => some (some 985, uMc)
  | .rebuild .. => some (some 985, uMc)
  | .leaseExpiry _ => some (some 985, uMc)
  | .forcedCompletion _ => some (none, uHost)
  | .aperture _ => some (none, uHost)
  | .extentRelease _ => some (none, uHost)
  | .extentZero .. => some (none, uHost)
  | .errorRecordWrite => some (some 990, uScrub + 1)
  | .launchCheck _ => some (some 991, uDispatch)
  | .defaultPolicyEvaluation => some (some 991, uDispatch)
  | .agingPromotion _ => some (some 991, uDispatch)
  | .bind _ => some (some 991, uDispatch)
  | .launchStart _ => some (some 991, uDispatch)
  | .launchRetirement _ => some (some 991, uDispatch)
  | .completionRecordWrite _ => some (some 991, uDispatch)
  | .feedEntryDelivery _ => some (some 991, uDispatch)
  | .contextSave _ => some (some 992, uCkpt)
  | .contextRestore .. => some (some 992, uCkpt)
  | .checkpointStation .. => some (some 992, uCkpt)
  | .ckptWindowEnd .. => some (some 992, uCkpt)
  | .journalDiscard => some (some 992, uCkpt)
  | .rollback .. => some (some 992, uCkpt)
  | .untimedPacketDelivery _ => some (none, uLe)
  | .exchangeTimeout => some (none, uMu)
  | _ => none

/-- A hub unit does nothing: its island stands at point 3, or the collector has not taken a record of its (R341, R388). -/
def State.unitStops (s : State) (u : Option Nat × Nat) : Bool := u.1.any s.gated || s.recordWaits none none u.2 0

/-- What an island at point 3 loses: no state is kept, what its unit was doing is lost, and its SRAM reads as zero (R21, R340, R341). DESIGN CHOICE
(log 7): an HBM stack keeps its contents, and serves its accesses, while its PHY island stands at point 3. -/
def State.powerLost (s : State) (i : Nat) : State :=
  let s := if i < 985 then s else { s with agenda := s.agenda.filter fun e => !(e.2.2.hubUnit.any fun u => u.1 = some i) }
  if i < 480 then (if s.cores.any (·.1 = i) then s.modCore i (·.logicOff) else s)
  else if i < 960 then
    let c := i - 480
    let s := { s with mem := Sparse.clear s.mem (spadOf c) (spadOf c + spadSize), dmg := Sparse.clear s.dmg (spadOf c / 8) ((spadOf c + spadSize) / 8) }
    if s.cores.any (·.1 = c) then s.modCore c (·.sramOff) else s
  else if 968 ≤ i && i < 980 then
    { s with les := Sparse.erase s.les (i - 968), slots := Sparse.clear s.slots (slotKey (i - 968) 0) (slotKey (i - 967) 0) }
  else if i = 987 then { s with walkers := [], geCmds := [] }
  else if i = 988 then { s with ge := [] }
  else if i = 990 then { s with col := .idle }
  else if i = 992 then { s with journal := .idle, scheds := s.scheds.map fun e => (e.1, { e.2 with window := none }) }
  else if i = 993 then { s with cores := s.cores.map fun e => (e.1, { e.2 with dgRun := none }) }
  else if i = 991 then { s with queues := [], launches := s.launches.filter fun e => e.2.phase = .running || e.2.phase = .preempting }
  else s

/-- `phase` requests that take effect, islands in rising order (R210, R341, R405). -/
def State.islandPoints (s : State) : State :=
  s.islands.foldl (fun s e =>
    match e.2.pending with
    | none => s
    | some pt =>
      let i := e.1
      let put (s : State) (x : Island) : State := { s with islands := Sparse.insert s.islands i x }
      let why := s.pointWhy i pt
      if why = 0 then
        let s := put s ⟨pt, none⟩
        if pt = 3 then s.powerLost i else s
      else
        let n := s.phrej.toNat / 2 ^ 32
        { put s { e.2 with pending := none } with
          phrej := dw (min (n + 1) (2 ^ 32 - 1) * 2 ^ 32 + why * 2 ^ 12 + pt.toNat * 2 ^ 10 + i) }) s

/-- A guard interval begins (R28, R30, R435, R436): the pending slew is latched, the alternate parent takes over from a failed
one, points take effect. -/
def execGuardIntervalStart (s : State) : Out :=
  .next (let m := s.mu
    let parent := if !m.root && (s.le m.parent.toNat).failed.isSome && m.parent ≠ m.alt then m.alt else m.parent
    (if s.unitStops (none, uMu) then s
     else { s with mu := { m with slew := some (m.pending.getD 0, 0), pending := none, parent := parent, met := false } }).islandPoints)

/-- A guard interval has ended: one without an exchange is counted, and the 16th in a row loses the lock (R435). -/
def State.guardEnd (s : State) : State :=
  let n := if s.mu.root || s.mu.met then 0 else s.mu.missed + 1
  let s := { s with mu := { s.mu with missed := n } }
  if 16 ≤ n then s.plan s.now 0 .exchangeTimeout else s

/-- The end of a period at every port: untimed traffic; units that no entry took are gone; after a guard interval nothing is
discarded any more (R32, R34, R433). -/
def State.portsEnd (s : State) : State :=
  let last := s.tick % guardPeriod = 511
  (s.les.map (·.1)).foldl (fun s p =>
    let s := s.modLe p fun x => { x with arrived := [], discard := if last then none else x.discard }
    (s.lePass p).leSend p) s

end Sys2Proof.Machine
end

