-- ==== Sys2Proof/Machine/Queues.lean ====
section
/-! DEFINITION. Host work queues as the hub writes them (spec 14 R330 to R334), mailboxes and their answers (03 R76 to R78),
tokens and data queues between streams (09 R201 to R203). -/

namespace Sys2Proof.Machine

/-! ### Completion records -/

def State.queue (s : State) (q : Nat) : Hwq := Sparse.get .idle s.queues q
def State.setQueue (s : State) (q : Nat) (x : Hwq) : State := { s with queues := Sparse.insert s.queues q x }
def State.modQueue (s : State) (q : Nat) (f : Hwq → Hwq) : State := s.setQueue q (f (s.queue q))

/-- QCFG fields (R331). -/
def Hwq.log2 (x : Hwq) : Nat := bits x.qcfg 4 0
def Hwq.en (x : Hwq) : Bool := x.qcfg.getLsbD 8
def Hwq.feed (x : Hwq) : Bool := x.qcfg.getLsbD 9
def Hwq.irq (x : Hwq) : Bool := x.qcfg.getLsbD 10
def Hwq.vec (x : Hwq) : Nat := bits x.qcfg 23 16
def Hwq.ctx (x : Hwq) : Nat := bits x.qcfg 31 24

/-- Records of a queue in event-tick order, then QSEQ, then KIND (R334). -/
def Completion.before (a b : Completion) : Bool :=
  if a.tick ≠ b.tick then a.tick.toNat < b.tick.toNat
  else if a.qseq ≠ b.qseq then a.qseq < b.qseq else a.kind < b.kind
def completionInsert (e : Completion) : List Completion → List Completion
  | [] => [e]
  | x :: r => if e.before x then e :: x :: r else x :: completionInsert e r

/-- Hand a completion record to the hub, which writes it from the next tick on. -/
def State.complete (s : State) (q : Nat) (e : Completion) : State :=
  (s.modQueue q fun x => { x with held := completionInsert e x.held }).plan (s.now + 1) 41 (.completionRecordWrite q)

/-! ### Mailboxes -/

/-- FRET_ID of a core (R55). -/
def Core.fretId (k : Core) : Nat := bits k.lgeom 56 48

/-- Mailbox `n` of the fret of core `c`, if valid (R76). -/
def State.mailbox (s : State) (c n : Nat) : Option DWord := Sparse.get? (s.fretOf c).mb n

/-- `mbxrd`: waits for a valid mailbox, then takes it (R76, R203). -/
def execMbxrd (t : Tok) (gd : G) (mb : BitVec 3) (s : State) : Out :=
  s.issue { t := t, streams := [.c], writes := [keyG gd], wait := if (s.mailbox s.at.1 mb.toNat).isSome then none else some .mailbox }
    fun s =>
      let c := s.at.1
      let v := (s.mailbox c mb.toNat).getD 0
      if (s.core (s.core c).fret).parity.contains (keyMb mb.toNat) then .contain 2 22 uStream none
      else .seq ((s.modFret (s.core c).fret fun f => { f with mb := Sparse.erase f.mb mb.toNat }).setG gd v)

/-- `mbxack`: a completion record with the fret's current entry and the word (R78, R203). R333 gives STAT [23:16] for the launch's cores and
names no KIND, R155 speaks of the completion record of the launch: the model writes 0 there (log 45). -/
def execMbxack (t : Tok) (ga : G) (s : State) : Out :=
  s.issue { t := t, streams := [.c], reads := [keyG ga] } fun s =>
    let c := s.at.1
    let k := s.core c
    match k.resident, (s.fretOf c).entry, k.owner.bind (Sparse.get? s.launches ·) with
    | true, some e, some l => .seq (s.complete l.feedQ ⟨e, 2, 0, 0, dw s.tick, s.gr ga⟩)
    | _, _, _ => .trap 0x49 (dw k.fretId) 0

/-! ### Data queues and tokens -/

/-- `qpush`: the word can be taken from the next tick (R201). -/
def execQpush (t : Tok) (ga : G) (dir : Dir) (s : State) : Out :=
  let (c, i) := s.at
  s.issue { t := t, reads := [keyG ga, keyFifo true i dir], wait := if 16 ≤ ((s.core c).qTo i dir).used then some .queue else none } fun s =>
    .seq (s.modCore c (·.modQTo i dir (·.push (s.now + 1) (s.gr ga))))

/-- `qpop` and `qpeek` wait for a word. -/
def State.qWait (s : State) (dir : Dir) : Option Cls :=
  if (s.myCore.qFrom s.at.2 dir).words.isEmpty then some .queue else none

/-- The queue's own key. -/
def State.qKey (s : State) : Dir → Nat
  | .pred => keyFifo true (streamPred s.at.2) .succ
  | .succ => keyFifo true (streamSucc s.at.2) .pred

/-- The oldest word of the queue from a neighbour. -/
def State.qHead (s : State) (dir : Dir) : DWord := (s.myCore.qFrom s.at.2 dir).words.headD 0

def execQpop (t : Tok) (gd : G) (dir : Dir) (s : State) : Out :=
  s.issue { t := t, reads := [s.qKey dir], writes := [keyG gd], wait := s.qWait dir } fun s =>
    .seq ((s.modMyCore (·.modQFrom s.at.2 dir (·.pop 1))).setG gd (s.qHead dir))

def execQpeek (t : Tok) (gd : G) (dir : Dir) (s : State) : Out :=
  s.issue { t := t, reads := [s.qKey dir], writes := [keyG gd], wait := s.qWait dir } fun s => .seq (s.setG gd (s.qHead dir))

/-- `tokw`: pops n tokens together with those of its own token bits (R202). -/
def execTokw (t : Tok) (dir : Dir) (nm1 : BitVec 4) (s : State) : Out :=
  let n := nm1.toNat + 1
  s.issue (match dir with
    | .pred => { t := t, popP := n }
    | .succ => { t := t, popS := n }) fun s => .seq s

/-- `toks`: pushes n tokens together with those of its own token bits (R202). -/
def execToks (t : Tok) (dir : Dir) (nm1 : BitVec 4) (s : State) : Out :=
  let n := nm1.toNat + 1
  s.issue (match dir with
    | .pred => { t := t, pushP := n }
    | .succ => { t := t, pushS := n }) fun s => .seq s

end Sys2Proof.Machine
end

