-- ==== Sys2Proof/Machine/Launch.lean ====
section
/-! DEFINITION. Launch records and images, the checks of a record, schedule records, the bind and the start of a launch (spec 03
R52 to R62; 08 R185; 02 R48 to R51; 06 R134). -/

namespace Sys2Proof.Machine

/-! ### Geometry (R52, R53, R55) -/

/-- Core number of launch-relative index `i`. -/
def Launch.core (l : Launch) (i : Nat) : Nat := (l.y0 + i / l.w) * 24 + l.x0 + i % l.w
def Launch.cores (l : Launch) : List Nat := (List.range (l.w * l.h)).map l.core
/-- FRET_ID of launch-relative index `i`, and the first core of a fret. -/
def Launch.fretOf (l : Launch) (i : Nat) : Nat := i / l.w / l.fh * (l.w / l.fw) + i % l.w / l.fw
def Launch.frets (l : Launch) : Nat := (l.w / l.fw) * (l.h / l.fh)
def Launch.fretCore (l : Launch) (f : Nat) : Nat := l.core (f / (l.w / l.fw) * l.fh * l.w + f % (l.w / l.fw) * l.fw)

/-- LGEOM of launch-relative index `i` (R55). -/
def Launch.lgeom (l : Launch) (i : Nat) : DWord :=
  dw (l.fretOf i * 2 ^ 48 + l.fh * 2 ^ 40 + l.fw * 2 ^ 32 + l.h * 2 ^ 24 + l.w * 2 ^ 16 + i / l.w * 2 ^ 8 + i % l.w)

/-- The rectangles of two launches share a core. -/
def Launch.meets (a b : Launch) : Bool := a.x0 < b.x0 + b.w && b.x0 < a.x0 + a.w && a.y0 < b.y0 + b.h && b.y0 < a.y0 + a.h

/-- The launch holds its rectangle; it has been bound and has not retired (R57, R58). -/
def Launch.placed (l : Launch) : Bool := l.phase = .binding || l.phase = .running || l.phase = .preempting
def Launch.bound (l : Launch) : Bool := l.placed || l.phase = .saved

def State.launch? (s : State) (id : Nat) : Option Launch := Sparse.get? s.launches id
def State.setLaunch (s : State) (id : Nat) (l : Launch) : State := { s with launches := Sparse.insert s.launches id l }
def State.modLaunch (s : State) (id : Nat) (f : Launch → Launch) : State :=
  match s.launch? id with
  | some l => s.setLaunch id (f l)
  | none => s

/-- No launch holds a core of the rectangle (R57). -/
def State.rectFree (s : State) (l : Launch) : Bool := s.launches.all fun e => !(e.2.placed && e.2.meets l)

/-! ### Images (R185) -/

/-- A check's outcome: a failure carries the granule that could not be read, if that was the reason (R59). -/
abbrev Mc (α : Type) := Except (Option Nat) α
def must (b : Bool) : Mc Unit := if b then .ok () else .error none

/-- Little-endian fields of a record. -/
def f32At (bs : List Byte) (o : Nat) : Nat := leNat ((bs.drop o).take 4)
def f64At (bs : List Byte) (o : Nat) : Nat := leNat ((bs.drop o).take 8)

structure AuxRec where
  kind : Nat
  id : Nat
  data : List Byte
deriving DecidableEq, Repr

structure Image where
  code : List Byte
  entries : List Nat
  aux : List AuxRec
deriving DecidableEq, Repr

/-- The auxiliary records from a VA on. -/
def State.auxRecs (s : State) (ctx : Byte) : Nat → Nat → Mc (List AuxRec)
  | 0, _ => .ok []
  | n + 1, va => do
    let h ← s.mcRead ctx pR va 8
    let len := f32At h 4
    let p ← s.mcRead ctx pR (va + 8) len
    let r ← State.auxRecs s ctx n (va + 8 + (len + 7) / 8 * 8)
    .ok (⟨f32At h 0 % 256, f32At h 0 / 2 ^ 16, p⟩ :: r)

/-- "No section" (R185). -/
abbrev noEntry : Nat := 0xFFFFFFFF

/-- The image of a launch, with check 6 of R59. -/
def State.readImage (s : State) (ctx : Byte) (va : Nat) : Mc Image := do
  let h ← s.mcRead ctx pX va 64
  let off := f32At h 0x08
  let len := f32At h 0x0C
  let ents := (List.range 4).map fun i => f32At h (0x10 + 4 * i)
  must (f32At h 0 = 0x31494758 && f32At h 4 = 1 && off % 64 = 0 && len % 4 = 0 && len ≤ 0x1E000
    && ents.all fun e => e = noEntry || (e % 4 = 0 && e < len))
  let code ← s.mcRead ctx pX (va + off) len
  let aux ← s.auxRecs ctx (f32At h 0x2C) (va + f32At h 0x28)
  must (aux.all fun a => 1 ≤ a.kind && a.kind ≤ 10)
  .ok ⟨code, ents, aux⟩

/-! ### Schedule records (R48 to R50) -/

/-- Length of a period in which every schedule figure is a whole number (R48). -/
abbrev period20 : Nat := 2 ^ 20

/-- 32-bit words and 64-bit words of a payload. -/
def le32s (bs : List Byte) : List Nat := (chunks bs.length 4 bs).map leNat
def le64s (bs : List Byte) : List Nat := (chunks bs.length 8 bs).map leNat

def stationLive (bs : List Byte) (n : Nat) : List (Nat × Nat × Nat) :=
  (List.range n).map fun j =>
    let o := 0x10 + 16 * j
    (f32At bs o, f32At bs (o + 4), f32At bs (o + 8))

def stationOf (bs : List Byte) : Station :=
  let nl := f32At bs 0x0C % 2 ^ 16
  let ns := f32At bs 0x0C / 2 ^ 16
  { off := f64At bs 0, len := f32At bs 8, live := stationLive bs nl,
    sync := (List.range ns).map fun j => f64At bs (0x10 + 16 * nl + 8 * j) }

/-- A range within the first 3 MiB at multiples of 64 (R49, R56). -/
def liveOk (off len : Nat) : Bool := off % 64 = 0 && len % 64 = 0 && off + len ≤ spadSize

/-- The limits that one schedule record must meet. -/
def AuxRec.ok (a : AuxRec) : Bool :=
  let set := a.id / 512
  let low := a.id % 512
  let n := a.data.length
  match a.kind with
  | 4 => set ≤ 64 && low ≤ 11 && n % 8 = 0 && n ≤ 8 * 16384
  | 5 => set ≤ 64 && low = 0 && n = 10160 && f32At a.data 0 = 0x414C4D31 && f32At a.data 4 = 1
  | 6 =>
    let st := stationOf a.data
    a.id ≤ 255 && 16 ≤ n && n = 16 + 16 * st.live.length + 8 * st.sync.length && st.off % period20 = 0
      && 1 ≤ st.len && st.len ≤ period20 - 512
      && (List.range st.live.length).all (fun j => f32At a.data (0x10 + 16 * j) < 2 ^ 16 && f32At a.data (0x1C + 16 * j) = 0)
      && st.live.all (fun e => liveOk e.2.1 e.2.2) && st.sync.all (· < 2 ^ 48)
  | 7 => set ≤ 64 && low ≤ 487 && n = 512
  | 8 => a.id = 0 && n % 8 = 0 && n ≤ 8 * 256 && (le64s a.data).all (· % period20 = 0)
  | 9 => 1 ≤ a.id && a.id ≤ 64 && n % 4 = 0 && (le32s a.data).all fun w => w < 2 ^ 14 && w / 1024 ≤ 11
  | 10 =>
    let w := f32At a.data 0x0C
    a.id = 0 && n = 0xA0 && f32At a.data 0 = 0x31444353 && f32At a.data 4 = 1 && w / 1024 % 64 = 0 && w / 2 ^ 16 % 128 ≤ 64
      && w / 2 ^ 23 = 0 && (a.data.drop 0x90).all (· = 0)
  | _ => true

/-- Insert by number. -/
def stationInsert (e : Nat × Station) : List (Nat × Station) → List (Nat × Station)
  | [] => [e]
  | x :: r => if e.1 < x.1 then e :: x :: r else x :: stationInsert e r

/-- The stations in declaration order. -/
def stationsOf (aux : List AuxRec) : List Station :=
  ((aux.filter (·.kind = 6)).foldl (fun l a => stationInsert (a.id, stationOf a.data) l) []).map (·.2)

/-- Offsets rise, and each window ends before the guard interval of the next (R49). -/
def stationsRise : List Station → Bool
  | a :: b :: r => a.off < b.off && a.off + 512 + a.len ≤ b.off && stationsRise (b :: r)
  | _ => true

/-- The schedule header, as R50 lays it out. -/
def headerOf (aux : List AuxRec) : Option (List Byte) := (aux.find? (·.kind = 10)).map (·.data)

/-- No two schedule records of one kind and number. -/
def auxDistinct : List AuxRec → Bool
  | [] => true
  | a :: r => (a.kind < 4 || r.all fun b => !(b.kind = a.kind && b.id = a.id)) && auxDistinct r

/-- Check 8 of R59 (R48 to R51). -/
def schedOk (aux : List AuxRec) : Bool :=
  match headerOf aux with
  | none => false
  | some h =>
    aux.all (·.ok) && auxDistinct aux && aux.any (fun a => a.kind = 5 && a.id = 0)
      && f32At h 0x0C / 2 ^ 16 % 128 = (aux.filter (·.kind = 9)).length && stationsRise (stationsOf aux)

/-- The schedule that an image carries, from its base set (R48 to R51). -/
def schedOf (aux : List AuxRec) (base : DWord) (set : Nat) : Sched :=
  let h := (headerOf aux).getD []
  { id := f32At h 8
    rootPkg := f32At h 0x0C % 1024
    nsets := f32At h 0x0C / 2 ^ 16 % 128
    pkgMap := (h.drop 0x10).take 128
    base := base
    set := set
    stations := stationsOf aux
    yields := (aux.filter (·.kind = 8)).flatMap fun a => le64s a.data
    slotMaps := aux.foldl (fun m a => if a.kind = 7 && a.id / 512 = set then Sparse.insert m (a.id % 512) a.data else m) []
    station := none
    area := false
    window := none
    void := false
    voided := false
    rolled := [] }

/-- Logical package `p` takes part in a schedule with this PKGMAP (R50). -/
def mapHas (map : List Byte) (p : Nat) : Bool := (map.getD (p / 8) 0).getLsbD (p % 8)

/-- Number the words of a list from 0. -/
def numbered (l : List Nat) : Sparse DWord := Sparse.setAll 0 [] 0 (l.map dw)

/-- Load a set of a schedule: ephemerides with their base and first entry, and the almanac, with fresh check bits, as those of its slot maps have
(R39, R41, R51, R373). -/
def State.loadSet (s : State) (id : Nat) (aux : List AuxRec) (set : Nat) (base : DWord) (first : Sparse DWord → Option Nat) : State :=
  let s := { s with les := s.les.map fun e => if e.2.owner = some id then (e.1, { e.2 with on := false, owner := none }) else e }
  let s := (aux.filter fun a => a.kind = 4 && a.id / 512 = set).foldl (fun s a =>
    let mem := numbered (le64s a.data)
    s.modLe (a.id % 512) fun x =>
      { x with mem := mem, base := base, d := 0, idx := (first mem).getD 0, on := (first mem).isSome && a.data ≠ [], stopped := false,
               owner := some id, jc0 := 0, jc1 := 0, act0 := false, act1 := false, injEnd := 0 }) s
  let fresh (s : State) (array off n : Nat) : State := s.softWrite { unit := uCkpt } none array off n
  let s := aux.foldl (fun s a =>
    if a.id / 512 ≠ set then s
    else if a.kind = 4 then fresh s 9 (0x20000 * (a.id % 512)) 0x20000
    else if a.kind = 7 then fresh s 11 (0x710000 + 512 * (a.id % 512)) a.data.length else s) s
  match aux.find? fun a => a.kind = 5 && a.id / 512 = set with
  | some a => { fresh s 11 0x780000 a.data.length with almanac := (le32s a.data).map (BitVec.ofNat 32) }
  | none => s

/-! ### Launch records (R56, R59) -/

/-- The record's fields. -/
def launchOf (q : Nat) (n : Nat) (ws : List DWord) : Launch :=
  let w (i : Nat) : DWord := ws.getD i 0
  let pred (i : Nat) : Option (Nat × Nat) := if (w i).getLsbD 63 then some (bits (w i) 62 51, bits (w i) 50 0) else none
  { q := q, seq := n
    preds := [1, 2, 3, 4].filterMap pred
    image := (w 5).toNat
    feedQ := bits (w 6) 63 52
    wrn := bits (w 6) 47 40
    ctx := BitVec.ofNat 8 (bits (w 6) 39 32)
    prio := bits (w 6) 15 13
    keep := (w 6).getLsbD 12
    resident := (w 6).getLsbD 11
    timed := (w 6).getLsbD 10
    w := bits (w 7) 7 0, h := bits (w 7) 15 8, fw := bits (w 7) 23 16, fh := bits (w 7) 31 24
    x0 := bits (w 7) 39 32, y0 := bits (w 7) 47 40
    base := w 8
    wrl := (w 9).toNat, save := (w 10).toNat, live := (w 11).toNat
    args := [w 12, w 13, w 14, w 15]
    phase := .waiting, since := 0, eff := bits (w 6) 15 13
    ranges := [], liveRanges := [], reqTick := none
    savedCores := [], savedFrets := [], savedWork := []
    entries := [], regs := [], startBase := 0, loaded := false, saveMap := []
    svComplete := false, svDamaged := false, svLogFull := false }

/-- A pointer of the record that is zero or translates as check 5 asks. -/
def State.pointerOk (s : State) (ctx : Byte) (va : Nat) : Mc Unit :=
  if va = 0 then .ok ()
  else
    match s.treeBad ctx va, s.mcTranslate ctx va with
    | some g, _ => .error (some g)
    | none, some (_, _, self, kind) => must (kind = kMem && !self)
    | none, none => .error none

/-- The entries of a live-range list: at most 64, up to one that is all zero (R56; log 23). -/
def liveList (bs : List Byte) : List (Nat × Nat) :=
  ((List.range (bs.length / 8)).map fun j => (f32At bs (8 * j), f32At bs (8 * j + 4))).takeWhile (· ≠ (0, 0))

/-- Read the live-range list entry by entry, as far as it goes. -/
def State.readLive (s : State) (ctx : Byte) : Nat → Nat → Mc (List (Nat × Nat))
  | 0, _ => .ok []
  | n + 1, va => do
    let e ← s.mcRead ctx 0 va 8
    match liveList e with
    | [] => .ok []
    | x :: _ => do
      let r ← State.readLive s ctx n (va + 8)
      .ok (x :: r)

/-- The write-range list: VA and length (R56). -/
def State.readRanges (s : State) (l : Launch) : Mc (List (Nat × Nat)) := do
  let bs ← s.mcRead l.ctx 0 l.wrl (16 * l.wrn)
  .ok ((List.range l.wrn).map fun j => (f64At bs (16 * j), f64At bs (16 * j + 8)))

/-- The checks of R59 in order, with their numbers; `bad` is an uncorrectable granule of the record itself. -/
def State.recordChecks (s : State) (ws : List DWord) (l : Launch) (bad : Option Nat) : List (Nat × Mc Unit) :=
  let w (i : Nat) : DWord := ws.getD i 0
  let feed := s.queue l.feedQ
  [ (1, match bad with
      | some g => .error (some g)
      | none => must (bits (w 6) 51 48 = 0 && bits (w 6) 31 16 = 0 && bits (w 6) 9 0 = 0 && bits (w 7) 63 48 = 0)),
    (2, must (1 ≤ l.w && 1 ≤ l.h && 1 ≤ l.fw && 1 ≤ l.fh && l.x0 + l.w ≤ 24 && l.y0 + l.h ≤ 20 && l.w % l.fw = 0 && l.h % l.fh = 0)),
    (3, must (if l.timed then l.base.toNat % period20 = 0 else l.base = 0)),
    (4, must (if l.resident then feed.feed && feed.ctx = l.ctx.toNat else l.feedQ = 0)),
    (5, [l.image, l.wrl, l.save, l.live].forM (s.pointerOk l.ctx)),
    (6, (s.readImage l.ctx l.image).map fun _ => ()),
    (7, do
      let r ← s.readRanges l
      must (r.all fun e => 1 ≤ e.2)
      if l.live = 0 then .ok () else do
        let v ← s.readLive l.ctx 64 l.live
        must (v.all fun e => liveOk e.1 e.2)),
    (8, if l.timed then do
        let i ← s.readImage l.ctx l.image
        must (schedOk i.aux)
      else .ok ()),
    (9, must ((w 0).toNat = l.seq)) ]

/-- The first check that fails, with the granule that made it fail. -/
def firstFail : List (Nat × Mc Unit) → Option (Nat × Option Nat)
  | [] => none
  | (n, .error g) :: _ => some (n, g)
  | (_, .ok _) :: r => firstFail r

/-- A read of the MC for the bind checks met an uncorrectable granule (R59, R458). -/
def State.bindRead (s : State) : Option Nat → State
  | some g => s.raise 2 7 8 { unit := uMc } (some (mkPpa s.pkg g)) 0 0
  | none => s

/-! ### The bind (R58, R60, R61, R84) -/

/-- The pages of a range as PPA ranges; a page that names no one PPA is left out (R58). -/
def State.ppaRanges (s : State) (ctx : Byte) (va len : Nat) : List (Nat × Nat) :=
  (pagesOf va (min len (2 ^ 48))).filterMap fun (va, n) =>
    match s.mcTranslate ctx va with
    | some (ppa, _, self, kind) => if kind ≠ kGen && !self then some (ppa, n) else none
    | none => none

def ppaMeet (a b : List (Nat × Nat)) : Bool := a.any fun x => b.any fun y => x.1 < y.1 + y.2 && y.1 < x.1 + x.2

/-- `b` is reached from `a` through a chain of predecessors (R58). -/
def State.precedes (s : State) : Nat → Launch → Launch → Bool
  | 0, _, _ => false
  | n + 1, a, b =>
    a.preds.any fun p => (b.q, b.seq) = p
      || s.launches.any fun e => (e.2.q, e.2.seq) = p && State.precedes s n e.2 b

/-- PPA ranges of a launch's write list as the tree now translates it (R58). -/
def State.writeRanges (s : State) (l : Launch) : List (Nat × Nat) :=
  match s.readRanges l with
  | .ok rs => rs.flatMap fun e => s.ppaRanges l.ctx e.1 e.2
  | .error _ => []

/-- The overlap checker of R58. -/
def State.overlaps (s : State) (id : Nat) (l : Launch) : Bool :=
  let n := s.launches.length
  s.launches.any fun e => e.1 ≠ id && e.2.bound && !(s.precedes n l e.2 || s.precedes n e.2 l) && ppaMeet l.ranges e.2.ranges

/-- Zero a scratchpad, check bits included (R61). -/
def State.scrubSpad (s : State) (c : Nat) : State :=
  let lo := spadOf c
  { s with mem := Sparse.clear s.mem lo (lo + spadSize), dmg := Sparse.clear s.dmg (lo / 8) ((lo + spadSize) / 8) }

/-- A read of the hub for the bind; a granule that no code can correct is not forwarded, and reads as zero (log 24). -/
def State.hubLoad (s : State) (l n : Nat) : List Byte × State :=
  match s.uncorr l n with
  | some g =>
    ((List.range n).map fun i => if (s.dmg.any fun e => e.1 = (l + i) / 8 && !e.2.fixable) then 0 else s.mem.get (l + i), s.bindRead (some g))
  | none => (s.load l n, s.touch { unit := uMc } l n)

/-- The bits of word `i` of a window descriptor of a generator that are not reserved (R130). -/
def winMask (gen i : Nat) : DWord :=
  match i, gen with
  | 0, _ => 0xC000FFFF000000FF
  | 1, 3 => 0x03FFFFFFFFFFFFFF
  | 1, g => if g ≤ 4 then BitVec.allOnes 64 else 0
  | 2, 3 => 0x1FF
  | 3, 3 => BitVec.allOnes 64
  | 2, 4 => BitVec.allOnes 64
  | _, 2 => BitVec.allOnes 64
  | _, _ => 0

/-- Window descriptors as they read: eight words each, reserved bits zero. -/
def winRead (ws : List DWord) : List DWord :=
  (List.range ws.length).map fun j => ws.getD j 0 &&& winMask (bits (ws.getD (j / 8 * 8) 0) 3 0) (j % 8)

/-- Live copies of a context's windows and RNG registers (R103, R139). -/
def State.bindCtx (s : State) (ctx : Byte) : State :=
  let x := Sparse.get .idle s.ctxs ctx.toNat
  if x.bound then s
  else
    let (wb, s) := s.hubLoad (ppaLocal x.windows.toNat) 1024
    let (rb, s) := s.hubLoad (ppaLocal x.rng.toNat) 4096
    let x := { x with bound := true, win := Sparse.setAll 0 [] 0 (winRead (dwords 128 wb)),
                      rngReg := Sparse.setAll 0 [] 0 ((chunks 4096 16 rb).map fun b => BitVec.ofNat 128 (leNat b)) }
    { s with ctxs := Sparse.insert s.ctxs ctx.toNat x }

/-- The ROTARY tables of a context, as its window units read them (R134). DESIGN CHOICE (log 67): the package number of such a table's PPA is not
looked at; the hub reads its own package's memory. -/
def State.rotaryOf (s : State) (ctx : Byte) : Sparse Word × State :=
  let x := Sparse.get .idle s.ctxs ctx.toNat
  ((List.range 16).filter fun d => x.winUsable d && bits (x.winWord d 0) 3 0 = 3).foldl (fun (m, s) d =>
    let (bs, s) := s.hubLoad (ppaLocal (bits (x.winWord d 1) 57 0)) 1024
    (Sparse.setAll 0 m (256 * d) ((chunks 1024 4 bs).map fun b => BitVec.ofNat 32 (leNat b)), s)) ([], s)

/-- A stream at the start tick (R62). -/
def Stream.begin (args : List DWord) (entry : Nat) : Stream :=
  { Stream.idle with
      pc := if entry = noEntry then 0 else dw entry
      g := Sparse.setAll 0 [] 1 args
      halted := entry = noEntry
      hasCode := entry ≠ noEntry }

/-- Launch-relative index `i` of a launch as it stands at the start tick, but for the tick itself: every register, array and FIFO of the core
is written, its instruction store has been loaded (R55, R60, R62). -/
def Launch.coreAt (l : Launch) (id i : Nat) (old : Core) : Core :=
  let e (j : Nat) : Stream := Stream.begin l.regs (l.entries.getD j noEntry)
  { Core.idle with
      c := e 0, a := e 1, e := e 2, w := e 3
      istore := old.istore
      rotary := old.rotary
      launchId := BitVec.ofNat 32 l.id
      ctx := l.ctx, resident := l.resident, timed := l.timed
      lgeom := l.lgeom i
      schedbase := l.startBase
      owner := some id
      fret := l.fretCore (l.fretOf i)
      lastCtx := some l.ctx
      bankUse := old.bankUse, spadWr := old.spadWr
      parity := old.parity.filter (sliceKey 0 ≤ ·)
      soft := old.soft.filter fun e => e.1 / 2 ^ 40 = 5 }

/-- The words of an image's code come into an instruction store, with fresh check bits. -/
def Core.loadCode (k : Core) (code : List Byte) : Core :=
  { k with istore := Sparse.setAll 0 [] 0 ((le32s code).map (BitVec.ofNat 32)), soft := Sparse.clear k.soft (softKey 5 0) (softKey 5 (0x1E000 / 8)) }

/-- The bind of every core of a launch: it holds its rectangle, scrubs its scratchpads and loads its instruction stores; its start
follows (R60, R61). -/
def State.loadLaunch (s : State) (id : Nat) (l : Launch) (img : Image) (args : List DWord) (base : DWord) (keep : Bool) : State :=
  let s := s.bindCtx l.ctx
  let (rot, s) := s.rotaryOf l.ctx
  let s := (List.range (l.w * l.h)).foldl (fun s i =>
    let c := l.core i
    let s := if keep then s else s.scrubSpad c
    s.modCore c fun k => { k.loadCode img.code with rotary := rot, owner := some id, running := false, fret := l.fretCore (l.fretOf i) }) s
  let s := (List.range l.frets).foldl (fun s f => { s with frets := Sparse.insert s.frets (l.fretCore f) .idle }) s
  s.setLaunch id { l with phase := .binding, entries := img.entries, regs := args, startBase := base, loaded := false }

/-- What dispatch loads is loaded (R62). -/
def State.loadCores (s : State) (id : Nat) (l : Launch) : State :=
  ((List.range (l.w * l.h)).foldl (fun s i => s.modCore (l.core i) fun k => l.coreAt id i k) s).modLaunch id fun l => { l with loaded := true }

/-- The MC firmware installs the shapes and windows of an image in the tables of the context before the bind (R185; log 48). -/
def State.installAux (s : State) (ctx : Byte) (aux : List AuxRec) : State :=
  let x := Sparse.get .idle s.ctxs ctx.toNat
  aux.foldl (fun s a =>
    if a.kind = 1 && x.shapes ≠ 0 then
      s.store { unit := uMc } (s.shapeAddr ctx.toNat a.id) ((shRecord (dwords 8 a.data) ctx.toNat).flatMap fun w => leBytes 8 w.toNat)
    else if a.kind = 2 && x.windows ≠ 0 && !x.bound && a.id < 16 then
      s.store { unit := uMc } (ppaLocal x.windows.toNat + 64 * a.id)
        ((winRead ((dwords 8 a.data).mapIdx fun i w => if i = 0 then (w &&& 0x40FFFFFFFFFFFFFF &&& ~~~(dw (0xFF * 2 ^ 40))) ||| dw (2 ^ 63 + ctx.toNat * 2 ^ 40)
          else w)).flatMap fun w => leBytes 8 w.toNat)
    else s) s

/-- Ticks from the bind to the start: a scrub takes 1,536, a load one for 64 bytes of code, and they overlap (R60). -/
def startDelay (img : Image) (keep : Bool) : Nat := max 1 (max (if keep then 0 else 1536) ((img.code.length + 63) / 64))

/-- The bind of a launch that no check refuses (R51, R60). -/
def State.bindNow (s : State) (id : Nat) (l : Launch) : State :=
  match s.readImage l.ctx l.image with
  | .error _ => s
  | .ok img =>
    let keep := l.keep && l.cores.all fun c => (s.core c).lastCtx = some l.ctx
    let live := if l.live = 0 then [(0, spadSize)] else match s.readLive l.ctx 64 l.live with
      | .ok v => v
      | .error _ => []
    let s := s.installAux l.ctx img.aux
    let s := if l.timed then
        ({ s with scheds := Sparse.insert s.scheds id (schedOf img.aux l.base 0) }).loadSet id img.aux 0 l.base fun m => if m = [] then none else some 0
      else s
    let d := schedOf img.aux l.base 0
    let s := if l.timed && d.rootPkg ≠ s.pkg && mapHas d.pkgMap s.pkg then s.emit (.up s.mu.parent.toNat (.bound d.rootPkg s.pkg d.id d.pkgMap))
      else s
    let s := s.loadLaunch id { l with liveRanges := live, saveMap := s.pin l } img l.args (if l.timed then l.base else 0) keep
    s.plan (s.now + startDelay img keep) 0 (.launchStart id)

/-- The start tick: every stream of every core starts, every event counter is zero (R60, R62, R355). -/
def execLaunchStart (id : Nat) (s : State) : Out :=
  .next (match s.launch? id with
    | some l =>
      if l.phase ≠ .binding then s
      else
        let s := if l.loaded then s else s.loadCores id l
        let s := l.cores.foldl (fun s c => s.modCore c fun k => { k with running := true, ctr := [], ctrNew := [] }) s
        let s := s.setLaunch id { l with phase := .running, loaded := false }
        let s := if l.resident then s.plan s.now 41 (.feedEntryDelivery l.feedQ) else s
        s.plan s.now 40 (.launchCheck l.q)
    | none => s)

end Sys2Proof.Machine
end

