-- ==== Sys2Proof/Machine/Hub.lean ====
section
/-! DEFINITION. The hub at work: doorbells, checks, policy, bind, retirement, the end of a launch, completion rings and feeds
(spec 03 R57 to R64, R77; 14 R330 to R334; 18 R385; 20 R424, R425; 21 R444). -/

namespace Sys2Proof.Machine

/-! ### Places of a queue (R57) -/

/-- The watermark passes every place that has retired or been refused. -/
def Hwq.rise : Nat → Hwq → Hwq
  | 0, x => x
  | n + 1, x =>
    if x.retired.contains x.watermark then
      Hwq.rise n { x with watermark := x.watermark + 1, retired := x.retired.filter (· ≠ x.watermark) }
    else x

/-- Place `n` has retired, been refused or been consumed. -/
def Hwq.close (x : Hwq) (n : Nat) : Hwq :=
  let r := n :: x.retired
  Hwq.rise r.length { x with retired := r }

def Hwq.closed (x : Hwq) (n : Nat) : Bool := n < x.watermark || x.retired.contains n

/-- STATUS and DATA with which place `n` was refused. -/
def Hwq.refusedAt (x : Hwq) (n : Nat) : Option (Byte × DWord) := (x.refused.find? (·.1 = n)).map (·.2)

/-! ### Rings (R330, R332, R334) -/

/-- Address of entry `n` of a ring. -/
def ringAddr (base : DWord) (log2 size n : Nat) : Nat := bits base 62 12 * 4096 + n % 2 ^ log2 * size

/-- The bytes of record `n` of a queue, and the granule of a ring in HBM that cannot be read (R59). -/
def State.ringRecord (s : State) (q n : Nat) : List Byte × Option Nat :=
  let x := s.queue q
  let a := ringAddr x.sqBase x.log2 128 n
  if x.sqBase.getLsbD 63 then (s.load a 128, s.uncorr a 128) else ((List.range 128).map (Config.hostRecord q n), none)

/-- The lease of the package's own host has run out (R445). -/
def State.hostGone (s : State) : Bool := (Sparse.get? s.leases s.pkg).any (· ≤ s.tick)

/-- The words of completion record `w` of a ring (R333, R334). -/
def Completion.words (e : Completion) (w log2 : Nat) : List DWord :=
  [dw (e.qseq % 2 ^ 51 + (if w / 2 ^ log2 % 2 = 0 then 2 ^ 63 else 0)),
   dw (e.kind + e.status.toNat * 256 + e.numstat.toNat * 2 ^ 16), e.tick, e.data]

/-- Write one held record to its slot; a ring in HBM takes a line of class 1 (R334, R339). -/
def State.ringPut (s : State) (q : Nat) (e : Completion) : Option State :=
  let x := s.queue q
  let a := ringAddr x.cqBase x.log2 32 x.w
  let ws := e.words x.w x.log2
  let put (s : State) : State := s.modQueue q fun x => { x with w := x.w + 1, held := x.held.drop 1 }
  if x.cqBase.getLsbD 63 then
    if place a = .hbm then (s.classGrant 1 a 32 true).map fun s => (put s).store { unit := uHost } a (ws.map (leBytes 8 ·.toNat)).flatten
    else some (put s)
  else if s.hostGone then some (put s)
  else some ((put s).emit (.hostRing a ws))

/-- Write held records of earlier ticks while the ring has room; the number written (R334). -/
def State.ringDrain (s : State) (q : Nat) : Nat → State × Nat
  | 0 => (s, 0)
  | n + 1 =>
    let x := s.queue q
    match x.held with
    | [] => (s, 0)
    | e :: _ =>
      if x.w < x.cqHead + 2 ^ x.log2 && e.tick.toNat < s.tick then
        match s.ringPut q e with
        | some s => let (s, k) := State.ringDrain s q n; (s, k + 1)
        | none => (s, 0)
      else (s, 0)

/-- The hub writes completion records, and then sends the vector (R334). -/
def execCompletionRecordWrite (q : Nat) (s : State) : Out :=
  .next (let (s, n) := s.ringDrain q (s.queue q).held.length
    let x := s.queue q
    let s := if n ≠ 0 && x.irq then s.emit (.msix x.vec) else s
    if x.held ≠ [] && x.w < x.cqHead + 2 ^ x.log2 then s.plan (s.now + 1) 41 (.completionRecordWrite q) else s)

/-! ### What makes the hub look again -/

/-- A queue of launch records holds one that the MC has not taken. -/
def Hwq.offers (x : Hwq) : Bool := x.en && !x.feed && x.next < x.tail

/-- The MC looks at every queue for a record that it may now check (R59). -/
def State.poke (s : State) : State := (s.queues.filter (·.2.offers)).foldl (fun s e => s.planOnce s.now 40 (.launchCheck e.1)) s

/-- The policy is evaluated: at every doorbell, every retirement and every 4,096 ticks (R64). -/
def State.policy (s : State) : State := s.planOnce s.now 51 .defaultPolicyEvaluation

/-! ### Doorbells (R332, R444) -/

/-- A HOST record of the host port or the MC (R430). -/
def State.hostRecord (s : State) (unit code : Nat) : State := s.raise 6 code 0 { unit := unit } none 0 0

def execDoorbell (q : Nat) (tail : Nat) (s : State) : Out :=
  .next (let x := s.queue q
    let v := tail % 2 ^ 64
    if s.sec.stage.toNat < 6 || !x.en || v ≤ x.tail then s
    else if x.cqHead + 2 ^ x.log2 < v then s.hostRecord uHost 2
    else
      let before := (s.apReqs.filter (·.write)).map (·.id)
      let s := s.modQueue q fun x => { x with tail := v, bells := if before.isEmpty then x.bells else x.bells ++ [(x.tail, before)] }
      (if x.feed then s.planOnce s.now 41 (.feedEntryDelivery q) else s.poke).policy)

/-- Record `n` of a queue is visible: no aperture write before its doorbell is still under way (R127). -/
def State.visible (s : State) (x : Hwq) (n : Nat) : Bool :=
  x.bells.all fun e => n < e.1 || e.2.all fun id => s.apReqs.all (·.id ≠ id)

/-! ### Refusals (R57 to R59, R425, R431) -/

/-- Place `n` of a queue is refused: its completion record, and later records are not held (R59). -/
def State.refusePlace (s : State) (q n : Nat) (status : Byte) (data : DWord) : State :=
  let s := s.modQueue q fun x => { x.close n with refused := (n, status, data) :: x.refused }
  (s.complete q ⟨n, 3, status, 0, dw s.tick, data⟩).poke

/-- The schedule of a timed launch, as its image has it, bound or not. -/
def Launch.sched? (l : Launch) (s : State) : Option Sched :=
  match s.readImage l.ctx l.image with
  | .ok i => if l.timed && (headerOf i.aux).isSome then some (schedOf i.aux l.base 0) else none
  | .error _ => none

/-- A launch in the MC's hands is refused; one of a schedule is refused pod-wide: the notice goes to the root, without a SCHED_ID where the
image cannot be read (R425). -/
def State.refuse (s : State) (id : Nat) (l : Launch) (status : Byte) (data : DWord) : State :=
  let s := (s.setLaunch id { l with phase := .refused status }).refusePlace l.q l.seq status data
  if !l.timed then s
  else
    match l.sched? s with
    | some d => s.treeSend d.rootPkg (.refused d.id id status)
    | none => s.emit (.up s.mu.parent.toNat (.refused 0 id status))

/-- Where the predecessors of a launch stand: refused with this status, or all retired, or not yet (R57, R59). Of several refused
predecessors with different statuses the spec does not say whose is passed on: the model takes the first in the order of PRED0 to PRED3
(log 41). -/
inductive PredState
  | wait
  | refused (status : Byte) (data : DWord)
  | done
deriving DecidableEq, Repr

def State.predState (s : State) (l : Launch) : PredState :=
  if l.preds.all fun p => (s.queue p.1).closed p.2 then
    match l.preds.findSome? fun p => (s.queue p.1).refusedAt p.2 with
    | some (st, d) => .refused st d
    | none => .done
  else .wait

/-- Condition 2 of R57: no launch of the queue waits or is being bound. -/
def State.queueStarted (s : State) (q : Nat) : Bool :=
  s.launches.all fun e => e.2.q ≠ q || !(e.2.phase = .waiting || e.2.phase = .binding)

/-- Lines of `n` bytes at a local address, for a class. -/
def hbmLines (cls l n : Nat) : List (Nat × Nat × Nat) :=
  (List.range (linesOf l n)).map fun i => let lo := max l (l / 64 * 64 + 64 * i); (cls, lo, min (l + n) (l / 64 * 64 + 64 * i + 64) - lo)

/-- Lines that the MC reads for a range of a context's memory: those of the walks and the bytes. -/
def State.mcLines (s : State) (ctx : Byte) (va n : Nat) : List (Nat × Nat × Nat) :=
  (pagesOf va n).flatMap fun (va, n) => s.treeLines ctx va ++ match s.mcPage ctx 0 va with
    | some l => hbmLines 0 l n
    | none => []

/-- Lines of the auxiliary records. -/
def State.auxLines (s : State) (ctx : Byte) : Nat → Nat → List (Nat × Nat × Nat)
  | 0, _ => []
  | n + 1, va =>
    match s.mcRead ctx pR va 8 with
    | .ok h => s.mcLines ctx va (8 + f32At h 4) ++ State.auxLines s ctx n (va + 8 + (f32At h 4 + 7) / 8 * 8)
    | .error _ => []

/-- What the MC reads for the checks of a record: the record where it stands in HBM, the image, the lists (R59, R339). -/
def State.checkLines (s : State) (q n : Nat) (l : Launch) : List (Nat × Nat × Nat) :=
  let x := s.queue q
  let img := match s.mcRead l.ctx pX l.image 64 with
    | .ok h =>
      s.mcLines l.ctx l.image 64 ++ s.mcLines l.ctx (l.image + f32At h 0x08) (min (f32At h 0x0C) 0x1E000)
        ++ s.auxLines l.ctx (f32At h 0x2C) (l.image + f32At h 0x28)
    | .error _ => []
  (if x.sqBase.getLsbD 63 then hbmLines 1 (ringAddr x.sqBase x.log2 128 n) 128 else []) ++ img ++ s.mcLines l.ctx l.wrl (16 * l.wrn)
    ++ (if l.live = 0 then [] else s.mcLines l.ctx l.live 512)

/-- The record has been read: it is refused, or its launch becomes waiting, and the policy, which the doorbell or the retirement that let it be
checked has asked for, looks at it (R59, R64; log 48). -/
def State.checked (s : State) (q n : Nat) (ws : List DWord) (l : Launch) (bad : Option Nat) : State :=
  let (id, s) := s.fresh
  let s := s.modQueue q fun x => { x with next := n + 1, reading := none, bells := x.bells.filter fun e => n < e.1 || !s.visible x n }
  if bad.isNone && l.ctx.toNat ≠ (s.queue q).ctx then (s.hostRecord uHost 1).refuse id l 3 0
  else
    match firstFail (s.recordChecks ws l bad) with
    | some (k, g) => (s.bindRead g).refuse id l 11 (dw k)
    | none => ((s.setLaunch id { l with since := s.tick }).planTick (s.tick + 2 ^ 16) 50 (.agingPromotion id)).policy

/-- The MC checks the next record of a queue as soon as conditions 1 and 2 of R57 hold for it: it reads what the checks need, a line in a
tick (R59, R339, R444). -/
def execLaunchCheck (q : Nat) (s : State) : Out :=
  .next (s.mcActs fun s =>
    let x := s.queue q
    let n := x.next
    let again (s : State) (r : List (Nat × Nat × Nat)) : State :=
      (s.modQueue q fun x => { x with reading := some r }).planOnce (s.now + 1) 40 (.launchCheck q)
    if !x.offers || !s.queueStarted q then s
    else if !s.visible x n then s.planOnce (s.now + 1) 40 (.launchCheck q)
    else
      let (bs, bad) := s.ringRecord q n
      let ws := dwords 16 bs
      let l := launchOf q n ws
      match s.predState l with
      | .wait => s
      | .refused st d =>
        let (id, s) := s.fresh
        (s.modQueue q fun x => { x with next := n + 1, reading := none }).refuse id l st d
      | .done =>
        match x.reading.getD (s.checkLines q n l) with
        | [] => s.checked q n ws l bad
        | (cls, a, k) :: r =>
          match s.mcLine cls a k with
          | some s => again s r
          | none => again s ((cls, a, k) :: r))

/-! ### The default policy (R64) -/

/-- A waiting launch's effective class rises after each further 2^16 ticks. -/
def execAgingPromotion (id : Nat) (s : State) : Out :=
  .next (match s.launch? id with
    | some l =>
      if l.phase ≠ .waiting || 7 ≤ l.eff then s
      else
        let due := l.since + 2 ^ 16 * (l.eff - l.prio + 1)
        if s.tick < due then s.planTick due 50 (.agingPromotion id)
        else (s.setLaunch id { l with eff := l.eff + 1 }).planTick (due + 2 ^ 16) 50 (.agingPromotion id)
    | none => s)

/-- The order of selection: effective class, time of becoming waiting, queue number. -/
def Launch.before (a b : Launch) : Bool :=
  if a.eff ≠ b.eff then b.eff < a.eff else if a.since ≠ b.since then a.since < b.since else a.q < b.q
def launchInsert (e : Nat × Launch) : List (Nat × Launch) → List (Nat × Launch)
  | [] => [e]
  | x :: r => if e.2.before x.2 then e :: x :: r else x :: launchInsert e r

/-- Nothing but its rectangle keeps a waiting launch from being bound (R57, R334, R388). -/
def State.bindable (s : State) (l : Launch) : Bool :=
  let x := s.queue l.q
  l.seq < x.watermark + 256 && !(x.held ≠ [] && x.cqHead + 2 ^ x.log2 ≤ x.w)
    && (s.col.held.length < 64 || s.col.held.any (·.cls = 1))

/-- A timed launch can no longer be bound in time (R74, R425). -/
def State.tooLate (s : State) (l : Launch) : Bool := l.timed && l.base.toNat < s.tick + period20

/-- The launches that the policy binds, in order; `left` are those it has passed over, `got` those chosen. -/
def State.choose (s : State) : List (Nat × Launch) → List Launch → List (Nat × Launch) → List (Nat × Launch)
  | [], _, got => got
  | (id, l) :: r, left, got =>
    if s.rectFree l && s.bindable l && !(got.any fun e => e.2.meets l) && !(left.any fun o => l.eff < o.eff && o.meets l) then
      State.choose s r left (got ++ [(id, l)])
    else State.choose s r (l :: left) got

/-- Lines that the MC and the hub read and write for a bind: the tables of the context, its ROTARY tables, what the image installs, its code
(R103, R134, R185, R339; log 48). -/
def State.bindLines (s : State) (l : Launch) : List (Nat × Nat × Nat) :=
  let x := Sparse.get .idle s.ctxs l.ctx.toNat
  let tables := if x.bound then [] else [(0, ppaLocal x.windows.toNat, 1024), (0, ppaLocal x.rng.toNat, 4096)]
  let rotary := ((List.range 16).filter fun d => x.winUsable d && bits (x.winWord d 0) 3 0 = 3).map fun d => (0, ppaLocal (bits (x.winWord d 1) 57 0), 1024)
  let image := match s.readImage l.ctx l.image with
    | .ok img =>
      (img.aux.flatMap fun a =>
        if a.kind = 1 && x.shapes ≠ 0 then [(0, s.shapeAddr l.ctx.toNat a.id, 64)]
        else if a.kind = 2 && x.windows ≠ 0 && !x.bound && a.id < 16 then [(0, ppaLocal x.windows.toNat + 64 * a.id, 64)] else [])
        ++ match s.mcRead l.ctx pX l.image 64 with
          | .ok h => s.mcLines l.ctx (l.image + f32At h 0x08) (min (f32At h 0x0C) 0x1E000)
          | .error _ => []
    | .error _ => []
  tables ++ rotary ++ image

def execDefaultPolicyEvaluation (s : State) : Out :=
  .next (let late := s.launches.filter fun e => e.2.phase = .waiting && s.tooLate e.2
    let s := late.foldl (fun s e => s.refuse e.1 e.2 2 0) s
    let ws := (s.launches.filter (·.2.phase = .waiting)).foldl (fun l e => launchInsert e l) []
    (s.choose (ws.filter fun e => !s.awaits (.bind e.1)) [] []).foldl (fun s e => s.afterLines true (s.bindLines e.2) 52 (.bind e.1)) s)

/-- The MC binds a waiting launch once it may write HBM: the write list is translated and compared, then the cores are bound (R44, R58,
R60, R89, R334, R425). -/
def execBind (id : Nat) (s : State) : Out :=
  .next (s.mcActs fun s => match s.launch? id with
    | some l =>
      let l := { l with ranges := s.writeRanges l }
      if l.phase ≠ .waiting || !s.rectFree l || !s.bindable l then s
      else if s.refreshing || s.ckptOpen then s.plan (s.now + 1) 52 (.bind id)
      else if s.overlaps id l then s.refuse id l 1 0
      else if s.tooLate l then s.refuse id l 2 0
      else s.hubRead 11 (0x100000 + 64 * l.ctx.toNat) 64 fun s => s.bindNow id l
    | none => s)

/-! ### Retirement and the end of a launch (R63, R385) -/

/-- The core whose work an agenda entry is. -/
def Work.coreOf : Work → Option Nat
  | .maStart c => some c
  | .maGroupAddition c _ _ => some c
  | .drainStart c => some c
  | .drainChunkRead c _ _ => some c
  | .drainChunkWrite c _ _ _ => some c
  | .digestComplete c => some c
  | .ceCommandStart c => some c
  | .ceEvent c _ _ _ => some c
  | .remoteLineSample c _ _ _ _ => some c
  | .ceCommandRetire c _ => some c
  | .flagIncrement c _ => some c
  | .resultFifoEntry c _ _ _ _ => some c
  | .followOnHandoff c _ => some c
  | .tileEntry c _ => some c
  | .deliveryNotice c _ _ => some c
  | .routeTimeout c _ => some c
  | .commandFaultTrap c _ => some c
  | .cefctlAbandon c _ _ => some c
  | .cefctlRetranslate c _ _ => some c
  | .cefctlResume c _ _ => some c
  | .ceRetranslationComplete c _ => some c
  | .trapctlFreeze c _ => some c
  | .smpctlWrite c _ => some c
  | .smpbufWrite c _ => some c
  | .smpptrRdWrite c _ => some c
  | .portStep c _ _ _ => some c
  | .tieTable c _ _ => some c
  | .epilogueData c _ _ => some c
  | .syncBind c _ _ _ _ _ _ => some c
  | .shapeRecord c _ _ => some c
  | .scheduleError c _ _ _ _ _ _ _ => some c
  | _ => none

/-- A GE command that is still to reply names a core among `cs`. -/
def State.gePending (s : State) (cs : List Nat) : Bool := s.geCmds.any fun x => cs.contains x.core

/-- A stream has halted: its `halt` has retired (R208). -/
def Stream.haltedBy (x : Stream) (now : Nat) : Bool := x.halted && x.retireAt < now

/-- The conditions of R63 on one core, with the sampling records of R353; what an instruction that has retired still leaves to the end
of its tick has been done. -/
def State.coreDone (s : State) (c : Nat) : Bool :=
  let k := s.core c
  allStreams.all (fun i => (k.str i).haltedBy s.now) && k.ce.isEmpty && k.maQueue.isEmpty && k.maRun.isEmpty && k.drains.isEmpty
    && k.port.isNone && k.smp.pend.isEmpty && k.pendW.isEmpty
    && s.slots.all fun e => e.2.sender ≠ some c || (e.2.busyTo ≠ 0 && e.2.busyTo < s.now && e.2.full.all (·.2 ≤ e.2.busyTo))

/-- A launch may retire now (R63, R424). -/
def State.retires (s : State) (id : Nat) (l : Launch) : Bool :=
  (l.phase = .running || l.phase = .preempting) && l.cores.all s.coreDone
    && (Sparse.get? s.scheds id).all fun d => !d.void && !d.voided

/-- A stream of a core that is given up: its registers stand until the next start tick, tokens and queue words are gone (R62, R63). -/
def Stream.released (x : Stream) : Stream :=
  { x with halted := true, hold := none, holdTok := 0, faults := [], await := [], stopped := false, point := false,
           tokPred := .empty, tokSucc := .empty, qPred := .empty, qSucc := .empty }

/-- A core that is given up: nothing runs on it, and no command is left; everything else stands until the next start tick (R62, R63, R385). -/
def Core.released (k : Core) : Core :=
  { k with
    c := k.c.released, a := k.a.released, e := k.e.released, w := k.w.released
    owner := none, running := false, ce := [], maQueue := [], maRun := [], drains := [], port := none, dgRun := none, pendW := [], pendH := []
    colEff := [], tileEff := [], vmRetry := [], heapLeft := [] }

/-- The cores of a launch are given up. -/
def State.freeRect (s : State) (id : Nat) (l : Launch) : State :=
  let give (e : Nat × Core) : Nat × Core := if l.cores.contains e.1 && e.2.owner = some id then (e.1, e.2.released) else e
  let s : State := { s with cores := s.cores.map give }
  (List.range l.frets).foldl (fun s f => { s with frets := Sparse.erase s.frets (l.fretCore f) }) s

/-- A sync request of a core of this package among `mine`. -/
def askedBy (pkg : Nat) (mine : Nat → Bool) (r : SyncReq) : Bool := r.pkg = pkg && mine r.core

/-- A launch is stopped where it is: its cores are given up, and nothing of theirs takes place any more; waiters of its streams leave
their objects (R385; log 23). -/
def State.freeCores (s : State) (id : Nat) (l : Launch) : State :=
  let mine (c : Nat) : Bool := l.cores.contains c && (s.core c).owner = some id
  { s with
    agenda := s.agenda.filter fun e => match e.2.2 with
      | .syncOperationPerform r => !askedBy s.pkg mine r
      | w => w.coreOf.all fun c => !mine c
    alarms := s.alarms.filter fun e => e.2.2.coreOf.all fun c => !mine c
    geCmds := s.geCmds.filter fun x => !mine x.core
    waiters := (s.waiters.map fun (e : Nat × List Waiter) => (e.1, e.2.filter fun w => !askedBy s.pkg mine w.req)).filter fun e => !e.2.isEmpty : State }.freeRect id l

/-- A launch leaves its schedule, its LEs stop, and the live copies of a context that no bound launch is left in go
(R48, R103). -/
def State.unbind (s : State) (id : Nat) (l : Launch) : State :=
  let s : State := { s with
    scheds := Sparse.erase s.scheds id
    les := s.les.map fun e => if e.2.owner = some id then (e.1, { e.2 with on := false, owner := none }) else e }
  if (s.launches.any fun e => e.1 ≠ id && e.2.bound && e.2.ctx = l.ctx) then s
  else
    let x := Sparse.get .idle s.ctxs l.ctx.toNat
    { s with ctxs := Sparse.insert s.ctxs l.ctx.toNat { x with bound := false, win := [], rngReg := [] } }

/-- OR of NUMSTAT over a launch's cores, as they stand or as they were saved (R155, R333, R382). -/
def State.launchNumstat (s : State) (l : Launch) : Byte :=
  if l.phase = .saved then l.savedCores.foldl (fun v e => v ||| e.2.numstat) 0 else l.cores.foldl (fun v c => v ||| (s.core c).numstat) 0

/-- The end of a launch with a status: its record, its rectangle, its queue's watermark. One that retires under R63 leaves to the hub what
its GE commands and sync requests still do there; one that the MC ends leaves nothing (R63, R385). -/
def State.endLaunch (s : State) (id : Nat) (l : Launch) (status : Byte) : State :=
  let ns := s.launchNumstat l
  let s := if !l.placed then s else if status = 0 then s.freeRect id l else s.freeCores id l
  let s := s.unbind id l
  let s := s.setLaunch id { l with phase := .retired, savedCores := [], savedFrets := [], savedWork := [] }
  let s := s.modQueue l.q (·.close l.seq)
  (s.complete l.q ⟨l.seq, 1, status, ns, dw s.tick, 0⟩).poke.policy

def execLaunchRetirement (id : Nat) (s : State) : Out :=
  .next (match s.launch? id with
    | some l => if s.retires id l then s.endLaunch id l 0 else s
    | none => s)

/-- STATUS of a launch that the MC ends after a record, and of a refusal (R431). -/
def endCode : EndStatus → Byte
  | .error => 4
def refusalCode : RefusalStatus → Byte
  | .overlap => 1
  | .lateBind => 2
  | .ctxMismatch => 3
  | .badLaunch => 11

/-- The MC ends a launch after a record: its streams stop where they are, its commands are discarded (R385, R431). -/
def execLaunchEndByMc (id : Nat) (status : EndStatus) (s : State) : Out :=
  .next (match s.launch? id with
    | some l => if l.bound then s.endLaunch id l (endCode status) else s
    | none => s)

/-- A timed launch is refused wherever it stands, bound or not (R425). -/
def State.refuseBound (s : State) (id : Nat) (l : Launch) (status : Byte) : State :=
  if !l.timed || !(l.phase = .waiting || l.placed) then s
  else
    let s := if l.placed then s.freeCores id l else s
    ((s.unbind id l).setLaunch id { l with phase := .refused status }).refusePlace l.q l.seq status 0

/-- A report differs from the image of a launch that this package serves as ROOTPKG: another SCHED_ID or PKGMAP, or a package that the PKGMAP
leaves out (R51). -/
def Sched.differs (d : Sched) (pkg sched : Nat) (map : List Byte) : Bool := d.id ≠ sched || d.pkgMap ≠ map || !mapHas d.pkgMap pkg

/-- The refusal of another launch of the schedule refuses this one; a report that differs from its image refuses the schedule pod-wide, at the
package that acts as its root (R51, R425). -/
def execScheduleRefusalNotice (id : Nat) (n : BindNotice) (s : State) : Out :=
  .next (match s.launch? id with
    | none => s
    | some l =>
      match n with
      | .refusal st => s.refuseBound id l (refusalCode st)
      | .report pkg sched map =>
        match l.sched? s with
        | some d =>
          if d.rootPkg = s.pkg && d.differs pkg sched map then (s.refuseBound id l 11).treeSend d.rootPkg (.refused d.id id 11) else s
        | none => s)

/-! ### Feeds (R77) -/

/-- The bound resident launch that a feed queue serves. Where two bound resident launches name one FEED_Q the spec does not say which is
fed: the model feeds the first of its list (log 43). -/
def State.fedBy (s : State) (q : Nat) : Option Launch :=
  (s.launches.find? fun e => e.2.resident && e.2.feedQ = q && e.2.phase = .running).map (·.2)

/-- What to do with the first entry of a feed that can be taken: a bad FRET is consumed, a good one is delivered when its
fret's mailboxes are all empty; an entry waits behind earlier ones of its fret. -/
def State.feedScan (s : State) (q : Nat) (l : Launch) : Nat → Nat → List Nat → Option (Nat × Nat × List DWord)
  | 0, _, _ => none
  | fuel + 1, n, held =>
    let x := s.queue q
    if x.next ≤ n then none
    else if x.closed n then State.feedScan s q l fuel (n + 1) held
    else
      let ws := dwords 16 (s.ringRecord q n).1
      let f := bits (ws.getD 1 0) 15 0
      if l.frets ≤ f then some (n, f, ws)
      else if held.contains f || !(Sparse.get .idle s.frets (l.fretCore f)).mb.isEmpty then State.feedScan s q l fuel (n + 1) (f :: held)
      else some (n, f, ws)

/-- The hub reads the next entry of a feed queue, a line of class 1 in a tick where the ring lies in HBM (R339). -/
def State.feedRead (s : State) (q : Nat) : State :=
  let x := s.queue q
  if x.tail ≤ x.next then s
  else if !s.visible x x.next then s.planOnce (s.now + 1) 41 (.feedEntryDelivery q)
  else
    let again (s : State) (p : Nat) (r : Option (List (Nat × Nat × Nat))) : State :=
      (s.modQueue q fun x => { x with reading := r, next := if r.isNone then x.next + 1 else x.next }).planOnce p 41 (.feedEntryDelivery q)
    match x.reading.getD (if x.sqBase.getLsbD 63 then hbmLines 1 (ringAddr x.sqBase x.log2 128 x.next) 128 else []) with
    | [] => again s s.now none
    | (cls, a, k) :: r =>
      match s.mcLine cls a k with
      | some s => if r.isEmpty then again s s.now none else again s (s.now + 1) (some r)
      | none => again s (s.now + 1) (some ((cls, a, k) :: r))

def execFeedEntryDelivery (q : Nat) (s : State) : Out :=
  .next (let x := s.queue q
    match (if x.en && x.feed then s.fedBy q else none) with
    | none => s
    | some l =>
      match s.feedScan q l (x.next - x.watermark) x.watermark [] with
      | none => s.feedRead q
      | some (n, f, ws) =>
        let qs := (ws.getD 0 0).toNat
        let s := (s.modQueue q (·.close n)).planOnce s.now 41 (.feedEntryDelivery q)
        if l.frets ≤ f then (s.complete q ⟨qs, 3, 12, 0, dw s.tick, 0⟩).hostRecord uHost 8
        else s.modFret (l.fretCore f) fun y => { y with mb := (List.range 8).map fun i => (i, ws.getD (2 + i) 0), entry := some qs })

end Sys2Proof.Machine
end

