-- ==== Sys2Proof/Machine/Recover.lean ====
section
/-! DEFINITION. What the MC and the collector do about misses, shootdowns and errors: fills, clears, the error ring, scrubbers,
refresh and budgets (spec 04 R89, R97 to R99; 14 R339; 18 R374, R384, R386 to R389; 20 R410, R412). -/

namespace Sys2Proof.Machine

/-! ### The stall wire (R384) -/

/-- FRZ.FROZEN of a core: set for the first core of a frozen fret, once no record of the fret is still held (R384, R389). -/
def State.frzFrozen (s : State) (core : Nat) : Bool :=
  let mine (r : ErrRec) : Bool := 2 ≤ r.cls && (s.cores.any fun e => e.1 = bits r.place 24 16 && e.2.owner.isSome && e.2.fret = core)
  (s.core core).owner.isSome && (s.core core).fret = core && (Sparse.get .idle s.frets core).frozen && !(s.col.held ++ s.col.waiting).any mine

/-- The MC clears FRZ.FROZEN of the fret whose first core is `core`. -/
def State.unfreeze (s : State) (core : Nat) : State :=
  if s.frzFrozen core then s.modFret core fun f => ({ f with frozen := false }).release s.now else s

def execFrzClear (core : Nat) (s : State) : Out := .next (s.unfreeze core)

/-! ### Misses (R97, R394, R410) -/

/-- The first entry of a stream that waits for a translation, and the sides it waits for. -/
def Core.missing (k : Core) (i : StreamId) : Option (CeEntry × List Nat) :=
  k.ce.findSome? fun e =>
    match e.st with
    | .retranslating 0 l => if e.stream = i then some (e, l) else none
    | _ => none

/-- The MC answers the miss of an entry's retranslation: the next missing side, the wire's drop, or PAGEFAULT. -/
def State.fillEntry (s : State) (c : Nat) (i : StreamId) (e : CeEntry) (l : List Nat) (slot : Option Nat) : State :=
  let filled (s : State) : State := (s.modCe c e.id fun e => { e with st := .retranslating 1 l }).missEnd c
  match s.missSide c e l with
  | none => filled s
  | some n =>
    let va := s.retransVa e n
    match slot with
    | some slot =>
      match s.fillSlice (dieOf c) (s.core c).ctx va slot (e.reqOf n) with
      | none => s.emit (.pageFault c i va)
      | some s =>
        match s.missSide c e l with
        | none => filled s
        | some _ => s.emit (.walkMiss c i)
    | none => ((s.ceStop c e.id 0x68 n e.prog).missEnd c).cmdFault c i e.id 0x68 (dw va) (dw (e.reqOf n)) true

/-- The VA whose translation stream `i` of a core waits for. -/
def State.missVa (s : State) (core : Nat) (i : StreamId) : Option Nat :=
  match (s.str core i).hold with
  | some (.miss _ va _) => some va
  | _ => ((s.core core).missing i).bind fun (e, l) => (s.missSide core e l).map (s.retransVa e)

/-- The MC's answer takes effect: the walk into a slot, or that it declines. -/
def State.missAnswer (s : State) (core : Nat) (i : StreamId) (slot : Option Nat) : State :=
  match (s.str core i).hold with
  | some (.miss hd va req) => s.fillXlate core i hd va req slot
  | _ =>
    match (s.core core).missing i with
    | some (e, l) => s.fillEntry core i e l slot
    | none => s

/-- A walk has read its lines: it goes on with `f` once the MC may write the companion word of the leaf, or at once where it finds none (R89,
R97, R339). Where it meets an entry that no code can correct, what asked for it is contained (R372, R375; log 9). -/
def State.walked (s : State) (who : Who) (ctx : Byte) (va : Nat) (again : State → State) (f : State → State) : State :=
  match s.treeBad ctx va, s.walkCtx ctx va with
  | some g, _ => s.contain 1 8 who (some (mkPpa s.pkg g))
  | none, some (_, comp) =>
    match s.classGrant 0 comp 8 true with
    | some s => f (s.treeTouch ctx va)
    | none => again s
  | none, none => f s

/-- An entry of the tree as the MC may write it: reserved bits stay zero (R7, R93). -/
def treeEntry (v : DWord) : DWord := v &&& 0xFFE03FFFFFFFFFFF

/-- The lines that the walk of an answer reads first (R92, R339). -/
def State.fillLines (s : State) (core : Nat) (i : StreamId) : FillAnswer → List (Nat × Nat × Nat)
  | .walk _ => ((s.missVa core i).map (s.treeLines (s.core core).ctx)).getD []
  | .ahead ctx va _ _ _ => s.treeLines ctx va
  | _ => []

/-- The MC answers a miss or fills ahead of one; its walk has read its lines (R97, R410, R454). -/
def State.missFill (s : State) (core : Nat) (i : StreamId) (ans : FillAnswer) : State :=
  s.mcActs fun s => s.hubRead 11 (0x100000 + 64 * (s.core core).ctx.toNat) 64 fun s =>
    let who : Who := { core := some core, stream := some i, unit := uMc }
    let again (s : State) : State := s.plan (s.now + 1) 40 (.missFill core i ans)
    match ans with
    | .decline => s.missAnswer core i none
    | .walk slot =>
      match s.missVa core i with
      | some va => s.walked who (s.core core).ctx va again fun s => s.missAnswer core i (some slot)
      | none => s
    | .ahead ctx va die req slot => s.walked { unit := uMc } ctx va again fun s => (s.fillSlice die.toNat ctx va slot req.toNat).getD s
    | .install es slot =>
      match es with
      | [] => s.afterLines false (s.fillLines core i (.walk slot)) 40 (.missFill core i (.walk slot))
      | (a, v) :: r =>
        if hbmTop < a + 8 then s.plan s.now 40 (.missFill core i (.install r slot))
        else
          match s.classGrant 0 a 8 true with
          | some s => (s.store { unit := uMc } a (leBytes 8 (treeEntry v).toNat)).plan (s.now + 1) 40 (.missFill core i (.install r slot))
          | none => again s

def execMissFill (core : Nat) (i : StreamId) (ans : FillAnswer) (s : State) : Out :=
  .next (s.afterLines false (s.fillLines core i ans) 40 (.missFill core i ans))

/-! ### Shootdowns (R98, R99, R412, R414, R429) -/

/-- A core uses a page of the range: a handle, a side of a command, a region of a digest session. -/
def Core.usesPage (ctx : Byte) (lo hi : Nat) (psz : BitVec 2) (k : Core) : Bool :=
  let on (h : Handle) : Bool := shotHandle ctx lo hi psz h
  k.h.any (fun e => on e.2) || k.pendH.any (fun e => on e.2.2)
    || k.ce.any (fun e => on e.dst.h || on e.src.h || on e.idx.h || e.flag.any fun f => on f.h)
    || k.dg.any fun e => e.2.regions.any fun r => k.ctx = ctx && shotPage lo hi psz (r.va / 4096 * 4096)

/-- The MC holds a shootdown of a page that a running timed launch uses (R99). -/
def State.shotHeld (s : State) (ctx : Byte) (lo hi : Nat) (psz : BitVec 2) : Bool :=
  s.launches.any fun e => e.2.timed && e.2.ctx = ctx && e.2.placed
    && s.cores.any fun k => k.2.owner = some e.1 && k.2.usesPage ctx lo hi psz

/-- Entries of the slices for the range are removed. -/
def State.dropSlices (s : State) (ctx : Byte) (lo hi : Nat) (psz : BitVec 2) : State :=
  { s with slices := s.slices.map fun e => (e.1, e.2.filter fun x => !(x.2.ctx = ctx && shotPage lo hi psz x.2.va)) }

/-- Tree entries of a page that stand in one line, and the lines of its entries: a 64 KiB page has 16 entries, the others have one (R92). -/
def lineEntries (psz : BitVec 2) : Nat := if psz = 1 then 8 else 1
def pageLines (psz : BitVec 2) : Nat := if psz = 1 then 2 else 1

/-- A VA whose walk ends at the first entry of line `n` of the entries of the pages of a size, counted from VA 0. -/
def lineVa (psz : BitVec 2) (n : Nat) : Nat := n / pageLines psz * 2 ^ pageShift psz.toNat + n % pageLines psz * 2 ^ 15

/-- What a removal gathers of a line of entries: its companion words, and a page of kind SYNC (R99, R429). -/
def Shot.add (x : Shot) (s : State) (leaf : DWord) (comp n : Nat) : Shot :=
  { companions := x.companions ++ [(comp, n)]
    dies := (List.range n).foldl (fun d i => d ||| BitVec.ofNat 4 (s.word (comp + 8 * i))) x.dies
    syncs := x.syncs ++ (if bits leaf 61 60 = kSync then [(bits leaf 45 0 * 4096, 2 ^ pageShift (bits leaf 55 54))] else []) }

/-- The first step of a removal: the entries of the pages of a range become invalid, their other bits those of `entry`, a line of entries in a
tick, after a walk; the second: the slice entries go; then the shootdown (R92, R98). -/
def State.unmap (s : State) (ctx : Byte) (lo hi : Nat) (psz : BitVec 2) (entry : DWord) (at_ : Nat) (x : Shot) : State :=
  let next (s : State) (p : Nat) (x : Shot) : State :=
    s.plan p 40 (.lines false (s.treeLines ctx (lineVa psz (at_ + 1))) 40 (.unmap ctx lo hi psz entry (at_ + 1) x))
  let n := lineEntries psz
  if hi < at_ / pageLines psz then (s.dropSlices ctx lo hi psz).plan (s.now + 1) 0 (.shootdownDelivery ctx lo hi psz x)
  else
    match s.walkCtx ctx (lineVa psz at_) with
    | none => next s s.now x
    | some (leaf, comp) =>
      if bits leaf 55 54 ≠ psz.toNat then next s s.now x
      else
        match (s.classGrant 0 (comp - 4096) (8 * n) true).bind fun s => s.classGrant 0 comp (8 * n) false with
        | none => s.plan (s.now + 1) 40 (.unmap ctx lo hi psz entry at_ x)
        | some t =>
          next (t.store { unit := uMc } (comp - 4096) (List.replicate n (leBytes 8 ((treeEntry entry).toNat % 2 ^ 63))).flatten) (s.now + 1)
            (x.add s leaf comp n)

/-- The shootdown: every core of a die whose AC bit was set clears and marks, and waiters on records in the SYNC pages are released, in one tick
and before any handle check of that tick (R412, R429). -/
def State.shootdown (s : State) (ctx : Byte) (lo hi : Nat) (psz : BitVec 2) (x : Shot) : State :=
  if s.shotHeld ctx lo hi psz then s.plan (s.now + 1) 0 (.shootdownDelivery ctx lo hi psz x)
  else
    let s : State := { s with
      cores := s.cores.map fun (e : Nat × Core) => if x.dies.getLsbD (dieOf e.1) then (e.1, e.2.shoot ctx lo hi psz s.pkg e.1) else e }
    (s.syncShoot fun q => x.syncs.any fun r => r.1 ≤ q.ppa && q.ppa < r.1 + r.2).plan (s.now + 1) 40 (.shootdownComplete x.companions x.dies s.serial)

/-- The MC removes the mappings of a range of pages of a context, and leaves in the invalid entries what it pleases (R98). -/
def execShootdownDelivery (ctx : Byte) (lo hi : Nat) (psz : BitVec 2) (entry : DWord) (s : State) : Out :=
  let n := lo * pageLines psz
  .next (s.afterLines false (s.treeLines ctx (lineVa psz n)) 40 (.unmap ctx lo hi psz entry n ⟨[], 0, []⟩))

/-- A stream has issued a scalar access, numbered below `before`, that has not performed. -/
def Stream.oldAccess (before : Nat) (x : Stream) : Bool :=
  match x.hold with
  | some (.bank _ _ id _) => id < before
  | _ => false

/-- An access through an old translation, or one that was under way when the serial number stood at `before`, has not completed on a
delivered die. -/
def State.inFlight (s : State) (dies : BitVec 4) (before : Nat) : Bool :=
  let on (c : Nat) : Bool := dies.getLsbD (dieOf c)
  s.cores.any (fun e => on e.1 && (e.2.ce.any (fun x => x.marks ≠ [] && x.outstanding ≠ 0) || e.2.port.any (·.id < before)
      || e.2.drains.any (·.id < before) || e.2.dgRun.any (·.id < before) || allStreams.any fun i => (e.2.str i).oldAccess before))
    || s.geCmds.any (fun x => on x.core && x.id < before)
    || s.agenda.any fun e => match e.2.2 with
      | .syncOperationPerform r => r.pkg = s.pkg && on r.core && r.id < before
      | _ => false

/-- When every access through the old translation has completed, the hub reports, and the MC clears the companion words. -/
def State.shotEnd (s : State) (comps : List (Nat × Nat)) (dies : BitVec 4) (before : Nat) : State :=
  if s.inFlight dies before then s.plan (s.now + 1) 40 (.shootdownComplete comps dies before)
  else
    let s := if dies = 0 then s else s.emit .shootdownDone
    match comps with
    | [] => s
    | (a, n) :: r =>
      match s.classGrant 0 a (8 * n) true with
      | none => s.plan (s.now + 1) 40 (.shootdownComplete comps 0 before)
      | some s =>
        let s := s.store { unit := uMc } a (List.replicate (8 * n) 0)
        if r.isEmpty then s else s.plan (s.now + 1) 40 (.shootdownComplete r 0 before)

def execShootdownComplete (companions : List Nat) (s : State) : Out := .next (s.shotEnd (companions.map fun a => (a, 1)) 15 s.serial)

/-! ### The error ring (R386 to R389) -/

/-- The bytes of record `w` of the ring. -/
def ErrRec.bytes (r : ErrRec) (w log2 : Nat) : List Byte :=
  ([dw (r.cls + r.code.toNat * 2 ^ 8 + r.array.toNat * 2 ^ 16 + r.count * 2 ^ 24 + (if w / 2 ^ log2 % 2 = 0 then 2 ^ 63 else 0)),
    r.tick, r.place, r.launch, r.addr, r.synd, r.info0, r.info1].map (leBytes 8 ·.toNat)).flatten

def Collector.log2 (k : Collector) : Nat := bits k.cfg 4 0

/-- The ring is configured and has room for a record that waits. -/
def Collector.ready (k : Collector) : Bool :=
  !k.held.isEmpty && k.log2 ≠ 0 && (k.tail - k.head).toNat < 2 ^ k.log2

/-- The MC's external interrupt is asserted (R387). -/
def Collector.irq (k : Collector) : Bool := k.cfg.getLsbD 8 && k.tail ≠ k.head

/-- After a write of the collector's registers: the ring may have room, and the interrupt may have come up. -/
def State.setCol (s : State) (k : Collector) : State :=
  let t : State := ({ s with col := k }).planOnce s.now 40 .errorRecordWrite
  if k.irq && !s.col.irq then t.emit .mcIrq else t

/-- A place of the buffer is free again: the first waiting unit hands over its record. -/
def Collector.handOver (k : Collector) : Collector :=
  match k.waiting with
  | r :: w => if k.held.length < 64 then { k with held := errInsert r k.held, waiting := w } else k
  | [] => k

/-- The collector writes the first record that waits, in a free slot of its HBM stack and within budget class 0 (R388); the
MC is interrupted after it (R389). -/
def execErrorRecordWrite (s : State) : Out :=
  .next (match s.col.held with
    | [] => s
    | r :: rest =>
      if !s.col.ready then s
      else
        let w := s.col.tail.toNat
        let a := ppaLocal (s.col.base.toNat % 2 ^ 58) + w % 2 ^ s.col.log2 * 64
        match s.classGrant 0 a 64 true with
        | none => s.planOnce (s.now + 1) 40 .errorRecordWrite
        | some s => s.hubRead 13 (w % 64 * 64) 64 fun s =>
          let s := s.store { unit := uMc } a (r.bytes w s.col.log2)
          let s := { s with col := ({ s.col with held := rest, tail := s.col.tail + 1 }).handOver }
          let s := if s.col.cfg.getLsbD 8 then s.emit .mcIrq else s
          if s.col.held.isEmpty then s else s.planOnce (s.now + 1) 40 .errorRecordWrite)

/-- ERRQ_CFG (R387): a LOG2 of 1 to 5 or 17 to 31 stores 0. -/
def State.errqCfg (s : State) (v : DWord) : State :=
  let n := bits v 4 0
  let n := if 6 ≤ n && n ≤ 16 then n else 0
  s.setCol { s.col with cfg := dw (n + (if v.getLsbD 8 then 256 else 0)) }

def execErrqCfgWrite (v : DWord) (s : State) : Out := .next (s.errqCfg v)

/-! ### Scrubbers, refresh, budgets (R89, R339, R374) -/

/-- Local address of line `m` of HBM stack `n` (R87). -/
def stackLine (n m : Nat) : Nat :=
  let hi := m / 64 * 2 ^ 15
  hi + (n ^^^ bits (dw hi) 23 21) * 4096 + m % 64 * 64

/-- A scrubber reads a line: granules that a code can correct are written back, with a record for those that no access has met (R458), unless the write would meet another of this tick (R374).
`c` is the core whose scratchpad it is. -/
def State.scrubLine (s : State) (a array : Nat) (c : Option Nat) : State :=
  let g := a / 8
  let hit (e : Nat × Damage) : Bool := g ≤ e.1 && e.1 < g + 8 && e.2.fixable
  if s.lineWritten (a / 64) || c.any fun c => (s.core c).spadWr.any fun (p, _, o, n) => p = s.now && o < a % spadSlot + 64 && a % spadSlot < o + n then s
  else
    (s.dmg.filter fun e => hit e && e.2 = .single).foldl (fun s e => s.corrected 3 array { core := c, unit := uScrub } (some (mkPpa s.pkg (e.1 * 8))))
      { s with dmg := s.dmg.filter fun e => !hit e }

/-- The scratchpads that are still to be scrubbed in this period: one line each, in a free slot and within budget class 0; the others wait. -/
def State.scrubCores (s : State) (cs : List Nat) : State :=
  let (s, left) := cs.foldl (fun (s, left) c =>
    let m := Sparse.get 0 s.scrub c
    match s.classGrant 0 (spadOf c + 64 * m) 64 false with
    | some s => (({ s with scrub := Sparse.set 0 s.scrub c ((m + 1) % (spadSize / 64)) }).scrubLine (spadOf c + 64 * m) 1 (some c), left)
    | none => (s, left ++ [c])) (s, [])
  if left.isEmpty || s.tick % 4096 = 3966 then s else s.plan (s.now + 1) 46 (.scrubCores left)

/-- Granules of an array other than scratchpad and HBM. -/
def softSize : Nat → Nat
  | 2 => 65536
  | 3 => 4608
  | 4 => 65536
  | 5 => 16384
  | 6 => 4736
  | 7 => 12 * 64 * 512
  | 9 => 12 * 16384
  | 10 => 1024 * (geSpan / 8)
  | 11 => 2 ^ 20
  | 12 => 2 ^ 20
  | _ => 512

/-- The granule of an array that its scrubber takes in this tick is the one of key `k` (R374; log 40). -/
def State.scrubDue (s : State) (k : Nat) : Bool := let n := softSize (k / 2 ^ 40); k % 2 ^ 40 % n = s.tick % n

/-- Outside timed schedules, one granule of each of the other arrays is scrubbed in a tick. -/
def State.scrubArrays (s : State) : State :=
  if s.scheds ≠ [] then s
  else
    let due (e : Nat × Damage) : Bool := s.scrubDue e.1 && e.2.fixable
    let fix (s : State) (c : Option Nat) : State :=
      ((s.softOf c).filter fun e => due e && e.2 = .single).foldl (fun s e => s.corrected 3 (e.1 / 2 ^ 40) { core := c, unit := uScrub } (some (e.1 % 2 ^ 40 * 8)))
        (s.setSoft ((s.softOf c).filter fun e => !due e) c)
    fix ((s.cores.map (·.1)).foldl (fun s c => fix s (some c)) s) none

/-- The scrubbers take one line of each HBM stack, and one of each core's scratchpad (R374). -/
def execPatrolScrub (s : State) : Out :=
  .next (((List.range 8).foldl (fun s n =>
      let m := Sparse.get 0 s.scrub (480 + n)
      ({ s with scrub := Sparse.set 0 s.scrub (480 + n) ((m + 1) % 2 ^ 30) }).scrubLine (stackLine n m) 8 none) s).scrubCores (List.range 480))

/-- The refresh of every stack begins. It changes no contents; no access can be at the arrays then, because none issues in the
refresh window (`State.refreshing`, R89). -/
def execHbmRefresh (s : State) : Out := .next s

/-- Every class's units are renewed at every port (R339); the hub reads its budgets, and the slot table and the almanac of the period, once
for all (R375; log 40). -/
def execBudgetRefill (s : State) : Out :=
  let n (s : State) (c : Nat) : State :=
    let b := Sparse.get 0 s.budgets c
    { s with spent := (List.range 488).foldl (fun m p => Sparse.set 0 m (1024 * c + p) (if p < 480 then bits b 47 32 else bits b 15 0)) s.spent }
  .next (s.hubRead 11 0x500000 48 fun s => s.hubRead 11 0x710000 0x40000 fun s => s.hubRead 11 0x780000 0x10000 fun s =>
    (List.range 6).foldl n { s with spent := [] })

end Sys2Proof.Machine
end

