-- ==== Sys2Proof/Machine/Save.lean ====
section
/-! DEFINITION. Pre-emption, the save of a launch and its restore (spec 03 R79 to R85; 20 R414, R416 to R421; 07 R157; 10 R235;
11 R261; 15 R351). -/

namespace Sys2Proof.Machine

/-! ### Requests (R79, R81, R421) -/

/-- The MC asks for a pre-emption: each stream stops at its next point. -/
def State.askPreempt (s : State) (id : Nat) (l : Launch) : State :=
  (s.setLaunch id { l with phase := .preempting, reqTick := some s.tick }).planTick (s.tick + 2 ^ 20) 23 (.preemptionTimeout id)

/-- A free launch alone is pre-empted on request. -/
def execPreemptionRequest (id : Nat) (s : State) : Out :=
  .next (match s.launch? id with
    | some l => if l.timed || l.phase ≠ .running then s else s.askPreempt id l
    | none => s)

/-- A timed launch saves at the first tick of a guard interval that its schedule declares as a yield point; its LEs hold. -/
def execTimedPreemption (id : Nat) (s : State) : Out :=
  .next (match s.launch? id, Sparse.get? s.scheds id with
    | some l, some d =>
      if l.phase = .running && d.yields.any fun y => d.base.toNat + y = s.tick then
        let s : State := { s with les := s.les.map fun e => if e.2.owner = some id then (e.1, { e.2 with stopped := e.2.on, on := false }) else e }
        s.askPreempt id l
      else s
    | _, _ => s)

/-- Every stream of the launch has stopped or halted. -/
def State.allStopped (s : State) (l : Launch) : Bool :=
  l.cores.all fun c => allStreams.all fun i => (s.str c i).stopped || (s.str c i).halted

/-- Some stream has reached no pre-emption point within 2^20 ticks of the request that stands (R421). -/
def execPreemptionTimeout (id : Nat) (s : State) : Out :=
  .next (match s.launch? id with
    | some l => if l.phase = .preempting && (l.reqTick.any fun t => t + 2 ^ 20 ≤ s.tick) && !s.allStopped l then s.endLaunch id l 6 else s
    | none => s)

/-! ### When the engines have stopped (R80, R302, R313, R420) -/

/-- Work of core `c` that waits while its launch is swapped out, or that its resumption plans again. -/
def Work.waits (c : Nat) : Work → Bool
  | .maStart k => k = c
  | .drainStart k => k = c
  | .ceCommandStart k => k = c
  | .ceEvent k _ _ .run => k = c
  | .commandFaultTrap k _ => k = c
  | .resultFifoEntry k _ _ _ _ => k = c
  | .followOnHandoff k _ => k = c
  | .routeTimeout k _ => k = c
  | _ => false

/-- Results of a command that wait for a place in their FIFO. -/
def State.resultsOf (s : State) (c id : Nat) : Nat :=
  (s.agenda.filter fun e => match e.2.2 with
    | .resultFifoEntry k _ i _ _ => k = c && i = id
    | _ => false).length

/-- A sync request of core `c` that is to be answered before a save: a reply under way, or an operation that is not
withdrawn. -/
def Work.replyTo (c : Nat) (pkg : Nat) : Work → Bool
  | .syncReply r _ => r.pkg = pkg && r.core = c
  | .syncOperationPerform r =>
    r.pkg = pkg && r.core = c && match r.op with
      | .acq => false
      | .wait _ => false
      | _ => true
  | _ => false

/-- A command waits for a translation. -/
def EntState.translating : EntState → Bool
  | .retranslating _ _ => true
  | _ => false

/-- Nothing of a core is under way but what a save can hold. -/
def State.coreQuiet (s : State) (c : Nat) : Bool :=
  let k := s.core c
  k.drains.all (!·.started) && k.port.isNone && k.dgRun.isNone && k.pendW.isEmpty && k.pendH.isEmpty
    && k.ce.all (fun e => e.outstanding = s.resultsOf c e.id && !e.st.translating && (!e.active || e.atSplit || e.next.isNone))
    && allStreams.all (fun i =>
      let x := k.str i
      x.await.isEmpty && x.retireAt < s.now && match x.hold with
        | none => true
        | some (.meridian _) => true
        | some (.sync _ waits _) => waits
        | _ => false)
    && s.agenda.all fun e => !(e.2.2.coreOf = some c && !e.2.2.waits c) && !e.2.2.replyTo c s.pkg

/-- The save of a launch can begin: nothing is under way, and HBM may be written (R44, R89). -/
def State.savable (s : State) (l : Launch) : Bool :=
  l.phase = .preempting && s.allStopped l && l.cores.all s.coreQuiet && !s.gePending l.cores && !s.refreshing && !s.ckptOpen

/-! ### The images of the save area (R82, R84, R157, R261) -/

/-- Offset of core block `i`. -/
def blockAt (i : Nat) : Nat := 0x20000 + i * 0x480000

/-- Accumulator side array and bodies (R157). -/
def Core.sideImage (k : Core) : List Byte :=
  ((List.range 0x8000).map fun i => BitVec.ofNat 8 ((Sparse.get 0 k.xa i).toNat / 2 ^ 128))
    ++ (List.range 512).flatMap fun c =>
      let x := Sparse.get ⟨0, 0, 0⟩ k.side c
      leBytes 8 (x.cnt.toNat + x.anchor.toNat * 2 ^ 32 + x.flags.toNat * 2 ^ 48)
def Core.bodyImage (k : Core) : List Byte := (List.range 0x8000).flatMap fun i => leBytes 16 (Sparse.get 0 k.xa i).toNat

/-- V0 to V63 by physical number, and T0 to T7 row by row. -/
def Core.vecImage (k : Core) : List Byte :=
  (List.range 64).flatMap fun n => (Sparse.getAll 0 (Sparse.get [] k.v n) 0 512).flatMap fun x => leBytes 4 x.toNat
def Core.tileImage (k : Core) : List Byte := (List.range 8).flatMap fun n => Sparse.getAll 0 (Sparse.get [] k.tiles n) 0 0x10000

/-- An accepted drain: its words, operands and rows done; the order of the fields is the model's (R261; log 15). -/
def DrainRec.image (d : DrainRec) : List Byte :=
  (d.words.flatMap fun w => leBytes 4 w.toNat) ++ (d.vals.flatMap fun v => leBytes 8 v.toNat) ++ leBytes 8 (d.read / d.perRow)
    ++ List.replicate 16 0

/-- The DEU block (R261). -/
def Core.deuImage (k : Core) : List Byte :=
  let heap (r : Nat) : Heap := Sparse.get ⟨64, []⟩ k.heaps r
  let pad (n : Nat) (l : List Byte) : List Byte := l.take n ++ List.replicate (n - l.length) 0
  ((List.range 64).flatMap fun r => pad 512 (heap r).bytes)
    ++ ((List.range 64).flatMap fun r => leBytes 8 ((heap r).items.length + (heap r).k * 2 ^ 32))
    ++ pad 0x20 ([k.epcfg, k.epidx, k.dstat].flatMap fun w => leBytes 8 w.toNat) ++ pad (0x8400 - 0x8220) (k.drains.flatMap (·.image))
    ++ ((Sparse.getAll 0 k.bias 0 512 ++ Sparse.getAll 0 k.scale 0 512).flatMap fun w => leBytes 4 w.toNat)

/-- What a restore reads back of those images. -/
def Core.ofImages (k : Core) (side vec tile body deu : List Byte) : Core :=
  let word (off : Nat) : Word := BitVec.ofNat 32 (f32At deu off)
  let row (r : Nat) : Heap :=
    let v := f64At deu (0x8000 + 8 * r)
    ⟨bits (dw v) 38 32, (List.range (v % 128)).map fun i => (word (512 * r + 8 * i), word (512 * r + 8 * i + 4))⟩
  { k with
    heaps := (List.range 64).foldl (fun m r => Sparse.set ⟨64, []⟩ m r (row r)) []
    epcfg := dw (f64At deu 0x8200), epidx := dw (f64At deu 0x8208), dstat := dw (f64At deu 0x8210)
    drains := k.drains.mapIdx fun j d => { d with read := f64At deu (0x8220 + 64 * j + 40) * d.perRow }
    bias := wordsSparse ((deu.drop 0x8400).take 2048), scale := wordsSparse ((deu.drop 0x8C00).take 2048)
    xa := (List.range 0x8000).foldl (fun m i =>
      Sparse.set 0 m i (BitVec.ofNat 136 (leNat ((body.drop (16 * i)).take 16) + (side.getD i 0).toNat * 2 ^ 128))) []
    side := (List.range 512).foldl (fun m c =>
      let w := f64At side (0x8000 + 8 * c)
      Sparse.set ⟨0, 0, 0⟩ m c ⟨BitVec.ofNat 10 (w / 2 ^ 32), BitVec.ofNat 6 (w / 2 ^ 48), BitVec.ofNat 32 w⟩) []
    v := (List.range 64).foldl (fun m n =>
      Sparse.set [] m n (Sparse.setAll 0 [] 0 ((chunks 512 4 ((vec.drop (2048 * n)).take 2048)).map fun b => BitVec.ofNat 32 (leNat b)))) []
    tiles := (List.range 8).foldl (fun m n => Sparse.set [] m n (Sparse.setAll 0 [] 0 ((tile.drop (0x10000 * n)).take 0x10000))) [] }

/-! ### Saving (R82, R416, R417, R420) -/

/-- A packet takes the request of a stream off the list of an agent in another package (R420; log 14). -/
def State.withdrawFar (s : State) (c : Nat) (i : StreamId) (id ppa : Nat) : State :=
  let r : SyncReq := { pkg := s.pkg, core := c, stream := i, ppa := ppa, op := .withdraw, gw := 0, q := 0, va := 0, ctx := (s.core c).ctx, id := id,
                       timed := false, again := false }
  s.routeRead ppa fun s => s.sendPacket { kind := .sync r, route := s.routeTo ppa, target := ppa, data := [], ctx := r.ctx, flag := none,
                                          srcPkg := s.pkg, srcCore := c, srcStream := i, cmd := id }

/-- `soacq` and `sowait` are withdrawn from their agent and saved as not issued. -/
def State.withdrawSync (s : State) (c : Nat) : State :=
  let mine (r : SyncReq) : Bool := r.pkg = s.pkg && r.core = c
  let s : State := { s with
    waiters := (s.waiters.map fun e => (e.1, e.2.filter fun w => !mine w.req)).filter fun e => !e.2.isEmpty
    agenda := s.agenda.filter fun e => match e.2.2 with
      | .syncOperationPerform r => !mine r
      | _ => true }
  allStreams.foldl (fun s i =>
    match (s.str c i).hold with
    | some (.sync id _ far) => (far.elim s fun ppa => s.withdrawFar c i id ppa).withdraw c i
    | _ => s) s

/-- A command as it is saved. -/
def EntState.saved : EntState → EntState
  | .running => .queued
  | st => st

/-- A core as it is saved: nothing runs, and nothing is left of the arbitration. -/
def Core.saved (k : Core) : Core :=
  let x (y : Stream) : Stream := { y with tried := false, busy := [] }
  { k with
    c := x k.c, a := x k.a, e := x k.e, w := x k.w
    bankUse := [], spadWr := [], colEff := [], tileEff := [], vmRetry := []
    ce := k.ce.map fun e => { e with st := e.st.saved } }

/-- Granules of the save area, by offset, become poison; those of them that are there, by offset and local address (R373, R417). -/
def State.poisonArea (s : State) (l : Launch) (offs : List Nat) : State × List (Nat × Nat) :=
  let at_ := offs.filterMap fun o => ((l.savePieces o 8).head?).map fun x => (o, x.1)
  ({ s with dmg := at_.foldl (fun d e => Sparse.insert d (e.2 / 8) .poison) s.dmg }, at_)

/-- Copy the live ranges of a scratchpad into a block; a granule that no code can correct becomes poison there (R417). -/
def State.saveLive (s : State) (l : Launch) (i : Nat) : State × List (Nat × Nat) :=
  let c := l.core i
  let (s, _, bad) := l.liveRanges.foldl (fun (s, off, bad) (o, n) =>
    let lo := spadOf c + o
    let hits := s.dmg.filter fun e => lo / 8 ≤ e.1 && e.1 < (lo + n) / 8 && !e.2.fixable
    let s := s.touch { core := some c, unit := uCkpt } lo n
    let s := s.saveStore l off (s.load lo n)
    let (s, at_) := s.poisonArea l (hits.map fun e => off + (e.1 * 8 - lo))
    (s, off + n, bad ++ at_)) (s, blockAt i + 0x134000, [])
  (s, bad)

/-- The save status of R416. -/
def State.saveStatus (s : State) (l : Launch) (complete damaged full : Bool) (bad : Option Nat) (logn : Nat) : State :=
  s.saveStore l 0x1000 (leBytes 8 ((if complete then 1 else 0) + (if damaged then 2 else 0) + (if full then 4 else 0)) ++ leBytes 8 s.tick
    ++ leBytes 8 logn ++ leBytes 8 (match bad with
      | some a => mkPpa s.pkg a % 2 ^ 58 + 2 ^ 63
      | none => 0))

/-- Ranges of a launch's save area that a save writes and a restore reads: header, log, blocks (R84, R416). -/
def Launch.saveRanges (l : Launch) : List (Nat × Nat × Nat) :=
  let live := l.liveRanges.foldl (fun n e => n + e.2) 0
  let at_ (off n : Nat) : List (Nat × Nat × Nat) := (l.savePieces off n).map fun (a, _, n) => (0, a, n)
  at_ 0 0x1020 ++ (List.range (l.w * l.h)).flatMap fun i => at_ (blockAt i) (0x134000 + live) ++ at_ (blockAt i + 0x434000) 0x9400

/-- Ranges of scratchpads that they move (R82). -/
def Launch.spadRanges (l : Launch) : List (Nat × Nat × Nat) := l.cores.flatMap fun c => l.liveRanges.map fun (o, n) => (0, spadOf c + o, n)

/-- A save begins, once it can: COMPLETE is clear, and the lines come first (R84, R338, R339, R416; log 48). -/
def State.startSave (s : State) (id : Nat) (l : Launch) : State :=
  if s.awaits (.contextSave id) then s
  else
    let go (s : State) : State :=
      ((s.setLaunch id { l with svComplete := false }).saveStore l 0x1000 (leBytes 8 (leNat (s.saveLoad l 0x1000 8) / 2 * 2))).afterLines true
        (l.spadRanges ++ l.saveRanges) 40 (.contextSave id)
    match (l.savePieces 0x1000 8).head? with
    | none => go s
    | some (a, _, _) => ((s.classGrant 0 a 8 true).map go).getD s

/-- Offset in a core's block of what a damaged register or granule is saved in: the vector registers' images, those of the SECDED arrays, the
control block for all else (R82, R84, R261). -/
def parityOff (k : Nat) : Option Nat :=
  if 100 ≤ k ∧ k < 200 then some (0x14000 + 2048 * (k - 100)) else if regArray k = 23 ∨ sliceKey 0 ≤ k then none else some 0
def softOff (k : Nat) : Option Nat :=
  let g := k % 2 ^ 40 * 8
  match k / 2 ^ 40 with
  | 2 => some (0xB4000 + g)
  | 3 => some (0x4000 + g)
  | 4 => some (0x34000 + g)
  | 6 => some (0x434000 + g)
  | _ => none

/-- Offsets in its block of what cannot be read of a core (R417); tables and window units are not saved, but read again (R235). -/
def Core.damaged (k : Core) : List Nat :=
  k.parity.filterMap parityOff ++ (k.soft.filter (!·.2.fixable)).filterMap fun e => softOff e.1

/-- The first of them in the area (R416). -/
def firstBad : List (Nat × Nat) → Option (Nat × Nat)
  | [] => none
  | e :: r =>
    match firstBad r with
    | some x => some (if x.1 < e.1 then x else e)
    | none => some e

/-- One core's block; the control block holds what the hardware keeps there in a form of its own (log 15). -/
def State.saveBlock (s : State) (l : Launch) (i : Nat) : State × List (Nat × Nat) :=
  let k := s.core (l.core i)
  let b := blockAt i
  let s := { s with freeCtr := s.freeCtr + 1 }.saveStore l b ((List.range 0x4000).map (Config.controlBlock s.freeCtr))
  let s := (s.saveStore l (b + 0x4000) k.sideImage).saveStore l (b + 0x14000) k.vecImage
  let s := (s.saveStore l (b + 0x34000) k.tileImage).saveStore l (b + 0xB4000) k.bodyImage
  let (s, bad) := (s.saveStore l (b + 0x434000) k.deuImage).poisonArea l (k.damaged.map (b + ·))
  let (s, live) := s.saveLive l i
  (s, bad ++ live)

/-- Where the hub's tables keep the RNG stream registers of a context (log 40). -/
def rngOff (ctx : Byte) : Nat := 0x800000 + 4096 * ctx.toNat

/-- The hub saves a launch whose streams and engines have stopped. -/
def State.saveLaunch (s : State) (id : Nat) (l : Launch) : State :=
  let n := l.w * l.h
  let s := l.cores.foldl (fun s c => s.withdrawSync c) s
  let rng := (Sparse.getAll 0 (Sparse.get .idle s.ctxs l.ctx.toNat).rngReg 0 256).flatMap fun r => leBytes 16 r.toNat
  let hub := (s.soft.filter fun e => softKey 11 (rngOff l.ctx / 8) ≤ e.1 && e.1 < softKey 11 (rngOff l.ctx / 8 + 512) && !e.2.fixable).map fun e =>
    (e.1 - softKey 11 (rngOff l.ctx / 8)) * 8
  let s := (s.softRead { unit := uCkpt } none 11 (rngOff l.ctx) 4096).1
  let (s, bad) := (s.saveStore l 0 rng).poisonArea l hub
  let (s, bad) := (List.range n).foldl (fun (s, bad) i => let (s, x) := s.saveBlock l i; (s, bad ++ x)) (s, bad)
  let bad := (firstBad bad).map (·.2)
  let s := s.saveStatus l true bad.isSome false bad 0
  let work := (List.range n).flatMap fun i => s.agenda.filterMap fun e =>
    match e.2.2 with
    | .resultFifoEntry k _ _ _ _ => if k = l.core i then some (i, e.2.2) else none
    | .followOnHandoff k _ => if k = l.core i then some (i, e.2.2) else none
    | _ => none
  let cores := (List.range n).map fun i => (i, (s.core (l.core i)).saved)
  let frets := (List.range l.frets).map fun f => (f, Sparse.get .idle s.frets (l.fretCore f))
  let l := { l with phase := .saved, reqTick := none, savedCores := cores, savedFrets := frets, savedWork := work, svComplete := true,
                    svDamaged := bad.isSome, svLogFull := false }
  let s := (s.freeCores id l).setLaunch id l
  match bad with
  | some a => (s.raise 2 4 (arrayOf a) { unit := uCkpt } (some (mkPpa s.pkg a)) 0 0).endLaunch id l 5
  | none => s.poke

def execContextSave (id : Nat) (s : State) : Out :=
  .next (match s.launch? id with
    | some l => if s.savable l then s.saveLaunch id l else s
    | none => s)

/-! ### Restoring (R83, R84, R235, R414, R418) -/

/-- A handle translated again: its new copy, which ends with its page, whether no leaf was found, and the companion word that the leaf's fill
marks (R83, R90, R94, R414). -/
def State.rehandle (s : State) (c : Nat) (ctx : Byte) (h : Handle) : Handle × Bool × State :=
  if !h.valid then (h, false, s)
  else
    match s.walkCtx ctx h.va with
    | none => (h.invalidate, true, s)
    | some (leaf, comp) =>
      let n := leafHandle s.pkg c ctx leaf h.va 15
      let p := h.perm &&& n.perm
      let die := dieOf c
      let w := s.word comp ||| 2 ^ die ||| (if p &&& (pW ||| pA) ≠ 0 then 2 ^ (4 + die) else 0)
      (⟨n.w0, dw (p * 2 ^ 60 + h.va), dw (h.ctx * 2 ^ 32 + min h.len n.len)⟩, false, s.store { unit := uMc } comp (leBytes 8 w))

/-- A command's side, marked where its page has gone. -/
def State.reside (s : State) (c : Nat) (ctx : Byte) (d : Side) : Side × State :=
  let (h, gone, s) := s.rehandle c ctx d.h
  ({ d with h := if gone then d.h else h, marked := d.marked || gone }, s)

/-- A command's sides. -/
def State.reentry (s : State) (c : Nat) (ctx : Byte) (e : CeEntry) : CeEntry × State :=
  let (a, s) := s.reside c ctx e.dst
  let (b, s) := s.reside c ctx e.src
  let (i, s) := s.reside c ctx e.idx
  let e := { e with dst := a, src := b, idx := i }
  match e.flag with
  | none => (e, s)
  | some f => let (f, s) := s.reside c ctx f; ({ e with flag := some f }, s)

/-- A region of a digest session, and whether its page has gone. -/
def State.reregion (s : State) (c : Nat) (ctx : Byte) (r : DgRegion) : DgRegion × Bool :=
  match s.walkCtx ctx r.va with
  | some (leaf, _) => ({ r with ppa := (leafHandle s.pkg c ctx leaf r.va 15).base }, false)
  | none => (r, true)

/-- Every handle of a restored core, its commands and its digest sessions (R83, R414). -/
def State.retranslate (s : State) (c : Nat) : State :=
  let k := s.core c
  let ctx := k.ctx
  let (hs, s) := k.h.foldl (fun (l, s) e => let (h, _, s) := s.rehandle c ctx e.2; (l ++ [(e.1, h)], s)) (([] : Sparse Handle), s)
  let (ce, s) := k.ce.foldl (fun (l, s) e => let (e, s) := s.reentry c ctx e; (l ++ [e], s)) (([] : List CeEntry), s)
  let dg := k.dg.map fun e =>
    let rs := e.2.regions.map (s.reregion c ctx)
    (e.1, ({ e.2 with regions := rs.map (·.1), marked := e.2.marked || rs.any (·.2) } : DgSession))
  s.setCore c { k with h := hs, ce := ce, dg := dg }

/-- A loaded table is read again from its source; without a leaf it stays as it was (R235; log 15). -/
def State.retable (s : State) (c : Nat) : State :=
  (s.core c).tie.foldl (fun s e =>
    let t := e.2
    let ctx := (s.core c).ctx
    match s.walkCtx ctx t.va with
    | none => s
    | some (leaf, _) =>
      let h := leafHandle s.pkg c ctx leaf t.va 15
      let bs := if h.kind = kGen then (s.ctxOf c).winBytes h.desc h.woff 1032 else s.load (ppaLocal h.base) 1032
      s.modCore c fun k => { k with tie := Sparse.insert k.tie e.1 { t with y := tableEntries bs } }) s

/-- The live ranges come back into a scratchpad. -/
def State.loadLive (s : State) (l : Launch) (i : Nat) : State :=
  let c := l.core i
  (l.liveRanges.foldl (fun (s, off) (o, n) => (s.store { unit := uCkpt } (spadOf c + o) (s.saveLoad l off n), off + n)) (s, blockAt i + 0x134000)).1

/-- One record of the arrival log: a write, a flag increment, a barrier arrival; a flag after its data (R85). Where a free launch comes back
at another origin the spec does not say whether a TARGET in its old scratchpads moves with it: the model applies the record at the local
address that it holds (log 47). -/
def State.logApply (s : State) (r : List Byte) : State :=
  let kind := f64At r 0 % 256
  let len := f64At r 0 / 256 % 256
  let target := f64At r 8
  let flag := f64At r 16
  let who : Who := { unit := uHost }
  let readable (s : State) (a n : Nat) (f : State → State) : State :=
    match s.uncorr a n with
    | some g => s.raise 2 1 (arrayOf g) who (some (mkPpa s.pkg g)) 0 0
    | none => f s
  let inc (s : State) (a : Nat) : State := readable s a 8 fun s => s.modify who a (leBytes 8 (s.word a + 1))
  match kind with
  | 1 =>
    let s := s.store who target ((r.drop 32).take len)
    if flag ≠ 0 then inc s flag else s
  | 2 => inc s target
  | 3 => readable s target 64 fun s => s.syncEdit who target fun s r => s.syncLateArrival (mkPpa s.pkg target) r
  | _ => s

/-- The engines and traps of a resumed core go on. -/
def State.kick (s : State) (c : Nat) : State :=
  let k := s.core c
  let s := s.maResume c
  let s := if k.maQueue.isEmpty then s else s.plan s.now 8 (.maStart c)
  let s := if k.drains.isEmpty then s else s.plan s.now 9 (.drainStart c)
  let s := if k.ce.isEmpty then s else s.planStart c s.now
  allStreams.foldl (fun s i => (s.str c i).faults.foldl (fun s _ => s.plan s.now 25 (.commandFaultTrap c i)) s) s

/-- The work that waited, for the core's new number. -/
def Work.moveTo (c : Nat) : Work → Work
  | .resultFifoEntry _ i id v u => .resultFifoEntry c i id v u
  | .followOnHandoff _ id => .followOnHandoff c id
  | w => w

/-- A saved core at its new place; a timed command's tick moves with the base, and sampling starts again (R81, R351). -/
def Core.placedAt (k : Core) (l : Launch) (i : Nat) (rot : Sparse Word) (shift now tick : Nat) : Core :=
  let x (y : Stream) : Stream := { y with stopped := false, point := false, notBefore := now }
  { k with
    c := x k.c, a := x k.a, e := x k.e, w := x k.w
    fret := l.fretCore (l.fretOf i)
    rotary := rot
    schedbase := if k.timed then k.schedbase + dw shift else k.schedbase
    ce := k.ce.map fun e => if e.timed then { e with req := e.req + shift } else e
    smp := { k.smp with start := tick - 1, j := 0 }
    maFree := now, deuFree := now }

/-- First uncorrectable granule of the parts of a save area that a restore reads (R418). -/
def State.saveBad (s : State) (l : Launch) : Option Nat :=
  let live := l.liveRanges.foldl (fun n e => n + e.2) 0
  let bad (off n : Nat) : Option Nat := (l.savePieces off n).findSome? fun (a, _, n) => s.uncorr a n
  (bad 0 0x20000).or ((List.range (l.w * l.h)).findSome? fun i => (bad (blockAt i) (0x134000 + live)).or (bad (blockAt i + 0x434000) 0x9400))

/-- Load one core from its block. -/
def State.restoreCore (s : State) (id : Nat) (l : Launch) (rot : Sparse Word) (shift : Nat) (e : Nat × Core) : State :=
  let c := l.core e.1
  let b := blockAt e.1
  let rd (off n : Nat) : List Byte := s.saveLoad l (b + off) n
  let k := (e.2.placedAt l e.1 rot shift s.now s.tick).ofImages (rd 0x4000 0x9000) (rd 0x14000 0x20000) (rd 0x34000 0x80000) (rd 0xB4000 0x80000)
    (rd 0x434000 0x9400)
  let s := (s.scrubSpad c).setCore c { k with owner := some id, bankUse := (s.core c).bankUse, parity := (s.core c).parity.filter (sliceKey 0 ≤ ·), soft := [] }
  ((s.loadLive l e.1).retranslate c).retable c

/-- The launch's own state comes back: its RNG registers and frets. -/
def State.restoreShared (s : State) (l old : Launch) : State :=
  let rng := (chunks 4096 16 (s.saveLoad l 0 4096)).map fun b => BitVec.ofNat 128 (leNat b)
  let x := Sparse.get .idle s.ctxs l.ctx.toNat
  let s := { s with ctxs := Sparse.insert s.ctxs l.ctx.toNat { x with rngReg := Sparse.setAll 0 [] 0 rng } }
  old.savedFrets.foldl (fun s e => { s with frets := Sparse.insert s.frets (l.fretCore e.1) { e.2 with misses := 0, wireTo := 0 } }) s

/-- The hub restores launch `old` as `l`, `shift` ticks later than its base: cores, then the arrival log, then the LEs and
the streams. -/
def State.restoreLaunch (s : State) (id : Nat) (l old : Launch) (shift : Nat) : State :=
  let logn := s.logN l
  let s := (s.setLaunch id l).restoreShared l old
  let (rot, s) := s.rotaryOf l.ctx
  let s := old.savedCores.foldl (fun s e => s.restoreCore id l rot shift e) s
  let s := (List.range logn).foldl (fun s j => s.logApply (s.saveLoad l (0x10000 + 128 * j) 128)) s
  let s := s.saveStatus l true false false none 0
  let s : State := { s with
    scheds := s.scheds.map fun e => if e.1 = id then (e.1, { e.2 with base := e.2.base + dw shift }) else e
    les := s.les.map fun e =>
      if e.2.owner = some id then (e.1, { e.2 with on := e.2.stopped, stopped := false, base := e.2.base + dw shift }) else e }
  let s := old.savedWork.foldl (fun s w => s.plan s.now (tileRank + 1) (w.2.moveTo (l.core w.1))) s
  l.cores.foldl (fun s c => s.kick c) s

/-- Lines that the walks of a restore read: those of the handles and of the sources of loaded tables (R83, R235, R414). -/
def State.rewalkLines (s : State) (l : Launch) : List (Nat × Nat × Nat) :=
  l.savedCores.flatMap fun e => (e.2.h.flatMap fun h => if h.2.valid then s.treeLines l.ctx h.2.va else [])
    ++ e.2.tie.flatMap fun t => s.treeLines l.ctx t.2.va

/-- A restore at an origin, `moved` periods of 2^20 ticks later; refused where the save area says DAMAGED or not COMPLETE, or
the rectangle is taken (R83, R417). -/
def State.restore (s : State) (id x0 y0 moved : Nat) : State :=
  match s.launch? id with
    | some old =>
      let shift := if old.timed then moved * period20 else 0
      let l := if old.timed then { old with base := old.base + dw shift } else { old with x0 := x0, y0 := y0 }
      let st := leNat (s.saveLoad l 0x1000 8)
      if old.phase ≠ .saved || 24 < l.x0 + l.w || 20 < l.y0 + l.h || !s.rectFree l || st % 2 = 0 || st / 2 % 2 = 1 then s
      else
        match s.saveBad l with
        | some a =>
          let s := l.cores.foldl (fun s c => s.scrubSpad c) s
          let s := s.saveStatus l true true l.svLogFull (some a) (s.logN l)
          (s.raise 2 5 (arrayOf a) { unit := uCkpt } (some (mkPpa s.pkg a)) 0 0).endLaunch id l 5
        | none => s.restoreLaunch id { l with phase := .running, savedCores := [], savedFrets := [], savedWork := [] } old shift
    | none => s

/-- The MC asks for a restore: its lines come first (R338, R339; log 48). -/
def execContextRestore (id x0 y0 moved : Nat) (s : State) : Out :=
  .next (match s.launch? id with
    | some l =>
      if l.phase ≠ .saved then s
      else s.afterLines true (l.saveRanges ++ (l.savePieces 0x10000 0x10000).map (fun (a, _, n) => (0, a, n)) ++ s.rewalkLines l) 40
        (.contextRestore id x0 y0 moved)
    | none => s)

end Sys2Proof.Machine
end

