-- ==== Sys2Proof/Machine/Checkpoint.lean ====
section
/-! DEFINITION. Checkpoint stations, the undo journal, voided runs and rollback, lost packages (spec 02 R44 to R47; 05 R125; 20
R424; 21 R436, R438 to R442). -/

namespace Sys2Proof.Machine

/-! ### Stations (R44, R125, R441) -/

/-- The GE contexts of a context, with the local address of each one's SSR. -/
def State.geOf (s : State) (ctx : Byte) : List (Nat × Nat) :=
  (s.ge.filter fun e => e.2.bound && e.2.ctx = ctx).map fun e => (e.1, ppaLocal e.2.ssr)

/-- What the sequencer copies: the declared live ranges, every accumulator, and the GE contexts by name. -/
def State.ckptCopy (s : State) (l : Launch) (k : Nat) (st : Station) : Ckpt where
  station := k
  live := (st.live.filter fun e => e.1 < l.w * l.h).map fun (i, o, n) => (i, o, s.load (spadOf (l.core i) + o) n)
  acc := (List.range (l.w * l.h)).map fun i => (i, (s.core (l.core i)).xa, (s.core (l.core i)).side)
  ges := s.geOf l.ctx

/-- What the sequencer's copy meets that no code can correct: the core, the array, the address (R372, R375). -/
def State.ckptBad (s : State) (l : Launch) (st : Station) : Option (Nat × Nat × Nat) :=
  (List.range (l.w * l.h)).findSome? fun i =>
    let c := l.core i
    ((st.live.filter (·.1 = i)).findSome? fun (_, o, n) => (s.uncorr (spadOf c + o) n).map fun g => (c, 1, mkPpa s.pkg g)).or
      ((s.softBad c (bodyArr 0 64 0 512 ++ sideArr 0 512)).map fun (a, g) => (c, a, g))

/-- The copy's reads, corrected where they can be. -/
def State.ckptTouch (s : State) (l : Launch) (st : Station) : State :=
  (List.range (l.w * l.h)).foldl (fun s i =>
    let c := l.core i
    let w : Who := { core := some c, unit := uCkpt }
    ((st.live.filter (·.1 = i)).foldl (fun s (_, o, n) => s.touch w (spadOf c + o) n) s).softTouch w c (bodyArr 0 64 0 512 ++ sideArr 0 512)) s

/-- The area that does not hold the last completed station. -/
def Sched.other (d : Sched) (id : Nat) : Nat := 2 * id + (if d.area then 0 else 1)

/-- Station `k` of a launch whose run goes on. -/
def State.stationAt (s : State) (id k : Nat) : Option (Launch × Sched × Station) :=
  match s.launch? id, Sparse.get? s.scheds id with
  | some l, some d => if d.voided || !l.placed then none else (d.stations[k]?).map fun st => (l, d, st)
  | _, _ => none

/-- The window of a station begins: its area is filled, and the GE contexts are written to their SSRs and stay bound. -/
def execCheckpointStation (id k : Nat) (s : State) : Out :=
  .next (match s.stationAt id k with
    | none => s
    | some (l, d, st) =>
      let s := (s.ge.filter fun e => e.2.bound && e.2.ctx = l.ctx).foldl (fun s e => (s.geSave e.1 e.2 s.now).s.setGe e.1 e.2) s
      let s := { s with ckpts := Sparse.insert s.ckpts (d.other id) (s.ckptCopy l k st)
                        scheds := Sparse.insert s.scheds id { d with window := some (s.now + st.len) } }
      s.plan (s.now + st.len) 0 (.ckptWindowEnd id k))

/-- A sync object that a station names is released: a lock is given up, a barrier takes an arrival (log 25). The spec does not say what happens
to one whose PPA lies in another package: this package leaves it alone, its own package releases it (log 44). -/
def State.stationRelease (s : State) (ctx : Byte) (va : Nat) : State :=
  match s.mcTranslate ctx va with
  | none => s
  | some (ppa, _, _, kind) =>
    let l := ppaLocal ppa
    if kind ≠ kSync || ppaPkg ppa ≠ s.pkg then s
    else
      match s.uncorr l 64 with
      | some g => s.raise 2 1 (arrayOf g) { unit := uCkpt } (some (mkPpa s.pkg g)) 0 0
      | none =>
        s.syncEdit { unit := uCkpt } l fun s r =>
          if r.kind = 1 then
            match firstAcq (s.waitersOf ppa) with
            | some (q, w) => ((s.setWaiters ppa w).syncStatus q syOk, r.lockBy q)
            | none => (s, r.freeLock)
          else s.syncLateArrival ppa r

/-- The schedule runs on this package alone. -/
def State.alone (s : State) (d : Sched) : Bool := (List.range 1024).all fun p => p = s.pkg || !mapHas d.pkgMap p

/-- The window ends: the area is complete, as memory and accumulators now stand (the spec fixes no tick of the window for them; log 59), the
named objects are released, untimed writes go on; the journal opens with the first station (R44, R45, R424). What the copy cannot read is
contained, and the area is not completed (R375). -/
def execCkptWindowEnd (id k : Nat) (s : State) : Out :=
  .next (match s.stationAt id k with
    | none => s
    | some (l, d, st) =>
      if d.window.isNone then s
      else
        match s.ckptBad l st with
        | some (c, a, g) => s.contain 1 a { core := some c, unit := uCkpt } (some g)
        | none =>
        let s := s.ckptTouch l st
        let s : State := { s with
          ckpts := Sparse.insert s.ckpts (d.other id) (s.ckptCopy l k st)
          scheds := Sparse.insert s.scheds id { d with window := none, station := some k, area := !d.area } }
        let s := if s.journal.on then s else { s with journal := { s.journal with on := true } }
        let s := st.sync.foldl (fun s va => s.stationRelease l.ctx va) s
        if s.alone d then s.plan s.now 0 .journalDiscard else s)

/-- The window of the next station has ended on every package: the journal begins empty (R45, R440). -/
def execJournalDiscard (s : State) : Out :=
  .next (if s.journal.on then { s with journal := { s.journal with recs := [], full := false, bad := [] } } else s)

/-! ### Voids (R424, R438, R439) -/

/-- The LEs of a schedule stop. -/
def State.stopLes (s : State) (id : Nat) : State :=
  { s with les := s.les.map fun e => if e.2.owner = some id then (e.1, { e.2 with on := false, stopped := true }) else e }

/-- The entry that marks station `k` (R438). -/
def markEntry (mem : Sparse DWord) (k : Nat) : Option Nat :=
  (mem.find? fun e => bits e.2 63 60 = 9 && bits e.2 27 12 = 0xFF00 + k).map (·.1)

/-- A rollback to station `k` with a set is possible (R438, R440). -/
def State.canRoll (s : State) (l : Launch) (set k : Nat) : Bool :=
  !s.journal.full && match s.readImage l.ctx l.image with
    | .ok img => (img.aux.filter fun a => a.kind = 4 && a.id / 512 = set).all fun a => (markEntry (numbered (le64s a.data)) k).isSome
    | .error _ => false

/-- T: the first multiple of 2^20 at or after the decision tick + 2^21 (R441). -/
def rollTick (t : Nat) : Nat := (t + 2 ^ 21 + (period20 - 1)) / period20 * period20

/-- The links that a detour set avoids: package and port (R48). -/
def AuxRec.avoids (a : AuxRec) : List (Nat × Nat) :=
  (List.range (a.data.length / 4)).map fun i => let w := f32At a.data (4 * i); (w % 1024, w / 1024 % 16)

/-- The launches of a schedule that hold their cores here, with what each one ties the package to. -/
def State.ofSched (s : State) (sched : Nat) : List (Nat × Launch × Sched) :=
  s.scheds.filterMap fun e => if e.2.id ≠ sched then none else (s.launch? e.1).bind fun l => if l.placed then some (e.1, l, e.2) else none

/-- The last station whose window has ended on every package of the schedule. -/
def State.lastStation (s : State) (d : Sched) (c : VoidCause) : Option Nat :=
  if s.alone d then d.station else d.station.bind fun a => c.station.map (min a)

/-- The root's choice for a rollback to station `k`: the first row of R439 that applies to the cause, a STATUS or a set. -/
def State.rootRow (s : State) (l : Launch) (d : Sched) (k : Option Nat) (c : VoidCause) : Except Nat Nat :=
  if c.cls = 3 then .error 7
  else if c.cls = 5 && c.code = 5 then .error 9
  else if c.cls = 5 && c.code = 2 then
    let sets : List AuxRec := match s.readImage l.ctx l.image with
      | .ok img => img.aux.filter (·.kind = 9)
      | .error _ => []
    match sets.find? fun a => c.failed.all fun e => a.avoids.contains e.1 || a.avoids.contains e.2 with
    | some a => .ok a.id
    | none => .error 7
  else if (c.cls ≠ 5 || c.code ≠ 4) && k.any fun k => d.rolled.contains (k, c.cls, c.code) then .error 4
  else .ok d.set

/-- A decision takes effect on this package's launches of the schedule: they end with its STATUS, or roll back (R439, R441). -/
def State.decided (s : State) (sched : Nat) : Except Nat (Nat × Nat × Nat) → State
  | .error st => (s.ofSched sched).foldl (fun s (id, l, _) => s.endLaunch id l (BitVec.ofNat 8 st)) s
  | .ok (set, k, t) => (s.ofSched sched).foldl (fun s (id, _, _) => s.plan s.now 0 (.rollback id set k t)) s

/-- The MC of the root decides, and sends its decision down the tree: a MERIDIAN void waits until every package is LOCKED; a rollback goes to
the last station that has ended everywhere, or the schedule ends with NOROLLBACK. It keeps in mind why it rolls back (R424, R439 to R441;
log 50). -/
def State.decide (s : State) (l : Launch) (d : Sched) (c : VoidCause) : State :=
  let k := s.lastStation d c
  let send (s : State) (n : TreeNotice) : State := if s.alone d then s else s.emit (.down n)
  let stop (st : Nat) : State := (send s (.ended d.id st)).decided d.id (.error st)
  if c.cls = 5 && c.code = 4 && !(s.mu.st = 2 && (c.locked || s.alone d)) then s
  else
    match s.rootRow l d k c, k with
    | .error st, _ => stop st
    | .ok _, none => stop 8
    | .ok set, some k =>
      if c.full || !s.canRoll l set k then stop 8
      else
        let t := rollTick s.tick
        let s : State := { s with scheds := s.scheds.map fun (e : Nat × Sched) =>
          if e.2.id = d.id then (e.1, { e.2 with rolled := e.2.rolled ++ [(k, c.cls, c.code)] }) else e }
        (send s (.rollback d.id set k t)).decided d.id (.ok (set, k, t))

/-- The notice is received: the launch's frets freeze, its LEs and the sequencer stop (R424). -/
def State.voidReceipt (s : State) (id : Nat) (l : Launch) (d : Sched) : State :=
  let s := ((List.range l.frets).foldl (fun s f => s.freeze (l.fretCore f)) s).stopLes id
  { s with scheds := Sparse.insert s.scheds id { d with void := true, voided := true, window := none } }

/-- The notice VOID reaches every launch of the schedule here; the first time, the package reports the freeze to the root (R424, R441). -/
def State.voidAll (s : State) (d : Sched) : State :=
  let s' := (s.ofSched d.id).foldl (fun s (id, l, d) => s.voidReceipt id l d) s
  if d.voided || d.rootPkg = s.pkg || s.alone d then s' else s'.emit (.up s.mu.parent.toNat (.frozen d.id s.pkg))

/-- The notice VOID arrives; the decision comes with it or in a later event, and at the package that acts as root it is made there (R424,
R439). -/
def execVoidNotice (id : Nat) (dec : VoidDecision) (s : State) : Out :=
  .next (match s.launch? id, Sparse.get? s.scheds id with
    | some l, some d =>
      if !l.placed then s
      else
        let s := s.voidAll d
        match dec with
        | .notice => s
        | .endWith st => s.decided d.id (.error st)
        | .rollback set k t => s.decided d.id (.ok (set, k, t))
        | .decide c => if d.rootPkg = s.pkg || s.alone d then s.decide l d c else s
    | _, _ => s)

/-! ### Rollback (R441) -/

/-- The journal is applied, newest record first; lines outside the write ranges of the schedule's launches keep their contents. What its record
holds as poison comes back as poison (R373). -/
def State.undo (s : State) (ranges : List (Nat × Nat)) : State :=
  s.journal.recs.foldl (fun s r =>
    let line := recLine r
    if ppaMeet [(mkPpa s.pkg line, 64)] ranges then
      { s with mem := s.mem.write line (recOld r)
               dmg := (s.journal.bad.filter fun g => line / 8 ≤ g && g < line / 8 + 8).foldl (fun d g => Sparse.insert d g .poison)
                 (Sparse.clear s.dmg (line / 8) (line / 8 + 8)) }
    else s) s
  |> fun s => { s with journal := { s.journal with recs := [], full := false, on := true, bad := [] } }

/-- The checkpoint area comes back into scratchpads and accumulators. -/
def State.ckptLoad (s : State) (l : Launch) (x : Ckpt) : State :=
  let s := x.live.foldl (fun s (i, o, bs) => s.store { unit := uCkpt } (spadOf (l.core i) + o) bs) s
  x.acc.foldl (fun s (i, xa, side) => s.modCore (l.core i) fun k => { k with xa := xa, side := side }) s

/-- The command `grest` that a rollback does for a context, with the grammar that its SSR names (R316, R441). -/
def State.rollGrest (s : State) (l : Launch) (n a : Nat) : GeCmd :=
  { id := 0, core := l.core 0, gw := 0, qa := false, gctx := some n, ctx := l.ctx, op := .grest (mkPpa s.pkg a) (s.word (a + 8) % 2 ^ 58)
    req := 0, own := none, arrive := none, left := 0, buf := [], begun := none, stop := none, reply := 0, outAt := 0, outLines := [], strict := false, late := false }

/-- GE contexts come back from their SSRs as by `grest`, with its checks; those bound since the station are released (R441; log 25). -/
def State.ckptGe (s : State) (l : Launch) (x : Ckpt) : State :=
  let s : State := { s with ge := s.ge.map fun e => if e.2.bound && e.2.ctx = l.ctx then (e.1, .idle) else e }
  x.ges.foldl (fun s (n, a) => (s.geRest (s.rollGrest l n a) n (mkPpa s.pkg a) (s.word (a + 8) % 2 ^ 58)).s) s

/-- The launch is bound again from station `k`, which area B holds if `area` says so, with a set, to start for tick `t`: G5 holds k + 1. -/
def State.rebind (s : State) (id : Nat) (l : Launch) (d : Sched) (x : Ckpt) (area : Bool) (img : Image) (set k t : Nat) : State :=
  let base := dw (t - (d.stations[k]?.map (·.off)).getD 0)
  let s := ((s.freeCores id l).undo ((s.ofSched d.id).flatMap (·.2.1.ranges))).loadLaunch id l img (l.args ++ [dw (k + 1)]) base false
  let s := s.loadCores id ((s.launch? id).getD l)
  let s := ((s.ckptLoad l x).ckptGe l x).loadSet id img.aux set base fun m => markEntry m k
  let d' := schedOf img.aux base set
  let s := { s with scheds := Sparse.insert s.scheds id { d' with station := some k, area := area, rolled := d.rolled } }
  s.plan (s.now + startDelay img false) 0 (.launchStart id)

/-- The checkpoint area that holds station `k` of a launch, whether it is area B, and what it holds. -/
def State.areaOf (s : State) (id k : Nat) : Option (Bool × Ckpt) :=
  [false, true].findSome? fun b => (Sparse.get? s.ckpts (2 * id + (if b then 1 else 0))).bind fun x => if x.station = k then some (b, x) else none

/-- A rollback waits until the GE has answered the commands of the schedule's launches (R313); where the own journal is full or a mark is missing
there is none (R438, R440). -/
def execRollback (id set k t : Nat) (s : State) : Out :=
  .next (match s.launch? id, Sparse.get? s.scheds id with
    | some l, some d =>
      if !l.placed || !d.voided then s
      else if (s.ofSched d.id).any fun e => s.gePending e.2.1.cores then s.plan (s.now + 1) 0 (.rollback id set k t)
      else if !s.canRoll l set k then s.endLaunch id l 8
      else
        match s.areaOf id k, s.readImage l.ctx l.image with
        | some (b, x), .ok img => s.rebind id l d x b img set k t
        | _, _ => s.endLaunch id l 8
    | _, _ => s)

/-! ### Lost packages (R46, R47, R442) -/

/-- The relabel entry of a ring after its member with logical W `w` has failed; `w` = 4 names the spare. -/
def relabelled (e : BitVec 16) (w : Nat) : BitVec 16 :=
  let line := e.getLsbD 15
  let pos := (e.extractLsb' 12 3).toNat
  if line then e else BitVec.ofNat 16 (2 ^ 15 + (w + pos + 1) % 5 * 2 ^ 12)

/-- POS of a relabel entry, and the logical W of the other physical members; 4 stands for the one at POS (R46). -/
def relabelPos (e : BitVec 16) : Nat := (e.extractLsb' 12 3).toNat
def logicalW (e : BitVec 16) (p : Nat) : Nat := if p = relabelPos e then 4 else (p + 9 - relabelPos e) % 5

/-- The logical package at physical member `p` of a ring; the member at POS has none, which reads as W = 4. -/
def logicalPkg (relabel : Sparse (BitVec 16)) (ring p : Nat) : Nat := ring + 256 * logicalW (Sparse.get 0 relabel ring) p

/-- The package takes the coordinates that the relabel table gives its place; a spare that comes into service rebuilds its extents (R47, R336). -/
def State.relabelOwn (s : State) : State :=
  let pkg := logicalPkg s.relabel s.ring s.member
  { s with
    pkg := pkg
    rebuilt := if 1024 ≤ s.pkg && pkg < 1024 then
        s.extents.foldl (fun m e => if bits e.2.ctl 63 56 = s.ring && e.2.share ≠ 0 then Sparse.insert m e.1 [] else m) s.rebuilt
      else s.rebuilt }

/-- The ring of a lost package is relabelled once no schedule runs; every member takes its new coordinates (R46, R47, R442). -/
def State.relabelRing (s : State) (pkg : Nat) : State :=
  if s.scheds ≠ [] then s.plan (s.now + 1) 40 (.relabel pkg)
  else s.hubRead 11 (0x700000 + 2 * (pkg % 256)) 2 fun s =>
    ({ s with lost := if (Sparse.get 0 s.relabel (pkg % 256)).getLsbD 15 && pkg < 1024 && !s.lost.contains pkg then pkg :: s.lost else s.lost
              relabel := Sparse.set 0 s.relabel (pkg % 256) (relabelled (Sparse.get 0 s.relabel (pkg % 256)) (pkg / 256)) }.softWrite { unit := uMc } none 11
                (0x700000 + 2 * (pkg % 256) / 8 * 8) 8).relabelOwn

/-- A package has stopped: this one, which then does nothing more, or another, which its neighbours report and whose schedules
are void (R375, R442); the root's successor takes over (R436). -/
def execPackageStop (pkg : Nat) (s : State) : Out :=
  .next (if pkg = s.pkg then { s with stoppedPkg := true }
    else
      let s := s.raise 5 5 0 { unit := uMu } none 0 0
      let s := s.scheds.foldl (fun s e => if mapHas e.2.pkgMap pkg then s.voidsOf (some e.1) 5 5 else s) s
      let s := if s.mu.successor && pkg = s.mu.rootPkg then { s with mu := { s.mu with root := true, parent := 0xF, alt := 0xF } } else s
      s.relabelRing pkg)

end Sys2Proof.Machine
end

