-- ==== Sys2Proof/Machine/Pod.lean ====
section
/-! DEFINITION. Hosts and the memory that they share: the aperture, extents, leases, publication, cancellation, and queue
configuration (spec 14 R329, R331, R335 to R337; 21 R444 to R448). -/

namespace Sys2Proof.Machine

/-- The host port takes writes of BAR0: from the first stage on, and not where a stage has failed (R328, R343). -/
def State.hostOpen (s : State) : Bool := s.sec.stage ≠ 0 && s.sec.fail = 0

/-! ### Extents (R335, R336) -/

def State.extent (s : State) (e : Nat) : Extent := Sparse.get ⟨0, 0, 0, 0⟩ s.extents e
def State.setExtent (s : State) (e : Nat) (x : Extent) : State := { s with extents := Sparse.set ⟨0, 0, 0, 0⟩ s.extents e x }

/-- The hub writes a whole entry, with fresh check bits (R373). -/
def State.putExtent (s : State) (e : Nat) (x : Extent) : State := (s.setExtent e x).softWrite { unit := uMc } none 11 (0x400000 + 32 * e) 32

def Extent.ring (x : Extent) : Nat := bits x.ctl 63 56
/-- 0 free, 1 leased, 2 published, 3 reclaiming. -/
def Extent.state (x : Extent) : Nat := bits x.ctl 17 16
def Extent.host (x : Extent) : Nat := bits x.ctl 9 0
def Extent.setState (x : Extent) (n : Nat) : Extent := { x with ctl := (x.ctl &&& ~~~0x30000) ||| dw (n * 2 ^ 16) }
def Extent.shareBytes (x : Extent) : Nat := bits x.share 31 0 * 2 ^ 21

/-- This package holds a share of the extent. -/
def State.holdsShare (s : State) (x : Extent) : Bool := s.pkg % 256 = x.ring

/-- Logical W of the member that holds block `d` of stripe `k`, and of the one that holds its parity (R336). -/
def blockMember (k d : Nat) : Nat := if d < k % 4 then d else d + 1

/-- Where byte `x` of an extent lies on its member, and whether that member, and the parity's, is this package. -/
def State.extentByte (s : State) (e : Extent) (x : Nat) : Nat × Bool × Bool :=
  let k := x / 12288
  let here (w : Nat) : Bool := s.holdsShare e && s.pkg / 256 = w
  (e.base.toNat + 4096 * k + x % 4096, here (blockMember k (x % 12288 / 4096)), here (k % 4))

/-! ### The aperture (R329, R336, R430, R446) -/

/-- Bytes that the next access of a request takes: a line, and no more than a block. -/
def AperReq.piece (r : AperReq) : Nat := min r.left (64 - r.x % 64)

/-- One line of a read. -/
def State.aperRead (s : State) (a n : Nat) : Option (List Byte × Bool × State) :=
  match s.classGrant 1 a n false with
  | none => none
  | some s =>
    match s.uncorr a n with
    | some _ => some (List.replicate n 0, true, s)
    | none => some (s.sampled a n, false, s.touch { unit := uHost } a n)

/-- The request after a line. -/
def AperReq.advance (r : AperReq) (n : Nat) (bs : List Byte) (bad : Bool) : AperReq :=
  { r with x := r.x + n, left := r.left - n, data := r.data.drop n, got := r.got ++ bs, bad := r.bad || bad, asked := false, todo := [], acc := none }

def State.setReq (s : State) (r : AperReq) : State := { s with apReqs := s.apReqs.map fun q => if q.id = r.id then r else q }
def State.dropReq (s : State) (id : Nat) : State := { s with apReqs := s.apReqs.filter (·.id ≠ id) }

/-- A request has ended: a write when its data and parity hold their new values, a read with its data, poisoned when a granule
was (R336, R375). -/
def State.aperEnd (s : State) (r : AperReq) : State :=
  let s := s.dropReq r.id
  if r.write then s.emit .done
  else
    let s := s.emit (.readData r.got r.bad)
    if r.bad then s.hostRecord uHost 9 else s

/-- A line of a request is done. -/
def State.aperNext (s : State) (r : AperReq) (n : Nat) (bs : List Byte) (bad : Bool) : State :=
  let r := r.advance n bs bad
  let s := s.setReq r
  if r.left = 0 then s.aperEnd r else s.plan (s.now + 1) 41 (.aperture r.id)

/-- The number that packets of the host port carry in place of a core. -/
abbrev hostCore : Nat := 0x1FF

/-- Another member of the ring is asked for its part of a line; its answer is a notice (R336; log 14). -/
def State.askMember (s : State) (r : AperReq) (e : Extent) (w a : Nat) (op : ExtentOp) (bs : List Byte) : State :=
  let ppa := mkPpa (e.ring + 256 * w) a
  s.routeRead ppa fun s => (s.setReq { r with asked := true }).plan (s.now + 1) 20 (.untimedPacketForward
    { kind := .extent op, route := s.routeTo ppa, target := ppa, data := bs, ctx := 0, flag := none, srcPkg := s.pkg, srcCore := hostCore,
      srcStream := .c, cmd := r.id })

/-- A block of this package's share holds its data: it is not waiting to be rebuilt (R336). -/
def State.built (s : State) (k blk : Nat) : Bool := (Sparse.get? s.rebuilt k).all (·.contains blk)

/-- What a member of the ring holds has come: of a write, what the data block changes by; of a read, the exclusive or of what is asked. -/
def State.memberData (s : State) (r : AperReq) (bs : List Byte) : State :=
  let r := { r with asked := false }
  let n := r.piece
  let go (r : AperReq) : State := (s.setReq r).plan s.now 41 (.aperture r.id)
  let x := (r.acc.map (xorBytes bs)).getD bs
  match r.todo.drop 1 with
  | [] => if r.write then go { r with acc := some (xorBytes x (r.data.take n)), todo := [] } else s.aperNext r n x false
  | l => go { r with acc := some x, todo := l }

/-- The member at logical W `w` gives its part of a line; this package reads its own. -/
def State.readMember (s : State) (r : AperReq) (e : Extent) (w a : Nat) : State :=
  let n := r.piece
  if !(s.holdsShare e && s.pkg / 256 = w) then s.askMember r e w a (.read n) []
  else
    match s.aperRead a n with
    | none => (s.setReq r).plan (s.now + 1) 41 (.aperture r.id)
    | some (_, true, s) => s.aperNext r n (List.replicate n 0) true
    | some (bs, false, s) => s.memberData r bs

/-- A write meets old data or parity that no code can correct: nothing is made of it, and the request is turned away (R336, R375; log 55). -/
def State.aperRefused (s : State) (r : AperReq) : State := (s.dropReq r.id).emit .abort

/-- The block that a member was asked for has not been rebuilt: the exclusive or of the other three serves it (R336); of a second one missing the
line is lost. -/
def State.aperUnbuilt (s : State) (r : AperReq) : State :=
  let r := { r with asked := false }
  let d := blockMember (r.x / 12288) (r.x % 12288 / 4096)
  if r.todo = [d] && !r.write || r.todo = [] then
    (s.setReq { r with todo := (List.range 4).filter (· ≠ d), acc := none }).plan s.now 41 (.aperture r.id)
  else if r.write then s.aperRefused r
  else s.aperNext r r.piece (List.replicate r.piece 0) true

/-- The next line of a request for an extent: the members in order, each in its turn; a block that is lost or has not been rebuilt is served by
the exclusive or of the other three. A stripe that misses two blocks is lost: its reads are poisoned, its writes aborted (R336, R442; log 49). -/
def State.extentStep (s : State) (k : Nat) (r : AperReq) : State := s.hubRead 11 (0x400000 + 32 * k) 32 fun s =>
  let e := s.extent k
  let n := r.piece
  let d := blockMember (r.x / 12288) (r.x % 12288 / 4096)
  let (a, here, parity) := s.extentByte e r.x
  let who : Who := { unit := uHost }
  let again (s : State) : State := s.plan (s.now + 1) 41 (.aperture r.id)
  let gone (w : Nat) : Bool := s.lost.contains (e.ring + 256 * w)
  let others := (List.range 4).filter (· ≠ d)
  let missing := gone d || (here && !s.built k (r.x / 12288))
  if 2 ≤ ((List.range 4).filter gone).length then
    (if r.write then (s.dropReq r.id).emit .abort else s.aperNext r n (List.replicate n 0) true)
  else
  match r.write, r.acc, r.todo with
  | _, _, w :: _ => s.readMember r e w a
  | true, none, [] =>
    if missing then s.readMember { r with todo := others } e (others.headD d) a
    else if !here then s.askMember r e d a .data (r.data.take n)
    else
      match s.classGrant 1 a n true with
      | some s =>
        match s.uncorr a n with
        | some g => (s.raise 2 1 (arrayOf g) who (some (mkPpa s.pkg g)) 0 0).aperRefused r
        | none => again ((s.modify who a (r.data.take n)).setReq { r with acc := some (xorBytes (s.sampled a n) (r.data.take n)) })
      | none => again s
  | true, some x, [] =>
    if gone (r.x / 12288 % 4) || (parity && !s.built k (r.x / 12288)) then s.aperNext r n [] false
    else if !parity then s.askMember r e (r.x / 12288 % 4) a .parity x
    else
      match s.classGrant 1 a n true with
      | some s =>
        match s.uncorr a n with
        | some g => (s.raise 2 1 (arrayOf g) who (some (mkPpa s.pkg g)) 0 0).aperRefused r
        | none => (s.modify who a (xorBytes (s.sampled a n) x)).aperNext r n [] false
      | none => again s
  | false, _, [] =>
    let ws := if missing then others else [d]
    if ws.any gone then s.aperNext r n (List.replicate n 0) true else s.readMember { r with todo := ws } e (ws.headD d) a

/-- The next line of a request, in a free slot of its port and within budget class 1 (R338, R339). -/
def State.aperStep (s : State) (id : Nat) : State :=
  match s.apReqs.find? (·.id = id) with
  | none => s
  | some r =>
    let n := r.piece
    if n = 0 then s.aperEnd r
    else
      let again (s : State) : State := s.plan (s.now + 1) 41 (.aperture id)
      match r.ext with
      | some k => if r.asked then s else s.extentStep k r
      | none =>
        if r.write then
          match s.classGrant 1 r.x n true with
          | some s => (s.store { unit := uHost } r.x (r.data.take n)).aperNext r n [] false
          | none => again s
        else
          match s.aperRead r.x n with
          | some (bs, bad, s) => s.aperNext r n bs bad
          | none => again s

/-- A member answers; one that cannot be reached leaves the request open (R336, R443). -/
def State.aperNotice (s : State) (id : Nat) (k : NoticeKind) : State :=
  match s.apReqs.find? fun r => r.id = id && r.asked with
  | none => s
  | some r =>
    match k with
    | .failed 0 => s
    | .failed 2 => s.aperUnbuilt r
    | .failed _ => if r.write then s.aperRefused r else s.aperNext { r with asked := false } r.piece (List.replicate r.piece 0) true
    | .done _ => s.aperNext { r with asked := false } r.piece [] false
    | .data _ bs => s.memberData r bs

/-- A notice reaches its sender: a core's command, or a request of the host port (R278, R299, R336). -/
def execDeliveryNotice (core id : Nat) (k : NoticeKind) (s : State) : Out :=
  .next (if core = hostCore then s.aperNotice id k else s.notice core id k)

/-- A request is admitted. -/
def State.enqueue (s : State) (ext : Option Nat) (write : Bool) (x n : Nat) (data : List Byte) : State :=
  let (id, s) := s.fresh
  let s : State := { s with apReqs := s.apReqs ++ [⟨id, ext, write, x, n, data, [], false, false, [], none⟩] }
  s.plan s.now 41 (.aperture id)

/-- A request through the aperture at offset `x`: local HBM, or an extent, which may turn it away (R329, R337, R446). -/
def State.aperture (s : State) (write : Bool) (x n : Nat) (data : List Byte) : State :=
  if s.sec.stage.toNat < 6 || 2 ^ 36 < x + n then s
  else if !s.apwin.getLsbD 63 then s.enqueue none write (bits s.apwin 38 36 * 2 ^ 36 + x) n data
  else
    let k := bits s.apwin 9 0
    let e := s.extent k
    /- a lease that runs out in this tick has revoked the extent (R446) -/
    let gone := (e.state = 1 || e.state = 2) && (Sparse.get? s.leases e.host).any (· ≤ s.tick)
    if e.state = 3 || gone then (s.emit .abort).hostRecord uHost 5
    else
      let own := e.state = 1 && e.host = s.pkg
      if write && !own then (s.emit .abort).hostRecord uHost 3
      else if !write && !own && e.state ≠ 2 then s.emit .abort
      else if 3 * e.shareBytes < x + n then s.emit .abort
      else s.enqueue (some k) write x n data

def execApertureRead (x n : Nat) (s : State) : Out := .next (s.aperture false x n [])
def execApertureWrite (x : Nat) (data : List Byte) (s : State) : Out := .next (s.aperture true x data.length data)

/-! ### Revocation and release (R445, R446) -/

/-- From this tick the extent is reclaiming; requests admitted before it are forced after 2^20 ticks. -/
def State.revoke (s : State) (k : Nat) : State :=
  let e := s.extent k
  if e.state ≠ 1 && e.state ≠ 2 then s
  else
    let s := s.putExtent k (e.setState 3)
    let s := (s.apReqs.filter (·.ext = some k)).foldl (fun s r => s.planTick (s.tick + 2 ^ 20) 45 (.forcedCompletion r.id)) s
    s.plan s.now 45 (.extentRelease k)

def execExtentRevocation (ext : Nat) (s : State) : Out := .next (s.revoke ext)

/-- A read completes with poisoned data, a write is dropped. -/
def execForcedCompletion (id : Nat) (s : State) : Out :=
  .next (match s.apReqs.find? (·.id = id) with
    | none => s
    | some r =>
      let s := s.dropReq id
      if r.write then s else (s.emit (.readData (r.got ++ List.replicate r.left 0) true)).hostRecord uHost 9)

/-- The extent is free again: VERSION and STATE are zero. -/
def State.extentFree (s : State) (k : Nat) : State :=
  let e := s.extent k
  s.putExtent k { e.setState 0 with version := 0 }

/-- When no admitted request is left, the share is written to zero, a line at a time, and the extent is free. -/
def execExtentRelease (ext : Nat) (s : State) : Out :=
  .next (let e := s.extent ext
    if e.state ≠ 3 then s
    else if s.apReqs.any (·.ext = some ext) then s.plan (s.now + 1) 45 (.extentRelease ext)
    else if s.holdsShare e && e.shareBytes ≠ 0 then s.plan s.now 45 (.extentZero ext 0)
    else s.extentFree ext)

/-- Line `j` of a share that is given up, under budget class 5. -/
def State.zeroLine (s : State) (k j : Nat) : State :=
  let e := s.extent k
  let a := e.base.toNat + 64 * j
  match s.classGrant 5 a 64 true with
  | none => s.plan (s.now + 1) 45 (.extentZero k j)
  | some s =>
    let s := s.store { unit := uHost } a (List.replicate 64 0)
    if 64 * (j + 1) < e.shareBytes then s.plan (s.now + 1) 45 (.extentZero k (j + 1)) else s.extentFree k

/-- Block `blk` of this member's share is rebuilt as the exclusive or of the other three (R336). -/
def execExtentRebuild (ext blk : Nat) (a b c : List Byte) (s : State) : Out :=
  .next (let e := s.extent ext
    if !s.holdsShare e || e.shareBytes ≤ 4096 * blk then s
    else s.plan s.now 45 (.rebuild (e.base.toNat + 4096 * blk) ((xorBytes a (xorBytes b c)).take 4096)))

/-- The block that ends with the line at `a` has been rebuilt; with the last one the share is whole again. -/
def State.markBuilt (s : State) (a : Nat) : State :=
  { s with rebuilt := s.rebuilt.filterMap fun (k, l) =>
      let e := s.extent k
      if a < e.base.toNat || e.base.toNat + e.shareBytes ≤ a then some (k, l)
      else
        let l := (a - e.base.toNat) / 4096 :: l.filter (· ≠ (a - e.base.toNat) / 4096)
        if e.shareBytes ≤ 4096 * l.length then none else some (k, l) }

/-- A line of a rebuilt block, under budget class 5. -/
def State.rebuildLine (s : State) (a : Nat) (bs : List Byte) : State :=
  match s.classGrant 5 a (min 64 bs.length) true with
  | none => s.plan (s.now + 1) 45 (.rebuild a bs)
  | some s =>
    let s := s.store { unit := uHost } a (bs.take 64)
    if bs.length ≤ 64 then s.markBuilt a else s.plan (s.now + 1) 45 (.rebuild (a + 64) (bs.drop 64))

/-! ### Leases (R337, R445) -/

/-- A host's lease runs for LEASE_TICKS from the tick `t` of its renewal. -/
def State.leaseSet (s : State) (host t : Nat) : State :=
  let e := t + s.leaseTicks
  if Sparse.get? s.leases host = some e then s
  else ({ s with leases := Sparse.insert s.leases host e }).planTick e 0 (.leaseExpiry host)

/-- A renewal of the own host's lease, unless it has run out, goes to every member that holds one of its extents; another's counts from the
tick in which it was written, unless the lease has run out here (R337, R445). -/
def State.leaseRenew (s : State) : LeaseEvent → State
  | .own =>
    if (Sparse.get? s.leases s.pkg).any (· ≤ s.tick) then s.hostRecord uHost 4
    else (s.emit (.leaseRenewed s.pkg s.tick)).leaseSet s.pkg s.tick
  | .renewed host t => if (Sparse.get? s.leases host).any fun e => e ≤ s.tick || t + s.leaseTicks < e then s else s.leaseSet host t

/-- The own host writes LEASE, which it can from the first boot stage on, or another host's renewal arrives (R328, R337). -/
def execLeaseWrite (host : LeaseEvent) (s : State) : Out := .next (if host = .own && !s.hostOpen then s else s.leaseRenew host)

/-- The host of this package is gone: its queues, its records, its resident launches. -/
def State.hostLost (s : State) : State :=
  let s : State := { s with
    queues := s.queues.map fun e => (e.1, { e.2 with qcfg := e.2.qcfg &&& ~~~0x100, next := e.2.tail, reading := none, bells := [] })
    launches := s.launches.filter fun e => e.2.phase ≠ .waiting }
  (s.launches.filter fun e => e.2.resident && e.2.bound).foldl (fun s e => s.endLaunch e.1 e.2 10) s

def execLeaseExpiry (host : Nat) (s : State) : Out :=
  .next (match Sparse.get? s.leases host with
    | none => s
    | some t =>
      if s.tick < t then s
      else
        let mine := (s.extents.filter fun e => e.2.host = host && (e.2.state = 1 || e.2.state = 2)).map (·.1)
        let s := mine.foldl (fun s k => s.revoke k) s
        let s := if mine.any fun k => s.holdsShare (s.extent k) then s.hostRecord uHost 4 else s
        if host = s.pkg then s.hostLost else s)

/-! ### Publication (R337, R447) -/

/-- PUBHOST and VERSION of an extent, as a pair to compare. -/
def Extent.pair (x : Extent) : Nat × Nat := (bits x.version 31 0, bits x.version 41 32)
def pairLt (a b : Nat × Nat) : Bool := a.1 < b.1 || (a.1 = b.1 && a.2 < b.2)

/-- The result of a publication: 0 OK, 1 SUPERSEDED, 2 NOTOWNER; and the extent. -/
def State.publication (s : State) (k version host : Nat) : Nat × Extent :=
  let e := s.extent k
  let e' := { e.setState 2 with version := dw (version % 2 ^ 32 + host % 1024 * 2 ^ 32) }
  match e.state with
  | 1 => if e.host = host then (0, e') else (2, e)
  | 2 =>
    if !(Sparse.get? s.leases host).any (s.tick < ·) then (2, e)
    else if pairLt e.pair (version % 2 ^ 32, host % 1024) then (0, e') else (1, e)
  | _ => (2, e)

/-- The result of a publication reaches its host: PUBSTAT here, or a message to its package. -/
def State.pubTell (s : State) (k version host r : Nat) : State :=
  if host = s.pkg then { s with pubstat := BitVec.ofNat 2 r } else s.emit (.pubResult k version host r)

/-- The ring's member with logical W = 0 decides a PUBLISH: what it applies goes to every member, and the result is known when it has reached
them all (R447). -/
def State.pubDecide (s : State) (k version host : Nat) : State :=
  let (r, e) := s.publication k version host
  let s := if r = 0 then s.putExtent k e else s
  if r = 0 then { s.emit (.published k version host r) with pubWait := s.pubWait ++ [(k, version, host)] } else s.pubTell k version host r

/-- What has been applied reaches another member; of two the greater pair stays, whatever the order of their arrival (R447). -/
def State.pubApply (s : State) (k version host : Nat) : State :=
  let e := s.extent k
  if (e.state = 1 && e.host = host) || (e.state = 2 && pairLt e.pair (version % 2 ^ 32, host % 1024)) then
    s.putExtent k { e.setState 2 with version := dw (version % 2 ^ 32 + host % 1024 * 2 ^ 32) }
  else s

/-- The publication has reached every member: SUPERSEDED if a greater pair has been applied here since (R447). -/
def State.pubReached (s : State) (k version host : Nat) : State :=
  { s with pubWait := s.pubWait.erase (k, version, host) }.pubTell k version host
    (if (s.extent k).pair = (version % 2 ^ 32, host % 1024) then 0 else 1)

/-- A PUBLISH arrives where it is decided, or what one has come to arrives (R337, R447). -/
def execPublicationDecision (ext version : Nat) (m : PubMsg) (s : State) : Out :=
  .next (let deciding := s.pkg = (s.extent ext).ring
    match m.step with
    | .request => if deciding then s.pubDecide ext version m.host else s
    | .applied => if deciding then s else s.pubApply ext version m.host
    | .reached => if s.pubWait.contains (ext, version, m.host) then s.pubReached ext version m.host else s
    | .result r => if m.host = s.pkg then { s with pubstat := BitVec.ofNat 2 r } else s)

/-- The host writes PUBLISH: the ring's member with logical W = 0 decides. -/
def State.publish (s : State) (v : DWord) : State :=
  let k := bits v 9 0
  let ver := bits v 63 32
  if s.pkg = (s.extent k).ring then s.pubDecide k ver s.pkg else s.emit (.publish k ver s.pkg)

def execPublishWrite (v : DWord) (s : State) : Out := .next (if s.hostOpen then s.publish v else s)

/-! ### Cancellation (R448) -/

/-- The first tick of the next guard interval. -/
def nextGuard (t : Nat) : Nat := (t / guardPeriod + 1) * guardPeriod

/-- The MC sets GECTL.CANCEL at the first tick of a guard interval, and waits for one (R448). -/
def execGectlCancelWrite (n : Nat) (ctx : Byte) (s : State) : Out :=
  .next (if s.tick % guardPeriod ≠ 0 then s.planTick (nextGuard s.tick) 1 (.gectlCancelWrite n ctx)
    else
      let c := s.geCtx n
      if c.bound && c.ctx = ctx then (s.setGe n (c.asked s.now)).softWrite { unit := uGe } none 11 (0x300000 + 8 * n) 8 else s.hostRecord uMc 6)

/-- The request is for the GE of package PKG. -/
def State.gcancel (s : State) (v : DWord) : State :=
  if bits v 41 32 = s.pkg then s.planTick (nextGuard s.tick) 1 (.gectlCancelWrite (bits v 9 0) (BitVec.ofNat 8 (bits v 31 24)))
  else s.emit (.cancelRequest (bits v 41 32) v)

def execGcancelWrite (v : DWord) (s : State) : Out := .next (if s.hostOpen then s.gcancel v else s)

/-! ### Queue configuration (R331) -/

/-- While EN = 1 only VEC, IRQ and EN take the written values; a queue is not enabled with a LOG2 outside 4 to 16. -/
def State.qcfgSet (s : State) (q : Nat) (v : DWord) : State :=
  let old := (s.queue q).qcfg
  let keep : DWord := 0xFF00021F
  let rw : DWord := 0xFFFF071F
  let new := if old.getLsbD 8 then (old &&& keep) ||| (v &&& rw &&& ~~~keep) else v &&& rw
  let bad := new.getLsbD 8 && !(4 ≤ bits new 4 0 && bits new 4 0 ≤ 16)
  let s := s.modQueue q fun x => { x with qcfg := if bad then new &&& ~~~0x100 else new }
  if bad then s.hostRecord uHost 7 else s.poke

def execQcfgWrite (q : Nat) (v : DWord) (s : State) : Out := .next (if s.hostOpen then s.qcfgSet q v else s)

end Sys2Proof.Machine
end

