-- ==== Sys2Proof/Machine/Boot.lean ====
section
/-! DEFINITION. Power, boot, attestation, and writes of the hub's and the host port's registers (spec 00 R6; 01 R23; 02 R25; 14 R328,
R330, R331, R335, R339, R342 to R346; 18 R384, R387; 19 R405; 21 R432, R440). -/

namespace Sys2Proof.Machine

/-! ### Boot (R343) -/

/-- A measurement is extended with a component. -/
def measureExt (m component : List Byte) : List Byte := sha384 (m ++ sha384 component)
def Security.measure (x : Security) (i : Nat) (component : List Byte) : Security :=
  { x with meas := (List.range 8).map fun j => let m := x.meas.getD j []; if j = i then measureExt m component else m }

/-- Power is gone: every field is at its reset value but the model's own counters, the inputs that the outside world still has in
hand, and what has left the package (R23). -/
def State.dark (s : State) : State :=
  { State.reset with now := s.now, inputs := s.inputs, serial := s.serial, freeCtr := s.freeCtr, out := s.out }

def execPowerOff (s : State) : Out := .next s.dark

/-- A stage ends; a stage fails, and the device stops there. -/
def State.stageDone (s : State) (n : BitVec 4) : State := { s with sec := { s.sec with stage := n } }
def State.stageFail (s : State) (code : BitVec 4) : State := { s with sec := { s.sec with fail := code } }

/-- The words of the supervisor block, which take the last 8 KiB of the instruction store (R159). -/
def PodConfig.sup (p : PodConfig) : Sparse Word := p.supervisor.foldl (fun m e => Sparse.set 0 m (0x1E000 / 4 + e.1 % 2048) e.2) []
def supBytes (m : Sparse Word) : List Byte := (Sparse.getAll 0 m (0x1E000 / 4) 2048).flatMap fun w => leBytes 4 w.toNat

/-- A package's way up the tree ends at the root (R25). -/
def PodConfig.rises (p : PodConfig) : Nat → Nat → Bool
  | 0, k => k = p.rootPkg
  | n + 1, k => k = p.rootPkg || (p.tree.find? (·.1 = k)).any fun e => PodConfig.rises p n e.2

/-- The format check of the tree: no package of the pod is without a way to the root, so there is no cycle (R25). -/
def PodConfig.treeOk (p : PodConfig) : Bool := p.tree = [] || p.pkgs.all fun k => PodConfig.rises p p.pkgs.length k

/-- The relabel table that the image brings, and the package's place in it (R46). -/
def PodConfig.table (p : PodConfig) : Sparse (BitVec 16) := Sparse.setAll 0 [] 0 ((p.relabel.take 256).map (· &&& 0xF000))
def PodConfig.own (p : PodConfig) : Nat := logicalPkg (PodConfig.table p) (p.ring % 256) (p.member % 5)

/-- A configuration without a time tree makes the package its own root (R25). -/
def PodConfig.root (p : PodConfig) : Bool := p.tree = [] || p.rootPkg = PodConfig.own p

/-- An entry of the extent table: bits that no field holds are zero (R335, R447). -/
def extentMask (x : Extent) : Extent :=
  { x with ctl := x.ctl &&& 0xFF000000000303FF, share := x.share &&& 0xFFFFFFFF, version := x.version &&& 0x3FFFFFFFFFF }

/-- What the MC loads from the configuration image (R25, R46, R278, R335, R337). -/
def State.configure (s : State) (p : PodConfig) : State :=
  let sup := PodConfig.sup p
  let root := PodConfig.root p
  { s with
    sec := (s.sec.measure 1 p.bytes).measure 2 (supBytes sup)
    sup := sup
    relabel := PodConfig.table p
    routes := p.routes.foldl (fun m e => Sparse.set 0 m (e.1 % 1024) e.2) []
    extents := p.extents.foldl (fun m e => Sparse.set ⟨0, 0, 0, 0⟩ m (e.1 % 1024) (extentMask ⟨e.2.1, e.2.2.1, e.2.2.2.1, e.2.2.2.2⟩)) []
    leaseTicks := p.leaseTicks
    ring := p.ring % 256
    member := p.member % 5
    pkg := PodConfig.own p
    mu := { s.mu with root := root, parent := if root then 0xF else p.parentPort, alt := if root then 0xF else p.altPort,
                      asym := p.asym, rootPkg := if p.tree = [] then PodConfig.own p else p.rootPkg, successor := p.successor } }

/-- The MC firmware, once it runs, extends MEAS3 to MEAS7 (R343; log 48). -/
def State.extendMeas (s : State) (l : List (Nat × List Byte)) : State :=
  { s with sec := (l.filter fun e => 3 ≤ e.1 && e.1 ≤ 7).foldl (fun x e => x.measure e.1 e.2) s.sec }

/-- Stage 6: the host's other BARs open; the root's count runs from zero, another MU acquires (R25). -/
def State.stage6 (s : State) : State :=
  { s with mu := if s.mu.root then { s.mu with running := true, st := 2 } else { s.mu with st := 1 } }.stageDone 6

/-- Stages 1 to 6 in order. -/
def State.boot (s : State) (b : BootInput) : State :=
  let s := s.dark
  let s := { s with sec := { s.sec with boot := s.freeCtr }, freeCtr := s.freeCtr + 1 }.stageDone 1
  if !b.hbmTrains then s.stageFail 5
  else
    let s := s.stageDone 2
    let v := Config.imageVerdict b.firmware
    if v ≠ 0 then s.stageFail (BitVec.ofNat 4 v.val)
    else
      let s := ({ s with sec := s.sec.measure 0 b.firmware }).stageDone 4
      let v := Config.imageVerdict b.config.bytes
      if v ≠ 0 then s.stageFail (BitVec.ofNat 4 v.val)
      else if !PodConfig.treeOk b.config then s.stageFail 4
      else (((s.configure b.config).extendMeas b.extend).stageDone 5).stage6

def execPowerOn (b : BootInput) (s : State) : Out := .next (s.boot b)

/-! ### Attestation (R344 to R346) -/

/-- Exactly `n` bytes of a value. -/
def fixedBytes (n : Nat) (l : List Byte) : List Byte := l.take n ++ List.replicate (n - l.length) 0

/-- Bytes 0x000 to 0x247 of a report, which both signatures cover. -/
def Security.reportHead (x : Security) : List Byte :=
  leBytes 4 0x54544131 ++ leBytes 4 x.leaf ++ fixedBytes 32 x.asked ++ x.meas.flatMap (fixedBytes 48) ++ fixedBytes 104 (fixedBytes 97 Config.identityKey)
    ++ fixedBytes 56 (Config.lmsKey x.boot)

/-- The report of the next leaf. -/
def Security.reportOf (x : Security) : List Byte :=
  let h := x.reportHead
  h ++ fixedBytes 96 (Config.ecdsaSign h) ++ fixedBytes 2508 (Config.lmsSign x.boot x.leaf h)

/-- GO: a request with NONCE as it stands. -/
def State.attestGo (s : State) (v : DWord) : State :=
  if !v.getLsbD 0 || s.sec.attBusy then s
  else
    { s with sec := { s.sec with attBusy := true, attDone := false, attErr := false, asked := s.sec.nonce } }.plan (s.now + 1) 20
      .attestationReportDone

def execAttctlGo (v : DWord) (s : State) : Out := .next (if s.hostOpen then s.attestGo v else s)

/-- The report is ready, or every leaf has been used. -/
def execAttestationReportDone (s : State) : Out :=
  .next (let x := s.sec
    if !x.attBusy then s
    else if 1024 ≤ x.leaf then { s with sec := { x with attBusy := false, attDone := true, attErr := true } }
    else { s with sec := { x with attBusy := false, attDone := true, report := x.reportOf, leaf := x.leaf + 1 } })

/-! ### Registers (R6) -/

/-- The RW bits of a register take the written value. -/
def rwMerge (old v rw : DWord) : DWord := (old &&& ~~~rw) ||| (v &&& rw)

/-- RW bits of word `i` of a context record (R103). -/
def ctxRw (i : Nat) : DWord :=
  match i with
  | 0 => 0x83FFFFFFFFFFFFFF
  | 5 => 0xFFFF
  | _ => 0x03FFFFFFFFFFFFFF

/-- A write of a context record; none while a launch of the context is bound (R103). -/
def State.ctxWrite (s : State) (n i : Nat) (v : DWord) : State :=
  let x := Sparse.get .idle s.ctxs n
  if x.bound then s
  else
    let w := v &&& ctxRw i
    let x := match i with
      | 0 => { x with root := w }
      | 1 => { x with shapes := w }
      | 2 => { x with windows := w }
      | 3 => { x with rng := w }
      | 4 => { x with syncb := w }
      | 5 => { x with syncbN := w }
      | _ => x
    { s with ctxs := Sparse.insert s.ctxs n x }

/-- A write of an entry of the extent table (R335). -/
def State.extentWrite (s : State) (n i : Nat) (v : DWord) : State :=
  let x := s.extent n
  s.setExtent n (extentMask (match i with
    | 0 => { x with ctl := v }
    | 1 => { x with base := v }
    | 2 => { x with share := v }
    | _ => { x with version := v }))

/-- A write of PORTSTAT (R432). -/
def State.portstatWrite (s : State) (p : Nat) (v : DWord) : State :=
  let s := s.modLe p fun x =>
    { x with corr := BitVec.ofNat 32 (bits v 63 32), lost := BitVec.ofNat 16 (bits v 31 16), slip := x.slip && !v.getLsbD 3,
             lockLoss := x.lockLoss && !v.getLsbD 2 }
  if v.getLsbD 4 then s.failedClear p else s

/-- A write of GECTL: the MC's request to cancel (R308). -/
def State.gectlWrite (s : State) (n : Nat) (v : DWord) : State :=
  let c := s.geCtx n
  s.setGe n { c with cancel := if v.getLsbD 0 then (c.asked s.now).cancel else none }

/-- PORTSTAT, ATTCTL and JRNSTAT as they read (R346, R432, R440). -/
def Le.portstat (x : Le) : DWord :=
  dw (x.corr.toNat * 2 ^ 32 + x.lost.toNat * 2 ^ 16 + (if x.failed.isSome then 16 else 0) + (if x.slip then 8 else 0)
    + (if x.lockLoss then 4 else 0) + (if x.up then 1 else 0))
def Security.attctl (x : Security) : DWord :=
  dw ((if x.attErr then 4 else 0) + (if x.attDone then 2 else 0))
def Journal.stat (x : Journal) : DWord := dw ((if x.full then 2 ^ 63 else 0) + x.recs.length)

/-- A write of a hub register at offset `o` of their range; none where the spec describes no register. -/
def State.hubWrite (s : State) (o : Nat) (v : DWord) : Option State :=
  let s := if 0x100000 ≤ o && o < 0x500030 then s.softWrite { unit := uMc } none 11 (o / 8 * 8) 8 else s
  if o % 8 ≠ 0 then none
  else if 0x100000 ≤ o ∧ o < 0x104000 then some (s.ctxWrite ((o - 0x100000) / 64) (o % 64 / 8) v)
  else if 0x200000 ≤ o ∧ o < 0x202000 then some { s with routes := Sparse.set 0 s.routes ((o - 0x200000) / 8) v }
  else if 0x300000 ≤ o ∧ o < 0x302000 then some (s.gectlWrite ((o - 0x300000) / 8) v)
  else if 0x400000 ≤ o ∧ o < 0x408000 then some (s.extentWrite ((o - 0x400000) / 32) (o % 32 / 8) v)
  else if 0x500000 ≤ o ∧ o < 0x500030 then some { s with budgets := Sparse.set 0 s.budgets ((o - 0x500000) / 8) (v &&& 0x0000FFFF0000FFFF) }
  else if o = 0x600000 then some (s.setCol { s.col with base := v &&& 0x03FFFFFFFFFFF000 })
  else if o = 0x600008 then some (s.errqCfg v)
  else if o = 0x600010 then some (s.setCol { s.col with head := BitVec.ofNat 32 v.toNat })
  else if o = 0x600018 then some s
  else if o = 0x600020 then some (s.setCol { s.col with lost := BitVec.ofNat 32 v.toNat })
  else if 0x601000 ≤ o ∧ o < 0x601000 + 8 * 480 then some (if v.getLsbD 0 then s.unfreeze ((o - 0x601000) / 8) else s)
  else if o = 0x602000 then some { s with phrej := rwMerge s.phrej v 0xFFFFFFFF00000000 }
  else if 0x603000 ≤ o ∧ o < 0x603000 + 8 * 12 then some (s.portstatWrite ((o - 0x603000) / 8) v)
  else if o = 0x604000 then some s
  else none

/-- A write of a queue's record (R330, R331): the rings stand still while the queue is enabled. -/
def State.queueWrite (s : State) (q i : Nat) (v : DWord) : State :=
  let en := (s.queue q).en
  match i with
  | 0 => if en then s else s.modQueue q fun x => { x with sqBase := v &&& 0xFFFFFFFFFFFFF000 }
  | 1 => if en then s else s.modQueue q fun x => { x with cqBase := v &&& 0xFFFFFFFFFFFFF000 }
  | 2 => s.qcfgSet q v
  | _ => ((s.modQueue q fun x => { x with cqHead := v.toNat }).plan s.now 41 (.completionRecordWrite q)).poke

/-- What a register of the hub reads as at offset `o` of their range: reserved and write-only bits are zero (R6); none where the spec describes
no register. -/
def State.hubGet (s : State) (o : Nat) : Option DWord :=
  if o % 8 ≠ 0 then none
  else if 0x100000 ≤ o ∧ o < 0x104000 then
    let x := Sparse.get .idle s.ctxs ((o - 0x100000) / 64)
    some ([x.root, x.shapes, x.windows, x.rng, x.syncb, x.syncbN].getD (o % 64 / 8) 0)
  else if 0x200000 ≤ o ∧ o < 0x202000 then some (Sparse.get 0 s.routes ((o - 0x200000) / 8))
  else if 0x300000 ≤ o ∧ o < 0x302000 then some (s.geCtx ((o - 0x300000) / 8)).ctl
  else if 0x400000 ≤ o ∧ o < 0x408000 then
    let x := s.extent ((o - 0x400000) / 32)
    some ([x.ctl, x.base, x.share, x.version].getD (o % 32 / 8) 0)
  else if 0x500000 ≤ o ∧ o < 0x500030 then some (Sparse.get 0 s.budgets ((o - 0x500000) / 8))
  else if o = 0x600000 then some s.col.base
  else if o = 0x600008 then some s.col.cfg
  else if o = 0x600010 then some (s.col.head.zeroExtend 64)
  else if o = 0x600018 then some (s.col.tail.zeroExtend 64)
  else if o = 0x600020 then some (s.col.lost.zeroExtend 64)
  else if 0x601000 ≤ o ∧ o < 0x601000 + 8 * 480 then some (if s.frzFrozen ((o - 0x601000) / 8) then 1 else 0)
  else if o = 0x602000 then some s.phrej
  else if 0x603000 ≤ o ∧ o < 0x603000 + 8 * 12 then some (Sparse.get .idle s.les ((o - 0x603000) / 8)).portstat
  else if o = 0x604000 then some s.journal.stat
  else none

/-- What the host reads at an offset of BAR0, from the first boot stage on, also where a stage has failed (R6, R328, R343); none where the
spec describes no register. DESIGN CHOICE (log 66): LEASE and PUBLISH, to which the spec gives no Access column, read as 0. -/
def State.bar0Get (s : State) (o : Nat) : Option DWord :=
  if o % 8 ≠ 0 then none
  else if o = 0x000 then some (dw (s.sec.stage.toNat + s.sec.fail.toNat * 16))
  else if o = 0x008 then some s.apwin
  else if o = 0x020 then some (s.pubstat.zeroExtend 64)
  else if o = 0x010 ∨ o = 0x018 ∨ o = 0x028 then some 0
  else if 0x100 ≤ o ∧ o < 0x120 then some (dw (leNat ((s.sec.nonce.drop (o - 0x100)).take 8)))
  else if o = 0x120 then some s.sec.attctl
  else if 0x10000 ≤ o ∧ o < 0x30000 then
    let x := s.queue ((o - 0x10000) / 32)
    some ([x.sqBase, x.cqBase, x.qcfg, dw x.cqHead].getD (o % 32 / 8) 0)
  else if 0x30000 ≤ o ∧ o < 0x30000 + 3192 then some (dw (leNat ((s.sec.report.drop (o - 0x30000)).take 8)))
  else none

/-- A 64-bit write of the host at an offset of BAR0; none where the spec describes no register (R328). -/
def State.bar0Write (s : State) (o : Nat) (v : DWord) : Option State :=
  if o % 8 ≠ 0 then none
  else if o = 0x000 then some s
  else if o = 0x008 then some { s with apwin := v &&& 0x80000070000003FF }
  else if o = 0x010 then some (s.leaseRenew .own)
  else if o = 0x018 then some (s.publish v)
  else if o = 0x020 then some s
  else if o = 0x028 then some (s.gcancel v)
  else if 0x100 ≤ o ∧ o < 0x120 then
    let i := o - 0x100
    some { s with sec := { s.sec with nonce := s.sec.nonce.take i ++ leBytes 8 v.toNat ++ s.sec.nonce.drop (i + 8) } }
  else if o = 0x120 then some (s.attestGo v)
  else if 0x10000 ≤ o ∧ o < 0x30000 then some (s.queueWrite ((o - 0x10000) / 32) (o % 32 / 8) v)
  else if 0x30000 ≤ o ∧ o < 0x30000 + 3192 then some s
  else none

/-- From here on the address of a `registerWrite` is that of a word of HBM, past every PPA. -/
abbrev wordBase : Nat := 2 ^ 58

/-- A write by the MC of a register at a local address or of a word of HBM, such as its tables stand there (R92, R103, R454), or by the host of a
register at an offset of BAR0 (log 26). -/
def execRegisterWrite (addr : Nat) (v : DWord) (s : State) : Out :=
  if wordBase ≤ addr then
    let a := (addr - wordBase) / 8 * 8
    if a < hbmTop then .next (((s.classGrant 0 a 8 true).getD s).store { unit := uMc } a (leBytes 8 v.toNat)) else .fault .hubAddress
  else if hubBase ≤ addr then
    match s.hubWrite (addr - hubBase) v with
    | some t => .next t
    | none => .fault .hubAddress
  else
    match s.bar0Write addr v with
    | some t => .next (if s.hostOpen then t else s)
    | none => .fault .hubAddress

end Sys2Proof.Machine
end

