-- ==== Sys2Proof/Machine/Control.lean ====
section
/-! DEFINITION. Branches, calls, jumps and hardware loops (spec 09 R192 to R195). -/

namespace Sys2Proof.Machine

/-- A relative target: the PC plus four times a signed offset, never wrapped within the 64-bit program counter (R192). -/
def relTarget (pc : DWord) (off : Int) : DWord := pc + BitVec.ofInt 64 (4 * off)

/-- A register target: bits [16:2] (R192). -/
def regTarget (v : DWord) : DWord := dw (bits v 16 2 * 4)

/-- The link register G31. -/
def linkReg : G := 31

/-- The condition of `bcz` (R167). -/
def BCondHolds (c : BCond) (v : DWord) : Bool :=
  match c with
  | .eq => v = 0
  | .ne => v ≠ 0
  | .lt => v.toInt < 0
  | .ge => 0 ≤ v.toInt
  | .le => v.toInt ≤ 0
  | .gt => 0 < v.toInt
  | .bset => v.getLsbD 0
  | .bclr => !v.getLsbD 0

/-- A taken branch with a negative offset is a pre-emption point (R193). -/
def execBra (t : Tok) (off : BitVec 22) (s : State) : Out :=
  s.issue { t := t } fun s => .jump s (relTarget s.me.pc off.toInt) (off.toInt < 0)

/-- A call; one with a negative offset is a pre-emption point, as a branch with one is (R192, R193). DEDUCED (log 68). -/
def execCall (t : Tok) (off : BitVec 22) (s : State) : Out :=
  s.issue { t := t, writes := [keyG linkReg] } fun s =>
    .jump (s.setG linkReg (s.me.pc + 4)) (relTarget s.me.pc off.toInt) (off.toInt < 0)

/-- Not taken, control passes sequentially (R195). -/
def execBcz (t : Tok) (ga : G) (cond : BCond) (off : BitVec 14) (s : State) : Out :=
  s.issue { t := t, reads := [keyG ga] } fun s =>
    if BCondHolds cond (s.gr ga) then .jump s (relTarget s.me.pc off.toInt) (off.toInt < 0) else .seq s

def execJr (t : Tok) (ga : G) (s : State) : Out :=
  s.issue { t := t, reads := [keyG ga] } fun s => .jump s (regTarget (s.gr ga)) false

def execCallr (t : Tok) (ga : G) (s : State) : Out :=
  s.issue { t := t, reads := [keyG ga], writes := [keyG linkReg] } fun s =>
    .jump (s.setG linkReg (s.me.pc + 4)) (regTarget (s.gr ga)) false

def execRet (t : Tok) (s : State) : Out :=
  s.issue { t := t, reads := [keyG linkReg] } fun s => .jump s (regTarget (s.gr linkReg)) false

/-- Start a loop on counter `k` (R194). -/
def Stream.startLoop (x : Stream) (k : Lvl) (n : Nat) (rot : Bool) (len : Nat) : Stream :=
  let l : LoopRec := ⟨BitVec.ofNat 32 n, x.pc + 4, x.pc + 4 + dw (4 * len), rot, true⟩
  { x.setLoop k l with order := k :: x.order.filter (· ≠ k) }

/-- The shared effect of `loop` and `loopr`: a count of zero passes control sequentially to END, any other sequentially to the
body, so that an enclosing loop whose END is the body's start counts down there (R194, R195). -/
def State.loopInstr (s : State) (t : Tok) (gc : G) (k : Lvl) (len : BitVec 14) (rot : Bool) : Out :=
  s.issue { t := t, reads := [keyG gc], writes := if bits (s.gr gc) 31 0 = 0 then [] else [keyLoop k] } fun s =>
    let n := bits (s.gr gc) 31 0
    if n = 0 then .seqTo s (s.me.pc + 4 + dw (4 * len.toNat))
    else .seq (s.modMe (·.startLoop k n (rot && s.at.2 = .e) len.toNat))

def execLoop (t : Tok) (gc : G) (k : Lvl) (len : BitVec 14) (s : State) : Out := s.loopInstr t gc k len false
def execLoopr (t : Tok) (gc : G) (k : Lvl) (len : BitVec 14) (s : State) : Out := s.loopInstr t gc k len true

end Sys2Proof.Machine
end

