-- ==== Sys2Proof/Machine/Sampling.lean ====
section
/-! DEFINITION. The sampling unit of a core (spec 15 R348 to R354). -/

namespace Sys2Proof.Machine

/-- SMPCTL.EN and P (R350). -/
def Sampler.en (x : Sampler) : Bool := x.ctl.getLsbD 0
def Sampler.period (x : Sampler) : Nat := max 1 (bits x.ctl 16 1)
/-- Records that the buffer holds, and its place. -/
def Sampler.cap (x : Sampler) : Nat := 4 * bits x.buf 47 32
def Sampler.base (x : Sampler) : Nat := bits x.buf 21 0

/-- SMPCTL is written: a write that leaves EN = 1 starts a schedule, one tick after its issue (R351). -/
def execSmpctlWrite (core : Nat) (v : DWord) (s : State) : Out :=
  .next (s.modCore core fun k =>
    { k with smp := if v.getLsbD 0 then { k.smp with ctl := v, start := s.before, j := 0 } else { k.smp with ctl := v } })

/-- SMPBUF is written; nothing while EN = 1, nor a buffer that R350 does not allow. -/
def execSmpbufWrite (core : Nat) (v : DWord) (s : State) : Out :=
  .next (s.modCore core fun k =>
    if k.smp.en || smpbufBad v then k else { k with smp := { k.smp with buf := v, wr := 0, rd := 0 } })

/-- RD is written: the value where the buffer spans it, else WR (R350). -/
def execSmpptrRdWrite (core : Nat) (v : DWord) (s : State) : Out :=
  .next (s.modCore core fun k =>
    let rd := BitVec.ofNat 32 (bits v 63 32)
    { k with smp := { k.smp with rd := if (k.smp.wr - rd).toNat ≤ k.smp.cap then rd else k.smp.wr } })

/-- CODE of a class (R348). -/
def Cls.code : Cls → Nat
  | .issued => 0
  | .notsel => 1
  | .token => 2
  | .queue => 3
  | .mailbox => 4
  | .meridian => 5
  | .cefull => 6
  | .bank => 7
  | .sync => 8
  | .frozen => 9
  | .halted => 10

/-- PCW: the address bits [16:2], or the value of a stream without a section (R349). -/
def Stream.pcw (x : Stream) : Nat := if x.hasCode then bits x.clsPc 16 2 else 0x7FFF

/-- The record of stream `i` of a core in tick `t` (R352). -/
def Core.sampleRec (k : Core) (t : Nat) (i : StreamId) : DWord × DWord :=
  let x := k.str i
  (dw t, dw (streamNum i + x.cls.code * 2 ^ 4 + x.pcw * 2 ^ 16 + k.launchId.toNat * 2 ^ 32))

/-- Sample `n`, counted from 1, taken or dropped (R351, R353). -/
def Core.sample (k : Core) (t n : Nat) : Core :=
  let x := k.smp
  let full := 4 ≤ x.pend.length || x.cap ≤ (x.wr + BitVec.ofNat 32 x.pend.length - x.rd).toNat
  let x := { x with j := n }
  { k.count 65 with smp :=
      if full then { x with dropped := if x.dropped = 0xFFFFFFFF then x.dropped else x.dropped + 1 }
      else { x with pend := x.pend ++ [k.sampleRec t (streamOfNum (n - 1))] } }

/-- The samples that are due on a core that runs: the class and the address of the stream whose turn it is. One whose tick the count has
skipped is taken in the next period (R28, R351, R352). -/
def execSamplingTick (core : Nat) (s : State) : Out :=
  .next (let k := s.core core
    let n := (s.tick - k.smp.start) / k.smp.period
    if k.running && k.smp.en then (List.range (n - k.smp.j)).foldl (fun s i => s.modCore core (·.sample s.tick (k.smp.j + i + 1))) s else s)

/-- One pending record is written, after every stream of the tick, in a free slot and within budget class 4; WR advances (R353). -/
def execSampleRecordWrite (core : Nat) (s : State) : Out :=
  .next (let x := (s.core core).smp
    match x.pend with
    | [] => s
    | r :: rest =>
      let who : Who := { core := some core, unit := uSmp }
      if s.recordWaits (some core) none uSmp 0 then s
      else if (s.core core).parity.contains keySmp then
        (s.modCore core fun k => { k with smp := { k.smp with pend := rest }, parity := k.parity.filter (· ≠ keySmp) }).contain 2 25 who none
      else
      let a := spadOf core + x.base + 16 * (x.wr.toNat % x.cap)
      match s.classGrant 4 a 16 true with
      | some s =>
        let s := s.store who a (leBytes 8 r.1.toNat ++ leBytes 8 r.2.toNat)
        s.modCore core fun k => { k with smp := { k.smp with pend := rest, wr := k.smp.wr + 1 } }
      | none =>
        if Sparse.get 0 s.spent (1024 * 4 + portOf a) ≠ 0 && s.slotOpen (portOf a) then s.modCore core (·.count 70) else s)

end Sys2Proof.Machine
end

