-- ==== Sys2Proof/Machine/Scalar.lean ====
section
/-! DEFINITION. Integer arithmetic and constants (spec 09 R188 to R191). -/

namespace Sys2Proof.Machine

/-! ### Shared forms -/

/-- gd receives a function of G[ga] and G[gb] (R186, R188). -/
def State.rr (s : State) (t : Tok) (gd ga gb : G) (lat : Nat) (f : DWord → DWord → DWord) : Out :=
  s.issue { t := t, reads := [keyG ga, keyG gb], writes := [keyG gd], lat := lat } fun s =>
    .seq (s.setG gd (f (s.gr ga) (s.gr gb)))

/-- gd receives a function of G[ga]. -/
def State.ri (s : State) (t : Tok) (gd ga : G) (f : DWord → DWord) : Out :=
  s.issue { t := t, reads := [keyG ga], writes := [keyG gd] } fun s => .seq (s.setG gd (f (s.gr ga)))

/-- A sign-extended immediate of F2 (R164). -/
def imm64 (i : BitVec 12) : DWord := i.signExtend 64

/-! ### Operations (R188, R189) -/

/-- High half of the signed product. -/
def mulhOf (a b : DWord) : DWord := BitVec.ofInt 64 (a.toInt * b.toInt / 2 ^ 64)
/-- High half of the unsigned product. -/
def mulhuOf (a b : DWord) : DWord := dw (a.toNat * b.toNat / 2 ^ 64)
/-- Signed division, truncated; by zero all ones (R189). -/
def divOf (a b : DWord) : DWord := if b = 0 then BitVec.allOnes 64 else BitVec.ofInt 64 (a.toInt.tdiv b.toInt)
def divuOf (a b : DWord) : DWord := if b = 0 then BitVec.allOnes 64 else dw (a.toNat / b.toNat)
/-- Remainder with the sign of the dividend; by zero the dividend. -/
def remOf (a b : DWord) : DWord := if b = 0 then a else BitVec.ofInt 64 (a.toInt.tmod b.toInt)
def remuOf (a b : DWord) : DWord := if b = 0 then a else dw (a.toNat % b.toNat)
/-- Shift count: bits [5:0]. -/
def shN (b : DWord) : Nat := bits b 5 0
def minOf (a b : DWord) : DWord := if a.toInt ≤ b.toInt then a else b
def maxOf (a b : DWord) : DWord := if a.toInt ≤ b.toInt then b else a
def minuOf (a b : DWord) : DWord := if a.toNat ≤ b.toNat then a else b
def maxuOf (a b : DWord) : DWord := if a.toNat ≤ b.toNat then b else a
def sltOf (a b : DWord) : DWord := dwBool (a.toInt < b.toInt)
def sltuOf (a b : DWord) : DWord := dwBool (a.toNat < b.toNat)
/-- Leading zeros, trailing zeros, set bits. -/
def clzOf (a : DWord) : DWord := if a = 0 then 64 else dw (63 - Nat.log2 a.toNat)
def ctzGo (a : DWord) : Nat → Nat → Nat
  | 0, k => k
  | fuel + 1, k => if a.getLsbD k then k else ctzGo a fuel (k + 1)
def ctzOf (a : DWord) : DWord := dw (ctzGo a 64 0)
def popcOf (a : DWord) : DWord := dw (((List.range 64).filter a.getLsbD).length)
/-- Bits [k:0] of a, sign-extended. -/
def sextOf (a b : DWord) : DWord := BitVec.ofInt 64 (sext a.toNat (shN b + 1))

/-! ### F1, MAJ 0x01 -/

def execAdd (t : Tok) (gd ga gb : G) (s : State) : Out := s.rr t gd ga gb 1 (· + ·)
def execSub (t : Tok) (gd ga gb : G) (s : State) : Out := s.rr t gd ga gb 1 (· - ·)
def execMul (t : Tok) (gd ga gb : G) (s : State) : Out := s.rr t gd ga gb 3 (· * ·)
def execMulh (t : Tok) (gd ga gb : G) (s : State) : Out := s.rr t gd ga gb 3 mulhOf
def execMulhu (t : Tok) (gd ga gb : G) (s : State) : Out := s.rr t gd ga gb 3 mulhuOf
def execDiv (t : Tok) (gd ga gb : G) (s : State) : Out := s.rr t gd ga gb 24 divOf
def execDivu (t : Tok) (gd ga gb : G) (s : State) : Out := s.rr t gd ga gb 24 divuOf
def execRem (t : Tok) (gd ga gb : G) (s : State) : Out := s.rr t gd ga gb 24 remOf
def execRemu (t : Tok) (gd ga gb : G) (s : State) : Out := s.rr t gd ga gb 24 remuOf
def execAnd (t : Tok) (gd ga gb : G) (s : State) : Out := s.rr t gd ga gb 1 (· &&& ·)
def execOr (t : Tok) (gd ga gb : G) (s : State) : Out := s.rr t gd ga gb 1 (· ||| ·)
def execXor (t : Tok) (gd ga gb : G) (s : State) : Out := s.rr t gd ga gb 1 (· ^^^ ·)
def execAndn (t : Tok) (gd ga gb : G) (s : State) : Out := s.rr t gd ga gb 1 fun a b => a &&& ~~~b
def execShl (t : Tok) (gd ga gb : G) (s : State) : Out := s.rr t gd ga gb 1 fun a b => a <<< shN b
def execShr (t : Tok) (gd ga gb : G) (s : State) : Out := s.rr t gd ga gb 1 fun a b => a >>> shN b
def execSra (t : Tok) (gd ga gb : G) (s : State) : Out := s.rr t gd ga gb 1 fun a b => a.sshiftRight (shN b)
def execRotl (t : Tok) (gd ga gb : G) (s : State) : Out := s.rr t gd ga gb 1 fun a b => a.rotateLeft (shN b)
def execMin (t : Tok) (gd ga gb : G) (s : State) : Out := s.rr t gd ga gb 1 minOf
def execMax (t : Tok) (gd ga gb : G) (s : State) : Out := s.rr t gd ga gb 1 maxOf
def execMinu (t : Tok) (gd ga gb : G) (s : State) : Out := s.rr t gd ga gb 1 minuOf
def execMaxu (t : Tok) (gd ga gb : G) (s : State) : Out := s.rr t gd ga gb 1 maxuOf
def execSeq (t : Tok) (gd ga gb : G) (s : State) : Out := s.rr t gd ga gb 1 fun a b => dwBool (a = b)
def execSlt (t : Tok) (gd ga gb : G) (s : State) : Out := s.rr t gd ga gb 1 sltOf
def execSltu (t : Tok) (gd ga gb : G) (s : State) : Out := s.rr t gd ga gb 1 sltuOf
def execClz (t : Tok) (gd ga : G) (s : State) : Out := s.ri t gd ga clzOf
def execCtz (t : Tok) (gd ga : G) (s : State) : Out := s.ri t gd ga ctzOf
def execPopc (t : Tok) (gd ga : G) (s : State) : Out := s.ri t gd ga popcOf
def execMov (t : Tok) (gd ga : G) (s : State) : Out := s.ri t gd ga id
/-- `sel` reads the old gd too. -/
def execSel (t : Tok) (gd ga gb : G) (s : State) : Out :=
  s.issue { t := t, reads := [keyG ga, keyG gb, keyG gd], writes := [keyG gd] } fun s =>
    .seq (s.setG gd (if s.gr gd ≠ 0 then s.gr ga else s.gr gb))
def execSext (t : Tok) (gd ga gb : G) (s : State) : Out := s.rr t gd ga gb 1 sextOf

/-! ### Immediate forms (R190) -/

def execAddi (t : Tok) (gd ga : G) (imm : BitVec 12) (s : State) : Out := s.ri t gd ga (· + imm64 imm)
def execAndi (t : Tok) (gd ga : G) (imm : BitVec 12) (s : State) : Out := s.ri t gd ga (· &&& imm64 imm)
def execOri (t : Tok) (gd ga : G) (imm : BitVec 12) (s : State) : Out := s.ri t gd ga (· ||| imm64 imm)
def execXori (t : Tok) (gd ga : G) (imm : BitVec 12) (s : State) : Out := s.ri t gd ga (· ^^^ imm64 imm)
def execShli (t : Tok) (gd ga : G) (n : BitVec 6) (s : State) : Out := s.ri t gd ga (· <<< n.toNat)
def execShri (t : Tok) (gd ga : G) (n : BitVec 6) (s : State) : Out := s.ri t gd ga (· >>> n.toNat)
def execSrai (t : Tok) (gd ga : G) (n : BitVec 6) (s : State) : Out := s.ri t gd ga (·.sshiftRight n.toNat)
def execRotli (t : Tok) (gd ga : G) (n : BitVec 6) (s : State) : Out := s.ri t gd ga (·.rotateLeft n.toNat)
def execSlti (t : Tok) (gd ga : G) (imm : BitVec 12) (s : State) : Out := s.ri t gd ga (sltOf · (imm64 imm))
def execSltiu (t : Tok) (gd ga : G) (imm : BitVec 12) (s : State) : Out := s.ri t gd ga (sltuOf · (imm64 imm))

/-! ### Constants (R191) -/

/-- The sign-extended 17-bit constant. -/
def execMovi (t : Tok) (gd : G) (imm : BitVec 17) (s : State) : Out :=
  s.issue { t := t, writes := [keyG gd] } fun s => .seq (s.setG gd (imm.signExtend 64))
/-- The old gd moves up by 17 bits and receives the constant. -/
def execMovhi (t : Tok) (gd : G) (imm : BitVec 17) (s : State) : Out :=
  s.issue { t := t, reads := [keyG gd], writes := [keyG gd] } fun s =>
    .seq (s.setG gd ((s.gr gd <<< (17 : Nat)) ||| imm.zeroExtend 64))
/-- The sign-extended 45-bit constant. -/
def execLi (t : Tok) (gd : G) (imm : BitVec 45) (s : State) : Out :=
  s.issue { t := t, len := 2, writes := [keyG gd] } fun s => .seq (s.setG gd (imm.signExtend 64))

end Sys2Proof.Machine
end

