-- ==== Sys2Proof/Machine/Dispatch.lean ====
section
/-! DEFINITION. The dispatch of instructions, ephemeris entries and events to their meanings: one arm for each row of
spec/opcode_table.json. -/

namespace Sys2Proof.Machine

/-- What an instruction or event does to a state. -/
def exec (i : Instr) (s : State) : Host.Outcome State Fault Refusal :=
  match i with
  | .nop t => Sys2Proof.Machine.execNop t s
  | .halt t => Sys2Proof.Machine.execHalt t s
  | .trap t ga n => Sys2Proof.Machine.execTrap t ga n s
  | .eret t => Sys2Proof.Machine.execEret t s
  | .sysr t gd idx => Sys2Proof.Machine.execSysr t gd idx s
  | .sysw t gs idx => Sys2Proof.Machine.execSysw t gs idx s
  | .syss t gs idx => Sys2Proof.Machine.execSyss t gs idx s
  | .sysc t gs idx => Sys2Proof.Machine.execSysc t gs idx s
  | .fence t => Sys2Proof.Machine.execFence t s
  | .yield t => Sys2Proof.Machine.execYield t s
  | .waitm t ga => Sys2Proof.Machine.execWaitm t ga s
  | .readm t gd => Sys2Proof.Machine.execReadm t gd s
  | .madj t ga => Sys2Proof.Machine.execMadj t ga s
  | .phase t ga => Sys2Proof.Machine.execPhase t ga s
  | .perf t gd n => Sys2Proof.Machine.execPerf t gd n s
  | .add t gd ga gb => Sys2Proof.Machine.execAdd t gd ga gb s
  | .sub t gd ga gb => Sys2Proof.Machine.execSub t gd ga gb s
  | .mul t gd ga gb => Sys2Proof.Machine.execMul t gd ga gb s
  | .mulh t gd ga gb => Sys2Proof.Machine.execMulh t gd ga gb s
  | .mulhu t gd ga gb => Sys2Proof.Machine.execMulhu t gd ga gb s
  | .div t gd ga gb => Sys2Proof.Machine.execDiv t gd ga gb s
  | .divu t gd ga gb => Sys2Proof.Machine.execDivu t gd ga gb s
  | .rem t gd ga gb => Sys2Proof.Machine.execRem t gd ga gb s
  | .remu t gd ga gb => Sys2Proof.Machine.execRemu t gd ga gb s
  | .and t gd ga gb => Sys2Proof.Machine.execAnd t gd ga gb s
  | .or t gd ga gb => Sys2Proof.Machine.execOr t gd ga gb s
  | .xor t gd ga gb => Sys2Proof.Machine.execXor t gd ga gb s
  | .andn t gd ga gb => Sys2Proof.Machine.execAndn t gd ga gb s
  | .shl t gd ga gb => Sys2Proof.Machine.execShl t gd ga gb s
  | .shr t gd ga gb => Sys2Proof.Machine.execShr t gd ga gb s
  | .sra t gd ga gb => Sys2Proof.Machine.execSra t gd ga gb s
  | .rotl t gd ga gb => Sys2Proof.Machine.execRotl t gd ga gb s
  | .min t gd ga gb => Sys2Proof.Machine.execMin t gd ga gb s
  | .max t gd ga gb => Sys2Proof.Machine.execMax t gd ga gb s
  | .minu t gd ga gb => Sys2Proof.Machine.execMinu t gd ga gb s
  | .maxu t gd ga gb => Sys2Proof.Machine.execMaxu t gd ga gb s
  | .seq t gd ga gb => Sys2Proof.Machine.execSeq t gd ga gb s
  | .slt t gd ga gb => Sys2Proof.Machine.execSlt t gd ga gb s
  | .sltu t gd ga gb => Sys2Proof.Machine.execSltu t gd ga gb s
  | .clz t gd ga => Sys2Proof.Machine.execClz t gd ga s
  | .ctz t gd ga => Sys2Proof.Machine.execCtz t gd ga s
  | .popc t gd ga => Sys2Proof.Machine.execPopc t gd ga s
  | .mov t gd ga => Sys2Proof.Machine.execMov t gd ga s
  | .sel t gd ga gb => Sys2Proof.Machine.execSel t gd ga gb s
  | .sext t gd ga gb => Sys2Proof.Machine.execSext t gd ga gb s
  | .addi t gd ga imm => Sys2Proof.Machine.execAddi t gd ga imm s
  | .andi t gd ga imm => Sys2Proof.Machine.execAndi t gd ga imm s
  | .ori t gd ga imm => Sys2Proof.Machine.execOri t gd ga imm s
  | .xori t gd ga imm => Sys2Proof.Machine.execXori t gd ga imm s
  | .shli t gd ga n => Sys2Proof.Machine.execShli t gd ga n s
  | .shri t gd ga n => Sys2Proof.Machine.execShri t gd ga n s
  | .srai t gd ga n => Sys2Proof.Machine.execSrai t gd ga n s
  | .rotli t gd ga n => Sys2Proof.Machine.execRotli t gd ga n s
  | .slti t gd ga imm => Sys2Proof.Machine.execSlti t gd ga imm s
  | .sltiu t gd ga imm => Sys2Proof.Machine.execSltiu t gd ga imm s
  | .movi t gd imm => Sys2Proof.Machine.execMovi t gd imm s
  | .movhi t gd imm => Sys2Proof.Machine.execMovhi t gd imm s
  | .li t gd imm => Sys2Proof.Machine.execLi t gd imm s
  | .bra t off => Sys2Proof.Machine.execBra t off s
  | .call t off => Sys2Proof.Machine.execCall t off s
  | .bcz t ga cond off => Sys2Proof.Machine.execBcz t ga cond off s
  | .jr t ga => Sys2Proof.Machine.execJr t ga s
  | .callr t ga => Sys2Proof.Machine.execCallr t ga s
  | .ret t => Sys2Proof.Machine.execRet t s
  | .loop t gc lvl len => Sys2Proof.Machine.execLoop t gc lvl len s
  | .loopr t gc lvl len => Sys2Proof.Machine.execLoopr t gc lvl len s
  | .ldb t g h off => Sys2Proof.Machine.execLdb t g h off s
  | .ldh t g h off => Sys2Proof.Machine.execLdh t g h off s
  | .ldw t g h off => Sys2Proof.Machine.execLdw t g h off s
  | .ldd t g h off => Sys2Proof.Machine.execLdd t g h off s
  | .stb t g h off => Sys2Proof.Machine.execStb t g h off s
  | .sth t g h off => Sys2Proof.Machine.execSth t g h off s
  | .stw t g h off => Sys2Proof.Machine.execStw t g h off s
  | .std t g h off => Sys2Proof.Machine.execStd t g h off s
  | .ldbs t gd h off => Sys2Proof.Machine.execLdbs t gd h off s
  | .ldhs t gd h off => Sys2Proof.Machine.execLdhs t gd h off s
  | .ldws t gd h off => Sys2Proof.Machine.execLdws t gd h off s
  | .ldbx t gd h gb => Sys2Proof.Machine.execLdbx t gd h gb s
  | .ldhx t gd h gb => Sys2Proof.Machine.execLdhx t gd h gb s
  | .ldwx t gd h gb => Sys2Proof.Machine.execLdwx t gd h gb s
  | .lddx t gd h gb => Sys2Proof.Machine.execLddx t gd h gb s
  | .ldbsx t gd h gb => Sys2Proof.Machine.execLdbsx t gd h gb s
  | .ldhsx t gd h gb => Sys2Proof.Machine.execLdhsx t gd h gb s
  | .ldwsx t gd h gb => Sys2Proof.Machine.execLdwsx t gd h gb s
  | .stbx t gd h gb => Sys2Proof.Machine.execStbx t gd h gb s
  | .sthx t gd h gb => Sys2Proof.Machine.execSthx t gd h gb s
  | .stwx t gd h gb => Sys2Proof.Machine.execStwx t gd h gb s
  | .stdx t gd h gb => Sys2Proof.Machine.execStdx t gd h gb s
  | .xlate t hd ga req => Sys2Proof.Machine.execXlate t hd ga req s
  | .hinv t hd => Sys2Proof.Machine.execHinv t hd s
  | .hqry t gd hs k => Sys2Proof.Machine.execHqry t gd hs k s
  | .hmov t hd hs => Sys2Proof.Machine.execHmov t hd hs s
  | .hnarrow t hd hs gb => Sys2Proof.Machine.execHnarrow t hd hs gb s
  | .qpush t ga dir => Sys2Proof.Machine.execQpush t ga dir s
  | .qpop t gd dir => Sys2Proof.Machine.execQpop t gd dir s
  | .qpeek t gd dir => Sys2Proof.Machine.execQpeek t gd dir s
  | .tokw t dir nm1 => Sys2Proof.Machine.execTokw t dir nm1 s
  | .toks t dir nm1 => Sys2Proof.Machine.execToks t dir nm1 s
  | .mbxrd t gd mb => Sys2Proof.Machine.execMbxrd t gd mb s
  | .mbxack t ga => Sys2Proof.Machine.execMbxack t ga s
  | .vld t o => Sys2Proof.Machine.execVld t o s
  | .vst t o => Sys2Proof.Machine.execVst t o s
  | .vlds t o => Sys2Proof.Machine.execVlds t o s
  | .vsts t o => Sys2Proof.Machine.execVsts t o s
  | .vgath t o => Sys2Proof.Machine.execVgath t o s
  | .vscat t o => Sys2Proof.Machine.execVscat t o s
  | .vbcast t o => Sys2Proof.Machine.execVbcast t o s
  | .vmovg t y gd va gl => Sys2Proof.Machine.execVmovg t y gd va gl s
  | .vmovl t y vd gs gl => Sys2Proof.Machine.execVmovl t y vd gs gl s
  | .vadd t o => Sys2Proof.Machine.execVadd t o s
  | .vsub t o => Sys2Proof.Machine.execVsub t o s
  | .vmul t o => Sys2Proof.Machine.execVmul t o s
  | .vfma t o => Sys2Proof.Machine.execVfma t o s
  | .vfms t o => Sys2Proof.Machine.execVfms t o s
  | .vfnma t o => Sys2Proof.Machine.execVfnma t o s
  | .vmin t o => Sys2Proof.Machine.execVmin t o s
  | .vmax t o => Sys2Proof.Machine.execVmax t o s
  | .vabs t o => Sys2Proof.Machine.execVabs t o s
  | .vneg t o => Sys2Proof.Machine.execVneg t o s
  | .vrcp t o => Sys2Proof.Machine.execVrcp t o s
  | .vrsqrt t o => Sys2Proof.Machine.execVrsqrt t o s
  | .vsqrt t o => Sys2Proof.Machine.execVsqrt t o s
  | .vdiv t o => Sys2Proof.Machine.execVdiv t o s
  | .vcmp t o => Sys2Proof.Machine.execVcmp t o s
  | .vclass t o => Sys2Proof.Machine.execVclass t o s
  | .vsel t o => Sys2Proof.Machine.execVsel t o s
  | .viadd t o => Sys2Proof.Machine.execViadd t o s
  | .visub t o => Sys2Proof.Machine.execVisub t o s
  | .vimul t o => Sys2Proof.Machine.execVimul t o s
  | .vimulh t o => Sys2Proof.Machine.execVimulh t o s
  | .vand t o => Sys2Proof.Machine.execVand t o s
  | .vor t o => Sys2Proof.Machine.execVor t o s
  | .vxor t o => Sys2Proof.Machine.execVxor t o s
  | .vnot t o => Sys2Proof.Machine.execVnot t o s
  | .vshl t o => Sys2Proof.Machine.execVshl t o s
  | .vshr t o => Sys2Proof.Machine.execVshr t o s
  | .vsra t o => Sys2Proof.Machine.execVsra t o s
  | .vimin t o => Sys2Proof.Machine.execVimin t o s
  | .vimax t o => Sys2Proof.Machine.execVimax t o s
  | .viabs t o => Sys2Proof.Machine.execViabs t o s
  | .vcvt t o => Sys2Proof.Machine.execVcvt t o s
  | .vpack4 t o => Sys2Proof.Machine.execVpack4 t o s
  | .vunpack4 t o => Sys2Proof.Machine.execVunpack4 t o s
  | .vpermb t o => Sys2Proof.Machine.execVpermb t o s
  | .vpermw t o => Sys2Proof.Machine.execVpermw t o s
  | .vrot t o => Sys2Proof.Machine.execVrot t o s
  | .vslide t o => Sys2Proof.Machine.execVslide t o s
  | .vti t o => Sys2Proof.Machine.execVti t o s
  | .vtiload t o => Sys2Proof.Machine.execVtiload t o s
  | .vrand t o => Sys2Proof.Machine.execVrand t o s
  | .vxsum t o => Sys2Proof.Machine.execVxsum t o s
  | .vtopk t o => Sys2Proof.Machine.execVtopk t o s
  | .pset t o => Sys2Proof.Machine.execPset t o s
  | .pand t o => Sys2Proof.Machine.execPand t o s
  | .por t o => Sys2Proof.Machine.execPor t o s
  | .pxor t o => Sys2Proof.Machine.execPxor t o s
  | .pnot t o => Sys2Proof.Machine.execPnot t o s
  | .pcnt t o => Sys2Proof.Machine.execPcnt t o s
  | .pfirst t o => Sys2Proof.Machine.execPfirst t o s
  | .plen t o => Sys2Proof.Machine.execPlen t o s
  | .pmov t o => Sys2Proof.Machine.execPmov t o s
  | .tcfg t y td gs => Sys2Proof.Machine.execTcfg t y td gs s
  | .tld t o => Sys2Proof.Machine.execTld t o s
  | .tst t o => Sys2Proof.Machine.execTst t o s
  | .tzero t y td => Sys2Proof.Machine.execTzero t y td s
  | .tfromv t o => Sys2Proof.Machine.execTfromv t o s
  | .mma t o => Sys2Proof.Machine.execMma t o s
  | .mmaz t o => Sys2Proof.Machine.execMmaz t o s
  | .anchor t y gc gn ga => Sys2Proof.Machine.execAnchor t y gc gn ga s
  | .acczero t y gc gn => Sys2Proof.Machine.execAcczero t y gc gn s
  | .accflags t y gd gc gn clr => Sys2Proof.Machine.execAccflags t y gd gc gn clr s
  | .drain t o => Sys2Proof.Machine.execDrain t o s
  | .epcfg t o => Sys2Proof.Machine.execEpcfg t o s
  | .topkrd t y grows go h => Sys2Proof.Machine.execTopkrd t y grows go h s
  | .topkclr t y grows gk => Sys2Proof.Machine.execTopkclr t y grows gk s
  | .accsv t y gc gn go h => Sys2Proof.Machine.execAccsv t y gc gn go h s
  | .accrs t y gc gn go h => Sys2Proof.Machine.execAccrs t y gc gn go h s
  | .cpy t o => Sys2Proof.Machine.execCpy t o s
  | .cpyt t o => Sys2Proof.Machine.execCpyt t o s
  | .gath t o => Sys2Proof.Machine.execGath t o s
  | .scat t o => Sys2Proof.Machine.execScat t o s
  | .cpyaccIadd32 t o => Sys2Proof.Machine.execCpyaccIadd32 t o s
  | .cpyaccIadd64 t o => Sys2Proof.Machine.execCpyaccIadd64 t o s
  | .cpyaccXadd t o => Sys2Proof.Machine.execCpyaccXadd t o s
  | .cpyaccOr t o => Sys2Proof.Machine.execCpyaccOr t o s
  | .cpyaccAnd t o => Sys2Proof.Machine.execCpyaccAnd t o s
  | .cpyaccXor t o => Sys2Proof.Machine.execCpyaccXor t o s
  | .cpyaccImin t o => Sys2Proof.Machine.execCpyaccImin t o s
  | .cpyaccImax t o => Sys2Proof.Machine.execCpyaccImax t o s
  | .cpyaccFmin t o => Sys2Proof.Machine.execCpyaccFmin t o s
  | .cpyaccFmax t o => Sys2Proof.Machine.execCpyaccFmax t o s
  | .cpyaccSwap t o => Sys2Proof.Machine.execCpyaccSwap t o s
  | .cpycas t o => Sys2Proof.Machine.execCpycas t o s
  | .cpywait t y sel => Sys2Proof.Machine.execCpywait t y sel s
  | .cpypop t y gw => Sys2Proof.Machine.execCpypop t y gw s
  | .shpset t o => Sys2Proof.Machine.execShpset t o s
  | .shpclr t y gshape gv gw => Sys2Proof.Machine.execShpclr t y gshape gv gw s
  | .soinit t y hd gv => Sys2Proof.Machine.execSoinit t y hd gv s
  | .sobind t o => Sys2Proof.Machine.execSobind t o s
  | .soacq t y hd gw => Sys2Proof.Machine.execSoacq t y hd gw s
  | .sorel t y hd => Sys2Proof.Machine.execSorel t y hd s
  | .soarr t y hd gw => Sys2Proof.Machine.execSoarr t y hd gw s
  | .sowait t y hd gv gw => Sys2Proof.Machine.execSowait t y hd gv gw s
  | .sostat t y hd gw => Sys2Proof.Machine.execSostat t y hd gw s
  | .send t o => Sys2Proof.Machine.execSend t o s
  | .recv t o => Sys2Proof.Machine.execRecv t o s
  | .sendu t o => Sys2Proof.Machine.execSendu t o s
  | .dgbeg t y k => Sys2Proof.Machine.execDgbeg t y k s
  | .dgadd t y k hs gso gv => Sys2Proof.Machine.execDgadd t y k hs gso gv s
  | .dgend t y k hd gdo => Sys2Proof.Machine.execDgend t y k hd gdo s
  | .gbind t o => Sys2Proof.Machine.execGbind t o s
  | .gbindUnbind t hdr nogr => Sys2Proof.Machine.execGbindUnbind t hdr nogr s
  | .gmask t o => Sys2Proof.Machine.execGmask t o s
  | .gadv t hdr gx => Sys2Proof.Machine.execGadv t hdr gx s
  | .gfork t hdr gx gy => Sys2Proof.Machine.execGfork t hdr gx gy s
  | .groll t hdr gx => Sys2Proof.Machine.execGroll t hdr gx s
  | .gcommit t hdr => Sys2Proof.Machine.execGcommit t hdr s
  | .gsave t hdr => Sys2Proof.Machine.execGsave t hdr s
  | .grest t o => Sys2Proof.Machine.execGrest t o s
  | .seqck t hdr gx => Sys2Proof.Machine.execSeqck t hdr gx s
  | .seqroll t hdr gx => Sys2Proof.Machine.execSeqroll t hdr gx s
  | .sample t o => Sys2Proof.Machine.execSample t o s
  | .accept t o => Sys2Proof.Machine.execAccept t o s
  | .accmb t o => Sys2Proof.Machine.execAccmb t o s
  | .xfer off slot first unitsM1 => Sys2Proof.Machine.execXfer off slot first unitsM1 s
  | .fwd off inPort unitsM1 => Sys2Proof.Machine.execFwd off inPort unitsM1 s
  | .dlv off slot first unitsM1 => Sys2Proof.Machine.execDlv off slot first unitsM1 s
  | .inj off len => Sys2Proof.Machine.execInj off len s
  | .hold off => Sys2Proof.Machine.execHold off s
  | .guard off => Sys2Proof.Machine.execGuard off s
  | .jump off target lvl count => Sys2Proof.Machine.execJump off target lvl count s
  | .leHalt off => Sys2Proof.Machine.execLeHalt off s
  | .mark off code => Sys2Proof.Machine.execMark off code s
  | .maStart core => Sys2Proof.Machine.execMaStart core s
  | .maGroupAddition core id g => Sys2Proof.Machine.execMaGroupAddition core id g s
  | .drainStart core => Sys2Proof.Machine.execDrainStart core s
  | .drainChunkRead core id q => Sys2Proof.Machine.execDrainChunkRead core id q s
  | .drainChunkWrite core id q els => Sys2Proof.Machine.execDrainChunkWrite core id q els s
  | .syncOperationPerform r => Sys2Proof.Machine.execSyncOperationPerform r s
  | .syncReply r ans => Sys2Proof.Machine.execSyncReply r ans s
  | .digestComplete core => Sys2Proof.Machine.execDigestComplete core s
  | .geCommandStart id => Sys2Proof.Machine.execGeCommandStart id s
  | .geReply id => Sys2Proof.Machine.execGeReply id s
  | .ceCommandStart core => Sys2Proof.Machine.execCeCommandStart core s
  | .ceEvent core id k ph => Sys2Proof.Machine.execCeEvent core id k ph s
  | .remoteLineSample core id k x n => Sys2Proof.Machine.execRemoteLineSample core id k x n s
  | .ceCommandRetire core id => Sys2Proof.Machine.execCeCommandRetire core id s
  | .flagIncrement core id => Sys2Proof.Machine.execFlagIncrement core id s
  | .resultFifoEntry core stream id value => Sys2Proof.Machine.execResultFifoEntry core stream id value s
  | .followOnHandoff core id => Sys2Proof.Machine.execFollowOnHandoff core id s
  | .untimedPacketForward p => Sys2Proof.Machine.execUntimedPacketForward p s
  | .untimedPacketDelivery p => Sys2Proof.Machine.execUntimedPacketDelivery p s
  | .deliveryNotice core id k => Sys2Proof.Machine.execDeliveryNotice core id k s
  | .routeTimeout core id => Sys2Proof.Machine.execRouteTimeout core id s
  | .commandFaultTrap core stream => Sys2Proof.Machine.execCommandFaultTrap core stream s
  | .cefctlAbandon core stream seq => Sys2Proof.Machine.execCefctlAbandon core stream seq s
  | .cefctlRetranslate core stream seq => Sys2Proof.Machine.execCefctlRetranslate core stream seq s
  | .cefctlResume core stream seq => Sys2Proof.Machine.execCefctlResume core stream seq s
  | .ceRetranslationComplete core id => Sys2Proof.Machine.execCeRetranslationComplete core id s
  | .trapctlFreeze core stream => Sys2Proof.Machine.execTrapctlFreeze core stream s
  | .frzClear core => Sys2Proof.Machine.execFrzClear core s
  | .launchEndByMc launch status => Sys2Proof.Machine.execLaunchEndByMc launch status s
  | .missFill core stream ans => Sys2Proof.Machine.execMissFill core stream ans s
  | .shootdownDelivery ctx lo hi psz entry => Sys2Proof.Machine.execShootdownDelivery ctx lo hi psz entry s
  | .shootdownComplete companions => Sys2Proof.Machine.execShootdownComplete companions s
  | .doorbell q tail => Sys2Proof.Machine.execDoorbell q tail s
  | .launchCheck q => Sys2Proof.Machine.execLaunchCheck q s
  | .defaultPolicyEvaluation => Sys2Proof.Machine.execDefaultPolicyEvaluation s
  | .agingPromotion launch => Sys2Proof.Machine.execAgingPromotion launch s
  | .bind launch => Sys2Proof.Machine.execBind launch s
  | .launchStart launch => Sys2Proof.Machine.execLaunchStart launch s
  | .launchRetirement launch => Sys2Proof.Machine.execLaunchRetirement launch s
  | .completionRecordWrite q => Sys2Proof.Machine.execCompletionRecordWrite q s
  | .feedEntryDelivery q => Sys2Proof.Machine.execFeedEntryDelivery q s
  | .preemptionRequest launch => Sys2Proof.Machine.execPreemptionRequest launch s
  | .timedPreemption launch => Sys2Proof.Machine.execTimedPreemption launch s
  | .contextSave launch => Sys2Proof.Machine.execContextSave launch s
  | .contextRestore launch x0 y0 moved => Sys2Proof.Machine.execContextRestore launch x0 y0 moved s
  | .preemptionTimeout launch => Sys2Proof.Machine.execPreemptionTimeout launch s
  | .guardIntervalStart => Sys2Proof.Machine.execGuardIntervalStart s
  | .slewEnd => Sys2Proof.Machine.execSlewEnd s
  | .delayExchange parent t1 t4 turn => Sys2Proof.Machine.execDelayExchange parent t1 t4 turn s
  | .meridianAcquire tick frac => Sys2Proof.Machine.execMeridianAcquire tick frac s
  | .exchangeTimeout => Sys2Proof.Machine.execExchangeTimeout s
  | .meridianReacquire value => Sys2Proof.Machine.execMeridianReacquire value s
  | .linkSlotReceive port u => Sys2Proof.Machine.execLinkSlotReceive port u s
  | .untimedRetransmit port => Sys2Proof.Machine.execUntimedRetransmit port s
  | .creditReturn port => Sys2Proof.Machine.execCreditReturn port s
  | .slip port => Sys2Proof.Machine.execSlip port s
  | .lossOfLock port => Sys2Proof.Machine.execLossOfLock port s
  | .portstatFailedClear port => Sys2Proof.Machine.execPortstatFailedClear port s
  | .retrainingComplete port => Sys2Proof.Machine.execRetrainingComplete port s
  | .checkpointStation launch k => Sys2Proof.Machine.execCheckpointStation launch k s
  | .ckptWindowEnd launch k => Sys2Proof.Machine.execCkptWindowEnd launch k s
  | .journalDiscard => Sys2Proof.Machine.execJournalDiscard s
  | .voidNotice launch d => Sys2Proof.Machine.execVoidNotice launch d s
  | .rollback launch set k t => Sys2Proof.Machine.execRollback launch set k t s
  | .scheduleRefusalNotice launch status => Sys2Proof.Machine.execScheduleRefusalNotice launch status s
  | .packageStop pkg => Sys2Proof.Machine.execPackageStop pkg s
  | .extentRebuild ext blk a b c => Sys2Proof.Machine.execExtentRebuild ext blk a b c s
  | .apertureRead x n => Sys2Proof.Machine.execApertureRead x n s
  | .apertureWrite x data => Sys2Proof.Machine.execApertureWrite x data s
  | .qcfgWrite q v => Sys2Proof.Machine.execQcfgWrite q v s
  | .leaseWrite host => Sys2Proof.Machine.execLeaseWrite host s
  | .leaseExpiry host => Sys2Proof.Machine.execLeaseExpiry host s
  | .forcedCompletion id => Sys2Proof.Machine.execForcedCompletion id s
  | .extentRelease ext => Sys2Proof.Machine.execExtentRelease ext s
  | .publishWrite v => Sys2Proof.Machine.execPublishWrite v s
  | .publicationDecision ext version host => Sys2Proof.Machine.execPublicationDecision ext version host s
  | .gcancelWrite v => Sys2Proof.Machine.execGcancelWrite v s
  | .gectlCancelWrite n ctx => Sys2Proof.Machine.execGectlCancelWrite n ctx s
  | .attctlGo v => Sys2Proof.Machine.execAttctlGo v s
  | .attestationReportDone => Sys2Proof.Machine.execAttestationReportDone s
  | .powerOn b => Sys2Proof.Machine.execPowerOn b s
  | .hbmRefresh => Sys2Proof.Machine.execHbmRefresh s
  | .patrolScrub => Sys2Proof.Machine.execPatrolScrub s
  | .budgetRefill => Sys2Proof.Machine.execBudgetRefill s
  | .errorRecordWrite => Sys2Proof.Machine.execErrorRecordWrite s
  | .errqCfgWrite v => Sys2Proof.Machine.execErrqCfgWrite v s
  | .samplingTick core => Sys2Proof.Machine.execSamplingTick core s
  | .sampleRecordWrite core => Sys2Proof.Machine.execSampleRecordWrite core s
  | .smpctlWrite core v => Sys2Proof.Machine.execSmpctlWrite core v s
  | .smpbufWrite core v => Sys2Proof.Machine.execSmpbufWrite core v s
  | .smpptrRdWrite core v => Sys2Proof.Machine.execSmpptrRdWrite core v s
  | .registerWrite addr v => Sys2Proof.Machine.execRegisterWrite addr v s
  | .powerOff => Sys2Proof.Machine.execPowerOff s
  | .extentRevocation ext => Sys2Proof.Machine.execExtentRevocation ext s

end Sys2Proof.Machine
end

