-- ==== Sys2Proof/Machine/Work.lean ====
section
/-! DEFINITION. What a stream fetches (spec 08 R159, R173), and what each piece of work that the machine has planned for itself does when
it is due. -/

namespace Sys2Proof.Machine

/-! ### Fetch (R159, R173) -/

/-- The code of an encoding trap (R392). -/
def decCause : DecErr → Nat
  | .maj => 0x02
  | .fn => 0x03
  | .tokenBits => 0x04
  | .field => 0x05
  | .unused => 0x06

/-- What the stream that the step runs for fetches: an illegal fetch, an encoding trap with the words it reports, or an instruction. -/
inductive Fetched
  | illegal
  | bad (cause : Nat) (len : Nat)
  | ok (i : Instr)
deriving DecidableEq, Repr

/-- The words at the program counter of stream `i` of core `c`. -/
def State.fetch (s : State) (c : Nat) (i : StreamId) : Fetched :=
  let x := s.str c i
  let pc := x.pc.toNat
  let w (j : Nat) : Word := s.iword c (pc / 4 + j)
  if 0x20000 ≤ pc || (0x1E000 ≤ pc && !x.nest) || 0x20000 < pc + 4 * lenOfWord (w 0) then .illegal
  else
    match decode (w 0) (w 1) (w 2) (w 3) with
    | .ok k => .ok k
    | .bad .maj => .bad 0x02 1
    | .bad e => .bad (decCause e) (lenOfWord (w 0))

/-- The program counter or a counter of an active loop, which every issue reads, has a parity error (R371, R375; log 40). -/
def State.badPc (s : State) : Bool := (keyPc :: s.me.order.map keyLoop).any fun k => s.myCore.parity.contains (parityKey s.at.2 k)

/-- The words of the instruction store that an issue reads. -/
def State.fetchArr (s : State) : List (Nat × Nat × Nat) :=
  let pc := s.me.pc.toNat
  if 0x20000 ≤ pc then [] else [(5, pc, 4 * lenOfWord (s.iword s.at.1 (pc / 4)))]

/-- What the stream that the step runs for has fetched issues. -/
def State.issueFetched (s : State) : Out :=
  match s.fetch s.at.1 s.at.2 with
  | .illegal => .next (s.finish { t := 0 } (.trap 0x01 s.me.pc 0))
  | .bad cause len =>
    let w := s.infoWords s.at.1 s.me.pc len
    .next (s.finish { t := 0 } (.trap cause w.1 w.2))
  | .ok i => exec i s

/-- The stream that the step runs for fetches and issues, unless what it reads for that is damaged (R375). -/
def State.issueNext (s : State) : Out :=
  if s.badPc then .next (s.finish { t := 0 } (.contain 2 18 uStream none)) else
  match s.softBad s.at.1 s.fetchArr with
  | some (a, g) => .next (s.finish { t := 0 } (.contain 1 a uStream (some g)))
  | none => (s.softTouch (s.myWho uStream) s.at.1 s.fetchArr).issueFetched

/-- The access of a scalar load or store that performs, or retries, in this period (R110, R198). -/
def State.scalarAccess (s : State) (c : Nat) (i : StreamId) : Out :=
  match (s.str c i).hold with
  | some (.bank p _ _ _) => if p = s.now then { s with cur := .stream c i }.issueFetched else .next s
  | _ => .next s

/-! ### Work -/

/-- Work that is due. -/
def Work.run (s : State) : Work → Out
  | .maStart c => execMaStart c s
  | .maGroupAddition c id g => execMaGroupAddition c id g s
  | .drainStart c => execDrainStart c s
  | .drainChunkRead c id q => execDrainChunkRead c id q s
  | .drainChunkWrite c id q els => execDrainChunkWrite c id q els s
  | .syncOperationPerform r => execSyncOperationPerform r s
  | .syncReply r ans => execSyncReply r ans s
  | .digestComplete c => execDigestComplete c s
  | .geCommandStart id => execGeCommandStart id s
  | .geReply id => execGeReply id s
  | .ceCommandStart c => execCeCommandStart c s
  | .ceEvent c id k ph => execCeEvent c id k ph s
  | .remoteLineSample c id k x n => execRemoteLineSample c id k x n s
  | .ceCommandRetire c id => execCeCommandRetire c id s
  | .flagIncrement c id => execFlagIncrement c id s
  | .resultFifoEntry c i id v undo => .next (s.resultIn c i id v undo)
  | .followOnHandoff c id => execFollowOnHandoff c id s
  | .tileEntry c id => .next (s.tileEntry c id)
  | .untimedPacketForward p => execUntimedPacketForward p s
  | .untimedPacketDelivery p => execUntimedPacketDelivery p s
  | .deliveryNotice c id k => execDeliveryNotice c id k s
  | .routeTimeout c id => execRouteTimeout c id s
  | .commandFaultTrap c i => execCommandFaultTrap c i s
  | .cefctlAbandon c i q => execCefctlAbandon c i q s
  | .cefctlRetranslate c i q => execCefctlRetranslate c i q s
  | .cefctlResume c i q => execCefctlResume c i q s
  | .ceRetranslationComplete c id => execCeRetranslationComplete c id s
  | .trapctlFreeze c i => execTrapctlFreeze c i s
  | .missFill c i ans => .next (s.missFill c i ans)
  | .unmap ctx lo hi psz entry at_ shot => .next (s.unmap ctx lo hi psz entry at_ shot)
  | .shootdownDelivery ctx lo hi psz shot => .next (s.shootdown ctx lo hi psz shot)
  | .lines wr left rank w => .next (s.lineStep wr left rank w)
  | .shootdownComplete l dies before => .next (s.shotEnd l dies before)
  | .launchCheck q => execLaunchCheck q s
  | .defaultPolicyEvaluation => execDefaultPolicyEvaluation s
  | .agingPromotion l => execAgingPromotion l s
  | .bind l => execBind l s
  | .launchStart l => execLaunchStart l s
  | .launchRetirement l => execLaunchRetirement l s
  | .completionRecordWrite q => execCompletionRecordWrite q s
  | .feedEntryDelivery q => execFeedEntryDelivery q s
  | .contextSave l => execContextSave l s
  | .contextRestore l x y m => .next (s.restore l x y m)
  | .preemptionTimeout l => execPreemptionTimeout l s
  | .guardIntervalStart => execGuardIntervalStart s
  | .slewEnd => execSlewEnd s
  | .exchangeTimeout => execExchangeTimeout s
  | .checkpointStation l k => execCheckpointStation l k s
  | .ckptWindowEnd l k => execCkptWindowEnd l k s
  | .journalDiscard => execJournalDiscard s
  | .rollback l set k t => execRollback l set k t s
  | .leaseExpiry h => execLeaseExpiry h s
  | .forcedCompletion id => execForcedCompletion id s
  | .extentRelease e => execExtentRelease e s
  | .gectlCancelWrite n ctx => execGectlCancelWrite n ctx s
  | .attestationReportDone => execAttestationReportDone s
  | .hbmRefresh => execHbmRefresh s
  | .patrolScrub => execPatrolScrub s
  | .budgetRefill => execBudgetRefill s
  | .errorRecordWrite => execErrorRecordWrite s
  | .smpctlWrite c v => execSmpctlWrite c v s
  | .smpbufWrite c v => execSmpbufWrite c v s
  | .smpptrRdWrite c v => execSmpptrRdWrite c v s
  | .portStep c id items last => .next (s.portStep c id items last)
  | .scalarAccess c i => s.scalarAccess c i
  | .sampleRecordWrite c => execSampleRecordWrite c s
  | .tieTable c k t => .next (s.tieTable c k t)
  | .shapeRecord c a bs => .next (s.shapeRecord c a bs)
  | .epilogueData c b sc => .next (s.epilogueData c b sc)
  | .unit u => .next (s.unitRun u)
  | .geLine id j => .next (s.geLine id j)
  | .geEffect id => .next (s.geEffect id)
  | .geWrite id => .next (s.geWrite id)
  | .relabel p => .next (s.relabelRing p)
  | .aperture id => .next (s.aperStep id)
  | .rebuild a bs => .next (s.rebuildLine a bs)
  | .extentZero e l => .next (s.zeroLine e l)
  | .scrubCores cs => .next (s.scrubCores cs)
  | .scrubArrays => .next s.scrubArrays
  | .syncBind c i gw id start len obj => .next (s.syncBind c i gw id start len obj)
  | .scheduleError c i u cause i0 i1 addr pc => .next (s.schedErr c i u cause i0 i1 addr (some pc))

end Sys2Proof.Machine
end

