-- ==== Sys2Proof/Machine/Tick.lean ====
section
/-! DEFINITION. The order of what happens in a clock period: inputs, engine work, link entries, the streams, and the end of the
period (spec 03 R70 to R75, R79; 08 R173; 15 R348, R349; 20 R422; log 6). -/

namespace Sys2Proof.Machine

/-! ### Which stream is next (R70, R71, R75, R102) -/

/-- A stream that may be looked at in this period. -/
def State.candidate (s : State) (c : Nat) (i : StreamId) : Bool :=
  let x := s.str c i
  !x.tried && !x.halted && x.hold.isNone && x.notBefore ≤ s.now && !x.stopped && !(s.fretOf c).stalled s.now && !s.gated c && !s.gated (480 + c)
    && !s.recordWaits (some c) (some i) uStream 0

/-- The streams of the shared port from its pointer on. -/
def sharedOrder : StreamId → List StreamId
  | .a => [.a, .w, .c]
  | .w => [.w, .c, .a]
  | _ => [.c, .a, .w]

/-- The next stream of a core in this period: E, then the shared port. -/
def State.nextOf (s : State) (c : Nat) : Option StreamId :=
  let k := s.core c
  if !k.running then none
  else if !k.grantE && s.candidate c .e then some .e
  else if k.grantS then none
  else (sharedOrder k.ptr).find? (s.candidate c)

/-- The next stream of the package, cores in rising order. -/
def State.nextStream (s : State) : Option (Nat × StreamId) :=
  s.cores.findSome? fun e => (s.nextOf e.1).map fun i => (e.1, i)

/-! ### Classes (R348, R349) -/

/-- The class of a stream that another one has kept from the shared port: NOTSEL where it is ready, else why it is not. Its readiness
is that of the start of the tick: copy commands pushed in this period do not count (R266). -/
def State.passedOver (s : State) (c : Nat) (i : StreamId) : Cls :=
  match ({ s with cur := .stream c i }.modCore c fun k => { k with grantS := false, ce := k.ce.filter fun e => e.born < s.now }).issueNext with
  | .next t => if (t.core c).grantS then .notsel else (t.str c i).cls
  | _ => .issued

/-- The class of a stream in the period that ends. -/
def State.classOf (s : State) (c : Nat) (i : StreamId) : Cls :=
  let x := s.str c i
  if x.halted && !x.tried then .halted
  else if (s.fretOf c).stalled s.now then .frozen
  else if x.tried then x.cls
  else
    match x.hold with
    | some (.bank ..) => .bank
    | some (.meridian _) => .meridian
    | some (.sync ..) => .sync
    | some .digest => .sync
    | some _ => .issued
    | none => if s.candidate c i then s.passedOver c i else .issued

/-- The stream has issued an instruction in this period. -/
def Core.issuedNow (k : Core) (i : StreamId) : Bool :=
  (k.str i).tried && (if i = .e then k.grantE else k.grantS && (match k.ptr with
    | .a => i = .c
    | .w => i = .a
    | _ => i = .w))

/-- From SCHEDBASE no stream of a timed launch may wait for these (R422). -/
def Cls.late : Cls → Bool
  | .token => true
  | .queue => true
  | .mailbox => true
  | .cefull => true
  | _ => false

/-- A stream that stops for a pre-emption: at a point, or before an instruction that it cannot issue (R79). -/
def State.stops (s : State) (c : Nat) (i : StreamId) : Bool :=
  let k := s.core c
  let x := k.str i
  !x.halted && !x.nest && match x.hold with
    | none => x.point || !(k.issuedNow i || x.cls = .notsel || (x.cls = .bank && i ≠ .e))
    | some (.meridian _) => true
    | some (.sync ..) => true
    | some .digest => true
    | some _ => false

/-- The launch of a core is asked to stop. -/
def State.preempted (s : State) (c : Nat) : Bool :=
  ((s.core c).owner.bind (Sparse.get? s.launches ·)).any (·.phase = .preempting)

/-- The address that the class of a stream goes with: of the instruction that has issued or that it waits in or before, and past a scalar access
that retries (R349). -/
def State.classPc (s : State) (c : Nat) (i : StreamId) : DWord :=
  let x := s.str c i
  if x.tried then x.clsPc
  else if x.retrying.isSome then (((s.core c).passTo i (x.pc + dw (4 * lenOfWord (s.iword c (x.pc.toNat / 4)))) false).str i).pc
  else x.pc

/-- The end of a period for a stream: its class and its counter, LATEWAIT, a stop. -/
def State.endStream (s : State) (c : Nat) (i : StreamId) : State :=
  let cl := s.classOf c i
  let pc := s.classPc c i
  let s := s.modCore c fun k =>
    (k.modStr i fun x => { x with cls := cl, clsPc := pc }).count (16 * streamNum i + cl.code)
  let s := if cl.late && s.timedAt c then s.schedErr c (some i) uStream 0xC1 pc (dw s.tick) none (some pc) else s
  if s.preempted c && s.stops c i then s.modStr c i fun x => { x with stopped := true } else s

/-- The state that an outcome goes on with; `s` where it does not go on. -/
def afterOut (s : State) : Out → State
  | .next t => t
  | _ => s

/-- The end of a period for a core that runs (R355). -/
def State.endCore (s : State) (c : Nat) : State :=
  if !(s.core c).running then s
  else
    let s := allStreams.foldl (fun s i => s.endStream c i) (s.modCore c (·.count 64))
    afterOut s (execSamplingTick c s)

/-! ### A new period -/

/-- A stream at the start of period `p`. -/
def Stream.start (x : Stream) (p : Nat) : Stream :=
  { x with tried := false, tokPred := x.tokPred.start p, tokSucc := x.tokSucc.start p, qPred := x.qPred.start p, qSucc := x.qSucc.start p }

/-- Handles that `xlate` writes in period `p`, in order (R96, R199). -/
def Core.handles (k : Core) (p : Nat) : Core :=
  (k.pendH.filter fun e => e.1 ≤ p).foldl (fun k e => k.setHreg e.2.1 e.2.2) { k with pendH := k.pendH.filter fun e => p < e.1 }

/-- A core at the start of period `p`: what became available, handles that are written now, the counters. -/
def Core.start (k : Core) (p : Nat) : Core :=
  { (k.handles p).countEnd.startDeu with
    c := k.c.start p, a := k.a.start p, e := k.e.start p, w := k.w.start p, grantE := false, grantS := false }

/-- Delayed register writes of the period that has ended take place. -/
def State.startWrites (s : State) (c : Nat) : State :=
  let l := (s.core c).pendW.filter fun e => e.1 < s.now
  l.foldl (fun s e => s.applyWrite c e.2) (s.modCore c fun k => { k with pendW := k.pendW.filter fun e => s.now ≤ e.1 })

/-- A `waitm` whose tick has come retired in the period before, so its tokens can be popped now (R186, R207). -/
def State.startWait (s : State) (c : Nat) (i : StreamId) : State :=
  match (s.str c i).hold with
  | some (.meridian v) => if v.toNat ≤ s.tick then s.releaseHold c i s.now else s
  | _ => s

/-- A held `xlate` whose slice entry is filled (R97, R409). -/
def State.startStream (s : State) (c : Nat) (i : StreamId) : State :=
  match (s.str c i).hold with
  | some (.filled ..) => if (s.fretOf c).stalled s.now then s else s.xlateResume c i
  | _ => s

/-- Entries whose slice entry is filled go on when the stall wire has dropped (R394, R409). -/
def State.startCe (s : State) (c : Nat) : State :=
  if (s.fretOf c).stalled s.now then s
  else
    (s.core c).ce.foldl (fun s e =>
      match e.st with
      | .retranslating 1 l => (s.modCe c e.id fun e => { e with st := .retranslating 2 l }).plan (s.now + 96) 1 (.ceRetranslationComplete c e.id)
      | _ => s) s

/-- A core at the start of a period. -/
def State.startCore (s : State) (c : Nat) : State :=
  let s := allStreams.foldl (fun s i => s.startWait c i) s
  let s := (s.modCore c (·.start s.now)).startWrites c
  let s := if (s.core c).running && !(s.core c).smp.pend.isEmpty then s.plan s.now 44 (.sampleRecordWrite c) else s
  (allStreams.foldl (fun s i => s.startStream c i) s).startCe c

/-- What happens at ticks of their own: guard intervals, budgets, refresh, scrubbing, the policy (R29, R64, R89, R339, R374). -/
def State.startTick (s : State) : State :=
  let t := s.tick
  let s := if t % guardPeriod = 0 then s.plan s.now 0 .guardIntervalStart else if t % guardPeriod = 512 then s.guardEnd else s
  let s := if t % 4096 = 0 then (s.plan s.now 0 .budgetRefill).policy else s
  let s := if t % 4096 = 3968 then s.plan s.now 0 .hbmRefresh else s
  let s := if t % 4096 = 3967 then s.plan s.now 46 .patrolScrub else s
  if (s.soft :: s.cores.map (·.2.soft)).any (·.any fun e => s.scrubDue e.1) then s.plan s.now 46 .scrubArrays else s

/-- A station whose window begins at this tick (R44). -/
def State.startStations (s : State) : State :=
  s.scheds.foldl (fun s e =>
    if e.2.voided then s
    else
      match (List.range e.2.stations.length).find? fun k => (e.2.stations[k]?).any fun st => e.2.base.toNat + st.off + 512 = s.tick with
      | some k => s.plan s.now 0 (.checkpointStation e.1 k)
      | none => s) s

/-- Launches that retire or that can be saved (R63, R79). -/
def State.startLaunches (s : State) : State :=
  s.launches.foldl (fun s e =>
    if s.retires e.1 e.2 then s.plan s.now 2 (.launchRetirement e.1)
    else if s.savable e.2 then s.startSave e.1 e.2
    else s) s

/-- Feed queues with entries that a running launch may take (R77). -/
def State.startFeeds (s : State) : State :=
  s.queues.foldl (fun s e =>
    if e.2.en && e.2.feed && e.2.watermark < e.2.tail && (s.fedBy e.1).isSome then s.planOnce s.now 41 (.feedEntryDelivery e.1) else s) s

/-- The period ends, and the next one begins. -/
def State.endPeriod (s : State) : State :=
  let s := (s.cores.map (·.1)).foldl (fun s c => s.endCore c) s
  let s := s.portsEnd
  let t := s.tick
  let s : State := { s with before := t, mu := s.mu.advance, now := s.now + 1, hbmWrites := [], cur := .hub }
  let s := if s.mu.slew.any (480 ≤ ·.2) then s.plan s.now 0 .slewEnd else s
  let s := if s.tick = t then s else s.alarmsDue.startTick.startStations
  let s := (s.cores.map (·.1)).foldl (fun s c => s.startCore c) s
  s.startLaunches.startFeeds

/-! ### The step -/

/-- The first constructor of `Instr` that is an event of the device or of the world around it. -/
def firstEvent : Nat := (Instr.maStart 0).ctorIdx

/-- An event from outside. Instructions and ephemeris entries are none: they reach the machine through memory (log 1). -/
def State.input (s : State) (i : Instr) : Out := if firstEvent ≤ i.ctorIdx then exec i s else .next s

/-- An LE whose entry is due (R39). -/
def State.dueLe (s : State) : Option Nat := (s.les.find? fun e => s.leDue e.1 ≠ .wait).map (·.1)

/-- The LE of a port does what its entry asks. -/
def State.leStep (s : State) (p : Nat) : Out :=
  let s := { s with cur := .le p }
  match s.softRead { unit := uLe, port := p } none 9 (0x20000 * p + 8 * (s.le p).idx) 8 with
  | (_, some _) => .next (s.leReads p 9 (0x20000 * p + 8 * (s.le p).idx) 8 id)
  | (s, none) =>
    match s.leDue p with
    | .wait => .next s
    | .err cause => .next (s.entryErr cause)
    | .entry i => exec i s

/-- Work that is due, unless its hub unit does nothing in this period: then it waits (R341, R388). -/
def State.runWork (s : State) (r : Nat) (w : Work) : Out :=
  if w.hubUnit.any s.unitStops then .next (s.plan (s.now + 1) r w) else w.run s

/-- The streams, then the end of the period. -/
def State.streamPhase (s : State) : Out :=
  match s.nextStream with
  | some (c, i) => { s with cur := .stream c i }.issueNext
  | none => .next s.endPeriod

/-- Rank from which engine work comes after the entries of the LEs. -/
abbrev lateRank : Nat := 12

/-- Engine work that is due, link entries, the streams. -/
def State.workPhase (s : State) : Out :=
  match s.agenda with
  | (p, r, w) :: rest =>
    if p ≤ s.now && r < lateRank then { s with agenda := rest, cur := .hub }.runWork r w
    else
      match s.dueLe with
      | some q => s.leStep q
      | none =>
        if p ≤ s.now && (r < tileRank || s.nextStream.isNone) then { s with agenda := rest, cur := .hub }.runWork r w else s.streamPhase
  | [] =>
    match s.dueLe with
    | some q => s.leStep q
    | none => s.streamPhase

/-- The package has stopped, or a boot stage has failed: nothing happens until power goes or comes (R343, R375, R442). -/
def State.atRest (s : State) : Bool := s.stoppedPkg || s.sec.fail ≠ 0

/-- An input that waits: an operation of a hub unit that has no power or whose record the collector has not taken, a request of the host among them
(R341, R388); a write of the MC in HBM, until it is granted (R339). -/
def State.holds (s : State) (i : Instr) : Bool :=
  let host : Bool := s.recordWaits none none uHost 0
  let mu : Bool := s.recordWaits none none uMu 0
  let mc : Bool := s.unitStops (some 985, uMc)
  match i with
  | .doorbell _ _ => host
  | .apertureRead _ _ => host
  | .apertureWrite _ _ => host
  | .qcfgWrite _ _ => host
  | .leaseWrite _ => host
  | .publishWrite _ => host
  | .gcancelWrite _ => host
  | .attctlGo _ => host
  | .registerWrite a _ => (if a < hubBase then host else mc) || (wordBase ≤ a && a < wordBase + hbmTop && (s.classGrant 0 ((a - wordBase) / 8 * 8) 8 true).isNone)
  | .launchEndByMc _ _ => mc
  | .missFill _ _ _ => mc
  | .shootdownDelivery _ _ _ _ _ => mc
  | .extentRebuild _ _ _ _ _ => mc
  | .extentRevocation _ => mc
  | .preemptionRequest _ => mc
  | .timedPreemption _ => mc
  | .contextRestore _ _ _ _ => mc
  | .voidNotice _ _ => mc
  | .scheduleRefusalNotice _ _ => mc
  | .frzClear _ => mc
  | .delayExchange _ _ _ _ => mu
  | .meridianAcquire _ _ => mu
  | .meridianReacquire _ => mu
  | .linkSlotReceive p _ => s.recordWaits none none uLe p
  | _ => false

/-- The first input that does not wait, and the others. -/
def State.takeInput (s : State) : List Instr → Option (Instr × List Instr)
  | [] => none
  | i :: r => if s.holds i then (State.takeInput s r).map fun x => (x.1, i :: x.2) else some (i, r)

/-- A package at rest takes these alone. -/
def State.stoppedInput (s : State) : Instr → Out
  | .powerOn b => execPowerOn b s
  | .powerOff => execPowerOff s
  | _ => .next s

/-- One step: an input, a piece of work, an entry, an issue, or the end of a period. -/
def State.stepOnce (s : State) : Out :=
  match s.takeInput s.inputs with
  | some (i, r) =>
    let s := { s with inputs := r, cur := .hub }
    if s.atRest then s.stoppedInput i else s.input i
  | none => if s.atRest then .next { s with now := s.now + 1 } else s.workPhase

/-! ### Placing one instruction -/

/-- A stream on which an instruction is legal, from its first word (R170). -/
def streamFor (w : Word) : StreamId :=
  let maj := bits (w.zeroExtend 64) 27 22
  let fn6 := bits (w.zeroExtend 64) 6 0
  let fn9 := bits (w.zeroExtend 64) 21 18
  if maj ≤ 0x10 then .c
  else if maj ≤ 0x14 then .a
  else if maj ≤ 0x18 then .w
  else if maj = 0x19 then (if fn6 ≤ 9 then .a else .w)
  else if maj = 0x1A then .a
  else if maj = 0x1B then .c
  else if maj ≤ 0x32 then .e
  else if maj ≤ 0x3A then .a
  else if maj = 0x3B then .w
  else if maj = 0x3C then (if fn9 = 1 then .a else .w)
  else .c

/-- A stream that runs from address 0, with nothing that it waits for. -/
def Stream.ready (x : Stream) : Stream :=
  { x with pc := 0, halted := false, hasCode := true, nest := false, notBefore := 0, hold := none, holdTok := 0, faults := [], busy := [], await := [],
           tried := false, point := false, stopped := false }

/-- Core 0 running on behalf of context 0, its only stream that is not halted the one that can run the words. -/
def Core.placeWords (k : Core) (nbits v : Nat) : Core :=
  let i := streamFor (wordAt (v % 2 ^ nbits) 0)
  let halt (x : Stream) : Stream := { x with halted := true, hold := none }
  let k := { k with c := halt k.c, a := halt k.a, e := halt k.e, w := halt k.w }
  let k := k.modStr i Stream.ready
  { k with
    istore := Sparse.setAll 0 k.istore 0 ((List.range 4).map (wordAt (v % 2 ^ nbits)))
    ctx := 0, running := true, grantE := false, grantS := false, fret := 0 }

/-- Nothing comes before core 0's stream in the next step: no input, no work, no link entry. -/
def State.placeWords (s : State) (nbits v : Nat) : State :=
  let s : State := { s with
    inputs := [], agenda := [], stoppedPkg := false
    les := s.les.map fun e => (e.1, { e.2 with on := false })
    frets := Sparse.erase s.frets 0 }
  s.modCore 0 (·.placeWords nbits v)

end Sys2Proof.Machine
end

