-- ==== Sys2Proof/Machine/Step.lean ====
section
/-! DEFINITION. The step of the machine, and how one instruction is placed for it (log 2, log 6). -/

namespace Sys2Proof.Machine

/-- One step: an input, a piece of engine work, an ephemeris entry, the issue of an instruction, or the end of a clock period. -/
def step (s : State) : Host.Outcome State Fault Refusal := s.stepOnce

/-- `s` with an instruction, its words in order from bit 0 of `w`, where the next step fetches: address 0 of core 0's instruction
store, as the bind of a launch of context 0 leaves it (R60; log 2). -/
def State.withFetchWord (s : State) (nbits w : Nat) : State := s.placeWords nbits w

end Sys2Proof.Machine
end

