-- ==== Sys2Proof/Safety.lean ====
section
/-! DEFINITION. What a safe run is, when an instruction may issue, and what an instruction leaves alone, in the terms that claims
use. -/

namespace Sys2Proof

/-- The machine goes on from `s`. -/
def Machine.State.goes (s : Machine.State) : Prop := ∃ t, Machine.step s = .next t

/-- `n` steps from `s` lead to `t`, none of them a fault or a refusal. -/
inductive Runs : Nat → Machine.State → Machine.State → Prop
  | zero (s : Machine.State) : Runs 0 s s
  | succ {n : Nat} {s t u : Machine.State} (h : Machine.step s = .next t) (r : Runs n t u) : Runs (n + 1) s u

/-- Every state that a run from `s` reaches can go on: nothing faults, nothing is refused. -/
def Safe (s : Machine.State) : Prop := ∀ n t, Runs n s t → Machine.State.goes t

namespace Machine

/-- An instruction with this signature passes steps 3 to 5 of R173 on the stream that the step runs for, is ready (R66, R72), and
reads no register with a parity error: legal stream, privilege, mode; tokens, registers, units. -/
def State.mayIssue (s : State) (g : Sig) : Bool :=
  s.me.retrying.isNone && g.streams.contains s.at.2 && (!g.priv || s.myCore.privileged s.at.2) && g.mode
    && (s.notReady g).isNone && (s.badReg g).isNone

/-- `y` is the stream `x` but for what the end of an issue keeps: program counter and loops, its token FIFOs, the scoreboard and the
marks of the period. Registers, trap registers, queues, NEST, SRCTR, ROUND and the rest are those of `x`. -/
def Stream.Kept (x y : Stream) : Prop :=
  y = { x with pc := y.pc, l0 := y.l0, l1 := y.l1, l2 := y.l2, order := y.order, tokPred := y.tokPred, tokSucc := y.tokSucc,
               busy := y.busy, await := y.await, retireAt := y.retireAt, tried := y.tried, cls := y.cls, clsPc := y.clsPc,
               point := y.point }

/-- `y` is the stream `x` but for its token FIFOs, from which a neighbour may have popped. -/
def Stream.TokensOnly (x y : Stream) : Prop := y = { x with tokPred := y.tokPred, tokSucc := y.tokSucc }

/-- The frame of an issued instruction whose effect on the state `s` is `t`: the state `u` that it leaves is `t` but for the issue
itself. Memory, the other cores, every register of every core but the program counter, the loops of the issuing stream and the
rotating bases, and all the rest of the package are those of `t`. -/
structure State.Frame (s t u : State) : Prop where
  package : u = { t with cores := u.cores }
  others : ∀ c, c ≠ s.at.1 → u.core c = t.core c
  core : u.myCore = { t.myCore with c := u.myCore.c, a := u.myCore.a, e := u.myCore.e, w := u.myCore.w, ptr := u.myCore.ptr,
                                    grantE := u.myCore.grantE, grantS := u.myCore.grantS, vrb := u.myCore.vrb,
                                    prb := u.myCore.prb, parity := u.myCore.parity }
  streams : ∀ j, j ≠ s.at.2 → Stream.TokensOnly (t.myCore.str j) (u.myCore.str j)
  me : Stream.Kept t.me u.me

/-- The loops of `y` are those of `x`. -/
def Stream.SameLoops (x y : Stream) : Prop := y.l0 = x.l0 ∧ y.l1 = x.l1 ∧ y.l2 = x.l2 ∧ y.order = x.order

/-- No active loop of the stream ends at `p`, so that no back-edge test is met there (R195). -/
def Stream.noLoopEnd (x : Stream) (p : DWord) : Bool :=
  x.order.all fun n => !((x.loopOf n).active && (x.loopOf n).stop = p)

/-- Control passes sequentially to `p` from the state `t`: program counter, loops and rotating bases of `u` are those of the back-edge test at `p`
over the active loops of the stream, of which the last value says whether a back-edge was taken (R175, R195). Where no active loop ends at `p`, the
program counter is `p` and loops and bases are those of `t`. -/
def State.Tested (s t u : State) (p : DWord) (b : Bool) : Prop :=
  let r := backEdge t.me.order t.myCore s.at.2 p
  u.me.pc = r.2.1 ∧ b = r.2.2 ∧ Stream.SameLoops (r.1.str s.at.2) u.me ∧ u.myCore.vrb = r.1.vrb ∧ u.myCore.prb = r.1.prb
    ∧ (t.me.noLoopEnd p = true →
      b = false ∧ u.me.pc = p ∧ Stream.SameLoops t.me u.me ∧ u.myCore.vrb = t.myCore.vrb ∧ u.myCore.prb = t.myCore.prb)

/-- The instruction has its effect `t` and control passes sequentially to `p` (R195); the boundary is a pre-emption point if `y`, or if a
back-edge was taken (R79). -/
structure State.Passes (s t u : State) (p : DWord) (y : Bool := false) : Prop extends State.Frame s t u where
  sequel : ∃ b, s.Tested t u p b ∧ u.me.point = (y || b)

/-- The instruction has its effect `t` and control is transferred to `p`: no back-edge test (R195). The boundary is a
pre-emption point if `b` (R79, R193). -/
structure State.Jumps (s t u : State) (p : DWord) (b : Bool := false) : Prop extends State.Frame s t u where
  pc : u.me.pc = p
  point : u.me.point = b
  loops : Stream.SameLoops t.me u.me
  vrb : u.myCore.vrb = t.myCore.vrb
  prb : u.myCore.prb = t.myCore.prb

/-- The scalar access that the stream's instruction has waited for has its effect `t` (R198): the instruction retires, the hold ends, and
control passes sequentially to `p` as in `State.Passes`; memory, the other cores and every register are those of `t`. -/
structure State.Retires (s t u : State) (p : DWord) : Prop where
  package : u = { t with cores := u.cores }
  others : ∀ c, c ≠ s.at.1 → u.core c = t.core c
  core : u.myCore = { t.myCore with c := u.myCore.c, a := u.myCore.a, e := u.myCore.e, w := u.myCore.w, vrb := u.myCore.vrb,
                                    prb := u.myCore.prb, parity := u.myCore.parity }
  streams : ∀ j, j ≠ s.at.2 → u.myCore.str j = t.myCore.str j
  me : Stream.Kept { t.me with hold := none, holdTok := 0 } u.me
  sequel : ∃ b, s.Tested t u p b

/-- The address of the instruction after one of `len` words. -/
def State.after (s : State) (len : Nat := 1) : DWord := s.me.pc + dw (4 * len)

/-- The instruction has issued and waits: its program counter stands, the stream holds `h`, and nothing but the issue itself
changed with respect to `t` (R72). -/
structure State.Holds (s t u : State) (h : Hold) : Prop where
  package : u = { t with cores := u.cores }
  others : ∀ c, c ≠ s.at.1 → u.core c = t.core c
  core : u.myCore = { t.myCore with c := u.myCore.c, a := u.myCore.a, e := u.myCore.e, w := u.myCore.w, ptr := u.myCore.ptr,
                                    grantE := u.myCore.grantE, grantS := u.myCore.grantS }
  streams : ∀ j, j ≠ s.at.2 → Stream.TokensOnly (t.myCore.str j) (u.myCore.str j)
  me : u.me = { t.me with hold := some h, holdTok := u.me.holdTok, tokPred := u.me.tokPred, tokSucc := u.me.tokSucc,
                          tried := u.me.tried, cls := u.me.cls, clsPc := u.me.clsPc, point := u.me.point }

/-- The registers a vector instruction reads: its sources, the predicate it runs under, and a destination whose lanes it keeps (R213,
R214). -/
def State.vecSig (s : State) (t : Tok) (vs : List V) (gs : List G) (pg : P) (z : Bool) (vd : V) : Sig :=
  { t := t, streams := [.e],
    reads := vs.map s.myCore.keyV ++ gs.map keyG ++ s.myCore.rdP pg ++ s.myCore.keepV pg z vd }

/-- The same where the instruction rounds by `rm` (R145). -/
def State.vecSigR (s : State) (t : Tok) (vs : List V) (pg : P) (z : Bool) (vd : V) (rm : Rm) : Sig :=
  { s.vecSig t vs [] pg z vd with reads := (s.vecSig t vs [] pg z vd).reads ++ s.srReads rm }

/-- The lanes `x` of a destination register: active lanes are `f`, the others kept, or zero under Z (R213). -/
def State.Lanes (s : State) (vd : V) (pg : P) (z : Bool) (f : Nat → Lane) (x : Sparse Lane) : Prop :=
  ∀ i, i < 512 → laneOf x i = if (s.myCore.preg pg).getLsbD i then f i else if z then 0 else laneOf (s.myCore.vreg vd) i

/-- The bits `x` of a destination predicate: active bits are `f`, the others kept, or zero under Z (R213). -/
def State.Bits (s : State) (pd : P) (pg : P) (z : Bool) (f : Nat → Bool) (x : Pred) : Prop :=
  ∀ i, i < 512 → x.getLsbD i = if (s.myCore.preg pg).getLsbD i then f i else if z then false else (s.myCore.preg pd).getLsbD i

/-- The stream of the step has entered its handler (R378, R380): from the state `t`, the trap registers hold `cause`, `i0`, `i1` and the
address `pc` to return to, NEST is set, control is at the handler's entry of the cause and issues there from four periods on. Memory,
every register of every core and stream, and all else are those of `t`, but for the count of traps and the issue itself. -/
structure State.Traps (s t u : State) (cause : Nat) (i0 i1 pc : DWord) : Prop where
  package : u = { t with cores := u.cores }
  others : ∀ c, c ≠ s.at.1 → u.core c = t.core c
  core : u.myCore = { t.myCore with c := u.myCore.c, a := u.myCore.a, e := u.myCore.e, w := u.myCore.w, ptr := u.myCore.ptr,
                                    grantE := u.myCore.grantE, grantS := u.myCore.grantS, ctrNew := u.myCore.ctrNew,
                                    parity := u.myCore.parity }
  streams : ∀ j, j ≠ s.at.2 → Stream.TokensOnly (t.myCore.str j) (u.myCore.str j)
  me : u.me = { t.me with
                trapPc := pc &&& 0x1FFFC, trapCause := dw cause, trapInfo0 := i0, trapInfo1 := i1, nest := true,
                pc := dw (0x1E000 + 8 * cause), notBefore := s.now + 4, halted := false, point := false,
                tokPred := u.me.tokPred, tokSucc := u.me.tokSucc, busy := u.me.busy, await := u.me.await, retireAt := u.me.retireAt,
                tried := u.me.tried, cls := u.me.cls, clsPc := u.me.clsPc }

end Machine

end Sys2Proof
end

