-- ==== Sys2Proof/WellFormed.lean ====
section
/-! DEFINITION. Well-formed instructions: the operand values that an encoding admits (spec 08 R163, R164, R396; 02 R38, R406).
Every other operand of `Instr` is well formed at every value of its type. The device's own events have no encoding. -/

namespace Sys2Proof

/-- Body length 1 to 16,383 (R164, R396). -/
def lenOk (len : BitVec 14) : Bool := len != 0
/-- Port number 0 to 11 (R19, R396). -/
def portOk (p : BitVec 4) : Bool := p.toNat ≤ 11
/-- log2 L of `vxsum`, 0 to 9 (R237, R396). -/
def grpOk (g : BitVec 4) : Bool := g.toNat ≤ 9
/-- FIRST + UNITS_M1 at most 7 (R38). -/
def unitsOk (first um1 : BitVec 3) : Bool := first.toNat + um1.toNat ≤ 7

/-- The operand values that the encoding admits. -/
def Instr.wf : Instr → Bool
  | .loop _ _ _ len => lenOk len
  | .loopr _ _ _ len => lenOk len
  | .vxsum _ o => grpOk o.grp
  | .send _ o => portOk o.port
  | .recv _ o => portOk o.port
  | .xfer _ _ first um1 => unitsOk first um1
  | .fwd _ inp _ => portOk inp
  | .dlv _ _ first um1 => unitsOk first um1
  | .inj _ len => len != 0
  | _ => true

end Sys2Proof
end

