-- ==== Sys2Proof/Certificates/Slice0/Obligations.lean ====
section
/-! DEFINITION. The statements about the model, for the provers. A statement about an instruction says, for every state in which the
instruction may issue (`State.mayIssue`: stream, privilege, mode, tokens, registers and units, R72, R173), that it answers a next
state and which: `s.Passes t u p` and `s.Jumps t u p` say that the state `u` is the effect `t` framed as `State.Frame` says, with
control at `p`. -/

open Sys2Proof Sys2Proof.Machine

/-! ### Scalar arithmetic -/

/-- R188: the operations of MAJ 0x01 with two sources write their result to gd, and nothing else changes.
R188: `clz`, `ctz`, `popc`, `mov` and `sel`. The number of leading zeros n of a non-zero value is the one with
2^(63-n) ≤ value < 2^(64-n); the number of trailing zeros n is the one for which bit n is set and no lower bit is. Codes 30 to 127
are reserved. -/
def Obligations.ScalarOperationsOfRegisters : Prop :=
  (∀ (s : State) (t : Tok) (d a b : G), s.mayIssue { t := t, reads := [keyG a, keyG b] } = true →
     ∀ e ∈ ([ (Instr.add, fun x y => x + y),
              (Instr.sub, fun x y => x - y),
              (Instr.mul, fun x y => x * y),
              (Instr.mulh, fun x y => BitVec.ofInt 64 (x.toInt * y.toInt / 2 ^ 64)),
              (Instr.mulhu, fun x y => BitVec.ofNat 64 (x.toNat * y.toNat / 2 ^ 64)),
              (Instr.div, fun x y => if y = 0 then BitVec.allOnes 64 else BitVec.ofInt 64 (x.toInt.tdiv y.toInt)),
              (Instr.divu, fun x y => if y = 0 then BitVec.allOnes 64 else BitVec.ofNat 64 (x.toNat / y.toNat)),
              (Instr.rem, fun x y => if y = 0 then x else BitVec.ofInt 64 (x.toInt - y.toInt * x.toInt.tdiv y.toInt)),
              (Instr.remu, fun x y => if y = 0 then x else BitVec.ofNat 64 (x.toNat % y.toNat)),
              (Instr.and, fun x y => x &&& y),
              (Instr.or, fun x y => x ||| y),
              (Instr.xor, fun x y => x ^^^ y),
              (Instr.andn, fun x y => x &&& ~~~y),
              (Instr.shl, fun x y => x <<< (y.toNat % 64)),
              (Instr.shr, fun x y => x >>> (y.toNat % 64)),
              (Instr.sra, fun x y => x.sshiftRight (y.toNat % 64)),
              (Instr.rotl, fun x y => (x <<< (y.toNat % 64)) ||| (x >>> (64 - y.toNat % 64))),
              (Instr.min, fun x y => if x.toInt ≤ y.toInt then x else y),
              (Instr.max, fun x y => if y.toInt ≤ x.toInt then x else y),
              (Instr.minu, fun x y => if x.toNat ≤ y.toNat then x else y),
              (Instr.maxu, fun x y => if y.toNat ≤ x.toNat then x else y),
              (Instr.seq, fun x y => if x = y then 1 else 0),
              (Instr.slt, fun x y => if x.toInt < y.toInt then 1 else 0),
              (Instr.sltu, fun x y => if x.toNat < y.toNat then 1 else 0),
              (Instr.sext, fun x y => BitVec.ofInt 64 ((x.toNat : Int).bmod (2 ^ (y.toNat % 64 + 1)))) ]
           : List ((Tok → G → G → G → Instr) × (DWord → DWord → DWord))),
       ∃ u, exec (e.1 t d a b) s = .next u ∧ s.Passes (s.setG d (e.2 (s.gr a) (s.gr b))) u (s.after))
  ∧ (∀ (s : State) (t : Tok) (d a b : G),
     (s.mayIssue { t := t, reads := [keyG a] } = true →
       (∃ u n, exec (.clz t d a) s = .next u ∧ s.Passes (s.setG d (BitVec.ofNat 64 n)) u s.after
         ∧ (s.gr a = 0 → n = 64) ∧ (s.gr a ≠ 0 → n ≤ 63 ∧ 2 ^ (63 - n) ≤ (s.gr a).toNat ∧ (s.gr a).toNat < 2 ^ (64 - n)))
       ∧ (∃ u n, exec (.ctz t d a) s = .next u ∧ s.Passes (s.setG d (BitVec.ofNat 64 n)) u s.after
         ∧ (s.gr a = 0 → n = 64) ∧ (s.gr a ≠ 0 → (s.gr a).getLsbD n = true ∧ ∀ k < n, (s.gr a).getLsbD k = false))
       ∧ (∃ u, exec (.popc t d a) s = .next u
         ∧ s.Passes (s.setG d (BitVec.ofNat 64 ((List.range 64).countP (s.gr a).getLsbD))) u s.after)
       ∧ (∃ u, exec (.mov t d a) s = .next u ∧ s.Passes (s.setG d (s.gr a)) u s.after))
     ∧ (s.mayIssue { t := t, reads := [keyG a, keyG b, keyG d] } = true →
       ∃ u, exec (.sel t d a b) s = .next u ∧ s.Passes (s.setG d (if s.gr d ≠ 0 then s.gr a else s.gr b)) u s.after))
  ∧ (∀ (t : Tok) (d a b : G) (fn : BitVec 7), 30 ≤ fn.toNat → decode (f1 0x01 t d a b fn) 0 0 0 = .bad .fn)

/-- R190: the immediate forms of MAJ 0x02 to 0x08. -/
def Obligations.ScalarImmediateForms : Prop :=
  ∀ (s : State) (t : Tok) (d a : G), s.mayIssue { t := t, reads := [keyG a] } = true →
    (∀ (imm : BitVec 12), ∀ e ∈ ([ (Instr.addi, fun x i => x + i),
             (Instr.andi, fun x i => x &&& i),
             (Instr.ori, fun x i => x ||| i),
             (Instr.xori, fun x i => x ^^^ i),
             (Instr.slti, fun x i => if x.toInt < i.toInt then 1 else 0),
             (Instr.sltiu, fun x i => if x.toNat < i.toNat then 1 else 0) ]
          : List ((Tok → G → G → BitVec 12 → Instr) × (DWord → DWord → DWord))),
      ∃ u, exec (e.1 t d a imm) s = .next u ∧ s.Passes (s.setG d (e.2 (s.gr a) (imm.signExtend 64))) u s.after)
    ∧ (∀ (n : BitVec 6), ∀ e ∈ ([ (Instr.shli, fun x k => x <<< k),
             (Instr.shri, fun x k => x >>> k),
             (Instr.srai, fun x k => x.sshiftRight k),
             (Instr.rotli, fun x k => (x <<< k) ||| (x >>> (64 - k))) ]
          : List ((Tok → G → G → BitVec 6 → Instr) × (DWord → Nat → DWord))),
      ∃ u, exec (e.1 t d a n) s = .next u ∧ s.Passes (s.setG d (e.2 (s.gr a) n.toNat)) u s.after)
    ∧ decode 0x01843442 0 0 0 = .ok (.srai 0 2 3 40)

/-- R191: `movi`, `movhi` and `li`. -/
def Obligations.ConstantsIntoRegisters : Prop :=
  ∀ (s : State) (t : Tok) (d : G),
    (s.mayIssue { t := t } = true →
      (∀ imm, ∃ u, exec (.movi t d imm) s = .next u ∧ s.Passes (s.setG d (imm.signExtend 64)) u s.after)
      ∧ (∀ imm, ∃ u, exec (.li t d imm) s = .next u ∧ s.Passes (s.setG d (imm.signExtend 64)) u (s.after 2)))
    ∧ (s.mayIssue { t := t, reads := [keyG d] } = true →
      ∀ imm, ∃ u, exec (.movhi t d imm) s = .next u ∧ s.Passes (s.setG d ((s.gr d <<< 17) ||| imm.zeroExtend 64)) u s.after)

/-- R189: division by zero and of the most negative value by -1 neither trap nor set a flag. -/
def Obligations.DivisionNeverTraps : Prop :=
  ∀ (s : State) (t : Tok) (d a b : G), d ≠ 0 → s.mayIssue { t := t, reads := [keyG a, keyG b] } = true →
    ∀ e ∈ ([ (Instr.div, BitVec.allOnes 64, 0x8000000000000000),
             (Instr.divu, BitVec.allOnes 64, 0),
             (Instr.rem, s.gr a, 0),
             (Instr.remu, s.gr a, 0x8000000000000000) ] : List ((Tok → G → G → G → Instr) × DWord × DWord)),
      ∃ u, exec (e.1 t d a b) s = .next u ∧ u.myCore.numstat = s.myCore.numstat
        ∧ (s.gr b = 0 → u.gr d = e.2.1)
        ∧ (s.gr a = 0x8000000000000000 → s.gr b = BitVec.allOnes 64 → u.gr d = e.2.2)

/-! ### Control -/

/-- R192, R193: branches, calls and jumps. A taken branch or call goes to the program counter plus four times its signed offset and is
a pre-emption point when the offset is negative; jumps through registers go to bits [16:2] and are none. (R79 and R193 speak of backward
branches: that a call with a negative offset is a pre-emption point too is the model's reading, log 68.) -/
def Obligations.BranchesCallsAndJumps : Prop :=
  ∀ (s : State) (t : Tok),
    (s.mayIssue { t := t } = true → ∀ (off : BitVec 22),
      (∃ u, exec (.bra t off) s = .next u ∧ s.Jumps s u (s.me.pc + BitVec.ofInt 64 (4 * off.toInt)) (off.toInt < 0))
      ∧ (∃ u, exec (.call t off) s = .next u
        ∧ s.Jumps (s.setG 31 (s.me.pc + 4)) u (s.me.pc + BitVec.ofInt 64 (4 * off.toInt)) (off.toInt < 0)))
    ∧ (∀ a, s.mayIssue { t := t, reads := [keyG a] } = true →
      (∀ (c : BCond) (off : BitVec 14), ∃ u, exec (.bcz t a c off) s = .next u ∧
        (let v := s.gr a
         let taken : Prop := match c with
           | .eq => v = 0
           | .ne => v ≠ 0
           | .lt => v.toInt < 0
           | .ge => v.toInt ≥ 0
           | .le => v.toInt ≤ 0
           | .gt => v.toInt > 0
           | .bset => v.getLsbD 0 = true
           | .bclr => v.getLsbD 0 = false
         (taken → s.Jumps s u (s.me.pc + BitVec.ofInt 64 (4 * off.toInt)) (off.toInt < 0))
           ∧ (¬ taken → s.Passes s u s.after)))
      ∧ (∃ u, exec (.jr t a) s = .next u ∧ s.Jumps s u (s.gr a &&& 0x1FFFC))
      ∧ (∃ u, exec (.callr t a) s = .next u ∧ s.Jumps (s.setG 31 (s.me.pc + 4)) u (s.gr a &&& 0x1FFFC)))
    ∧ (s.mayIssue { t := t, reads := [keyG 31] } = true → ∃ u, exec (.ret t) s = .next u ∧ s.Jumps s u (s.gr 31 &&& 0x1FFFC))

/-- R194: `loop` and `loopr`. A count of zero passes control sequentially to END; else the loop record of the counter is written,
the counter becomes the innermost active loop, and control passes sequentially to the next word. ROT is set by `loopr` on E alone.
R195: the back-edge test at an address where the innermost active loop ends: with passes left the counter counts down and control
goes to START, the rotating bases stepping if ROT; on the last pass the loop leaves the active ones and the test goes on with the
next; a loop that ends elsewhere is passed over. An instruction after which control passes sequentially to such an address leaves the program
counter, loops and bases of that test over the stream's active loops: shown for `nop`, an untaken `bcz` and a loop with a count of zero;
`State.Passes`, in which every other statement is made, says so of every instruction. -/
def Obligations.HardwareLoops : Prop :=
  (∀ (s : State) (t : Tok) (c : G) (k : Lvl) (len : BitVec 14), s.mayIssue { t := t, reads := [keyG c] } = true →
     ∀ e ∈ ([(Instr.loop, false), (Instr.loopr, true)] : List ((Tok → G → Lvl → BitVec 14 → Instr) × Bool)),
       ∃ u, exec (e.1 t c k len) s = .next u
         ∧ ((s.gr c).truncate 32 = (0 : BitVec 32) → s.Passes s u (s.me.pc + 4 + 4 * len.zeroExtend 64))
         ∧ ((s.gr c).truncate 32 ≠ (0 : BitVec 32) → ∃ v, s.Passes (s.modMe fun _ => v) u s.after
           ∧ v = { s.me with l0 := v.l0, l1 := v.l1, l2 := v.l2, order := k :: s.me.order.filter (· ≠ k) }
           ∧ v.loopOf k = ⟨(s.gr c).truncate 32, s.me.pc + 4, s.me.pc + 4 + 4 * len.zeroExtend 64, e.2 && s.at.2 = .e, true⟩
           ∧ ∀ n, n ≠ k → v.loopOf n = s.me.loopOf n))
  ∧ (∀ (k : Core) (i : StreamId) (n : Lvl) (r : List Lvl) (p : DWord),
     let l := (k.str i).loopOf n
     (l.active = true → l.stop = p → 1 < l.lc.toNat →
       ∃ k', backEdge (n :: r) k i p = (k', l.start, true)
         ∧ ((k'.str i).loopOf n) = { l with lc := l.lc - 1 } ∧ (k'.str i).order = (k.str i).order
         ∧ (k'.vrb.toNat = if l.rot then (if k.vrb = 0 then 47 else k.vrb.toNat - 1) else k.vrb.toNat)
         ∧ (k'.prb = if l.rot then k.prb - 1 else k.prb))
     ∧ (l.active = true → l.stop = p → l.lc.toNat ≤ 1 →
       ∃ k', backEdge (n :: r) k i p = backEdge r k' i p
         ∧ ((k'.str i).loopOf n) = { l with lc := 0, active := false } ∧ (k'.str i).order = (k.str i).order.filter (· ≠ n)
         ∧ k'.vrb = k.vrb ∧ k'.prb = k.prb)
     ∧ ((l.active = false ∨ l.stop ≠ p) → backEdge (n :: r) k i p = backEdge r k i p)
     ∧ backEdge [] k i p = (k, p, false))
  ∧ (∀ (s : State) (t : Tok) (c : G) (k : Lvl) (len off : BitVec 14),
     let leaves (i : Instr) (p : DWord) : Prop :=
       let r := backEdge s.me.order s.myCore s.at.2 p
       ∃ u, exec i s = .next u ∧ u.me.pc = r.2.1 ∧ Stream.SameLoops (r.1.str s.at.2) u.me ∧ u.myCore.vrb = r.1.vrb
         ∧ u.myCore.prb = r.1.prb ∧ u.me.point = r.2.2
     (s.mayIssue { t := t } = true → leaves (.nop t) s.after)
     ∧ (s.mayIssue { t := t, reads := [keyG c] } = true →
       (s.gr c ≠ 0 → leaves (.bcz t c .eq off) s.after)
       ∧ ((s.gr c).truncate 32 = (0 : BitVec 32) →
         leaves (.loop t c k len) (s.me.pc + 4 + 4 * len.zeroExtend 64)
         ∧ leaves (.loopr t c k len) (s.me.pc + 4 + 4 * len.zeroExtend 64))))

/-! ### The system instructions -/

/-- R206, R208, R211: `nop`, `yield`, `fence` with no copy command pending, `halt`, `readm`, `perf`; `waitm` at a count that has been
reached passes, else it waits (R207). -/
def Obligations.StreamControlInstructions : Prop :=
  ∀ (s : State) (t : Tok) (d a : G),
    (s.mayIssue { t := t } = true →
      (∃ u, exec (.nop t) s = .next u ∧ s.Passes s u s.after)
      ∧ (∃ u, exec (.yield t) s = .next u ∧ s.Passes s u s.after true)
      ∧ (∃ u, exec (.halt t) s = .next u ∧ s.Jumps (s.modMe fun x => { x with halted := true }) u s.me.pc s.me.point)
      ∧ (∃ u, exec (.readm t d) s = .next u ∧ s.Passes (s.setG d (BitVec.ofNat 64 (s.mu.count.toNat / 2 ^ 16))) u s.after)
      ∧ (∀ n : BitVec 7, (n.toNat < 64 ∧ n.toNat % 16 ≤ 10 ∨ 64 ≤ n.toNat ∧ n.toNat ≤ 75) →
        ∃ u, exec (.perf t d n) s = .next u
          ∧ s.Passes (s.setG d (BitVec.ofNat 64 (Sparse.get 0 s.myCore.ctr n.toNat))) u s.after)
      ∧ ((∀ e ∈ s.myCore.ce, e.stream ≠ s.at.2) → ∃ u, exec (.fence t) s = .next u ∧ s.Passes s u s.after))
    ∧ (s.mayIssue { t := t, reads := [keyG a] } = true →
      ∃ u, exec (.waitm t a) s = .next u
        ∧ ((s.gr a).toNat ≤ s.mu.count.toNat / 2 ^ 16 → s.Passes s u s.after)
        ∧ (s.mu.count.toNat / 2 ^ 16 < (s.gr a).toNat → s.Holds s u (.meridian (s.gr a))))

/-- R28, R210: on a privileged C stream, `madj` sets the pending adjustment where its magnitude is at most 2^20, and `phase` the
pending request of an island that exists. -/
def Obligations.AdjustAndPhase : Prop :=
  ∀ (s : State) (t : Tok) (a : G), s.mayIssue { t := t, streams := [.c], priv := true, reads := [keyG a] } = true →
    (-(2 ^ 20 : Int) ≤ (s.gr a).toInt → (s.gr a).toInt ≤ 2 ^ 20 →
      ∃ u, exec (.madj t a) s = .next u ∧ s.Passes { s with mu := { s.mu with pending := some (s.gr a).toInt } } u s.after)
    ∧ ((s.gr a).toNat < 2 ^ 12 →
      ∃ u, exec (.phase t a) s = .next u
        ∧ (let isl := (s.gr a).toNat % 1024
           let x : Island := Sparse.get ⟨0, none⟩ s.islands isl
           let y : Island := { x with pending := some (BitVec.ofNat 2 ((s.gr a).toNat / 1024)) }
           s.Passes (if isl < 994 then { s with islands := Sparse.insert s.islands isl y } else s) u s.after))

/-- R177, R205: `sysr` writes the named register's value to gd; C, A and W read E's registers as zero; an unassigned index traps.
The registers it reads have no parity error, and no granule of the core's arrays is damaged. -/
def Obligations.SystemRegistersRead : Prop :=
  ∀ (s : State) (t : Tok) (d : G) (idx : BitVec 12), s.myCore.soft = [] →
    s.mayIssue { t := t, priv := idx.getLsbD 11, reads := s.sysKeys idx } = true →
    (let k := s.myCore
     let x := s.me
     let onE (v : DWord) : DWord := if s.at.2 = .e then v else 0
     (∀ e ∈ ([ (0x001, k.lgeom), (0x002, k.schedbase), (0x010, x.round), (0x011, x.srctr),
               (0x012, onE (BitVec.ofNat 64 (k.prb.toNat * 256 + k.vrb.toNat))), (0x020, k.numstat.zeroExtend 64), (0x021, k.dstat),
               (0x022, onE k.epcfg), (0x023, onE k.epidx),
               (0x030, BitVec.ofNat 64 (s.mu.parent.toNat * 2 ^ 12 + (if s.mu.root then 2 ^ 11 else 0) + s.mu.st.toNat * 2 ^ 9)),
               (0x050, k.smp.ctl), (0x051, k.smp.buf),
               (0x052, k.smp.rd ++ k.smp.wr), (0x053, k.smp.dropped.zeroExtend 64), (0x800, x.trapPc), (0x801, x.trapCause),
               (0x802, x.trapInfo0), (0x803, x.trapInfo1), (0x804, x.scr0), (0x805, x.scr1), (0x806, if x.nest then 2 else 0),
               (0x807, 0) ] : List (BitVec 12 × DWord)),
        idx = e.1 → ∃ u, exec (.sysr t d idx) s = .next u ∧ s.Passes (s.setG d e.2) u s.after)
     ∧ (∀ n : Nat, n < 8 → idx = BitVec.ofNat 12 (0x040 + n) →
        ∃ u, exec (.sysr t d idx) s = .next u ∧ s.Passes (s.setG d (onE (Sparse.get 0x400F k.tdesc n))) u s.after)
     ∧ (idx = 0 → ∃ u v, exec (.sysr t d idx) s = .next u ∧ s.Passes (s.setG d v) u s.after
        ∧ v.extractLsb' 32 32 = k.launchId.zeroExtend 32 ∧ v.extractLsb' 24 8 = k.ctx ∧ v.extractLsb' 12 12 = BitVec.ofNat 12 (s.at.1 % 512)
        ∧ v.getLsbD 3 = k.resident ∧ v.getLsbD 2 = k.timed ∧ v.extractLsb' 0 2 = BitVec.ofNat 2 (streamNum s.at.2))
     ∧ (idx ∉ ([0x000, 0x001, 0x002, 0x010, 0x011, 0x012, 0x020, 0x021, 0x022, 0x023, 0x030, 0x040, 0x041, 0x042, 0x043, 0x044, 0x045, 0x046,
                0x047, 0x050, 0x051, 0x052, 0x053, 0x800, 0x801, 0x802, 0x803, 0x804, 0x805, 0x806, 0x807] : List (BitVec 12)) →
        x.nest = false → s.timedAt s.at.1 = false →
        ∃ u, exec (.sysr t d idx) s = .next u ∧ s.Traps s u 0x45 (idx.zeroExtend 64) 0 x.pc))

/-- R144, R155, R175, R205, R252, R350, R380, R394: on the registers of stream scope `sysw` replaces the writable bits, `syss` sets and
`sysc` clears those that are 1 in gs, and nothing else changes, but that what E's earlier instructions still add to SRCTR is replaced with
it (the model's choice, log 35); the writable bits of TRAPPC are [16:2]; a mode of 6 or 7 is stored in ROUND as 0; E alone writes RBASE, of which a VRB
from 48 on loses 48. A write of a register of core scope (NUMSTAT, SMPCTL, SMPBUF, SMPPTR, SMPDROP) takes place at the end of the period, in
the order of the streams: it clears the bits of NUMSTAT that `sysw` or `syss` names, and merges the writable bits of the sampling registers, which those
planned for the tick see first. FREEZE of TRAPCTL and the fields of CEFCTL take the value of `sysw` and `syss`, and plan what they order; `sysc` writes
none of them. A write of a register that has no writable field changes nothing. -/
def Obligations.SystemRegistersOfAStreamWritten : Prop :=
  ∀ (s : State) (t : Tok) (g : G) (idx : BitVec 12),
    ∀ e ∈ ([ (Instr.sysw, [], fun o v rw => (o &&& ~~~rw) ||| (v &&& rw), 0),
             (Instr.syss, [keySys idx.toNat], fun o v rw => o ||| (v &&& rw), 1),
             (Instr.sysc, [keySys idx.toNat], fun o v rw => o &&& ~~~(v &&& rw), 2) ]
          : List ((Tok → G → BitVec 12 → Instr) × List Nat × (DWord → DWord → DWord → DWord) × Nat)),
      s.mayIssue { t := t, priv := idx.getLsbD 11, reads := keyG g :: e.2.1 } = true →
      let f := e.2.2.1
      let op := e.2.2.2
      let c := s.at.1
      let i := s.at.2
      let k := s.myCore
      let v := s.gr g
      let all := BitVec.allOnes 64
      (idx = 0x011 → ∃ u, exec (e.1 t g idx) s = .next u
          ∧ s.Passes ((s.modMe fun x => { x with srctr := f x.srctr v all }).modMyCore fun k =>
              if s.at.2 = .e then { k with pendW := k.pendW.filter fun w => w.2.idx ≠ 0x011 } else k) u s.after)
      ∧ (idx = 0x800 → ∃ u, exec (e.1 t g idx) s = .next u
          ∧ s.Passes (s.modMe fun x => { x with trapPc := f x.trapPc v 0x1FFFC }) u s.after)
      ∧ (idx = 0x804 → ∃ u, exec (e.1 t g idx) s = .next u ∧ s.Passes (s.modMe fun x => { x with scr0 := f x.scr0 v all }) u s.after)
      ∧ (idx = 0x805 → ∃ u, exec (e.1 t g idx) s = .next u ∧ s.Passes (s.modMe fun x => { x with scr1 := f x.scr1 v all }) u s.after)
      ∧ (idx = 0x010 → ∃ u, exec (e.1 t g idx) s = .next u
          ∧ s.Passes (s.modMe fun x =>
              { x with round := let r := f x.round v 0xFF07; if r.toNat % 8 ≤ 5 then r else r &&& ~~~7 }) u s.after)
      ∧ (idx = 0x012 → ∃ u, exec (e.1 t g idx) s = .next u
          ∧ (i ≠ .e → s.Passes s u s.after)
          ∧ (i = .e → ∃ vrb prb, s.Passes (s.modMyCore fun k => { k with vrb := vrb, prb := prb }) u s.after
            ∧ let r := f (BitVec.ofNat 64 (k.prb.toNat * 256 + k.vrb.toNat)) v 0x73F
              prb = r.extractLsb' 8 3 ∧ vrb = if (r.extractLsb' 0 6).toNat < 48 then r.extractLsb' 0 6 else r.extractLsb' 0 6 - 48))
      ∧ (idx ∈ ([0x020, 0x050, 0x051, 0x052, 0x053] : List (BitVec 12)) →
          (idx = 0x051 → k.smp.ctl.getLsbD 0 = true ∨ smpbufBad (f k.smp.buf v 0x0000FFFF003FFFFF) = false) →
          (idx = 0x052 → i = .e → k.vmPort ≤ s.now) →
          ∃ u, exec (e.1 t g idx) s = .next u
            ∧ s.Passes (s.modMyCore (·.delayWrite s.now ⟨streamNum i, idx.toNat, op, v⟩)) u s.after)
      ∧ (∀ o, s.applyWrite c ⟨o, 0x020, op, v⟩
            = s.modCore c (fun k => { k with numstat := if op = 2 then k.numstat else k.numstat &&& ~~~(v.truncate 8) })
          ∧ s.applyWrite c ⟨o, 0x050, op, v⟩ = s.plan s.now 0 (.smpctlWrite c (f (s.smpNext c 0x050) v 0x1FFFF))
          ∧ s.applyWrite c ⟨o, 0x051, op, v⟩ = s.plan s.now 0 (.smpbufWrite c (f (s.smpNext c 0x051) v 0x0000FFFF003FFFFF))
          ∧ s.applyWrite c ⟨o, 0x052, op, v⟩ = s.plan s.now 0 (.smpptrRdWrite c (f (s.smpNext c 0x052) v 0xFFFFFFFF00000000))
          ∧ s.applyWrite c ⟨o, 0x053, op, v⟩ = s.modCore c fun k =>
              { k with smp := { k.smp with dropped := (f (k.smp.dropped.zeroExtend 64) v 0xFFFFFFFF).truncate 32 } })
      ∧ (idx = 0x806 → ∃ u, exec (e.1 t g idx) s = .next u
          ∧ s.Passes (if op ≠ 2 ∧ v.getLsbD 0 = true then s.plan s.now 30 (.trapctlFreeze c i) else s) u s.after)
      ∧ (idx = 0x807 → ∃ u, exec (e.1 t g idx) s = .next u
          ∧ (op = 2 ∨ v.extractLsb' 8 2 = 3 → s.Passes s u s.after)
          ∧ (op ≠ 2 → v.extractLsb' 8 2 = 0 → s.Passes (s.plan (s.now + 1) 6 (.cefctlAbandon c i (v.extractLsb' 0 8))) u s.after)
          ∧ (op ≠ 2 → v.extractLsb' 8 2 = 1 → s.Passes (s.plan (s.now + 1) 6 (.cefctlRetranslate c i (v.extractLsb' 0 8))) u s.after)
          ∧ (op ≠ 2 → v.extractLsb' 8 2 = 2 → s.Passes (s.plan (s.now + 1) 6 (.cefctlResume c i (v.extractLsb' 0 8))) u s.after))
      ∧ (idx ∈ ([0x000, 0x001, 0x002, 0x021, 0x022, 0x023, 0x030, 0x040, 0x041, 0x042, 0x043, 0x044, 0x045, 0x046, 0x047, 0x801, 0x802,
                 0x803] : List (BitVec 12)) →
          ∃ u, exec (e.1 t g idx) s = .next u ∧ s.Passes s u s.after)

/-- R209, R378: `trap` enters the handler with G[ga] and n, to return to the next instruction; `eret` in the handler clears NEST and
goes to bits [16:2] of TRAPPC. In the free regime, outside the handler for `trap`. -/
def Obligations.SoftwareTrapAndReturn : Prop :=
  ∀ (s : State) (t : Tok),
    (∀ (a : G) (n : BitVec 7), s.mayIssue { t := t, reads := [keyG a] } = true → s.me.nest = false → s.timedAt s.at.1 = false →
      ∃ u, exec (.trap t a n) s = .next u ∧ s.Traps s u 0xE0 (s.gr a) (n.zeroExtend 64) (s.me.pc + 4))
    ∧ (s.mayIssue { t := t, priv := true, reads := [keySys 0x800] } = true → s.me.nest = true →
      ∃ u, exec (.eret t) s = .next u ∧ s.Jumps (s.modMe fun x => { x with nest := false }) u (s.me.trapPc &&& 0x1FFFC))

/-! ### Exceptions -/

/-- R170, R172, R173, R377, R392: outside the handler and the timed regime, an instruction on a stream that may not issue it traps with
0x08, a privileged one without privilege with 0x09, both reporting its words; `perf` and `sysr` of an unassigned number, `phase` with
a non-zero reserved bit and `eret` outside the handler trap with 0x46, 0x45, 0x40 and 0x48. All return to the instruction itself.
R379, R383: a trap inside the handler changes no trap register and no program counter; it freezes the fret instead. Likewise a
trap from SCHEDBASE of a timed launch on writes the trap registers and freezes the fret. (R378 does not say whether a trap inside the handler
writes the trap registers: that it does not, in either regime, is the model's reading, log 69.) -/
def Obligations.PreciseTrapsAndFreezes : Prop :=
  (∀ (s : State) (t : Tok) (d a : G), s.me.retrying = none → s.me.nest = false → s.timedAt s.at.1 = false →
     (let w (n : Nat) : Word := s.iword s.at.1 (s.me.pc.toNat / 4 + n)
      (s.at.2 ≠ .c → ∀ e ∈ ([Instr.madj t a, Instr.phase t a, Instr.mbxack t a] : List Instr),
        ∃ u, exec e s = .next u ∧ s.Traps s u 0x08 ((0 : Word) ++ w 0) 0 s.me.pc)
      ∧ (∀ (n : H) (off : BitVec 12) (y : Bool) (td : TN),
        (s.at.2 ≠ .a → ∀ e ∈ ([.hinv t n, .ldd t d n off] : List Instr),
          ∃ u, exec e s = .next u ∧ s.Traps s u 0x08 ((0 : Word) ++ w 0) 0 s.me.pc)
        ∧ (s.at.2 ≠ .w → ∃ u, exec (.std t d n off) s = .next u ∧ s.Traps s u 0x08 ((0 : Word) ++ w 0) 0 s.me.pc)
        ∧ (s.at.2 ≠ .e → ∃ u, exec (.tzero t y td) s = .next u ∧ s.Traps s u 0x08 (w 1 ++ w 0) 0 s.me.pc))
      ∧ (s.at.2 = .c → s.myCore.ctx ≠ 0 → ∀ e ∈ ([Instr.madj t a, Instr.phase t a, Instr.eret t] : List Instr),
        ∃ u, exec e s = .next u ∧ s.Traps s u 0x09 ((0 : Word) ++ w 0) 0 s.me.pc)
      ∧ (∀ n : BitVec 7, s.mayIssue { t := t } = true → (n.toNat < 64 ∧ 10 < n.toNat % 16 ∨ 75 < n.toNat) →
        ∃ u, exec (.perf t d n) s = .next u ∧ s.Traps s u 0x46 (n.zeroExtend 64) 0 s.me.pc)
      ∧ (∀ idx : BitVec 12, s.mayIssue { t := t, priv := idx.getLsbD 11, reads := [keySys idx.toNat] } = true →
        idx ∈ ([0x003, 0x00F, 0x013, 0x024, 0x031, 0x048, 0x054, 0x7FF, 0x808, 0xFFF] : List (BitVec 12)) →
        ∃ u, exec (.sysr t d idx) s = .next u ∧ s.Traps s u 0x45 (idx.zeroExtend 64) 0 s.me.pc)
      ∧ (s.mayIssue { t := t, streams := [.c], priv := true, reads := [keyG a] } = true → 2 ^ 12 ≤ (s.gr a).toNat →
        ∃ u, exec (.phase t a) s = .next u ∧ s.Traps s u 0x40 (s.gr a) (a.zeroExtend 64) s.me.pc)
      ∧ (s.mayIssue { t := t, priv := true, reads := [keySys 0x800] } = true → ∃ u, exec (.eret t) s = .next u ∧ s.Traps s u 0x48 0 0 s.me.pc)))
  ∧ (∀ (s : State) (c : Nat) (i : StreamId) (cause : Nat) (i0 i1 pc : DWord),
     let u := s.takeTrap c i cause i0 i1 pc
     ((s.str c i).nest = true → u.str c i = s.str c i ∧ (u.fretOf c).frozen = true ∧ u.mem = s.mem)
     ∧ ((s.str c i).nest = false → s.timedAt c = true →
       (u.fretOf c).frozen = true ∧ u.mem = s.mem ∧ (u.str c i).pc = (s.str c i).pc ∧ (u.str c i).nest = false
         ∧ (u.str c i).trapPc = pc &&& 0x1FFFC ∧ (u.str c i).trapCause = dw (cause % 256)
         ∧ (u.str c i).trapInfo0 = i0 ∧ (u.str c i).trapInfo1 = i1))

/-- R66, R72, R160, R173, R348: every stream instruction is issued by a signature, with the token bits of its first word; not ready, it changes
nothing: the stream is only marked with the class that keeps it. In particular one whose token bits ask for a token of a neighbour that is not
there either traps for its stream, privilege or mode, or changes nothing but that mark. -/
def Obligations.WaitingInstructionsChangeNothing : Prop :=
  ∀ (s : State) (i : Instr), i.ctorIdx < (Instr.xfer 0 0 0 0).ctorIdx → s.me.retrying = none →
    let tok : Tok := ((encode i).headD 0).extractLsb' 28 4
    let waits (w : Cls) : Prop := exec i s = .next (s.modMe fun x => { x with tried := true, cls := w, clsPc := x.pc })
    (∃ g f, exec i s = s.issue g f ∧ g.t = tok
      ∧ (g.streams.contains s.at.2 = true → (g.priv = true → s.myCore.privileged s.at.2 = true) → g.mode = true →
        ∀ w, s.notReady g = some w → waits w))
    ∧ ((tok.getLsbD 3 = true ∧ (s.myCore.tokFrom s.at.2 .pred).words = [])
        ∨ (tok.getLsbD 2 = true ∧ (s.myCore.tokFrom s.at.2 .succ).words = []) →
      (∃ w, waits w) ∨ ∃ cause i0 i1, (cause = 0x08 ∨ cause = 0x09 ∨ cause = 0x0A)
        ∧ exec i s = .next (s.granted.takeTrap s.at.1 s.at.2 cause i0 i1 s.me.pc))

/-- R66, R67, R202: the token bits WP and WS of an issued instruction pop one token each from the FIFOs of its neighbours, SP and SS
push one each into its own FIFOs, to be taken from the period after its retirement on, which its latency and the earlier instructions of its stream
set (R67, R186); `tokw` and `toks` pop and push n more. A scalar load or store pops at its issue, reserves its entries, and pushes when its access has
been granted. -/
def Obligations.TokensAreMovedAtIssueAndRetirement : Prop :=
  ∀ (s : State) (t : Tok) (dir : Dir) (m : BitVec 4),
    let b (n : Nat) : Nat := if t.getLsbD n then 1 else 0
    let moved (u : State) (pp ps qp qs : Nat) (lat : Nat := 1) : Prop :=
      let due := max s.me.retireAt (s.now + lat - 1) + 1
      u.myCore.tokFrom s.at.2 .pred = (s.myCore.tokFrom s.at.2 .pred).pop pp
        ∧ u.myCore.tokFrom s.at.2 .succ = (s.myCore.tokFrom s.at.2 .succ).pop ps
        ∧ u.myCore.tokTo s.at.2 .pred = (s.myCore.tokTo s.at.2 .pred).pushN due qp
        ∧ u.myCore.tokTo s.at.2 .succ = (s.myCore.tokTo s.at.2 .succ).pushN due qs
    (s.mayIssue { t := t } = true → ∃ u, exec (.nop t) s = .next u ∧ s.Passes s u s.after ∧ moved u (b 3) (b 2) (b 1) (b 0))
    ∧ (s.mayIssue (match dir with | .pred => { t := t, popP := m.toNat + 1 } | .succ => { t := t, popS := m.toNat + 1 }) = true →
      ∃ u, exec (.tokw t dir m) s = .next u ∧ s.Passes s u s.after
        ∧ moved u (b 3 + if dir = .pred then m.toNat + 1 else 0) (b 2 + if dir = .succ then m.toNat + 1 else 0) (b 1) (b 0))
    ∧ (s.mayIssue (match dir with | .pred => { t := t, pushP := m.toNat + 1 } | .succ => { t := t, pushS := m.toNat + 1 }) = true →
      ∃ u, exec (.toks t dir m) s = .next u ∧ s.Passes s u s.after
        ∧ moved u (b 3) (b 2) (b 1 + if dir = .pred then m.toNat + 1 else 0) (b 0 + if dir = .succ then m.toNat + 1 else 0))
    ∧ (∀ (d x y : G) (n h : H) (c : BCond) (k : Lvl) (i12 : BitVec 12) (i6 : BitVec 6) (i14 : BitVec 14) (i17 : BitVec 17) (i22 : BitVec 22)
        (i45 : BitVec 45) (sel : HWSel) (v2 : VBinB) (v1 : VUnB) (p2 : PBinOp),
      let ok (e : Sig × Nat × Instr) : Prop :=
        s.mayIssue e.1 = true → ∃ u, exec e.2.2 s = .next u ∧ moved u (b 3) (b 2) (b 1) (b 0) e.2.1
      (∀ i ∈ ([.yield t, .halt t, .readm t d, .movi t d i17, .li t d i45, .bra t i22, .call t i22] : List Instr), ok ({ t := t }, 1, i))
      ∧ (∀ i ∈ ([.clz t d x, .ctz t d x, .popc t d x, .mov t d x, .addi t d x i12, .andi t d x i12, .ori t d x i12, .xori t d x i12,
                 .slti t d x i12, .sltiu t d x i12, .shli t d x i6, .shri t d x i6, .srai t d x i6, .rotli t d x i6, .bcz t x c i14,
                 .jr t x, .callr t x, .loop t x k i14, .loopr t x k i14] : List Instr), ok ({ t := t, reads := [keyG x] }, 1, i))
      ∧ (∀ e ∈ ([(1, .add t d x y), (1, .sub t d x y), (3, .mul t d x y), (3, .mulh t d x y), (3, .mulhu t d x y), (24, .div t d x y),
                 (24, .divu t d x y), (24, .rem t d x y), (24, .remu t d x y), (1, .and t d x y), (1, .or t d x y), (1, .xor t d x y),
                 (1, .andn t d x y), (1, .shl t d x y), (1, .shr t d x y), (1, .sra t d x y), (1, .rotl t d x y), (1, .min t d x y),
                 (1, .max t d x y), (1, .minu t d x y), (1, .maxu t d x y), (1, .seq t d x y), (1, .slt t d x y), (1, .sltu t d x y),
                 (1, .sext t d x y)] : List (Nat × Instr)), ok ({ t := t, reads := [keyG x, keyG y] }, e))
      ∧ ok ({ t := t, reads := [keyG x, keyG y, keyG d] }, 1, .sel t d x y) ∧ ok ({ t := t, reads := [keyG d] }, 1, .movhi t d i17)
      ∧ ok ({ t := t, reads := [keyG 31] }, 1, .ret t)
      ∧ ok ({ t := t, streams := [.a], reads := [keyH n] }, 1, .hinv t n)
      ∧ ok ({ t := t, streams := [.a], reads := [keyH n] }, 1, .hqry t d n sel)
      ∧ ok ({ t := t, streams := [.a], reads := [keyH h, keyH n] }, 1, .hmov t n h)
      ∧ (∀ i ∈ ([.vand t v2, .vor t v2, .vxor t v2] : List Instr), ok (s.vecSig t [v2.va, v2.vb] [] v2.pg v2.z v2.vd, 2, i))
      ∧ ok (s.vecSig t [v1.va] [] v1.pg v1.z v1.vd, 2, .vnot t v1)
      ∧ (∀ i ∈ ([.pand t p2, .por t p2, .pxor t p2] : List Instr),
        ok ({ t := t, streams := [.e],
              reads := s.myCore.rdP p2.pa ++ s.myCore.rdP p2.pb ++ s.myCore.rdP p2.pg ++ s.myCore.keepP p2.pg p2.z p2.pd }, 1, i)))
    ∧ (∀ (g : G) (n : H) (off : BitVec 12),
      let reserved (u : State) : Prop :=
        u.myCore.tokFrom s.at.2 .pred = (s.myCore.tokFrom s.at.2 .pred).pop (b 3)
          ∧ u.myCore.tokFrom s.at.2 .succ = (s.myCore.tokFrom s.at.2 .succ).pop (b 2)
          ∧ u.myCore.tokTo s.at.2 .pred = { s.myCore.tokTo s.at.2 .pred with resv := (s.myCore.tokTo s.at.2 .pred).resv + b 1 }
          ∧ u.myCore.tokTo s.at.2 .succ = { s.myCore.tokTo s.at.2 .succ with resv := (s.myCore.tokTo s.at.2 .succ).resv + b 0 }
      let granted (i : Instr) (code lat : Nat) : Prop :=
        ∀ p o id timed, s.me.retrying = some o → s.me.hold = some (.bank p o id timed) → s.ceClash s.at.1 code timed (banksOf o 8) = none →
          s.uncorr (spadOf s.at.1 + o) 8 = none →
          let due := max s.me.retireAt (s.now - 1 + lat - 1) + 1
          let put (ch : Chan) (k : Nat) : Chan := ({ ch with resv := ch.resv - k } : Chan).pushN due k
          ∃ u, exec i s = .next u
            ∧ u.myCore.tokTo s.at.2 .pred = put (s.myCore.tokTo s.at.2 .pred) (b 1)
            ∧ u.myCore.tokTo s.at.2 .succ = put (s.myCore.tokTo s.at.2 .succ) (b 0)
      ((s.myCore.hreg n).kind = 0 → (s.myCore.hreg n).alignBase (off.toNat * 8) % 8 = 0 →
        (s.mayIssue { t := t, streams := [.a], reads := [keyH n, keyG 0] } = true → s.chkLoad s.at.1 n (off.toNat * 8) 8 = none →
          ∃ u, exec (.ldd t g n off) s = .next u ∧ reserved u)
        ∧ (s.mayIssue { t := t, streams := [.w], reads := [keyH n, keyG 0, keyG g] } = true → s.chkStore s.at.1 n (off.toNat * 8) 8 = none →
          ∃ u, exec (.std t g n off) s = .next u ∧ reserved u))
      ∧ granted (.ldd t g n off) 4 6 ∧ granted (.std t g n off) 5 2)

/-! ### Queues and mailboxes -/

/-- R201, R203: `qpush` puts G[ga] into the queue to the neighbour, to be taken from the next tick; `qpop` takes the oldest word from
the neighbour's queue and `qpeek` leaves it there; `mbxrd` takes a valid mailbox; `mbxack` hands a completion record with the entry
and the word to the feed queue. No parity error is met. -/
def Obligations.QueuesAndMailboxes : Prop :=
  ∀ (s : State) (t : Tok) (d a : G) (dir : Dir),
    (s.mayIssue { t := t, reads := [keyG a, keyFifo true s.at.2 dir], wait := if 16 ≤ (s.myCore.qTo s.at.2 dir).used then some .queue else none } = true →
      ∃ u, exec (.qpush t a dir) s = .next u
        ∧ s.Passes (s.modMyCore (·.modQTo s.at.2 dir fun q => { q with due := q.due ++ [(.at (s.now + 1), s.gr a)] })) u s.after)
    ∧ (∀ w r, (s.myCore.qFrom s.at.2 dir).words = w :: r → s.mayIssue { t := t, reads := [s.qKey dir] } = true →
      (∃ u, exec (.qpop t d dir) s = .next u
        ∧ s.Passes ((s.modMyCore (·.modQFrom s.at.2 dir fun q => { q with words := q.words.drop 1, freed := q.freed + 1 })).setG d w)
            u s.after)
      ∧ (∃ u, exec (.qpeek t d dir) s = .next u ∧ s.Passes (s.setG d w) u s.after))
    ∧ (∀ (mb : BitVec 3) v, Sparse.get? (s.fretOf s.at.1).mb mb.toNat = some v → s.mayIssue { t := t, streams := [.c] } = true →
      (s.core s.myCore.fret).parity.contains (keyMb mb.toNat) = false →
      ∃ u, exec (.mbxrd t d mb) s = .next u
        ∧ s.Passes ((s.modFret s.myCore.fret fun f => { f with mb := Sparse.erase f.mb mb.toNat }).setG d v) u s.after)
    ∧ (∀ e l x, s.mayIssue { t := t, streams := [.c], reads := [keyG a] } = true → s.myCore.resident = true →
      (s.fretOf s.at.1).entry = some e → s.myCore.owner = some l → Sparse.get? s.launches l = some x →
      ∃ u v, exec (.mbxack t a) s = .next u
        ∧ s.Passes (s.complete x.feedQ ⟨e, 2, 0, v, dw s.tick, s.gr a⟩) u s.after)

/-! ### Handles, loads and stores -/

/-- R91, R391, R403: a load of `size` bytes at offset `off` of a MEM handle is legal exactly where the handle is valid, of the core's
context, it starts in the core's own scratchpad and the bytes do not reach past the 4 MiB of addresses set apart for that, R is in PERM, and
the bytes lie within LEN and within the map.
R392: outside the handler and the timed regime, a scalar load traps for the first of these that fails, with the handle, its role and no lane, and the
offset of the first failing byte; for any failing check of a window or of the map as `chkLoad` says; and for an address that is not a multiple of
its size, with the size, the registers and whether it extends the sign. -/
def Obligations.LoadsThroughMemoryHandlesAreChecked : Prop :=
  (∀ (s : State) (c : Nat) (n : H) (off size : Nat), c < 480 → ((s.core c).hreg n).kind = 0 →
    let h := (s.core c).hreg n
    s.chkLoad c n off size = none ↔
      h.w0.getLsbD 63 = true ∧ (h.w2.toNat / 2 ^ 32 % 256 = (s.core c).ctx.toNat)
        ∧ (h.base / 2 ^ 48 = s.pkg ∧ ∃ o, o < 0x300000 ∧ h.base % 2 ^ 48 = spadBase + c * 2 ^ 22 + o ∧ o + off + size ≤ 2 ^ 22)
        ∧ h.w1.getLsbD 63 = true ∧ off + size ≤ h.w2.toNat % 2 ^ 31
        ∧ s.hMapped h n 4 off size = none)
  ∧ (∀ (s : State) (t : Tok) (d b : G) (n : H), s.me.nest = false → s.timedAt s.at.1 = false → s.at.1 < 480 →
    let c := s.at.1
    let h := s.myCore.hreg n
    let i0 : DWord := BitVec.ofNat 64 (n.toNat + 4 * 2 ^ 8 + 0xFFFF * 2 ^ 16)
    let traps (i : Instr) (off size : Nat) (signed : Bool) : Prop :=
      let trapped (cause : Nat) (i0 i1 : DWord) : Prop := ∃ u, exec i s = .next u ∧ s.Traps s u cause i0 i1 s.me.pc
      let ctx := h.w2.toNat / 2 ^ 32 % 256 = s.myCore.ctx.toNat
      let own := h.base / 2 ^ 48 = s.pkg ∧ ∃ o, o < 0x300000 ∧ h.base % 2 ^ 48 = spadBase + c * 2 ^ 22 + o ∧ o + off + size ≤ 2 ^ 22
      let legal := h.w0.getLsbD 63 = true ∧ ctx
      (h.w0.getLsbD 63 = false → trapped 0x60 i0 (BitVec.ofNat 64 off))
      ∧ (h.w0.getLsbD 63 = true → ¬ ctx → trapped 0x61 i0 (BitVec.ofNat 64 off))
      ∧ (legal → 2 ≤ h.kind → trapped 0x62 i0 (BitVec.ofNat 64 off))
      ∧ (legal → h.kind = 0 → ¬ own → ∃ i1, trapped 0x63 i0 i1)
      ∧ (legal → h.kind = 0 → own → h.w1.getLsbD 63 = false → trapped 0x64 i0 (BitVec.ofNat 64 off))
      ∧ (legal → h.kind = 0 → own → h.w1.getLsbD 63 = true → h.w2.toNat % 2 ^ 31 < off + size →
        trapped 0x65 i0 (BitVec.ofNat 64 (max off (h.w2.toNat % 2 ^ 31))))
      ∧ (∀ cause j0 j1, s.chkLoad c n off size = some (.trap cause j0 j1) → trapped cause j0 j1)
      ∧ (s.chkLoad c n off size = none → h.alignBase off % size ≠ 0 →
        trapped 0x80 (BitVec.ofNat 64 off)
          (BitVec.ofNat 64 (size + n.toNat * 2 ^ 8 + d.toNat * 2 ^ 17 + (if signed then 2 ^ 24 else 0))))
    (s.mayIssue { t := t, streams := [.a], reads := [keyH n, keyG 0] } = true →
      (∀ off : BitVec 12, traps (.ldb t d n off) off.toNat 1 false ∧ traps (.ldh t d n off) (off.toNat * 2) 2 false
        ∧ traps (.ldw t d n off) (off.toNat * 4) 4 false ∧ traps (.ldd t d n off) (off.toNat * 8) 8 false)
      ∧ (∀ off : BitVec 5, traps (.ldbs t d n off) off.toNat 1 true ∧ traps (.ldhs t d n off) (off.toNat * 2) 2 true
        ∧ traps (.ldws t d n off) (off.toNat * 4) 4 true))
    ∧ (s.mayIssue { t := t, streams := [.a], reads := [keyH n, keyG b] } = true →
      let o := (s.gr b).toNat
      traps (.ldbx t d n b) o 1 false ∧ traps (.ldhx t d n b) o 2 false ∧ traps (.ldwx t d n b) o 4 false
        ∧ traps (.lddx t d n b) o 8 false ∧ traps (.ldbsx t d n b) o 1 true ∧ traps (.ldhsx t d n b) o 2 true
        ∧ traps (.ldwsx t d n b) o 4 true))

/-- R196, R197, R198: every scalar load of the own scratchpad through a legal handle at a naturally aligned address issues, and holds its
stream for the access of the next period; one through a generator window writes the zero- or sign-extended little-endian bytes to gd at once.
In its period (`retrying`) an access that no other requester's bank refuses and that meets no uncorrectable granule writes those bytes of the
own scratchpad to gd, and the instruction retires. -/
def Obligations.ScalarLoadsDeliverBytes : Prop :=
  ∀ (s : State) (t : Tok) (d b : G) (n : H),
    let c := s.at.1
    let h := s.myCore.hreg n
    let value (size : Nat) (signed : Bool) (bs : List Byte) : DWord :=
      if signed then BitVec.ofInt 64 ((leNat bs : Int).bmod (2 ^ (8 * size))) else BitVec.ofNat 64 (leNat bs)
    let issues (i : Instr) (off size : Nat) (signed : Bool) : Prop :=
      s.chkLoad c n off size = none → h.alignBase off % size = 0 →
        (h.kind = 0 → ∃ u, exec i s = .next u
          ∧ s.Holds (({ s with serial := s.serial + 1 } : State).plan (s.now + 1) 18 (.scalarAccess c s.at.2)) u
              (.bank (s.now + 1) (h.local off - spadOf c) s.serial (s.timedAt c)))
        ∧ (h.kind = 1 → ∃ u, exec i s = .next u
            ∧ s.Passes (s.setG d (value size signed ((List.range size).map fun j => (s.ctxOf c).winByte h.desc (h.woff + off + j)))) u s.after)
    let delivers (i : Instr) (size : Nat) (signed : Bool) : Prop :=
      ∀ p o id timed, s.me.retrying = some o → s.me.hold = some (.bank p o id timed) → s.ceClash c 4 timed (banksOf o size) = none →
        s.uncorr (spadOf c + o) size = none →
        ∃ u, exec i s = .next u
          ∧ s.Retires (((s.modMyCore (·.useBanks s.now s.now 4 (banksOf o size))).touch (s.myWho uStream) (spadOf c + o) size).setG d
              (value size signed ((List.range size).map fun j => s.mem.get (spadOf c + o + j)))) u s.after
    (s.mayIssue { t := t, streams := [.a], reads := [keyH n, keyG 0] } = true →
      (∀ off : BitVec 12, issues (.ldb t d n off) off.toNat 1 false ∧ issues (.ldh t d n off) (off.toNat * 2) 2 false
        ∧ issues (.ldw t d n off) (off.toNat * 4) 4 false ∧ issues (.ldd t d n off) (off.toNat * 8) 8 false)
      ∧ (∀ off : BitVec 5, issues (.ldbs t d n off) off.toNat 1 true ∧ issues (.ldhs t d n off) (off.toNat * 2) 2 true
        ∧ issues (.ldws t d n off) (off.toNat * 4) 4 true))
    ∧ (s.mayIssue { t := t, streams := [.a], reads := [keyH n, keyG b] } = true →
      let o := (s.gr b).toNat
      issues (.ldbx t d n b) o 1 false ∧ issues (.ldhx t d n b) o 2 false ∧ issues (.ldwx t d n b) o 4 false
        ∧ issues (.lddx t d n b) o 8 false ∧ issues (.ldbsx t d n b) o 1 true ∧ issues (.ldhsx t d n b) o 2 true
        ∧ issues (.ldwsx t d n b) o 4 true)
    ∧ (∀ off : BitVec 12, delivers (.ldb t d n off) 1 false ∧ delivers (.ldh t d n off) 2 false ∧ delivers (.ldw t d n off) 4 false
      ∧ delivers (.ldd t d n off) 8 false)
    ∧ (∀ off : BitVec 5, delivers (.ldbs t d n off) 1 true ∧ delivers (.ldhs t d n off) 2 true ∧ delivers (.ldws t d n off) 4 true)
    ∧ delivers (.ldbx t d n b) 1 false ∧ delivers (.ldhx t d n b) 2 false ∧ delivers (.ldwx t d n b) 4 false ∧ delivers (.lddx t d n b) 8 false
    ∧ delivers (.ldbsx t d n b) 1 true ∧ delivers (.ldhsx t d n b) 2 true ∧ delivers (.ldwsx t d n b) 4 true

/-- R196, R197, R198, R453: every scalar store through a legal MEM handle at a naturally aligned address issues, and holds its stream for the
access of the next period; through a window without STRAP it changes no value and counts. In its period an access that no bank refuses writes
the low bytes of its register to the own scratchpad, every other byte of memory reads as before, and the instruction retires. -/
def Obligations.ScalarStoresWriteBytes : Prop :=
  ∀ (s : State) (t : Tok) (g b : G) (n : H),
    let c := s.at.1
    let h := s.myCore.hreg n
    let issues (i : Instr) (off size : Nat) : Prop :=
      s.chkStore c n off size = none → h.alignBase off % size = 0 →
        (h.kind = 0 → ∃ u, exec i s = .next u
          ∧ s.Holds (({ s with serial := s.serial + 1 } : State).plan (s.now + 1) 19 (.scalarAccess c s.at.2)) u
              (.bank (s.now + 1) (h.local off - spadOf c) s.serial (s.timedAt c)))
        ∧ (h.kind = 1 → s.strap c h = false → ∃ u, exec i s = .next u ∧ s.Passes (s.modMyCore (·.count 75)) u s.after)
    let writes (i : Instr) (size : Nat) : Prop :=
      ∀ p o id timed, s.me.retrying = some o → s.me.hold = some (.bank p o id timed) → s.ceClash c 5 timed (banksOf o size) = none →
        ∃ u, exec i s = .next u
          ∧ s.Retires ((s.modMyCore (·.useBanks s.now s.now 5 (banksOf o size))).store
              { core := some c, stream := some s.at.2, unit := uStream } (spadOf c + o) (leBytes size (s.gr g).toNat)) u s.after
          ∧ (∀ j, j < size → u.mem.get (spadOf c + o + j) = (s.gr g).extractLsb' (8 * j) 8)
          ∧ (∀ a, ¬ (spadOf c + o ≤ a ∧ a < spadOf c + o + size) → u.mem.get a = s.mem.get a)
    (s.mayIssue { t := t, streams := [.w], reads := [keyH n, keyG 0, keyG g] } = true →
      ∀ off : BitVec 12, issues (.stb t g n off) off.toNat 1 ∧ issues (.sth t g n off) (off.toNat * 2) 2
        ∧ issues (.stw t g n off) (off.toNat * 4) 4 ∧ issues (.std t g n off) (off.toNat * 8) 8)
    ∧ (s.mayIssue { t := t, streams := [.w], reads := [keyH n, keyG b, keyG g] } = true →
      let o := (s.gr b).toNat
      issues (.stbx t g n b) o 1 ∧ issues (.sthx t g n b) o 2 ∧ issues (.stwx t g n b) o 4 ∧ issues (.stdx t g n b) o 8)
    ∧ (∀ off : BitVec 12, writes (.stb t g n off) 1 ∧ writes (.sth t g n off) 2 ∧ writes (.stw t g n off) 4 ∧ writes (.std t g n off) 8)
    ∧ writes (.stbx t g n b) 1 ∧ writes (.sthx t g n b) 2 ∧ writes (.stwx t g n b) 4 ∧ writes (.stdx t g n b) 8

/-- R102, R111, R198, R422: in its period, a scalar access whose bank another requester holds retries in the next one if it issued in the free
regime, with the same scratchpad offset, and nothing is written; if it issued in the timed regime the stream holds nothing any more and the error
is BANK, with the bank, the code of the requester that performs and that of A (4) for a load, of W (5) for a store. -/
def Obligations.RefusedScalarAccessesRetry : Prop :=
  ∀ (s : State) (t : Tok) (g b : G) (n : H),
    let c := s.at.1
    let refused (i : Instr) (code rank size : Nat) : Prop :=
      ∀ p o id timed bank w, s.me.retrying = some o → s.me.hold = some (.bank p o id timed) →
        s.ceClash c code timed (banksOf o size) = some (bank, w) →
        (timed = false → exec i s = .next
          (((s.modMyCore (·.count 70)).plan (s.now + 1) rank (.scalarAccess c s.at.2)).modMe fun x =>
            { x with hold := some (.bank (s.now + 1) o id false) }))
        ∧ (timed = true → exec i s = .next
          ((s.modMe fun x => { x with hold := none, holdTok := 0 }).schedErr c (some s.at.2) uStream 0xC2 (dw bank) (dw (w + code * 256))
            (some (mkPpa s.pkg (spadOf c + o)))))
    (∀ off : BitVec 12,
      (∀ e ∈ ([(.ldb t g n off, 1), (.ldh t g n off, 2), (.ldw t g n off, 4), (.ldd t g n off, 8)] : List (Instr × Nat)), refused e.1 4 18 e.2)
      ∧ ∀ e ∈ ([(.stb t g n off, 1), (.sth t g n off, 2), (.stw t g n off, 4), (.std t g n off, 8)] : List (Instr × Nat)), refused e.1 5 19 e.2)
    ∧ (∀ off : BitVec 5, ∀ e ∈ ([(.ldbs t g n off, 1), (.ldhs t g n off, 2), (.ldws t g n off, 4)] : List (Instr × Nat)), refused e.1 4 18 e.2)
    ∧ (∀ e ∈ ([(.ldbx t g n b, 1), (.ldhx t g n b, 2), (.ldwx t g n b, 4), (.lddx t g n b, 8), (.ldbsx t g n b, 1), (.ldhsx t g n b, 2),
            (.ldwsx t g n b, 4)] : List (Instr × Nat)), refused e.1 4 18 e.2)
    ∧ (∀ e ∈ ([(.stbx t g n b, 1), (.sthx t g n b, 2), (.stwx t g n b, 4), (.stdx t g n b, 8)] : List (Instr × Nat)), refused e.1 5 19 e.2)

/-- R200: `hinv` clears VALID and leaves the other fields, `hqry` reads a word of a handle, valid or not, `hmov` copies a handle, and
`hnarrow` of a legal operand narrows it: the offset is added to BASE (or WOFF of a window) and VA, LEN becomes NLEN. -/
def Obligations.HandleInstructions : Prop :=
  ∀ (s : State) (t : Tok) (d : G) (hd hs : H) (b : G),
    (s.mayIssue { t := t, streams := [.a], reads := [keyH hd] } = true →
      ∃ u v, exec (.hinv t hd) s = .next u ∧ s.Passes (s.modMyCore (·.setHreg hd.toNat v)) u s.after
        ∧ v.w0.getLsbD 63 = false ∧ v.w0.extractLsb' 0 63 = (s.myCore.hreg hd).w0.extractLsb' 0 63
        ∧ v.w1 = (s.myCore.hreg hd).w1 ∧ v.w2 = (s.myCore.hreg hd).w2)
    ∧ (s.mayIssue { t := t, streams := [.a], reads := [keyH hs] } = true →
      ∀ e ∈ ([(.hw0, (s.myCore.hreg hs).w0), (.hw1, (s.myCore.hreg hs).w1), (.hw2, (s.myCore.hreg hs).w2)] : List (HWSel × DWord)),
        ∃ u, exec (.hqry t d hs e.1) s = .next u ∧ s.Passes (s.setG d e.2) u s.after)
    ∧ (s.mayIssue { t := t, streams := [.a], reads := [keyH hs, keyH hd] } = true →
      ∃ u, exec (.hmov t hd hs) s = .next u ∧ s.Passes (s.modMyCore (·.setHreg hd.toNat (s.myCore.hreg hs))) u s.after)
    ∧ (s.mayIssue { t := t, streams := [.a], reads := [keyH hs, keyH hd, keyG b] } = true →
      let h := s.myCore.hreg hs
      let off := (s.gr b).toNat % 2 ^ 32
      let len := (s.gr b).toNat / 2 ^ 32
      h.valid = true → 1 ≤ len → off + len ≤ h.len →
      ∃ u v, exec (.hnarrow t hd hs b) s = .next u ∧ s.Passes (s.modMyCore (·.setHreg hd.toNat v)) u s.after
        ∧ v.valid = true ∧ v.kind = h.kind ∧ v.psz = h.psz ∧ v.perm = h.perm ∧ v.ctx = h.ctx ∧ v.len = len
        ∧ v.va = (h.va + off) % 2 ^ 48
        ∧ (h.kind ≠ 1 → v.base = (h.base + off) % 2 ^ 58)
        ∧ (h.kind = 1 → v.desc = h.desc ∧ v.woff = (h.woff + off) % 2 ^ 42))

/-- R96, R97, R199: `xlate` of an address that a slice covers completes: it plans the handle of its leaf, with the permissions asked for and
granted, the physical address, window or own-scratchpad address of its page and offset (R93; a SYNC leaf with SELF is log 42), and the length to the
end of the page, which the start of the period 95 later writes into the register; one that no slice covers asserts the fret's stall wire and waits for the MC, in a launch that is not
timed; in a timed one it is the schedule error XLATEMISS with the address (R411), and writes nothing. -/
def Obligations.TranslationHitsAndMisses : Prop :=
  ∀ (s : State) (t : Tok) (hd : H) (a : G) (req : BitVec 4),
    s.mayIssue { t := t, streams := [.a], reads := [keyG a, keyH hd] } = true →
    let c := s.at.1
    let va := (s.gr a).toNat % 2 ^ 48
    (∀ hm j e, s.sliceHit s.myCore.ctx va = some (hm, j, e) → s.myCore.timed = true ∨ (s.core hm).parity.contains (sliceKey j) = false →
      ∃ u v, exec (.xlate t hd a req) s = .next u
        ∧ s.Passes (s.modMyCore fun k => { k with pendH := k.pendH ++ [(s.now + 95, hd.toNat, v)] }) u s.after
        ∧ v.valid = true ∧ v.va = va ∧ v.ctx = s.myCore.ctx.toNat ∧ v.kind = bits e.leaf 61 60 % 4
        ∧ v.perm = (bits e.leaf 59 56 &&& req.toNat) ∧ ((u.core c).handles (s.now + 95)).hreg hd = v
        ∧ (let psz := bits e.leaf 55 54
           let size := match psz with
             | 0 => 2 ^ 12
             | 1 => 2 ^ 16
             | 2 => 2 ^ 21
             | _ => 2 ^ 30
           let off := va % size
           v.psz = psz ∧ v.len = size - off
             ∧ (v.kind = 1 → v.desc = bits e.leaf 45 42 ∧ v.woff = (bits e.leaf 29 0 * 4096 + off) % 2 ^ 42)
             ∧ (v.kind ≠ 1 → e.leaf.getLsbD 53 = false → v.base = (bits e.leaf 45 0 * 4096 + off) % 2 ^ 58)
             ∧ (v.kind ≠ 1 → e.leaf.getLsbD 53 = true →
               v.base = (s.pkg * 2 ^ 48 + spadOf c + bits e.leaf 45 0 * 4096 + off) % 2 ^ 58)))
    ∧ (s.sliceHit s.myCore.ctx va = none → s.myCore.timed = false →
      ∃ u, exec (.xlate t hd a req) s = .next u
        ∧ s.Holds ((s.modFret s.myCore.fret fun f => { f.assert s.now with misses := f.misses + 1 }).emit (.walkMiss c s.at.2)) u
            (.miss hd va req))
    ∧ (s.sliceHit s.myCore.ctx va = none → s.myCore.timed = true →
      exec (.xlate t hd a req) s = .next (s.granted.schedErr c (some s.at.2) uStream 0xC7 (BitVec.ofNat 64 va) 0))

/-! ### Vector instructions -/

/-- R175, R213, R214: a write of a vector register changes that register alone, by its physical number, and reads back; P0 is never
written and reads all ones; names below 16 (vectors) and 8 (predicates) do not rotate, the others do. -/
def Obligations.VectorAndPredicateRegisters : Prop :=
  ∀ (k : Core) (n m : V) (p q : P) (x : Sparse Lane) (b : Pred),
    (k.setVreg n x).vreg n = x
    ∧ (k.vphys m ≠ k.vphys n → (k.setVreg n x).vreg m = k.vreg m)
    ∧ k.preg 0 = BitVec.allOnes 512 ∧ k.setPreg 0 b = k
    ∧ (p ≠ 0 → (k.setPreg p b).preg p = b)
    ∧ (p ≠ 0 → q ≠ 0 → k.pphys q ≠ k.pphys p → (k.setPreg p b).preg q = k.preg q)
    ∧ (n.toNat < 16 → k.vphys n = n.toNat) ∧ (p.toNat < 8 → k.pphys p = p.toNat)
    ∧ (16 ≤ n.toNat → 16 ≤ k.vphys n ∧ k.vphys n < 64 ∧ (k.vphys n + 32) % 48 = (n.toNat + 32 + k.vrb.toNat) % 48)
    ∧ (8 ≤ p.toNat → 8 ≤ k.pphys p ∧ k.pphys p < 16 ∧ k.pphys p % 8 = (p.toNat + k.prb.toNat) % 8)

/-- R145, R222: the floating-point instructions of FP32, BF16 and FP16 write, lane by lane, the exact sum, difference, product, fused
product and sum, quotient, reciprocal, root or reciprocal root, rounded once to the type; under stochastic rounding SRCTR advances by
512 at retirement. -/
def Obligations.VectorFloatingPoint : Prop :=
  ∀ (s : State) (t : Tok),
    let effect (rm : Rm) (lat : Nat) (v : State) : State :=
      if s.me.rmOf rm = .sr then v.modMyCore (·.delayWrite (max s.me.retireAt (s.now + lat - 1)) ⟨4, 0x011, 4, 512⟩) else v
    let num (ty : Ty) (n : V) (i : Nat) : FVal := laneVal ty (laneOf (s.myCore.vreg n) i)
    (∀ (o : VBinR) (m : Fmt), tyArith o.ty = true → tyFmt o.ty = some m →
      s.mayIssue (s.vecSigR t [o.va, o.vb] o.pg o.z o.vd o.rm) = true →
      ∀ e ∈ ([ (Instr.vadd, 4, fun rm a b => a.add rm b), (Instr.vsub, 4, fun rm a b => a.add rm b.flip),
               (Instr.vmul, 4, fun _ a b => a.mul b), (Instr.vdiv, 20, fun _ a b => a.div b) ]
            : List ((Tok → VBinR → Instr) × Nat × (Rm → FVal → FVal → FVal))),
        ∃ u x, exec (e.1 t o) s = .next u
          ∧ s.Passes (effect o.rm e.2.1 (s.modMyCore (·.setVreg o.vd x))) u (s.after 2) o.y
          ∧ s.Lanes o.vd o.pg o.z (fun i => BitVec.ofNat 32
              (m.result (s.me.rmOf o.rm) o.sat (s.draw (s.me.rmOf o.rm) i) (e.2.2 (s.me.rmOf o.rm) (num o.ty o.va i) (num o.ty o.vb i)))) x)
    ∧ (∀ (o : VTriR) (m : Fmt), tyArith o.ty = true → tyFmt o.ty = some m →
      s.mayIssue (s.vecSigR t [o.va, o.vb, o.vc] o.pg o.z o.vd o.rm) = true →
      ∀ e ∈ ([ (Instr.vfma, fun rm a b c => (a.mul b).add rm c), (Instr.vfms, fun rm a b c => (a.mul b).add rm c.flip),
               (Instr.vfnma, fun rm a b c => (a.mul b).flip.add rm c) ]
            : List ((Tok → VTriR → Instr) × (Rm → FVal → FVal → FVal → FVal))),
        ∃ u x, exec (e.1 t o) s = .next u
          ∧ s.Passes (effect o.rm 4 (s.modMyCore (·.setVreg o.vd x))) u (s.after 2) o.y
          ∧ s.Lanes o.vd o.pg o.z (fun i => BitVec.ofNat 32 (m.result (s.me.rmOf o.rm) o.sat (s.draw (s.me.rmOf o.rm) i)
              (e.2 (s.me.rmOf o.rm) (num o.ty o.va i) (num o.ty o.vb i) (num o.ty o.vc i)))) x)
    ∧ (∀ (o : VUnR) (m : Fmt), tyArith o.ty = true → tyFmt o.ty = some m →
      s.mayIssue (s.vecSigR t [o.va] o.pg o.z o.vd o.rm) = true →
      ∀ e ∈ ([ (Instr.vrcp, 12, fun a => FVal.div (.fin ⟨false, 1, 1⟩) a), (Instr.vsqrt, 20, fun a => a.sqrt),
               (Instr.vrsqrt, 12, fun a => a.rsqrt) ] : List ((Tok → VUnR → Instr) × Nat × (FVal → FVal))),
        ∃ u x, exec (e.1 t o) s = .next u
          ∧ s.Passes (effect o.rm e.2.1 (s.modMyCore (·.setVreg o.vd x))) u (s.after 2) o.y
          ∧ s.Lanes o.vd o.pg o.z (fun i => BitVec.ofNat 32
              (m.result (s.me.rmOf o.rm) o.sat (s.draw (s.me.rmOf o.rm) i) (e.2.2 (num o.ty o.va i)))) x)

/-- R223 to R226: minimum and maximum by value with -0 below +0 and a NaN giving the canonical NaN; absolute value and negation of the
sign bit alone; classification of an element of a float type; comparison into a predicate; selection of every lane. -/
def Obligations.VectorComparisons : Prop :=
  ∀ (s : State) (t : Tok),
    let elem (ty : Ty) (n : V) (i : Nat) : Nat := (laneOf (s.myCore.vreg n) i).toNat % 2 ^ tyWidth ty
    (∀ (o : VBinT) (m : Fmt), tyArith o.ty = true → tyFmt o.ty = some m → s.mayIssue (s.vecSig t [o.va, o.vb] [] o.pg o.z o.vd) = true →
      ∀ e ∈ ([ (Instr.vmin, fun x y => if m.key x ≤ m.key y then x else y), (Instr.vmax, fun x y => if m.key x ≤ m.key y then y else x) ]
            : List ((Tok → VBinT → Instr) × (Nat → Nat → Nat))),
        ∃ u x, exec (e.1 t o) s = .next u ∧ s.Passes (s.modMyCore (·.setVreg o.vd x)) u (s.after 2) o.y
          ∧ s.Lanes o.vd o.pg o.z (fun i =>
              let a := elem o.ty o.va i
              let b := elem o.ty o.vb i
              BitVec.ofNat 32 (if m.dec a = .nan ∨ m.dec b = .nan then m.nan else e.2 a b)) x)
    ∧ (∀ (o : VUnT), s.mayIssue (s.vecSig t [o.va] [] o.pg o.z o.vd) = true →
      (tyArith o.ty = true → ∀ e ∈ ([ (Instr.vabs, fun a => a % 2 ^ (tyWidth o.ty - 1)),
              (Instr.vneg, fun a => a ^^^ 2 ^ (tyWidth o.ty - 1)) ] : List ((Tok → VUnT → Instr) × (Nat → Nat))),
        ∃ u x, exec (e.1 t o) s = .next u ∧ s.Passes (s.modMyCore (·.setVreg o.vd x)) u (s.after 2) o.y
          ∧ s.Lanes o.vd o.pg o.z (fun i => BitVec.ofNat 32 (e.2 (elem o.ty o.va i))) x)
      ∧ (∀ m, tyFmt o.ty = some m →
        ∃ u x, exec (.vclass t o) s = .next u ∧ s.Passes (s.modMyCore (·.setVreg o.vd x)) u (s.after 2) o.y
          ∧ s.Lanes o.vd o.pg o.z (fun i =>
              let a := elem o.ty o.va i
              let neg := 2 ^ (m.w - 1) ≤ a
              let mag := a % 2 ^ (m.w - 1)
              let bit : Nat := match m.dec a with
                | .nan => 8
                | .inf _ => if neg then 0 else 7
                | .fin v => if v.num = 0 then (if neg then 3 else 4) else if mag < 2 ^ m.f then (if neg then 2 else 5) else if neg then 1 else 6
              BitVec.ofNat 32 (2 ^ bit)) x))
    ∧ (∀ (o : VCmpOp), o.ty ≠ .int4 → (isFloat o.ty = true ∨ (o.cond ≠ .un ∧ o.cond ≠ .or)) →
      s.mayIssue { t := t, streams := [.e],
                   reads := [s.myCore.keyV o.va, s.myCore.keyV o.vb] ++ s.myCore.rdP o.pg ++ s.myCore.keepP o.pg o.z o.pd } = true →
      ∃ u x, exec (.vcmp t o) s = .next u ∧ s.Passes (s.modMyCore (·.setPreg o.pd x)) u (s.after 2) o.y
        ∧ s.Bits o.pd o.pg o.z (fun i => cmpHolds o.ty o.cond (laneOf (s.myCore.vreg o.va) i) (laneOf (s.myCore.vreg o.vb) i)) x)
    ∧ (∀ (o : VSelOp),
      s.mayIssue { t := t, streams := [.e], reads := [s.myCore.keyV o.va, s.myCore.keyV o.vb] ++ s.myCore.rdP o.pg } = true →
      ∃ u x, exec (.vsel t o) s = .next u ∧ s.Passes (s.modMyCore (·.setVreg o.vd x)) u (s.after 2) o.y
        ∧ ∀ i, i < 512 → laneOf x i = laneOf (s.myCore.vreg (if (s.myCore.preg o.pg).getLsbD i then o.va else o.vb)) i)

/-- R224: the conditions of `vcmp` on two numbers: with a NaN only ne and un hold; without, the order of the real values decides, equal
zeros of either sign included. -/
def Obligations.VectorConditions : Prop :=
  ∀ (ty : Ty) (a b : Lane),
    (laneVal ty a = .nan ∨ laneVal ty b = .nan → ∀ c, cmpHolds ty c a b = (c == .ne || c == .un))
    ∧ (∀ x y, laneVal ty a = .fin x → laneVal ty b = .fin y →
      let l : Int := x.snum * y.den
      let r : Int := y.snum * x.den
      cmpHolds ty .eq a b = decide (l = r) ∧ cmpHolds ty .ne a b = decide (l ≠ r) ∧ cmpHolds ty .lt a b = decide (l < r)
        ∧ cmpHolds ty .le a b = decide (l ≤ r) ∧ cmpHolds ty .gt a b = decide (r < l) ∧ cmpHolds ty .ge a b = decide (r ≤ l)
        ∧ cmpHolds ty .un a b = false ∧ cmpHolds ty .or a b = true)

/-- R227: the integer instructions of INT8 to INT32 and UINT8: sums, differences and products wrap or clamp, high halves, minima and
maxima, shifts by the low eight bits of the lane of vb with counts of the width and more, absolute values; and the bitwise operations
of all 32 bits. -/
def Obligations.VectorIntegerArithmetic : Prop :=
  ∀ (s : State) (t : Tok),
    let lane (n : V) (i : Nat) : Lane := laneOf (s.myCore.vreg n) i
    let int (ty : Ty) (n : V) (i : Nat) : Int := intOf ty (lane n i).toNat
    let put (ty : Ty) (sat : Bool) (v : Int) : Lane :=
      toLane ty ((if sat then max (tyMin ty) (min (tyMax ty) v) else v) % (2 ^ tyWidth ty : Nat)).toNat
    (∀ (o : VBinS), tyInt o.ty = true → s.mayIssue (s.vecSig t [o.va, o.vb] [] o.pg o.z o.vd) = true →
      ∀ e ∈ ([ (Instr.viadd, fun a b => a + b), (Instr.visub, fun a b => a - b), (Instr.vimul, fun a b => a * b) ]
            : List ((Tok → VBinS → Instr) × (Int → Int → Int))),
        ∃ u x, exec (e.1 t o) s = .next u ∧ s.Passes (s.modMyCore (·.setVreg o.vd x)) u (s.after 2) o.y
          ∧ s.Lanes o.vd o.pg o.z (fun i => put o.ty o.sat (e.2 (int o.ty o.va i) (int o.ty o.vb i))) x)
    ∧ (∀ (o : VBinT), tyInt o.ty = true → s.mayIssue (s.vecSig t [o.va, o.vb] [] o.pg o.z o.vd) = true →
      let w := tyWidth o.ty
      ∀ e ∈ ([ (Instr.vimulh, fun i => put o.ty false (int o.ty o.va i * int o.ty o.vb i / 2 ^ w)),
               (Instr.vimin, fun i => put o.ty false (min (int o.ty o.va i) (int o.ty o.vb i))),
               (Instr.vimax, fun i => put o.ty false (max (int o.ty o.va i) (int o.ty o.vb i))),
               (Instr.vshl, fun i => toLane o.ty ((lane o.va i).toNat % 2 ^ w * 2 ^ ((lane o.vb i).toNat % 256))),
               (Instr.vshr, fun i => toLane o.ty ((lane o.va i).toNat % 2 ^ w / 2 ^ ((lane o.vb i).toNat % 256))),
               (Instr.vsra, fun i => put o.ty false (((lane o.va i).toNat : Int).bmod (2 ^ w) / 2 ^ ((lane o.vb i).toNat % 256))) ]
            : List ((Tok → VBinT → Instr) × (Nat → Lane))),
        ∃ u x, exec (e.1 t o) s = .next u ∧ s.Passes (s.modMyCore (·.setVreg o.vd x)) u (s.after 2) o.y ∧ s.Lanes o.vd o.pg o.z e.2 x)
    ∧ (∀ (o : VUnS), tyInt o.ty = true → s.mayIssue (s.vecSig t [o.va] [] o.pg o.z o.vd) = true →
      ∃ u x, exec (.viabs t o) s = .next u ∧ s.Passes (s.modMyCore (·.setVreg o.vd x)) u (s.after 2) o.y
        ∧ s.Lanes o.vd o.pg o.z (fun i => put o.ty o.sat (int o.ty o.va i).natAbs) x)
    ∧ (∀ (o : VBinB), s.mayIssue (s.vecSig t [o.va, o.vb] [] o.pg o.z o.vd) = true →
      ∀ e ∈ ([ (Instr.vand, fun a b => a &&& b), (Instr.vor, fun a b => a ||| b), (Instr.vxor, fun a b => a ^^^ b) ]
            : List ((Tok → VBinB → Instr) × (Lane → Lane → Lane))),
        ∃ u x, exec (e.1 t o) s = .next u ∧ s.Passes (s.modMyCore (·.setVreg o.vd x)) u (s.after 2) o.y
          ∧ s.Lanes o.vd o.pg o.z (fun i => e.2 (lane o.va i) (lane o.vb i)) x)
    ∧ (∀ (o : VUnB), s.mayIssue (s.vecSig t [o.va] [] o.pg o.z o.vd) = true →
      ∃ u x, exec (.vnot t o) s = .next u ∧ s.Passes (s.modMyCore (·.setVreg o.vd x)) u (s.after 2) o.y
        ∧ s.Lanes o.vd o.pg o.z (fun i => ~~~ lane o.va i) x)

/-- R228 to R232: conversion between types with its CV flag, packing and unpacking of INT4 elements, byte and word permutes, rotation
and sliding, by lane, byte and nibble. -/
def Obligations.VectorConversionsAndPermutes : Prop :=
  ∀ (s : State) (t : Tok),
    let lane (n : V) (i : Nat) : Lane := laneOf (s.myCore.vreg n) i
    let byte (n : V) (j : Nat) : Byte := (lane n (j / 4)).extractLsb' (8 * (j % 4)) 8
    let nib (n : V) (j : Nat) : BitVec 4 := (lane n (j / 8)).extractLsb' (4 * (j % 8)) 4
    let lanes (i : Instr) (vd : V) (y : Bool) (p : Sparse Lane → Prop) : Prop :=
      ∃ u x, exec i s = .next u ∧ s.Passes (s.modMyCore (·.setVreg vd x)) u (s.after 2) y ∧ p x
    (∀ (o : VCvtOp), o.dst ≠ o.src → o.dst ≠ .int4 → o.src ≠ .int4 → s.mayIssue (s.vecSigR t [o.va] o.pg o.z o.vd o.rm) = true →
      let rm := s.me.rmOf o.rm
      let one (i : Nat) : Nat × Bool := cvtElem o.src o.dst rm o.sat (s.draw rm i) ((lane o.va i).toNat % 2 ^ tyWidth o.src)
      let at_ := max s.me.retireAt (s.now + 3)
      let flag : Bool := (List.range 512).any fun i => (s.myCore.preg o.pg).getLsbD i && (one i).2
      ∃ u x, exec (.vcvt t o) s = .next u
        ∧ (let a := s.modMyCore (·.setVreg o.vd x)
           let b := if rm = .sr then a.modMyCore (·.delayWrite at_ ⟨4, 0x011, 4, 512⟩) else a
           s.Passes (if flag then b.modMyCore (·.delayWrite at_ ⟨4, 0x020, 3, 0x80⟩) else b) u (s.after 2) o.y)
        ∧ s.Lanes o.vd o.pg o.z (fun i => toLane o.dst (one i).1) x)
    ∧ (∀ (o : VPackOp), s.mayIssue (s.vecSig t [o.va, o.vb] [] 0 false o.vd) = true → lanes (.vpack4 t o) o.vd o.y fun x =>
        (∀ i, 128 ≤ i → i < 512 → laneOf x i = 0)
        ∧ ∀ j, j < 1024 → (laneOf x (j / 8)).extractLsb' (4 * (j % 8)) 4
            = (let v := (if j < 512 then lane o.va j else lane o.vb (j - 512)).toInt
               BitVec.ofInt 4 (if o.sat then max (-8) (min 7 v) else v)))
    ∧ (∀ (o : VUnpackOp), s.mayIssue (s.vecSig t [o.va] [] o.pg o.z o.vd) = true → lanes (.vunpack4 t o) o.vd o.y
        (s.Lanes o.vd o.pg o.z fun i => (nib o.va (if o.half then i + 512 else i)).signExtend 32))
    ∧ (∀ (o : VTriB), s.mayIssue (s.vecSig t [o.va, o.vb, o.vc] [] o.pg o.z o.vd) = true →
        (∃ f, lanes (.vpermb t o) o.vd o.y (s.Lanes o.vd o.pg o.z f)
          ∧ ∀ j, j < 2048 → (f (j / 4)).extractLsb' (8 * (j % 4)) 8
              = (let x := (byte o.vc j).toNat
                 if 128 ≤ x then 0 else if x < 64 then byte o.va (j / 64 * 64 + x) else byte o.vb (j / 64 * 64 + (x - 64))))
        ∧ lanes (.vpermw t o) o.vd o.y (s.Lanes o.vd o.pg o.z fun i =>
            let m := lane o.vc i
            if m.getLsbD 31 then 0
            else if m.getLsbD 9 then lane o.vb (m.toNat % 512) else lane o.va (m.toNat % 512)))
    ∧ (∀ (o : VRotOp), s.mayIssue (s.vecSig t [o.va] [o.gk] o.pg o.z o.vd) = true → lanes (.vrot t o) o.vd o.y
        (s.Lanes o.vd o.pg o.z fun i => lane o.va ((i + (s.gr o.gk).toNat) % 512)))
    ∧ (∀ (o : VSlideOp), s.mayIssue (s.vecSig t [o.va, o.vb] [o.gk] o.pg o.z o.vd) = true → lanes (.vslide t o) o.vd o.y
        (s.Lanes o.vd o.pg o.z fun i =>
          let j := i + (s.gr o.gk).toNat % 512
          if j < 512 then lane o.va j else lane o.vb (j - 512)))

/-- R221, R234, R236, R238: broadcast, moves between a lane and a scalar register, table interpolation of a loaded table, random draws
of the counter-based generator, and the greatest K+1 pairs of two registers in rank order: by value and index, then a pair of va before one of vb,
then the lower pair position. -/
def Obligations.VectorMovesTablesDrawsAndSelection : Prop :=
  ∀ (s : State) (t : Tok),
    let lane (n : V) (i : Nat) : Lane := laneOf (s.myCore.vreg n) i
    let lanes (i : Instr) (vd : V) (y : Bool) (p : Sparse Lane → Prop) : Prop :=
      ∃ u x, exec i s = .next u ∧ s.Passes (s.modMyCore (·.setVreg vd x)) u (s.after 2) y ∧ p x
    (∀ (o : VBcOp), s.mayIssue (s.vecSig t [] [o.gs] o.pg o.z o.vd) = true → lanes (.vbcast t o) o.vd o.y
        (s.Lanes o.vd o.pg o.z fun _ => toLane o.ty (s.gr o.gs).toNat))
    ∧ (∀ (y : Bool) (gd gl gs : G) (va vd : V),
        (s.mayIssue { t := t, streams := [.e], reads := [s.myCore.keyV va, keyG gl] } = true →
          ∃ u, exec (.vmovg t y gd va gl) s = .next u
            ∧ s.Passes (s.setG gd ((lane va ((s.gr gl).toNat % 512)).zeroExtend 64)) u (s.after 2) y)
        ∧ (s.mayIssue { t := t, streams := [.e], reads := [s.myCore.keyV vd, keyG gs, keyG gl] } = true →
          lanes (.vmovl t y vd gs gl) vd y fun x =>
            ∀ i, laneOf x i = if i = (s.gr gl).toNat % 512 then (s.gr gs).truncate 32 else lane vd i))
    ∧ (∀ (o : VTiOp) (x : TieTable), tyArith o.ty = true → Sparse.get? s.myCore.tie o.k.toNat = some x →
        s.mayIssue { t := t, streams := [.e],
                     reads := [s.myCore.keyV o.va, keyT o.k.toNat] ++ s.myCore.rdP o.pg ++ s.myCore.keepV o.pg o.z o.vd ++ s.srReads o.rm } = true →
        let rm := s.me.rmOf o.rm
        ∃ u v, exec (.vti t o) s = .next u
          ∧ s.Passes (let a := s.modMyCore (·.setVreg o.vd v)
                      if rm = .sr then a.modMyCore (·.delayWrite (max s.me.retireAt (s.now + 5)) ⟨4, 0x011, 4, 512⟩) else a) u (s.after 2) o.y
          ∧ s.Lanes o.vd o.pg o.z (fun i => s.roundLane o.ty rm o.sat i (x.at (f32 (lane o.va i).toNat))) v)
    ∧ (∀ (o : VRandOp), (o.ty = .fp32 ∨ tyInt o.ty = true) → s.mayIssue (s.vecSig t [] [o.gk, o.gc] o.pg o.z o.vd) = true →
        let key : DWord := (Sparse.get 0 (s.ctxOf s.at.1).rngReg ((s.gr o.gk).toNat % 256)).truncate 64
        lanes (.vrand t o) o.vd o.y (s.Lanes o.vd o.pg o.z fun i =>
          let d := cbg64 key (s.gr o.gc + BitVec.ofNat 64 i)
          if o.ty = .fp32 then BitVec.ofNat 32 (drawUnitBits d) else toLane o.ty (d.toNat / 2 ^ (64 - tyWidth o.ty))))
    ∧ (∀ (o : VTopkOp), s.mayIssue (s.vecSig t [o.va, o.vb] [] 0 false o.vd) = true → lanes (.vtopk t o) o.vd o.y fun x =>
        ∃ best : List (Cand × Nat),
          List.Perm best (((List.range 256).map fun p => ((lane o.va (2 * p), lane o.va (2 * p + 1)), p))
            ++ (List.range 256).map fun p => ((lane o.vb (2 * p), lane o.vb (2 * p + 1)), 256 + p))
          ∧ List.Pairwise (fun a b => candBefore a.1 b.1 = true ∨ (candBefore b.1 a.1 = false ∧ a.2 < b.2)) best
          ∧ ∀ i, i < 256 → (laneOf x (2 * i), laneOf x (2 * i + 1))
              = if i ≤ o.km1.toNat then (best.getD i ((0x7FC00000, 0xFFFFFFFF), 0)).1 else (0x7FC00000, 0xFFFFFFFF))

/-- R237, R250: with no damage in the arrays of its core, `vxsum` adds to element (r, c + j) the exact sum of the products of the active lanes of group j, modulo 2^136, for
every group, and to no other element; each column added to takes the OR of the flags of its products, and its counter the number of them, with GX
where it carries; every other column keeps anchor, flags and counter. It waits for the columns it needs, and enters the column order. With an empty
predicate it changes nothing.
That the additions are made at the issue is the model's choice (log 17). -/
def Obligations.ExactReductionAddsTheGroups : Prop :=
  ∀ (s : State) (t : Tok) (o : VXSumOp), o.grp.toNat ≤ 9 → o.ty ≠ .int4 →
    let cols := 512 / 2 ^ o.grp.toNat
    let r := (s.gr o.gr).toNat
    let c := (s.gr o.gc).toNat
    s.myCore.soft = [] → r ≤ 63 → c + cols ≤ 512 → s.myCore.colBusy s.now 0 c (c + cols - 1) = false →
    s.mayIssue { t := t, streams := [.e],
                 reads := [keyG o.gr, keyG o.gc, s.myCore.keyV o.va] ++ (o.vb.elim [] fun v => [s.myCore.keyV v]) ++ s.myCore.rdP o.pg } = true →
    (s.myCore.preg o.pg = 0 → ∃ u, exec (.vxsum t o) s = .next u ∧ s.Passes s u (s.after 2) o.y)
    ∧ (s.myCore.preg o.pg ≠ 0 → ∃ (u : State) (k : Core), exec (.vxsum t o) s = .next u
      ∧ s.Passes (s.modMyCore fun _ => k.addEff s.now ⟨c, c + cols - 1, 0, s.now + 7, 0⟩) u (s.after 2) o.y
      ∧ k = { s.myCore with xa := k.xa, side := k.side }
      ∧ (∀ j, j < cols →
          let d := s.myCore.colSide (c + j)
          let ps := xsumGroup s.myCore o d.anchor.toInt (2 ^ o.grp.toNat) j
          k.xaOf r (c + j) = s.myCore.xaOf r (c + j) + BitVec.ofInt 136 (ps.map (·.1)).sum
            ∧ k.colSide (c + j) = { d with
                flags := d.flags ||| ps.foldl (fun f p => f ||| p.2) 0 ||| (if d.cnt.toNat + ps.length < 2 ^ 32 then 0 else 32)
                cnt := d.cnt + BitVec.ofNat 32 ps.length })
      ∧ (∀ i j, i ≤ 63 → j < 512 → ¬ (i = r ∧ c ≤ j ∧ j < c + cols) → k.xaOf i j = s.myCore.xaOf i j)
      ∧ (∀ j, ¬ (c ≤ j ∧ j < c + cols) → k.colSide j = s.myCore.colSide j))

/-- R239: the predicate instructions, by bit. -/
def Obligations.PredicateInstructions : Prop :=
  ∀ (s : State) (t : Tok),
    let k := s.myCore
    let bits (i : Instr) (pd pg : P) (z y : Bool) (f : Nat → Bool) : Prop :=
      ∃ u x, exec i s = .next u ∧ s.Passes (s.modMyCore (·.setPreg pd x)) u (s.after 2) y ∧ s.Bits pd pg z f x
    let sig (ps : List P) (gs : List G) (pd pg : P) (z : Bool) : Sig :=
      { t := t, streams := [.e], reads := ps.flatMap k.rdP ++ gs.map keyG ++ k.rdP pg ++ k.keepP pg z pd }
    (∀ (o : PBinOp), s.mayIssue (sig [o.pa, o.pb] [] o.pd o.pg o.z) = true →
      bits (.pand t o) o.pd o.pg o.z o.y (fun i => (k.preg o.pa).getLsbD i && (k.preg o.pb).getLsbD i)
      ∧ bits (.por t o) o.pd o.pg o.z o.y (fun i => (k.preg o.pa).getLsbD i || (k.preg o.pb).getLsbD i)
      ∧ bits (.pxor t o) o.pd o.pg o.z o.y (fun i => (k.preg o.pa).getLsbD i ^^ (k.preg o.pb).getLsbD i))
    ∧ (∀ (o : PUnOp), s.mayIssue (sig [o.pa] [] o.pd o.pg o.z) = true →
      bits (.pnot t o) o.pd o.pg o.z o.y (fun i => !(k.preg o.pa).getLsbD i)
      ∧ bits (.pmov t o) o.pd o.pg o.z o.y (fun i => (k.preg o.pa).getLsbD i))
    ∧ (∀ (o : PSetOp), s.mayIssue (sig [] [o.gn, o.gr] o.pd o.pg o.z) = true →
      let n := (s.gr o.gn).toNat % 1024
      bits (.pset t o) o.pd o.pg o.z o.y (fun i => n ≠ 0 && i % n = (s.gr o.gr).toNat % 1024 % n))
    ∧ (∀ (o : PLenOp), s.mayIssue (sig [] [o.gn] o.pd o.pg o.z) = true →
      bits (.plen t o) o.pd o.pg o.z o.y (fun i => i < (s.gr o.gn).toNat))
    ∧ (∀ (o : PToGOp), s.mayIssue { t := t, streams := [.e], reads := k.rdP o.pa ++ k.rdP o.pg } = true →
      let on (i : Nat) : Bool := (k.preg o.pa).getLsbD i && (k.preg o.pg).getLsbD i
      (∃ u, exec (.pcnt t o) s = .next u ∧ s.Passes (s.setG o.gd (BitVec.ofNat 64 ((List.range 512).countP on))) u (s.after 2) o.y)
      ∧ (∃ u n, exec (.pfirst t o) s = .next u ∧ s.Passes (s.setG o.gd (BitVec.ofNat 64 n)) u (s.after 2) o.y
        ∧ (∀ i, i < n → i < 512 → on i = false) ∧ (n < 512 ∧ on n = true ∨ n = 512)))

/-- R216 to R220: with an active lane and a legal handle, a vector load or store through a MEM handle takes the port of the core for the
accesses of its active lanes at their own scratchpad offsets: contiguous from the offset, at a signed stride, or at the offsets in a
register. A load through a window writes its lanes at once; a store through one without STRAP counts and changes nothing; with no
active lane a load only fills the lanes it clears and a store does nothing, and the port takes its ticks where the form is not contiguous. -/
def Obligations.VectorLoadsAndStoresTakeThePort : Prop :=
  ∀ (s : State) (t : Tok) (pg : P) (y z : Bool) (v : V) (a : G) (n : H) (off : BitVec 6) (ty : Ty) (gs : G) (vi : V),
    let k := s.myCore
    let c := s.at.1
    let h := k.hreg n
    let o := (s.gr a + BitVec.ofNat 64 (64 * off.toNat)).toNat
    let act := (List.range 512).filter fun i => (k.preg pg).getLsbD i
    let w := tyWidth ty
    let e := max 1 (w / 8)
    let at_ (f : VForm) (l : Nat) : Nat × Nat := (h.local (f.off w o l).1 - spadOf c, (f.off w o l).2)
    let b := h.local o - spadOf c
    let reads (f : VForm) : List (List PortItem) :=
      if f = .flat then splitLines b (readItems b ((at_ f (act.getLastD 0)).1 + e - b))
      else (laneGroups act).map fun g => g.map fun l => ⟨(at_ f l).1, e, none, none, some l⟩
    let writes (f : VForm) : List (List PortItem) :=
      if f = .flat then splitLines b (storeItems ty (k.vreg v) (at_ f) true act)
      else (laneGroups act).map (storeItems ty (k.vreg v) (at_ f) false)
    let sig (st : Bool) (gl : List G) (vl : List V) : Sig :=
      { t := t, streams := [.e], port := true,
        reads := [keyG a, keyH n] ++ (if st then [k.keyV v] else []) ++ gl.map keyG ++ vl.map k.keyV ++ k.rdP pg
          ++ (if st then [] else k.keepV pg z v) }
    let loads (i : Instr) (f : VForm) : Prop :=
      (act = [] → ∃ u x, exec i s = .next u ∧ s.Passes ((s.modMyCore (·.setVreg v x)).portNone f) u (s.after 2) y
        ∧ s.Lanes v pg z (fun _ => 0) x)
      ∧ (act ≠ [] → s.vecChk c n false f ty o act = none →
        (h.kind = 1 → ∃ u x, exec i s = .next u
          ∧ s.Passes ((s.modMyCore (·.setVreg v x)).portIdle f.ticks) u (s.after 2) y
          ∧ s.Lanes v pg z (fun l => toLane ty (leNat ((s.ctxOf c).winBytes h.desc (h.woff + (f.off w o l).1) e) / 16 ^ (f.off w o l).2)) x)
        ∧ (h.kind ≠ 1 → ∃ u, exec i s = .next u
          ∧ s.Passes (s.portStart (.load (k.vphys v) ty z (act.map fun l => (l, (at_ f l).1, (at_ f l).2))) (reads f)
              (f.lat false + ((reads f).length - f.ticks))).1 u (s.after 2) y))
    let stores (i : Instr) (f : VForm) : Prop :=
      (act = [] → ∃ u, exec i s = .next u ∧ s.Passes (s.portNone f) u (s.after 2) y)
      ∧ (act ≠ [] → s.vecChk c n true f ty o act = none →
        (h.kind = 1 → s.strap c h = false →
          ∃ u, exec i s = .next u ∧ s.Passes ((s.modMyCore (·.count 75)).portIdle f.ticks) u (s.after 2) y)
        ∧ (h.kind ≠ 1 → ∃ u, exec i s = .next u ∧ s.Passes (s.portStart .store (writes f) (f.lat true + ((writes f).length - f.ticks))).1 u
            (s.after 2) y))
    (s.mayIssue (sig false [] []) = true → loads (.vld t ⟨y, z, v, a, n, off, pg, ty⟩) .flat)
    ∧ (s.mayIssue (sig true [] []) = true → stores (.vst t ⟨y, v, a, n, off, pg, ty⟩) .flat)
    ∧ (ty ≠ .int4 →
      (s.mayIssue (sig false [gs] []) = true → loads (.vlds t ⟨y, z, v, a, n, off, gs, pg, ty⟩) (.stride (s.gr gs)))
      ∧ (s.mayIssue (sig true [gs] []) = true → stores (.vsts t ⟨y, v, a, n, off, gs, pg, ty⟩) (.stride (s.gr gs)))
      ∧ (s.mayIssue (sig false [] [vi]) = true → loads (.vgath t ⟨y, z, v, a, n, off, vi, pg, ty⟩) (.index (k.vreg vi)))
      ∧ (s.mayIssue (sig true [] [vi]) = true → stores (.vscat t ⟨y, v, a, n, off, vi, pg, ty⟩) (.index (k.vreg vi))))

/-- R233, R235: `vtiload` with a legal configuration word takes the port for the 1,032 bytes of a table in memory, or plans the table
that a window gives; a table that arrives replaces table k and no other.
R214, R217 to R219: the end of a vector load's port writes to its destination register, by its physical number, the element read
for each active lane and keeps or clears the others; a store's item writes its bytes to the core's scratchpad and to no other byte. -/
def Obligations.TablesAreLoadedAndThePortMovesBytes : Prop :=
  ((∀ (s : State) (t : Tok) (o : VTiLoadOp),
     s.mayIssue { t := t, streams := [.e], port := true, reads := [keyG o.ga, keyH o.h, keyG o.gcfg] } = true →
     let c := s.at.1
     let h := s.myCore.hreg o.h
     let off := (s.gr o.ga).toNat
     tieOk (s.gr o.gcfg) = true → s.chkLoad c o.h off 1032 = none → off % 4 = 0 →
       (h.kind = 1 → ∃ u, exec (.vtiload t o) s = .next u
         ∧ s.Passes ((s.portIdle 1).plan (s.now + 5) 0 (.tieTable c o.k.toNat
             ⟨s.gr o.gcfg, h.va + off, 1, tableEntries ((s.ctxOf c).winBytes h.desc (h.woff + off) 1032)⟩)) u (s.after 2) o.y)
       ∧ (h.kind ≠ 1 → let b := h.local off - spadOf c
         ∃ u, exec (.vtiload t o) s = .next u
           ∧ s.Passes (s.portStart (.table o.k.toNat (s.gr o.gcfg) (h.va + off) 0 b) (splitLines b (readItems b 1032)) 6).1
               u (s.after 2) o.y))
   ∧ (∀ (s : State) (c t : Nat) (x : TieTable),
     Sparse.get? ((s.tieTable c t x).core c).tie t = some x
       ∧ ∀ n, n ≠ t → Sparse.get? ((s.tieTable c t x).core c).tie n = Sparse.get? (s.core c).tie n))
  ∧ (∀ (s : State) (c : Nat),
     (∀ (op : PortOp) dst ty z lanes, op.what = .load dst ty z lanes →
       let u := s.portDone c op
       u.mem = s.mem ∧ (u.core c).port = none
         ∧ (∀ d, d ≠ dst → Sparse.get [] (u.core c).v d = Sparse.get [] (s.core c).v d)
         ∧ ∀ i, i < 512 →
           (∀ o nib, lanes.find? (fun e => e.1 = i) = some (i, o, nib) → laneOf (Sparse.get [] (u.core c).v dst) i = gotElem op.got ty i o nib)
           ∧ (lanes.find? (fun e => e.1 = i) = none →
             laneOf (Sparse.get [] (u.core c).v dst) i = if z then 0 else laneOf (Sparse.get [] (s.core c).v dst) i))
     ∧ (∀ (i : PortItem) bs, i.data = some bs → i.half = none →
       let u := s.portItem c i
       let l := spadOf c + i.off
       (∀ j, j < bs.length → u.mem.get (l + j) = bs.getD j 0)
         ∧ ∀ a, ¬ (l ≤ a ∧ a < l + bs.length) → u.mem.get a = s.mem.get a))

/-! ### Tiles, the matrix array and the accumulators -/

/-- R241, R243: a descriptor is legal exactly where its TAG names a type or none, its rows are 1 to 64 and a row of its columns fits
1,024 bytes; `tcfg` gives the tile a legal descriptor without reserved bits and leaves its contents, `tzero` clears the contents,
`tfromv` writes half of a vector register to one row. Each waits for the accesses of the tile before it (R245) and enters its order. -/
def Obligations.TilesAreConfiguredAndWritten : Prop :=
  (∀ d : DWord,
    let tag := d.toNat % 16
    let cols := d.toNat / 2 ^ 16 % 2 ^ 12
    let rows := d.toNat / 2 ^ 8 % 2 ^ 7
    tdOk d = true ↔ 1 ≤ rows ∧ rows ≤ 64
      ∧ (tag = 15 ∨ 1 ≤ cols ∧ ((tag = 0 ∨ tag = 8) ∧ cols ≤ 256 ∨ (tag = 1 ∨ tag = 2 ∨ tag = 7) ∧ cols ≤ 512
        ∨ 3 ≤ tag ∧ tag ≤ 6 ∧ cols ≤ 1024 ∨ tag = 9 ∧ cols ≤ 2048 ∧ cols % 2 = 0)))
  ∧ ∀ (s : State) (t : Tok) (y : Bool) (td : TN), s.myCore.tileBusy s.now true td = false → s.myCore.soft = [] →
    (∀ gs, s.mayIssue { t := t, streams := [.e], reads := [keyG gs] } = true → tdOk (s.gr gs) = true → s.gr gs &&& ~~~0x0FFF7F0F = 0 →
      ∃ u, exec (.tcfg t y td gs) s = .next u
        ∧ s.Passes (s.modMyCore fun k => (k.setTdesc td (s.gr gs)).addTile s.now ⟨td, true, s.now, 0⟩) u (s.after 2) y
        ∧ u.myCore.tdescOf td.toNat = s.gr gs ∧ u.myCore.tiles = s.myCore.tiles)
    ∧ (s.mayIssue { t := t, streams := [.e] } = true →
      ∃ u, exec (.tzero t y td) s = .next u
        ∧ s.Passes (s.modMyCore fun k => (k.setTile td []).addTile s.now ⟨td, true, s.now, 0⟩) u (s.after 2) y
        ∧ ∀ b, Sparse.get 0 (u.myCore.tileOf td) b = 0)
    ∧ (∀ va gr half, s.mayIssue { t := t, streams := [.e], reads := [keyG gr, s.myCore.keyV va] } = true →
      let row := (s.gr gr).toNat % 64
      ∃ u x, exec (.tfromv t ⟨y, td, gr, va, half⟩) s = .next u
        ∧ s.Passes (s.modMyCore fun k => (k.setTile td x).addTile s.now ⟨td, true, s.now + 1, 0⟩) u (s.after 2) y
        ∧ ∀ b, Sparse.get 0 x b = if row * 1024 ≤ b ∧ b < row * 1024 + 1024
            then (let j := b - row * 1024 + if half then 1024 else 0
                  (laneOf (s.myCore.vreg va) (j / 4)).extractLsb' (8 * (j % 4)) 8)
            else Sparse.get 0 (s.myCore.tileOf td) b)

/-- R243, R244: `tld` gives the tile its TAG and takes the port to read each row of its descriptor at the pitch; `tst` takes the port to
write the bytes of each row. Both with legal handle, offset and pitch. -/
def Obligations.TileLoadsAndStores : Prop :=
  ∀ (s : State) (t : Tok) (y : Bool) (td : TN) (h : H) (go gp : G) (ty : Ty),
    s.mayIssue { t := t, streams := [.e], port := true, reads := [keyG go, keyG gp, keyH h, keyTd td] } = true →
    let c := s.at.1
    let off := (s.gr go).toNat
    let pitch := (s.gr gp).toNat
    let b := (s.myCore.hreg h).local off - spadOf c
    (let d := (s.myCore.tdescOf td.toNat &&& ~~~0xF) ||| (tyCode ty).zeroExtend 64
     s.myCore.tileBusy s.now true td = false → tdOk d = true → s.rowsChk c h pR off pitch (tdRows d) (tdRowBytes d) = none →
     ∃ u, exec (.tld t ⟨y, td, h, go, gp, ty⟩) s = .next u
      ∧ s.Passes ((s.portStart (.tile td b pitch (tdRows d) (tdRowBytes d))
          ((List.range (tdRows d)).map fun r => readItems (b + r * pitch) (tdRowBytes d)) (tdRows d + 6)).1.modMyCore fun k =>
            (k.setTdesc td d).addTile s.now ⟨td, true, k.vmPort + 5, s.serial⟩) u (s.after 2) y)
    ∧ (let d := s.myCore.tdescOf td.toNat
       s.myCore.soft = [] → s.myCore.tileBusy s.now false td = false → tdTag d ≠ 15 → s.rowsChk c h pW off pitch (tdRows d) (tdRowBytes d) = none →
       ∃ u, exec (.tst t ⟨y, td, h, go, gp⟩) s = .next u
        ∧ s.Passes ((s.portStart .store
            ((List.range (tdRows d)).map fun r => writeItems (b + r * pitch) (s.myCore.tileBytes td r 0 (tdRowBytes d))) (tdRows d + 1)).1.modMyCore
            fun k => k.addTile s.now ⟨td, false, k.vmPort - 1, s.serial⟩) u (s.after 2) y)

/-- R246, R248: `mma` and `mmaz` of legal operands, with a place free and tiles and columns not held, put their operation last into the
MA's places; operands that break a rule trap, by the first rule broken: N, c, the descriptors, the pairing of their types. -/
def Obligations.MatrixMultiplyIsAccepted : Prop :=
  ∀ (s : State) (t : Tok) (o : MmaOp), ∀ e ∈ ([(Instr.mma, false, 0), (Instr.mmaz, true, 2)] : List ((Tok → MmaOp → Instr) × Bool × Nat)),
    let k := s.myCore
    let n := (s.gr o.gn).toNat
    let c := (s.gr o.gc).toNat
    let da := k.tdescOf o.ta.toNat
    let db := k.tdescOf o.tb.toNat
    let types : Nat × Nat := (tdTag da, tdTag db)
    let legalN : Prop := n % 16 = 0 ∧ 16 ≤ n ∧ n ≤ 512
    let legalA : Prop := tdRows da = 64 ∧ 64 ≤ tdCols da
    let legalB : Prop := tdRows db = 64 ∧ n ≤ tdCols db
    let paired : Prop := types ∈ ([(1, 1), (2, 2), (3, 3), (3, 4), (4, 3), (4, 4), (5, 5), (9, 5)] : List (Nat × Nat))
    s.mayIssue { t := t, streams := [.e], reads := [keyG o.gc, keyG o.gn, keyTd o.ta, keyTd o.tb] } = true →
    k.mmaWait s.now o.ta o.tb e.2.2 c n = none →
    (legalN → c + n ≤ 512 → legalA → legalB → paired →
      ∃ u v, exec (e.1 t o) s = .next u ∧ s.Passes v u (s.after 2) o.y
        ∧ v = { s with cores := v.cores, agenda := v.agenda, serial := s.serial + 1 } ∧ (∀ x, x ≠ s.at.1 → v.core x = s.core x)
        ∧ v.myCore = { k with maQueue := k.maQueue ++ [⟨s.serial, e.2.1, o.ta, o.tb, n, c, o.split, s.now, 0, false⟩] })
    ∧ (s.me.nest = false → s.timedAt s.at.1 = false →
      let traps (cause : Nat) (i0 i1 : DWord) : Prop := ∃ u, exec (e.1 t o) s = .next u ∧ s.Traps s u cause i0 i1 s.me.pc
      (¬ legalN → traps 0x40 (s.gr o.gn) (o.gn.zeroExtend 64))
      ∧ (legalN → 512 < c + n → traps 0x40 (s.gr o.gc) (o.gc.zeroExtend 64))
      ∧ (legalN → c + n ≤ 512 → ¬ legalA → traps 0x43 da (o.ta.zeroExtend 64))
      ∧ (legalN → c + n ≤ 512 → legalA → ¬ legalB → traps 0x43 db (o.tb.zeroExtend 64))
      ∧ (legalN → c + n ≤ 512 → legalA → legalB → ¬ paired → traps 0x42 (BitVec.ofNat 64 types.1) (BitVec.ofNat 64 types.2)))

/-- R251: on columns c to c + N - 1, `anchor` sets the anchor and leaves X, flags and counter; `acczero` makes X of all 64 rows, flags
and counter zero and leaves the anchor; `accflags` gives the OR of the flags to gd, and with CLR clears them. No other column changes. -/
def Obligations.AccumulatorColumnsAreConfigured : Prop :=
  ∀ (s : State) (t : Tok) (y : Bool) (gc gn ga gd : G),
    let c := (s.gr gc).toNat
    let n := (s.gr gn).toNat
    let sig (rs : List Nat) : Sig := { t := t, streams := [.e], reads := [keyG gc, keyG gn] ++ rs }
    let free (cls : Nat) : Prop := s.myCore.colBusy s.now cls c (c + n - 1) = false
    let gives (i : Instr) (cls : Nat) (p : Core → Prop) : Prop :=
      ∃ u k, exec i s = .next u ∧ s.Passes (s.modMyCore fun _ => k.addEff s.now ⟨c, c + n - 1, cls, s.now, 0⟩) u (s.after 2) y
        ∧ k = { s.myCore with xa := k.xa, side := k.side } ∧ p k
    let rest (k : Core) : Prop := ∀ j, ¬ (c ≤ j ∧ j < c + n) → k.colSide j = s.myCore.colSide j ∧ ∀ r, k.xaOf r j = s.myCore.xaOf r j
    s.myCore.soft = [] → 1 ≤ n → c + n ≤ 512 →
    (free 2 → s.mayIssue (sig [keyG ga]) = true → gives (.anchor t y gc gn ga) 2 fun k =>
      k.xa = s.myCore.xa ∧ rest k
        ∧ ∀ j, c ≤ j → j < c + n → k.colSide j = { s.myCore.colSide j with anchor := (s.gr ga).truncate 10 })
    ∧ (free 2 → s.mayIssue (sig []) = true → gives (.acczero t y gc gn) 2 fun k =>
      (∀ j, j < 512 → ¬ (c ≤ j ∧ j < c + n) → k.colSide j = s.myCore.colSide j ∧ ∀ r, k.xaOf r j = s.myCore.xaOf r j)
        ∧ ∀ j, c ≤ j → j < c + n → (∀ r, k.xaOf r j = 0) ∧ k.colSide j = { s.myCore.colSide j with flags := 0, cnt := 0 })
    ∧ (∀ clr : Bool, free (if clr then 2 else 1) → s.mayIssue (sig []) = true →
      ∃ (u : State) (k : Core) (v : BitVec 6), exec (.accflags t y gd gc gn clr) s = .next u
        ∧ s.Passes ((s.modMyCore fun _ => k.addEff s.now ⟨c, c + n - 1, if clr then 2 else 1, s.now, 0⟩).setG gd (v.zeroExtend 64)) u (s.after 2) y
        ∧ k = { s.myCore with side := k.side }
        ∧ (∀ f, v.getLsbD f = (List.range n).any fun j => (s.myCore.colSide (c + j)).flags.getLsbD f)
        ∧ (∀ j, k.colSide j = if clr = true ∧ c ≤ j ∧ j < c + n then { s.myCore.colSide j with flags := 0 } else s.myCore.colSide j))

/-- R259: `accsv` takes the port to write the records of columns c to c + N - 1, 2,048 bytes for each; `accrs` takes it to read them.
R156: a column that is restored from the record bytes that a save writes is the column that was saved. -/
def Obligations.AccumulatorColumnsAreSavedAndRestored : Prop :=
  (∀ (s : State) (t : Tok) (y : Bool) (gc gn go : G) (h : H),
     let c := (s.gr gc).toNat
     let n := (s.gr gn).toNat
     let b := (s.myCore.hreg h).local (s.gr go).toNat - spadOf s.at.1
     s.mayIssue { t := t, streams := [.e], port := true, reads := [keyG gc, keyG gn, keyG go, keyH h] } = true →
     (s.myCore.soft = [] → s.accChk gc gn go h pW = none → s.myCore.colBusy s.now 1 c (c + n - 1) = false →
       ∃ u, exec (.accsv t y gc gn go h) s = .next u
         ∧ s.Passes ((s.portStart .store ((List.range n).map fun i => writeItems (b + 2048 * i) (s.myCore.columnBytes (c + i))) (n + 1)).1.modMyCore
             fun k => k.addCols s.now 1 c n (s.now + 1) s.serial) u (s.after 2) y)
     ∧ (s.accChk gc gn go h pR = none → s.myCore.colBusy s.now 2 c (c + n - 1) = false →
       ∃ u, exec (.accrs t y gc gn go h) s = .next u
         ∧ s.Passes ((s.portStart (.columns c n b) ((List.range n).map fun i => readItems (b + 2048 * i) 2048) (n + 2)).1.modMyCore
             fun k => k.addCols s.now 2 c n (s.now + 2) s.serial) u (s.after 2) y))
  ∧ (∀ (x : BitVec 136) (d : ColSide),
     (xaRecord x d).length = 32 ∧ xaOfRecord (xaRecord x d) = x ∧ sideOfRecord (xaRecord x d) = d)

/-- R252 to R256: `epcfg` of a legal configuration loads EPCFG and EPIDX, which a `drain` follows from three periods on; `drain` of legal
operands hands the DEU a record of its columns, rows, pitch and everything it reads, ORs its status into DSTAT and NUMSTAT in its
issue tick, and under stochastic rounding advances SRCTR by 32,768 at its issue. -/
def Obligations.EpilogueConfigurationAndDrains : Prop :=
  ∀ (s : State) (t : Tok) (y : Bool) (h : H),
    let c := s.at.1
    let k := s.myCore
    (∀ (gcfg gidx go : G),
      let cfg := s.gr gcfg
      let idx := s.gr gidx
      let reads := cfg.getLsbD 3 || cfg.getLsbD 9
      s.mayIssue { t := t, streams := [.e], port := reads,
                   reads := [keyG gcfg, keyG gidx] ++ (if reads then [keyG go, keyH h] else []) } = true →
      k.soft = [] → k.drains = [] → s.epChk cfg idx ⟨y, gcfg, gidx, h, go⟩ = none →
      (reads = true → s.hCheck c h 4 [kMem] pR (s.ownSpad c) (s.gr go).toNat 4096 = none ∧ (s.gr go).toNat % 64 = 0) →
      ∃ u v, exec (.epcfg t ⟨y, gcfg, gidx, h, go⟩) s = .next u ∧ s.Passes v u (s.after 2) y
        ∧ v = { s with cores := v.cores, agenda := v.agenda, serial := v.serial } ∧ (∀ x, x ≠ c → v.core x = s.core x)
        ∧ v.myCore = { k with epcfg := cfg, epidx := idx, epPend := (k.epPend.filter fun e => s.now < e.1) ++ [(s.now + 3, cfg, idx)], epOld := k.epNow s.now, epReady := v.myCore.epReady,
                              port := v.myCore.port, vmPort := v.myCore.vmPort, vmRetry := v.myCore.vmRetry,
                              bankUse := v.myCore.bankUse, ctrNew := v.myCore.ctrNew }
        ∧ (∀ p, s.now + 3 ≤ p → v.myCore.epNow p = (cfg, idx))
        ∧ (reads = false → v.myCore.epReady = s.now + 3 ∧ v.myCore.port = k.port ∧ v.agenda = s.agenda))
    ∧ (∀ (gc gn grows go : G) (split : BitVec 3),
      let cfg := (k.epNow s.now).1
      let o : DrainOp := ⟨y, gc, gn, grows, h, go, split⟩
      let rows := (s.gr grows).toNat
      s.mayIssue { t := t, streams := [.e], 
                   reads := [keyG gc, keyG gn, keyG grows, keyG go, keyH h] ++ s.srReads (rmOfCode (epRm1 cfg))
                     ++ s.srReads (rmOfCode (epRm2 cfg)) } = true → k.soft = [] →
      (cfg.getLsbD 4 = true → k.parity.contains (keyT (cfg.toNat / 2 ^ 5 % 16)) = false) →
      k.drains.length < 2 → ¬ (k.epFrom ≤ s.now ∧ s.now < k.epReady) →
      (cfg.getLsbD 18 = true → rowsMeet (rows % 64) (rows / 2 ^ 8 % 128) (k.heapLeft ++ k.heapRowsLeft) = false) →
      k.colBusy s.now 1 (s.gr gc).toNat ((s.gr gc).toNat + (s.gr gn).toNat - 1) = false →
      drainChk s cfg o = none →
      ∃ u v d, exec (.drain t o) s = .next u ∧ s.Passes v u (s.after 2) y
        ∧ v = { s with cores := v.cores, agenda := v.agenda, serial := s.serial + 1 } ∧ (∀ x, x ≠ c → v.core x = s.core x)
        ∧ (let k' := (k.delayWrite s.now ⟨4, 0x021, 0, d.status k⟩).delayWrite s.now ⟨4, 0x020, 3, d.status k⟩
           let k' := if d.rm1 = .sr ∨ d.rm2 = .sr then k'.modStr .e fun x => { x with srctr := x.srctr + 32768 } else k'
           v.myCore = { k' with drains := k.drains ++ [d] })
        ∧ d.c = (s.gr gc).toNat ∧ d.n = (s.gr gn).toNat ∧ d.frow = rows % 64 ∧ d.nrow = rows / 2 ^ 8 % 128
        ∧ d.pitch = rows / 2 ^ 16 % 2 ^ 32 ∧ d.cfg = cfg ∧ d.idxBase = (k.epNow s.now).2.truncate 32 ∧ d.bias = k.bias ∧ d.scale = k.scale
        ∧ d.ctr = s.me.srctr ∧ d.arrive = s.now ∧ d.timed = s.timedAt c ∧ d.split = split ∧ d.started = false ∧ d.read = 0 ∧ d.written = 0
        ∧ (cfg.getLsbD 19 = false → d.base = (k.hreg h).local (s.gr go).toNat - spadOf c)
        ∧ (cfg.getLsbD 4 = true → d.table = Sparse.get? k.tie (cfg.toNat / 2 ^ 5 % 16)))

/-- R257, R258: `topkclr` empties the heaps of the named rows and gives them their K, and no other heap changes; `topkrd` takes the port
to write the K pairs of each, the rows 512 bytes apart. -/
def Obligations.HeapsAreClearedAndRead : Prop :=
  ∀ (s : State) (t : Tok) (y : Bool) (grows gk go : G) (h : H),
    let k := s.myCore
    let frow := (s.gr grows).toNat % 64
    let nrow := (s.gr grows).toNat / 2 ^ 8 % 128
    k.soft = [] → 1 ≤ nrow → frow + nrow ≤ 64 → k.heapWait (s.gr grows) = none →
    (s.mayIssue { t := t, streams := [.e], reads := [keyG grows, keyG gk] } = true → 1 ≤ (s.gr gk).toNat → (s.gr gk).toNat ≤ 64 →
      ∃ u x, exec (.topkclr t y grows gk) s = .next u ∧ s.Passes (s.modMyCore fun k => { k with heaps := x }) u (s.after 2) y
        ∧ ∀ r, Sparse.get ⟨64, []⟩ x r = if frow ≤ r ∧ r < frow + nrow then ⟨(s.gr gk).toNat, []⟩ else Sparse.get ⟨64, []⟩ k.heaps r)
    ∧ (s.mayIssue { t := t, streams := [.e], port := true, reads := [keyG grows, keyG go, keyH h] } = true →
      let off := (s.gr go).toNat
      let heap (i : Nat) : Heap := Sparse.get ⟨64, []⟩ k.heaps (frow + i)
      s.hRanges s.at.1 h 4 [kMem] pW (s.ownSpad s.at.1)
        ((List.range nrow).map fun i => (((off + 512 * i : Nat) : Int), 8 * (heap i).k, 0xFFFF)) = none → off % 64 = 0 →
      let b := (k.hreg h).local off - spadOf s.at.1
      ∃ u, exec (.topkrd t y grows go h) s = .next u
        ∧ s.Passes (s.portStart (.heaps frow nrow b) ((List.range nrow).map fun i => writeItems (b + 512 * i) (heap i).bytes) (nrow + 1)).1
            u (s.after 2) y)

/-! ### Copy commands, synchronisation, digests, the grammar engine -/

/-- R262 to R283, R296 to R298: every copy command that passes its checks (values, shape, handles, alignment, SELFLAP, sequence number,
overlap), with a place free, in its mode and before its requested tick, is put last into the buffer of the core's copy engine, with
the values its registers hold; nothing else changes but the look of the engine that is planned. -/
def Obligations.CopyCommandsAreQueued : Prop :=
  ∀ (s : State) (t : Tok),
    let c := s.at.1
    let k := s.myCore
    let queued (i : Instr) (hdr : CmdHdr) (streams : List StreamId) (flg only : Bool) (gs : List G) (hs : List H) (checks : List (Option Res))
        (self : Bool) (kind : CmdKind) (dst src idx : Side) (flag : Option Side) (ord : Ord) (ford : Bool) (split : BitVec 4) : Prop :=
      let strict := s.strictCmd c hdr.gt
      let e : CeEntry :=
        { id := s.serial, seq := hdr.seq, stream := s.at.2, kind := kind, dst := dst, src := src, idx := idx, flag := flag
          pred := if hdr.aft then (k.ce.reverse.find? fun x => x.seq = hdr.pred).map (·.id) else none
          req := if hdr.gt = 0 then s.now + 1 else (s.gr hdr.gt).toNat, timed := hdr.gt ≠ 0, strict := strict
          ord := ord, ford := ford, split := split, st := .queued, base := 0, el := 0, sub := 0, ev := 0, m := 0, nextAt := 0
          prog := 0, outstanding := 0, idxBuf := [], dataBuf := [], landBuf := [], flagSent := false, foHeld := false, pushed := s.tick, born := s.now, noticed := false }
      s.mayIssue { t := t, streams := streams, reads := (hdr.gt :: gs).map keyG ++ hs.map keyH } = true →
      (k.timed = false → hdr.gt = 0 ∧ only = false) → (k.timed = true → flg = false) → k.ce.length < 64 →
      (s.timedAt c = true → hdr.gt ≠ 0) → (strict = true → s.tick < (s.gr hdr.gt).toNat) →
      (∀ x ∈ checks, x = none) → (∀ x ∈ k.ce, x.seq ≠ hdr.seq) → (self = true → s.selfLap c e = none) → s.overlap c e = none →
      ∃ u v, exec i s = .next u ∧ s.Passes v u (s.after 4) hdr.y
        ∧ v = { s with cores := v.cores, agenda := v.agenda, serial := s.serial + 1 } ∧ (∀ x, x ≠ c → v.core x = s.core x)
        ∧ v.myCore = { k with ce := k.ce ++ [e] } ∧ (∃ r, (s.now + 1, r, Work.ceCommandStart c) ∈ v.agenda)
    let num (g : G) : Nat := (s.gr g).toNat
    let aw : List StreamId := [.a, .w]
    (∀ o : CpyOp,
      let p := s.cpyPush o
      queued (.cpy t o) o.hdr aw o.flag.flg false ([o.gdo, o.gso, o.gv, o.gshape] ++ flagGs o.flag) ([o.hd, o.hs] ++ flagHs o.flag)
        (p.vals ++ [p.shape] ++ p.handles ++ p.align) true
        (if o.gshape ≠ 0 then .shaped (s.shapeRec k.ctx (num o.gshape % 2 ^ 16)) o.side else .cpy (num o.gv))
        (s.side o.hd (num o.gdo)) (s.side o.hs (num o.gso)) noSide (s.flagSide o.flag) .relaxed false o.split)
    ∧ (∀ o : CpytOp,
      queued (.cpyt t o) o.hdr aw false false ([o.gso, o.gv] ++ (if o.fo then [o.fgn, o.fgc] else [])) [o.hs]
        [s.useChk c o.hs 1 [kMem, kGen] pR (s.srcSpace c (s.strictCmd c o.hdr.gt)) (num o.gso), alignIssue (num o.gso), alignIssue (num o.gv)] false
        (.tile o.td (num o.gv) o.fo o.fz o.fta o.ftb (if o.fo then num o.fgn else 0) (if o.fo then num o.fgc else 0) o.fsplit)
        noSide (s.side o.hs (num o.gso)) noSide none .relaxed false o.split)
    ∧ (∀ o : GathOp,
      queued (.gath t o) o.hdr aw false false [o.gdo, o.gso, o.gv, o.gio] [o.hd, o.hs, o.hi]
        [countChk (s.gr o.gv) o.gv 1 65536, s.spanChk c o.hd 0 [kMem] pW (s.ownSpad c) (num o.gdo) 0 (num o.gv * 2 ^ o.esz.toNat : Nat),
         s.useChk c o.hs 1 [kMem, kGen] pR (s.srcSpace c (s.strictCmd c o.hdr.gt)) (num o.gso), s.idxChk c o.hi (num o.gio) (num o.gv),
         alignIssue (num o.gdo), alignIssue (num o.gio)] false
        (.gath (num o.gv) o.esz.toNat) (s.side o.hd (num o.gdo)) (s.side o.hs (num o.gso)) (s.side o.hi (num o.gio)) none .relaxed false o.split)
    ∧ (∀ o : ScatOp,
      queued (.scat t o) o.hdr aw o.flag.flg false ([o.gdo, o.gso, o.gv, o.gio] ++ flagGs o.flag) ([o.hd, o.hs, o.hi] ++ flagHs o.flag)
        [countChk (s.gr o.gv) o.gv 1 65536, s.useChk c o.hd 0 [kMem] pW (s.dstSpace c (s.strictCmd c o.hdr.gt)) (num o.gdo),
         s.spanChk c o.hs 1 [kMem] pR (s.ownSpad c) (num o.gso) 0 (num o.gv * 2 ^ o.esz.toNat : Nat), s.idxChk c o.hi (num o.gio) (num o.gv),
         s.flagChk c o.flag, alignIssue (num o.gso), alignIssue (num o.gio), s.flagAlign o.flag] false
        (.scat (num o.gv) o.esz.toNat) (s.side o.hd (num o.gdo)) (s.side o.hs (num o.gso)) (s.side o.hi (num o.gio)) (s.flagSide o.flag)
        .relaxed false o.split)
    ∧ (∀ o : CpyAccOp, ∀ e ∈ ([ (Instr.cpyaccIadd32, .iadd32), (Instr.cpyaccIadd64, .iadd64), (Instr.cpyaccXadd, .xadd), (Instr.cpyaccOr, .or),
            (Instr.cpyaccAnd, .and), (Instr.cpyaccXor, .xor), (Instr.cpyaccImin, .imin), (Instr.cpyaccImax, .imax),
            (Instr.cpyaccFmin, .fmin), (Instr.cpyaccFmax, .fmax), (Instr.cpyaccSwap, .swap) ] : List ((Tok → CpyAccOp → Instr) × AccKind)),
      let p := s.accPush o e.2
      let srcs : List G × List H × Side × Option DWord := match o.src with
        | .packed h g => ([g], [h], s.side h (num g), none)
        | .bcast => ([o.gw], [], noSide, some (s.gr o.gw))
      queued (e.1 t o) o.hdr aw o.flag.flg false ([o.gdo, o.gv] ++ srcs.1 ++ (if o.idx then [o.gio] else []) ++ flagGs o.flag)
        ([o.hd] ++ srcs.2.1 ++ (if o.idx then [o.hi] else []) ++ flagHs o.flag) (p.vals ++ p.handles ++ p.align) false
        (.acc e.2 (num o.gv) o.esz.toNat srcs.2.2.2 o.ret o.idx) (s.side o.hd (num o.gdo)) srcs.2.2.1
        (if o.idx then s.side o.hi (num o.gio) else noSide) (s.flagSide o.flag) o.ord false o.split)
    ∧ (∀ o : CpyCasOp,
      let n := 2 ^ o.esz.toNat
      queued (.cpycas t o) o.hdr aw false false [o.gdo, o.gv, o.gw] [o.hd]
        [cond (o.esz = 0 || o.esz = 1) (s.combo 4), s.spanChk c o.hd 0 [kMem] pR (s.dstSpace c (s.strictCmd c o.hdr.gt)) (num o.gdo) 0 (n : Nat),
         (k.hreg o.hd).alignAt (num o.gdo) n] false
        (.cas o.esz.toNat (BitVec.ofNat 64 (num o.gv % 2 ^ (8 * n))) (BitVec.ofNat 64 (num o.gw % 2 ^ (8 * n))))
        (s.side o.hd (num o.gdo)) noSide noSide none o.ord o.ford 0)
    ∧ (∀ o : SendOp,
      queued (.send t o) o.hdr [.w] false true [o.gso, o.gv] [o.hs]
        [slotChk (s.gr o.gv) o.gv o.first, s.spanChk c o.hs 1 [kMem] pR (s.ownSpad c) (num o.gso) 0 (num o.gv), alignIssue (num o.gso)] false
        (.send o.port.toNat o.slot.toNat o.first.toNat (num o.gv)) noSide (s.side o.hs (num o.gso)) noSide none .relaxed false 0)
    ∧ (∀ o : RecvOp,
      queued (.recv t o) o.hdr [.a] false true [o.gdo, o.gv] [o.hd]
        [slotChk (s.gr o.gv) o.gv o.first, s.spanChk c o.hd 0 [kMem] pW (s.ownSpad c) (num o.gdo) 0 (num o.gv), alignIssue (num o.gdo)] false
        (.recv o.port.toNat o.slot.toNat o.first.toNat (num o.gv)) (s.side o.hd (num o.gdo)) noSide noSide none .relaxed false 0)
    ∧ (∀ o : SenduOp,
      queued (.sendu t o) o.hdr [.w] o.flag.flg false ([o.gdo, o.gso, o.gv, o.gw] ++ flagGs o.flag) ([o.hd, o.hs] ++ flagHs o.flag)
        [countChk (s.gr o.gv) o.gv 1 4096, s.spanChk c o.hd 0 [kMem] pW (s.anySpace c) (num o.gdo) 0 (num o.gv),
         s.spanChk c o.hs 1 [kMem] pR (s.ownSpad c) (num o.gso) 0 (num o.gv), s.flagChk c o.flag, s.flagAlign o.flag] false
        (.sendu (num o.gv) (s.gr o.gw)) (s.side o.hd (num o.gdo)) (s.side o.hs (num o.gso)) noSide (s.flagSide o.flag) .relaxed false 0)

/-- R284 to R288: `cpywait` passes once the commands it names have left the buffer; `cpypop` takes the oldest result; `shpset` of a
readable record gives its status to gw and, where that is zero, plans the record with VALID and the context set and what R104 keeps of
the source, `shpclr` the clearing of VALID, 424 periods later; its line of HBM is accessed outside the refresh window (R89), and where no schedule
places it in a free slot and not into a checkpoint window (R44, R338). -/
def Obligations.CopyWaitsResultsAndShapes : Prop :=
  ∀ (s : State) (t : Tok) (y : Bool) (gw : G),
    let c := s.at.1
    let k := s.myCore
    let aw : List StreamId := [.a, .w]
    let mayWrite (l : Nat) : Prop :=
      s.refreshing = false ∧ (s.timedAt c = false → s.slotOpen (portOf l) = true ∧ s.ckptAt (s.tick + 424) = false)
    (s.mayIssue { t := t, streams := aw } = true →
      (∀ sel : Option (BitVec 8), (∀ e ∈ k.ce, match sel with
          | some q => e.seq ≠ q
          | none => e.stream ≠ s.at.2) →
        ∃ u, exec (.cpywait t y sel) s = .next u ∧ s.Passes s u (s.after 4) y))
    ∧ (s.mayIssue { t := t, streams := aw, reads := [keyRf s.at.2] } = true →
      (∀ p v r, k.rf s.at.2 = (p, v) :: r → p ≤ s.now →
        ∃ u, exec (.cpypop t y gw) s = .next u ∧ s.Passes ((s.modMyCore (·.setRf s.at.2 r)).setG gw v) u (s.after 4) y))
    ∧ (∀ o : ShpsetOp, s.mayIssue { t := t, streams := aw, priv := true, reads := [keyG o.gshape, keyG o.gv, keyG o.gso, keyH o.hs] } = true →
      let off := (s.gr o.gso).toNat
      let l := (k.hreg o.hs).local off
      s.spanChk c o.hs 1 [kMem] pR (s.ownSpad c) off 0 64 = none → off % 64 = 0 → s.uncorr l 64 = none →
      let sh := dwords 8 (s.load l 64)
      let ctx := (s.gr o.gv).toNat % 256
      let n := (s.gr o.gshape).toNat % 2 ^ 16
      let v := (s.touch (s.myWho uStream) l 64).setG o.gw (BitVec.ofNat 64 (shapeStatus sh))
      (shapeStatus sh ≠ 0 → ∃ u, exec (.shpset t o) s = .next u ∧ s.Passes v u (s.after 4) o.y)
      ∧ (shapeStatus sh = 0 → mayWrite (s.shapeAddr ctx n) → ∃ (u : State) (r : List DWord), exec (.shpset t o) s = .next u
          ∧ s.Passes (v.plan (s.now + 424) 1 (.shapeRecord c (s.shapeAddr ctx n) (r.flatMap fun x => leBytes 8 x.toNat))) u (s.after 4) o.y
          ∧ r.length = 8
          ∧ (let w := r.getD 0 0
             w.getLsbD 15 = true ∧ w.extractLsb' 16 8 = BitVec.ofNat 8 ctx ∧ w.extractLsb' 0 15 = (sh.headD 0).extractLsb' 0 15
               ∧ w.extractLsb' 24 7 = (sh.headD 0).extractLsb' 24 7 ∧ w.getLsbD 31 = false
               ∧ w.extractLsb' 32 11 = (sh.headD 0).extractLsb' 32 11 ∧ w.extractLsb' 43 21 = 0)
          ∧ (∀ d, d < 4 → shSize r d = (if d < shDim sh then shSize sh d else 0) ∧ shStride r d = (if d < shDim sh then shStride sh d else 0))
          ∧ r.getD 7 0 = 0))
    ∧ (∀ gshape gv, s.mayIssue { t := t, streams := aw, priv := true, reads := [keyG gshape, keyG gv] } = true →
      let l := s.shapeAddr ((s.gr gv).toNat % 256) ((s.gr gshape).toNat % 2 ^ 16)
      mayWrite l → ∃ u, exec (.shpclr t y gshape gv gw) s = .next u
        ∧ s.Passes ((s.setG gw 0).plan (s.now + 424) 1 (.shapeRecord c l [])) u (s.after 4) y)
    ∧ (∀ l bs, bs ≠ [] → ∀ a, (s.shapeRecord c l bs).mem.get a = if l ≤ a ∧ a < l + bs.length then bs.getD (a - l) 0 else s.mem.get a)
    ∧ (∀ l, s.uncorr l 2 = none → ∀ a, (s.shapeRecord c l []).mem.get a = if a = l + 1 then s.mem.get a &&& 0x7F else s.mem.get a)

/-- R289 to R295: a sync instruction of a legal handle asks the agent at the object's place, one way later. `soinit`, `sorel`, `soarr`
and `sostat` of a local object go on (the two in the middle once the stream's earlier stores and commands have completed), and their
reply will write gw; `soacq` and `sowait`, and every request to another package, wait for it. A request to HBM in a refresh window starts
at its end, but for one of the timed regime (R89). `sobind` plans its edit 424 periods on, its table's accesses outside that window.
That a request to another package is a packet that carries it and the number of its command is the model's choice (log 14).
R300 to R302: `dgbeg` empties a session, `dgadd` puts a readable region last into one with fewer than 64, `dgend` of an unmarked
session starts the digest engine on its regions where it is free, and waits. -/
def Obligations.SynchronisationAndDigestRequests : Prop :=
  (∀ (s : State) (t : Tok) (y : Bool) (hd : H) (gv gw : G),
     let c := s.at.1
     let h := s.myCore.hreg hd
     let loc := s.locH c h
     let q := s.oneWay c loc
     let w : List StreamId := [.w]
     let asks (i : Instr) (op : SyncOp) (g : G) (wait : Bool) : Prop :=
       let r : SyncReq := { pkg := s.pkg, core := c, stream := s.at.2, ppa := h.base, op := op, gw := g, q := q, va := h.va,
                            ctx := s.myCore.ctx, id := s.serial, timed := s.timedAt c, again := false }
       let s' := { s with serial := s.serial + 1 }
       let held := if loc = .hbm ∧ s.refreshing = true then 3886 - s.tick % 4096 else 0
       let t' := s'.plan (s.now + held + q) 1 (.syncOperationPerform r)
       ((∀ p, loc ≠ .pkg p) → held = 0 ∨ s.timedAt c = false → wait = false → ∃ u, exec i s = .next u
         ∧ s.Passes (t'.modMe (·.awaits g s.serial true)) u (s.after 4) y)
       ∧ ((∀ p, loc ≠ .pkg p) → held = 0 ∨ s.timedAt c = false → wait = true → ∃ u, exec i s = .next u ∧ s.Holds t' u (.sync s.serial true none))
       ∧ (∀ p, loc = .pkg p → s.soft = [] → ∃ u, exec i s = .next u
         ∧ s.Holds (s'.sendPacket { kind := .sync r, route := s.routeTo h.base, target := h.base, data := [], ctx := r.ctx, flag := none,
                                    srcPkg := s.pkg, srcCore := c, srcStream := s.at.2, cmd := s.serial }) u (.sync s.serial wait (some h.base)))
     s.syncChk hd = none →
     (s.mayIssue { t := t, streams := w, reads := [keyH hd] } = true →
       asks (.soacq t y hd gw) .acq gw true ∧ asks (.sostat t y hd gw) .stat gw false
       ∧ ((∀ e ∈ s.myCore.ce, e.stream ≠ s.at.2) → s.me.retireAt < s.now →
         asks (.sorel t y hd) .rel 0 false ∧ asks (.soarr t y hd gw) .arr gw false))
     ∧ (s.mayIssue { t := t, streams := w, reads := [keyH hd, keyG gv] } = true →
       asks (.sowait t y hd gv gw) (.wait ((s.gr gv).truncate 32)) gw true
       ∧ (let v := s.gr gv
          let kind := v.toNat % 4
          let count := v.toNat / 2 ^ 16 % 2 ^ 16
          kind ≠ 3 → v &&& ~~~0xFFFF0003 = 0 → (kind = 2 → count ≠ 0) →
          asks (.soinit t y hd gv) (.init (BitVec.ofNat 2 kind) (BitVec.ofNat 16 count) s.myCore.ctx) 0 false))
     ∧ (∀ gso, s.mayIssue { t := t, streams := w, reads := [keyH hd, keyG gso, keyG gv] } = true →
       s.refreshing = false →
       (s.timedAt c = false → s.slotOpen (portOf (s.bindAddr s.myCore.ctx 0)) = true ∧ s.ckptAt (s.tick + 424) = false) →
       ∃ u, exec (.sobind t ⟨y, hd, gso, gv, gw⟩) s = .next u
         ∧ s.Passes ((({ s with serial := s.serial + 1 } : State).plan (s.now + 424) 1
             (.syncBind c s.at.2 gw s.serial ((s.gr gso).toNat % 2 ^ 48) (s.gr gv).toNat h.va)).modMe (·.awaits gw s.serial true)) u (s.after 4) y))
  ∧ (∀ (s : State) (t : Tok) (y : Bool) (n : BitVec 2) (h : H) (g gv : G),
     let c := s.at.1
     let k := s.myCore
     let x := k.session n
     let cw : List StreamId := [.c, .w]
     (s.mayIssue { t := t, streams := cw } = true →
       ∃ u, exec (.dgbeg t y n) s = .next u ∧ s.Passes (s.modMyCore (·.setSession n ⟨[], false⟩)) u (s.after 4) y)
     ∧ (s.mayIssue { t := t, streams := cw, reads := [keyG g, keyG gv, keyH h] } = true → x.regions.length < 64 →
       let off := (s.gr g).toNat
       let len := (s.gr gv).toNat
       s.spanChk c h 1 [kMem] pR (s.anySpace c) off 0 len = none →
       ∃ u, exec (.dgadd t y n h g gv) s = .next u
         ∧ s.Passes (s.modMyCore (·.setSession n { x with regions := x.regions ++ [⟨(k.hreg h).va + off, (k.hreg h).base + off, len⟩] }))
             u (s.after 4) y)
     ∧ (s.mayIssue { t := t, streams := cw, reads := [keyG g, keyH h] } = true → k.dgRun = none → x.marked = false →
       let off := (s.gr g).toNat
       s.spanChk c h 0 [kMem] pW (s.ownOrHbm c) off 0 48 = none →
       ∃ u, exec (.dgend t y n h g) s = .next u
         ∧ s.Holds ((({ s with serial := s.serial + 1 } : State).modMyCore fun k =>
             { k with dgRun := some ⟨s.serial, s.at.2, dgLines x.regions, [], (k.hreg h).base + off⟩ }).plan (s.now + 1) 43 (.digestComplete c)) u .digest))

/-- R311, R313, R315 to R326, R401: every command of the grammar engine that passes its checks is handed to it, last and with the tick it
asks for, and is looked at from the next period on; its reply will write gw, or fill the entry of the queue reserved for it. What each command that
has started then comes to, its status, its value, the context, the SSR and the lines of a mask that it leaves, where nothing that it reads is damaged:
the released, the NOGR and the damaged context; binding and its release; walks; slots; positions and checkpoints; save and restore; sampling and the
verification of drafts, with a cancellation. (That the accesses of HBM take place in the first period in which they may is log 58; exponentials,
logarithms and sums of FILTER are those of log 21.) -/
def Obligations.GrammarCommandsAreHandedOver : Prop :=
  (∀ (s : State) (t : Tok),
      let c := s.at.1
      let k := s.myCore
      let num (g : G) : Nat := (s.gr g).toNat
      let ctxOf (g : G) : Nat := num g % 1024
      let handed (i : Instr) (hdr : GeHdr) (qa : Bool) (gs : List G) (hs : List H) (checks : List (Option Res)) (gctx : Option Nat) (named : Bool)
          (reads : Nat) (op : GeOp) : Prop :=
        s.mayIssue { t := t, streams := [.c], reads := (hdr.gt :: hdr.gv :: hdr.gw :: gs).map keyG ++ hs.map keyH } = true →
        (k.timed = false → hdr.gt = 0) → (qa = true → k.c.qSucc.used < 16 ∧ hdr.gw = 0) → (s.geCmds.filter (·.core = c)).length < 8 →
        (s.timedAt c = true → hdr.gt ≠ 0) → (hdr.gt ≠ 0 → s.tick < num hdr.gt) → (∀ x ∈ checks, x = none) →
        (named = true → ∀ n, gctx = some n → (s.geCtx n).bound = true ∧ (s.geCtx n).ctx = k.ctx) →
        let x : GeCmd :=
          { id := s.serial, core := c, gw := hdr.gw, qa := qa, gctx := gctx, ctx := k.ctx, op := op, req := num hdr.gt, own := none, arrive := none,
            left := reads, buf := [], begun := none,
            stop := none, reply := 0, outAt := 0, outLines := [], strict := s.strictCmd c hdr.gt, late := false }
        ∃ u v, exec i s = .next u ∧ s.Passes v u (s.after 4) hdr.y
          ∧ v = { s with cores := v.cores, agenda := v.agenda, geCmds := s.geCmds ++ [x], serial := s.serial + 1 }
          ∧ (∀ j, j ≠ c → v.core j = s.core j) ∧ (s.now + 1, 11, Work.geCommandStart s.serial) ∈ v.agenda
          ∧ v.myCore = { k with c := if qa then { k.c with qSucc := k.c.qSucc.reserve s.serial } else k.c.awaits hdr.gw s.serial false }
      (∀ o : GbindOp,
        let off := num o.gdo
        let src : List G × List H × List (Option Res) × Option (Nat × Nat) := match o.src with
          | some (h, g) => ([g], [h], [s.spanChk c h 1 [kMem] pR (s.pkgSpace c) (num g) 0 64],
                            some ((k.hreg h).base + num g, (k.hreg h).len - num g))
          | none => ([], [], [], none)
        handed (.gbind t o) o.hdr false (o.gdo :: src.1) (o.hd :: src.2.1)
          (s.spanChk c o.hd 0 [kMem] (pR + pW) (s.hbmSpace c) off 0 (0x43000 : Nat) :: alignIssue off 4096 :: src.2.2.1) (some (ctxOf o.hdr.gv)) false 0
          (.gbind ((k.hreg o.hd).base + off) src.2.2.2 (num o.hdr.gv / 2 ^ 16 % 2 ^ 16)))
      ∧ (∀ (hdr : GeHdr) (nogr : Bool) (gx gy : G),
        let n := some (ctxOf hdr.gv)
        handed (.gbindUnbind t hdr nogr) hdr false [] [] [] n true 0 .unbind
        ∧ handed (.gadv t hdr gx) hdr false [gx] [] [] n true 0 (.gadv ((s.gr gx).truncate 32))
        ∧ handed (.gfork t hdr gx gy) hdr false [gx, gy] [] [] n true 0 (.gfork ((s.gr gx).truncate 7) ((s.gr gy).truncate 7))
        ∧ handed (.groll t hdr gx) hdr false [gx] [] [] n true 0 (.groll ((s.gr gx).truncate 7))
        ∧ handed (.gcommit t hdr) hdr false [] [] [] n true 0 .gcommit
        ∧ handed (.gsave t hdr) hdr false [] [] [] n true 0 .gsave
        ∧ handed (.seqck t hdr gx) hdr false [gx] [] [] n true 0 (.seqck ((s.gr gx).truncate 32))
        ∧ handed (.seqroll t hdr gx) hdr false [gx] [] [] n true 0 (.seqroll ((s.gr gx).truncate 32)))
      ∧ (∀ o : GmaskOp,
        let off := num o.gdo
        let g := s.geCtx (ctxOf o.hdr.gv)
        handed (.gmask t o) o.hdr false [o.gdo] [o.hd]
          [s.spanChk c o.hd 0 [kMem] pW (s.ownSpad c) off 0 (64 * (if g.nogr then 0 else (s.geImg g.grammar).maskLines) : Nat), alignIssue off]
          (some (ctxOf o.hdr.gv)) true 0 (.gmask ((k.hreg o.hd).base + off)))
      ∧ (∀ o : GrestOp,
        handed (.grest t o) o.hdr false [o.gdo, o.gso] [o.hd, o.hs]
          [s.spanChk c o.hd 0 [kMem] pR (s.hbmSpace c) (num o.gdo) 0 (0x43000 : Nat), s.spanChk c o.hs 1 [kMem] pR (s.pkgSpace c) (num o.gso) 0 64]
          (some (ctxOf o.hdr.gv)) false 0
          (.grest ((k.hreg o.hd).base + num o.gdo) ((k.hreg o.hs).base + num o.gso)))
      ∧ (∀ o : SampleOp,
        let n := o.nc.toNat + 1
        let mask : List G × List H × List (Option Res) × Option (Nat × Nat) := match o.mask with
          | some (h, g) => ([g], [h], [s.hUse c h 0 [kMem] pR (s.ownSpad c) (s.gr g)], some ((k.hreg h).base + num g, (k.hreg h).len - num g))
          | none => ([], [], [], none)
        handed (.sample t o) o.hdr o.qa (o.gso :: o.gx :: o.gy :: mask.1) (o.hs :: mask.2.1)
          (s.filterChk o.hdr.gv :: alignIssue (num o.gso) :: s.spanChk c o.hs 1 [kMem] pR (s.ownSpad c) (num o.gso) 0 (8 * n : Nat) :: mask.2.2.1)
          none false ((n + 7) / 8 + if o.mask.isSome then n else 0)
          (.sample ((k.hreg o.hs).base + num o.gso) n (o.ktop.toNat + 1) (s.gr o.hdr.gv) (s.gr o.gx) (num o.gy % 256) mask.2.2.2))
      ∧ (∀ o : AcceptOp,
        let n := o.nc.toNat + 1
        n ≤ 16 → handed (.accept t o) o.hdr o.qa [o.gso, o.gx, o.gy] [o.hs]
          [s.spanChk c o.hs 1 [kMem] pR (s.ownSpad c) (num o.gso) 0 (16 * n : Nat), alignIssue (num o.gso)] (some (ctxOf o.hdr.gv)) true ((n + 3) / 4)
          (.accept ((k.hreg o.hs).base + num o.gso) n (s.gr o.gx) (num o.gy % 256)))
      ∧ (∀ o : AccmbOp,
        let n := o.nc.toNat + 1
        handed (.accmb t o) o.hdr o.qa [o.gdo, o.gso, o.gy] [o.hd, o.hs]
          [s.filterChk o.hdr.gv, s.spanChk c o.hd 0 [kMem] pR (s.ownSpad c) (num o.gdo) 0 (16 * n : Nat),
           s.spanChk c o.hs 1 [kMem] pR (s.ownSpad c) (num o.gso) 0 (512 * n : Nat), alignIssue (num o.gdo), alignIssue (num o.gso)]
          (some (ctxOf o.gy)) true ((n + 3) / 4 + 8 * n)
          (.accmb ((k.hreg o.hd).base + num o.gdo) ((k.hreg o.hs).base + num o.gso) n (o.ktop.toNat + 1) (s.gr o.hdr.gv))))
  ∧ (∀ (s : State) (x : GeCmd) (n : Nat), x.gctx = some n → s.dmg = [] → s.soft = [] →
    let c := s.geCtx n
    let l := ppaLocal c.ssr
    let b := x.start
    let g := s.geImg c.grammar
    let own := c.bound = true ∧ c.ctx = x.ctx ∧ c.damaged = false
    let comes (t : State) (st v : Nat) : Prop := s.geWork x = ⟨t, st, v, []⟩
    let writes (t : State) (lo len : Nat) : Prop :=
      (∀ a, ¬ (lo ≤ a ∧ a < lo + len) → t.mem.get a = s.mem.get a) ∧ ∀ m, m ≠ n → t.geCtx m = s.geCtx m
    let confs : List GeConf := c.live :: c.base :: (List.range 64).map fun k => (c.slot k).conf
    (x.op.named = true → ¬ (c.bound = true ∧ c.ctx = x.ctx) → comes s 12 0)
    ∧ (c.bound = true → c.ctx = x.ctx →
      (x.op.grammar = true → c.nogr = true → c.damaged = false → comes s 9 0)
      ∧ (c.damaged = true → x.op.named = true → x.op ≠ .unbind → x.op ≠ .gsave →
          (s.geWork x).s = s ∧ (s.geWork x).status = 11 ∧ (s.geWork x).val = 0)
      ∧ (x.op = .unbind → comes (s.setGe n .idle) 0 0)
      ∧ (x.op = .gsave → c.damaged = true → ∃ t, comes t 0 0 ∧ t.geCtx n = .idle ∧ t.word l = 0 ∧ writes t l 8))
    ∧ (own → c.nogr = false →
      (∀ k p, x.op = .gfork k p →
        (k.toNat ≤ 63 → comes (s.setGe n (c.setSlot k.toNat ⟨c.live, c.live.lastTok, p, true⟩)) 0 0) ∧ (63 < k.toNat → comes s 7 0))
      ∧ (∀ k, x.op = .groll k →
        (k = 127 → comes (s.setGe n { c with live := c.base }) 0 0)
        ∧ (k.toNat ≤ 63 → (c.slot k.toNat).valid = true → comes (s.setGe n { c with live := (c.slot k.toNat).conf }) 0 0)
        ∧ (k ≠ 127 → ¬ (k.toNat ≤ 63 ∧ (c.slot k.toNat).valid = true) → comes s 4 0))
      ∧ (∀ tok, x.op = .gadv tok → let w := g.walk s c.live none
        (∀ st, w.stop = some st → comes s st 0)
        ∧ (w.stop = none →
          (w.found.find? (·.1 = tok.toNat) = none → comes s 3 0)
          ∧ ∀ e, w.found.find? (·.1 = tok.toNat) = some e →
            (tok.toNat = g.eos → comes (s.setGe n { c with live := { c.live with done := true, lastTok := tok } }) 0 0)
            ∧ (tok.toNat ≠ g.eos → comes (s.setGe n { c with live := ⟨e.2.1, e.2.2.reverse, false, tok⟩ }) 0 0)))
      ∧ (∀ d, x.op = .gmask d → let w := g.walk s c.live (some (g.budget - g.maskLines - 16))
        let a := s.geWork x
        a.s = s ∧ a.val = 0 ∧ a.lines.length = g.maskLines ∧ a.status = w.stop.getD 0
          ∧ ∀ tok, tok < 512 * g.maskLines → ((a.lines.getD (tok / 512) []).getD (tok % 512 / 8) 0).getLsbD (tok % 8)
              = ((w.stop = none ∨ w.stop = some 0) && w.found.any (·.1 = tok))))
    ∧ (own →
      (x.op = .gcommit → ∃ t, comes t 0 0 ∧ writes t (l + 0x18) 8 ∧ t.word (l + 0x18) = s.word (l + 0x10)
        ∧ t.geCtx n = { c.dropSlots with base := if c.nogr then c.base else c.live } ∧ ∀ k, ((t.geCtx n).slot k).valid = false)
      ∧ (∀ p : BitVec 32, x.op = .seqck p → let p := p.toNat
        let entry := l + 0x300 + 8 * (p / c.ckint % 16)
        (p < s.word (l + 0x18) → comes s 7 0)
        ∧ (s.word (l + 0x18) ≤ p → ∃ t, comes t 0 p ∧ t.geCtx n = c ∧ writes t (l + 0x10) (if p % c.ckint = 0 then 0x370 else 8)
          ∧ t.word (l + 0x10) = p ∧ (p % c.ckint = 0 → t.word entry = p + 2 ^ 63
            ∧ ∀ a, l + 0x18 ≤ a → ¬ (entry ≤ a ∧ a < entry + 8) → t.mem.get a = s.mem.get a)))
      ∧ (∀ p : BitVec 32, x.op = .seqroll p → let p := p.toNat
        let ck (t : State) (i : Nat) : Nat := t.word (l + 0x300 + 8 * i)
        (p < s.word (l + 0x18) ∨ s.word (l + 0x10) < p → comes s 7 0)
        ∧ (s.word (l + 0x18) ≤ p → p ≤ s.word (l + 0x10) → ∃ t st v, comes t st v ∧ t.geCtx n = c ∧ writes t (l + 0x10) 0x370
          ∧ t.word (l + 0x10) = p ∧ t.word (l + 0x18) = s.word (l + 0x18)
          ∧ (∀ i, i < 16 → ck t i = if p < ck s i % 2 ^ 32 then ck s i % 2 ^ 63 else ck s i)
          ∧ (∀ i, i < 16 → ck t i / 2 ^ 63 = 1 → st = 0 ∧ ck t i % 2 ^ 32 ≤ v)
          ∧ (st = 0 → ∃ i, i < 16 ∧ ck t i / 2 ^ 63 = 1 ∧ ck t i % 2 ^ 32 = v)
          ∧ ((∀ i, i < 16 → ck t i / 2 ^ 63 ≠ 1) → st = 8 ∧ v = 0)))
      ∧ (x.op = .gsave → (∀ f ∈ confs, f.stack.length ≤ 1024) → ∃ t, comes t 0 0 ∧ t.geCtx n = .idle ∧ writes t l 0x43000
        ∧ t.word (l + 8) = (c.grammar + if c.nogr then 2 ^ 63 else 0) % 2 ^ 64
        ∧ t.word (l + 0x28) = c.ctx.toNat + (if c.cancelled b then 2 ^ 8 else 0)
        ∧ (∀ k, k < 64 → let y := c.slot k
          t.word (l + 0x100 + 8 * k) = y.token.toNat + y.parent.toNat * 2 ^ 32 + (if y.valid then 2 ^ 63 else 0)
          ∧ (c.nogr = false → let r := y.conf.record y.valid
              t.mem.read (l + 0x3000 + 0x1000 * k) r.length = r))
        ∧ (c.nogr = false → t.mem.read (l + 0x1000) (c.live.record true).length = c.live.record true
          ∧ t.mem.read (l + 0x2000) (c.base.record true).length = c.base.record true)
        ∧ t.word (l + 0x10) = s.word (l + 0x10) ∧ t.word (l + 0x18) = s.word (l + 0x18))
      ∧ (let finishes (len node : Nat) : Prop :=
          (c.cancelled b = true → ∃ t, comes t 2 0 ∧ writes t l 0x400
            ∧ t.geCtx n = { (c.uncancel b).dropSlots with live := if c.nogr then c.live else c.base }
            ∧ t.word (l + 0x10) = s.word (l + 0x18)
            ∧ (∀ k, k < 64 → t.word (l + 0x100 + 8 * k) = s.word (l + 0x100 + 8 * k) % 2 ^ 63)
            ∧ ∀ i, i < 16 → let v := s.word (l + 0x300 + 8 * i)
                t.word (l + 0x300 + 8 * i) = if s.word (l + 0x18) < v % 2 ^ 32 then v % 2 ^ 63 else v)
          ∧ (c.cancelled b = false →
            (c.nogr = true → comes s 0 len)
            ∧ (c.nogr = false →
              (len = 0 → comes (s.setGe n { c with live := c.base }) 0 0)
              ∧ (len ≠ 0 →
                (63 < node ∨ (c.slot node).valid = false → comes s 4 len)
                ∧ (node ≤ 63 → (c.slot node).valid = true →
                  comes (s.setGe n { c with live := { (c.slot node).conf with lastTok := (c.slot node).token } }) 0 len))))
        (∀ src m ctr key, x.op = .accept src m ctr key →
          let len := acceptGo ((Sparse.get 0 (s.ctxOf x.core).rngReg key).truncate 64) ctr
            ((List.range m).map fun i => (x.word 0 (16 * i + 4), x.word 0 (16 * i + 8))) 0 0 true 0
          finishes len (x.node (len - 1)))
        ∧ ∀ dst src m k tp, x.op = .accmb dst src m k tp → let len := blockLen x m k tp m 0; finishes len (x.node (len - 1))))
    ∧ (∀ ssr gram ck, x.op = .gbind ssr gram ck → c.damaged = false →
      (c.bound = true → comes s 6 0)
      ∧ (c.bound = false → let d := ppaLocal ssr
        let ok := ck ≠ 0 ∧ ∀ e, gram = some e → (s.geImg e.1).ok e.1 e.2 = true
        (¬ ok → comes s 5 0)
        ∧ (ok → let conf : GeConf := match gram with
              | some e => ⟨(s.geImg e.1).start, [], false, 0⟩
              | none => .zero
          let gr := gram.elim 0 (·.1)
          ∃ t, comes t 0 0 ∧ writes t d 0x380
            ∧ t.geCtx n = { GeCtx.idle with bound := true, nogr := gram.isNone, ctx := x.ctx, grammar := gr, ssr := ssr, ckint := ck,
                                            live := conf, base := conf }
            ∧ t.word d = 0x31525353 ∧ t.word (d + 8) = (gr + if gram.isNone then 2 ^ 63 else 0) % 2 ^ 64 ∧ t.word (d + 0x10) = 0
            ∧ t.word (d + 0x18) = 0 ∧ t.word (d + 0x20) = ck % 2 ^ 64 ∧ t.word (d + 0x28) = x.ctx.toNat ∧ t.word (d + 0x300) = 2 ^ 63
            ∧ (∀ k, k < 64 → t.word (d + 0x100 + 8 * k) = 0) ∧ ∀ i, 1 ≤ i → i < 16 → t.word (d + 0x300 + 8 * i) = 0)))
    ∧ (∀ ssr gram, x.op = .grest ssr gram → c.damaged = false →
      (c.bound = true → comes s 6 0)
      ∧ (c.bound = false → let d := ppaLocal ssr
        let w := s.word (d + 8)
        let y := s.ssrCtx ssr x.ctx
        let legal := w / 2 ^ 63 = 1
          ∨ (y.live.legal (s.geImg gram) = true ∧ y.base.legal (s.geImg gram) = true ∧ ∀ e ∈ y.slots, e.2.valid = true → e.2.conf.legal (s.geImg gram) = true)
        let ok := s.word d = 0x31525353 ∧ s.word (d + 0x28) % 256 = x.ctx.toNat ∧ (w / 2 ^ 63 = 1 ∨ w % 2 ^ 58 = gram) ∧ legal
        (¬ ok → comes s 5 0)
        ∧ (ok → comes (s.setGe n y) 0 0 ∧ y.bound = true ∧ y.nogr = decide (w / 2 ^ 63 = 1) ∧ y.ctx = x.ctx ∧ y.grammar = w % 2 ^ 58 ∧ y.ssr = ssr
          ∧ y.ckint = s.word (d + 0x20) % 2 ^ 16 ∧ y.cancel.isSome = decide (s.word (d + 0x28) / 2 ^ 8 % 2 = 1)
          ∧ (w / 2 ^ 63 ≠ 1 → y.live = (s.confAt (d + 0x1000)).1 ∧ y.base = (s.confAt (d + 0x2000)).1)
          ∧ ∀ k, k < 64 → let v := s.word (d + 0x100 + 8 * k)
              (y.slot k).token.toNat = v % 2 ^ 32 ∧ (y.slot k).parent.toNat = v / 2 ^ 32 % 2 ^ 7
                ∧ (w / 2 ^ 63 ≠ 1 → (y.slot k).conf = (s.confAt (d + 0x3000 + 0x1000 * k)).1)
                ∧ ((y.slot k).valid = true ↔ v / 2 ^ 63 = 1 ∧ (w / 2 ^ 63 = 1 ∨ (s.confAt (d + 0x3000 + 0x1000 * k)).2 = true))))))
  ∧ (∀ (s : State) (x : GeCmd) src m k tp ctr key mask, x.op = .sample src m k tp ctr key mask →
    let lines := (m + 7) / 8
    let off (w : Word) : Bool := mask.isSome
      && !((List.range m).any fun i => (x.pair 0 i).2 = w && ((x.bytes (lines + i) 0 1).headD 0).getLsbD (w.toNat % 8))
    let f := filterCands ((List.range m).map (x.pair 0)) (tp.toNat % 2 ^ 32) k (tp.toNat / 2 ^ 32) off
    (f = none → s.geWork x = ⟨s, 1, 0xFFFFFFFF, []⟩)
    ∧ ∀ l ws kept, f = some (l, ws, kept) →
      let j := chooseRank (unit24 ((Sparse.get 0 (s.ctxOf x.core).rngReg key).truncate 64) ctr) (ws.take kept)
      s.geWork x = ⟨s, 0, (l.getD j candNone).2.toNat + j * 2 ^ 32 + kept * 2 ^ 40, []⟩)

/-! ### The events of the engines -/

/-- R247, R248, R252 to R257: the matrix array starts its oldest operation once it is free and tiles and columns are, and plans the
additions of its column groups; a group adds to each of its elements the exact sum of its 64 products, after zero for an `mmaz`. The
drain unit starts a drain, reads a chunk a period and writes its elements 14 periods later, and no other byte. All this with no damage in
the arrays that they read (R375). -/
def Obligations.MatrixArrayAndDrainUnitWork : Prop :=
  ∀ (s : State) (c : Nat), (s.core c).soft = [] →
    let k := s.core c
    (∀ op rest, k.maQueue = op :: rest → k.parity.contains (keyTd op.ta) = false → k.parity.contains (keyTd op.tb) = false → s.stopping c = false → k.maFree ≤ s.now → op.arrive < s.now →
      let ta := tdTag (k.tdescOf op.ta.toNat)
      let tb := tdTag (k.tdescOf op.tb.toNat)
      let w := (pairing ta tb).getD 8
      let groups := (op.n - op.done) / w
      (∀ e ∈ k.tileEff, (e.tile = op.ta ∨ e.tile = op.tb) → e.wr = true → e.last < s.now) →
      (∀ e ∈ k.ce, e.tileOpen op.ta = true ∨ e.tileOpen op.tb = true → op.arrive ≤ e.tileSince.getD 0) → k.maHeld s.now op w = false →
      ∃ u, exec (.maStart c) s = .next u ∧ u = { s with cores := u.cores, agenda := u.agenda } ∧ (∀ x, x ≠ c → u.core x = s.core x)
        ∧ u.core c = { k with maQueue := rest, maFree := s.now + groups,
                              maRun := k.maRun ++ [⟨op, s.now, BitVec.ofNat 4 ta, BitVec.ofNat 4 tb, k.tileOf op.ta, k.tileOf op.tb, op.done / w⟩] }
        ∧ ∀ g, g < groups → (s.now + g + 9, 9, Work.maGroupAddition c op.id (op.done / w + g)) ∈ u.agenda)
    ∧ (∀ id g r, k.maRun.find? (·.op.id = id) = some r → s.maStops c id r = false → (g + 1) * r.width ≤ r.op.n → r.op.c + r.op.n ≤ 512 →
      ∃ u, exec (.maGroupAddition c id g) s = .next u ∧ u.mem = s.mem ∧ (∀ x, x ≠ c → u.core x = s.core x)
        ∧ (∀ m n, m < 64 → g * r.width ≤ n → n < (g + 1) * r.width →
          (u.core c).xaOf m (r.op.c + n) = (if r.op.zero then 0 else k.xaOf m (r.op.c + n))
            + BitVec.ofInt 136 ((List.range 64).map fun i => (productOf (k.colSide (r.op.c + n)).anchor.toInt
                (tyOfTag r.aTag.toNat) (tileElem r.a r.aTag.toNat m i) (tyOfTag r.bTag.toNat) (some (tileElem r.bt r.bTag.toNat i n))).1).sum)
        ∧ (∀ m j, m < 64 → j < 512 → ¬ (r.op.c + g * r.width ≤ j ∧ j < r.op.c + (g + 1) * r.width) → (u.core c).xaOf m j = k.xaOf m j)
        ∧ (u.core c).tiles = k.tiles)
    ∧ (∀ d, k.drains.find? (!·.started) = some d → s.stopping c = false → k.deuFree ≤ s.now → d.arrive < s.now →
      exec (.drainStart c) s = .next ((s.modCore c (·.modDrain d.id fun d => { d with started := true })).plan s.now 10
        (.drainChunkRead c d.id d.read)))
    ∧ (∀ id q d, k.drains.find? (·.id = id) = some d → s.stopping c = false ∨ d.atSplit q = false →
      let t := (s.plan (s.now + 14) 16 (.drainChunkWrite c id q (d.els k q))).modCore c (·.modDrain id fun d => { d with read := q + 1 })
      (q + 1 < d.chunks → exec (.drainChunkRead c id q) s = .next (t.plan (s.now + 1) 10 (.drainChunkRead c id (q + 1))))
      ∧ (d.chunks ≤ q + 1 → ∃ u, exec (.drainChunkRead c id q) s = .next u ∧ u.mem = s.mem ∧ (u.core c).deuFree = s.now + 1
          ∧ (u.core c).xa = k.xa ∧ (u.core c).drains = (t.core c).drains))
    ∧ (∀ id q els d, k.drains.find? (·.id = id) = some d →
      let o := (d.chunkOut q).1
      let bytes := d.outOf els
      let writes := d.cfg.getLsbD 19 = false
      let banks := if writes then banksOf o (d.chunkOut q).2 else []
      k.portBefore d = false → s.ceClash c 3 d.timed banks = none → (d.timed = true → ∀ e ∈ s.portBanks c, banks.contains e.1 = false) →
      ∃ u, exec (.drainChunkWrite c id q els) s = .next u
        ∧ (∀ a, u.mem.get a = if writes ∧ spadOf c + o ≤ a ∧ a < spadOf c + o + bytes.length then bytes.getD (a - (spadOf c + o)) 0
            else s.mem.get a)
        ∧ (u.core c).drains = k.drains.map (fun x => if x.id = id then { x with written := q + 1 } else x)
        ∧ (d.cfg.getLsbD 18 = false → (u.core c).heaps = k.heaps) ∧ (u.core c).xa = k.xa)

/-- R267 to R272, R275 to R277, R279 to R284, R393, R394: a command that is ready starts; its events read lines, runs and elements at their source
and send what they read; a landing in a scratchpad or in HBM writes its bytes and no other: those of a copy, a `scat`, a `recv`, the packed line of a
`gath`, the new value of a `cpyacc` or `cpycas`; flag, result and follow-on; a finished command leaves the buffer; a command fault becomes a trap of
its stream; CEFCTL.
The ticks of free work are the model's choice (log 30, log 32). -/
def Obligations.CopyEngineWorks : Prop :=
  ∀ (s : State) (c id : Nat),
    let k := s.core c
    let update (u : State) (f : CeEntry → CeEntry) : Prop := (u.core c).ce = k.ce.map fun x => if x.id = id then f x else x
    let noTile (e : CeEntry) : Prop := ∀ td p fo fz a b n col sp, e.kind ≠ .tile td p fo fz a b n col sp
    let taken (t : State) : State := t.modCe c id fun e => { e with outstanding := e.outstanding + 1 }
    let fetches (t : State) (e : CeEntry) (j : Nat) (x : Int) (n : Nat) (u : State) : Prop :=
      let a := e.src.addr x
      let dly := t.writeDelay c e.m (t.locAt c e.src x) (t.dstLoc c e (t.dispNow e (e.elemOf j)).2)
      match t.locAt c e.src x with
      | .own => t.uncorr (ppaLocal a) n = none → u = (t.touch (ceWho c e) (ppaLocal a) n).ceGot c id j (t.load (ppaLocal a) n) dly
      | .hbm => u = t.plan (t.now + 210) 10 (.ceEvent c id j (.sample (ofDisp x) n))
      | .core q => u = t.plan (t.now + t.meshLat c q) 10 (.remoteLineSample c id j (ofDisp x) n)
      | .gen => (t.core c).parity.contains (keyWin e.src.h.desc) = false →
          u = t.ceGot c id j ((t.ctxOf c).winBytes e.src.h.desc a n) dly
      | .pkg _ => n ≠ 0 → t.soft = [] → u = (t.ceDrop c id).cePacket c e (.readReq j n) (t.routeTo a) a []
      | _ => u = t
    let granted (e : CeEntry) (l n : Nat) : Prop :=
      match place l with
      | .spad tc o =>
        let code := if tc ≠ c then 0 else match e.kind with
          | .recv .. => 0
          | _ => 1
        (tc ≠ c → e.strict = false → s.slotOpen tc = true)
          ∧ (e.strict = true → (s.core tc).sameByte s.now code o n = false ∧ s.rival c e.stream code l n = false)
          ∧ s.ceClash tc code e.strict (banksOf o n) = none
      | _ => s.lineWritten (l / 64) = false ∧ (e.strict = true → s.rival c e.stream 1 l n = false)
    let written (i : Instr) (l : Nat) (bs : List Byte) : Prop :=
      ∃ u, exec i s = .next u ∧ ∀ a, u.mem.get a = if l ≤ a ∧ a < l + bs.length then bs.getD (a - l) 0 else s.mem.get a
    (∀ e, (∀ x ∈ k.ce, x.strict = false ∧ x.marks = []) → (s.fretOf c).stalled s.now = false → s.stopping c = false → k.slotFree = true →
      k.ce.find? (fun e => s.ceFree c e && !s.ceHeld c e) = some e → e.id = id →
      ∃ u m, exec (.ceCommandStart c) s = .next u ∧ u = { s with cores := u.cores, agenda := u.agenda } ∧ (∀ x, x ≠ c → u.core x = s.core x)
        ∧ update u (fun _ => { e with st := .running, base := e.prog / e.unitElems, el := e.prog / e.unitElems, sub := 0, ev := 0, dataBuf := [],
                                      nextAt := s.now, m := m, idxBuf := match e.kind with
                                        | .tile .. => e.idxBuf
                                        | _ => [] })
        ∧ (s.now, 12, Work.ceEvent c id 0 .run) ∈ u.agenda)
    ∧ (∀ e v e', s.entry c id = some e → noTile e → e.active = true → e.next = some (v, e') → (s.fretOf c).stalled s.now = false → s.stopping c = false →
      k.parity.contains (keyCe e.seq) = false → e.marks = [] → s.badAccess c e v = none →
      (∀ a ∈ s.hbmIssues c e v, s.refreshing = false ∧ (e.strict = false → s.slotOpen (portOf (ppaLocal a)) = true)) →
      ((∃ a ∈ e.accesses v, ∃ p, s.locAt c (e.sideOf a.1) a.2.1 = .pkg p) → e.outstanding = 0) →
      (e.returns = true → e.strict = false → v.isElem = true → k.resultsOf e.stream < 32) →
      s.ceClash c 2 e.strict ((e.ownReads s c v).flatMap fun x => banksOf x.1 x.2) = none → (e.strict = true → s.selfBank c e v = none) →
      (e.strict = false → s.ckptOpen = true → s.hbmWrites? c e v = false) →
      let t := (s.modCore c fun k => (k.useBanks s.now s.now 2 ((e.ownReads s c v).flatMap fun x => banksOf x.1 x.2)).count 69).modCe c id
        fun _ => { e' with nextAt := s.now + 1 }
      let t := if e'.next.isSome then t.plan (s.now + 1) 12 (.ceEvent c id 0 .run) else t
      exec (.ceEvent c id 0 .run) s = .next ((t.cePerform c { e' with idxBuf := e.idxBuf, dataBuf := e.dataBuf } v).ceSettle c id))
    ∧ (∀ e x n, s.entry c id = some e → ∀ j,
      let l := ppaLocal (e.src.addr (dispOf x))
      s.uncorr l n = none →
      exec (.ceEvent c id j (.sample x n)) s
        = .next ((s.touch (ceWho c e) l n).ceGot c id j (s.sampled l n)
            (s.writeDelay c e.m .hbm (s.dstLoc c e (s.dispNow e (e.elemOf j)).2) - 210)))
    ∧ (∀ (t : State) (e : CeEntry), e.id = id →
      (∀ n j x m, e.kind = .cpy n → e.srcLine n j = some (x, m) → fetches (taken t) e j x m (t.cePerform c e (.line j)))
      ∧ (∀ sh lo hi, e.kind = .shaped sh true → fetches (taken t) e lo (lo * shE sh : Nat) ((hi - lo) * shE sh) (t.cePerform c e (.run lo hi)))
      ∧ (∀ sh lo hi, e.kind = .shaped sh false → fetches (taken t) e lo (shDisp sh lo) ((hi - lo) * shE sh) (t.cePerform c e (.run lo hi)))
      ∧ (∀ n esz j, e.kind = .gath n esz → fetches (taken t) e j (e.idxOf j) (2 ^ esz) (t.cePerform c e (.elem j)))
      ∧ (let data (j ps : Nat) : List Byte := (e.dataBuf.drop ((j - max (j / 16 * 16) e.base) * ps)).take ps
         let sends (x : Int) (j : Nat) (bs : List Byte) : Prop :=
           t.cePerform c e (.elem j) = (taken t).ceSend c e (ofDisp x) bs (t.writeDelay c e.m .own (t.dstLoc c e x))
         (∀ n esz j, e.kind = .scat n esz → e.idxOf j < 2 ^ 64 → sends (e.idxOf j) j (data j (2 ^ esz)))
         ∧ (∀ op n esz w ret idx j, e.kind = .acc op n esz w ret idx → e.idxOf j < 2 ^ 64 → j * accD op esz < 2 ^ 64 →
             sends (if idx then e.idxOf j else j * accD op esz : Nat) j (match w with
               | some g => leBytes (accS op esz) g.toNat
               | none => data j (accS op esz)))
         ∧ (∀ esz exp new j, e.kind = .cas esz exp new → sends 0 j []))
      ∧ (∀ n lo hi l, l = ppaLocal (e.idx.addr (4 * lo : Nat)) → n = 4 * (hi - lo) → t.uncorr l n = none →
          t.cePerform c e (.index lo hi) = (t.touch (ceWho c e) l n).modCe c id fun e => { e with idxBuf := words4 (t.load l n) })
      ∧ (∀ n j x m buf bs dly, t.entry c id = some e → e.kind = .cpy n → e.dstLine n j = some (x, m) → buf = e.dataBuf ++ bs →
          t.ceGot c id j bs dly = (t.modCe c id fun e => { e with dataBuf := buf.drop m }).ceSend c e (ofDisp x) (buf.take m) dly)
      ∧ (∀ j data dly,
          (∀ q, t.dstLoc c e (dispOf j) = .core q → t.ceSend c e j data dly = t.plan (t.now + dly) 14 (.ceEvent c id j (.land data)))
          ∧ (t.dstLoc c e (dispOf j) = .hbm ∨ t.dstLoc c e (dispOf j) = .own ∧ dly ≠ 0 →
              t.ceSend c e j data dly = t.plan (t.now + dly) 15 (.ceEvent c id j (.land data)))
          ∧ (t.dstLoc c e (dispOf j) = .own → dly = 0 → noTile e → exec (.ceEvent c id j (.land data)) t = .next (t.ceSend c e j data dly)))
      ∧ (t.entry c id = some e →
          (e.active = false ∨ e.outstanding ≠ 0 ∨ e.next.isSome = true → t.ceSettle c id = t)
          ∧ (e.active = true → e.outstanding = 0 → e.next = none →
            (∀ f, e.flag = some f → e.flagSent = false → f.marked = false →
              t.ceSettle c id = (t.modCe c id fun e => { e with st := .finishing, flagSent := true }).plan (t.now + 1) 15 (.flagIncrement c id))
            ∧ (e.flag = none ∨ e.flagSent = true → noTile e →
              t.ceSettle c id = ((t.modCe c id fun e => { e with st := .finishing, foHeld := false }).modCore c (·.count 68)).plan (t.now + 1) 0
                (.ceCommandRetire c id)))))
    ∧ (∀ e j data, s.entry c id = some e → s.isFar c e j = false → e.landBuf = [] →
      let i : Instr := .ceEvent c id j (.land data)
      let l := ppaLocal (e.dst.addr (dispOf j))
      ((∃ n, e.kind = .cpy n) ∨ (∃ sh d, e.kind = .shaped sh d) ∨ (∃ n esz, e.kind = .scat n esz) ∨ (∃ p sl f n, e.kind = .recv p sl f n) →
        granted e l data.length → s.uncorr l data.length = none → written i l data)
      ∧ (∀ op n esz w ret idx, e.kind = .acc op n esz w ret idx →
        let d := accD op esz
        let o := leNat (s.sampled l d)
        let x := leNat data
        let num (v : Nat) : Int := (v : Int).bmod (2 ^ (8 * d))
        granted e l d → s.uncorr l d = none →
        (∀ f ∈ ([(AccKind.iadd32, o + x), (.iadd64, o + x), (.or, o ||| x), (.and, o &&& x), (.xor, o ^^^ x), (.swap, x),
              (.imin, if num x < num o then x else o), (.imax, if num o < num x then x else o),
              (.fmin, if fpOrder x < fpOrder o then x else o), (.fmax, if fpOrder o < fpOrder x then x else o)] : List (AccKind × Nat)),
          op = f.1 → written i l (leBytes d f.2))
        ∧ (op = .xadd → ∃ r, written i l r ∧ r.length = 32
          ∧ (let old := s.sampled l 32
             let p := product (sideOfRecord old).anchor.toInt (f32 x) (.fin (Ex.ofInt 1))
             xaOfRecord r = xaOfRecord old + BitVec.ofInt 136 p.1 ∧ (sideOfRecord r).cnt = (sideOfRecord old).cnt + 1
               ∧ (sideOfRecord r).anchor = (sideOfRecord old).anchor
               ∧ (sideOfRecord r).flags = (sideOfRecord old).flags ||| p.2 ||| (if (sideOfRecord old).cnt = BitVec.allOnes 32 then 32 else 0))))
      ∧ (∀ esz exp new, e.kind = .cas esz exp new →
        let n := 2 ^ esz
        granted e l n → s.uncorr l n = none →
        (BitVec.ofNat 64 (leNat (s.sampled l n)) = exp → e.dst.h.perm &&& pA ≠ 0 → written i l (leBytes n new.toNat))
        ∧ (BitVec.ofNat 64 (leNat (s.sampled l n)) ≠ exp ∨ e.dst.h.perm &&& pA = 0 → written i l [])))
    ∧ (∀ e j data n esz, s.entry c id = some e → s.isFar c e j = false → e.kind = .gath n esz → e.active = true → e.flag = none →
      let i : Instr := .ceEvent c id j (.land data)
      (e.gathLine n esz (j / 2 ^ esz) = none → written i 0 [])
      ∧ (∀ y m, e.gathLine n esz (j / 2 ^ esz) = some (y, m) →
        let l := ppaLocal (e.dst.addr (y : Nat))
        granted e l m → s.uncorr l m = none → written i l (e.landBuf ++ data)))
    ∧ (∀ e j x n t o, s.entry c id = some e → spadAt s.pkg (e.src.addr (dispOf x)) = some (t, o) → s.slotOpen t = true →
      s.ceClash t 0 false (banksOf o n) = none →
      let l := ppaLocal (e.src.addr (dispOf x))
      s.uncorr l n = none →
      exec (.remoteLineSample c id j x n) s
        = .next (let v := (s.touch (ceWho c e) l n).modCore t (·.useBanks s.now s.now 0 (banksOf o n))
                 v.ceGot c id j (v.load l n) (v.writeDelay c e.m (.core t) (v.dstLoc c e (v.dispNow e (e.elemOf j)).2) - v.meshLat c t)))
    ∧ exec (.ceCommandRetire c id) s = .next (s.modCore c fun k => { k with ce := k.ce.filter (·.id ≠ id) })
    ∧ (∀ e f t, s.entry c id = some e → e.flag = some f → ppaPkg (f.addr 0) = s.pkg →
      let l := ppaLocal (f.addr 0)
      place l = .hbm → s.lineGrant 2 l 8 true = some t → s.uncorr l 8 = none →
      ∃ u, exec (.flagIncrement c id) s = .next u ∧ u.word l = (leNat (s.sampled l 8) + 1) % 2 ^ 64
        ∧ (∀ a, ¬ (l ≤ a ∧ a < l + 8) → u.mem.get a = s.mem.get a) ∧ (s.now + 1, 0, Work.ceCommandRetire c id) ∈ u.agenda)
    ∧ (∀ i v, (k.rf i).length < 32 →
      exec (.resultFifoEntry c i id v) s = .next ((s.modCore c fun k => k.setRf i (k.rf i ++ [(s.now + 1, v)])).ceDone c id 0))
    ∧ (∀ e td p fo fz a b n col sp, s.entry c id = some e → e.kind = .tile td p fo fz a b n col sp → k.maQueue.length < 4 →
      mmaChk (BitVec.ofNat 64 col) (BitVec.ofNat 64 n) 0 0 a b (k.tdescOf a.toNat) (k.tdescOf b.toNat) = none →
      ∃ u, exec (.followOnHandoff c id) s = .next u ∧ (u.core c).maQueue = k.maQueue ++ [⟨s.serial, fz, a, b, n, col, sp, s.now, 0, true⟩]
        ∧ update u (fun e => { e with foHeld := false }) ∧ (s.now + 1, 0, Work.ceCommandRetire c id) ∈ u.agenda)
    ∧ (∀ i f r, (s.str c i).faults = f :: r → (s.str c i).nest = false → (s.str c i).hold = none → (s.str c i).retireAt < s.now →
      (s.str c i).stopped = false → (s.fretOf c).stalled s.now = false → s.timedAt c = false → f.freeze = false →
      ∃ u, exec (.commandFaultTrap c i) s = .next u ∧ u.mem = s.mem
        ∧ u.str c i = { s.str c i with
            faults := r, nest := true, pc := BitVec.ofNat 64 (0x1E000 + 8 * f.cause.toNat), notBefore := s.now + 4, halted := false, point := false
            trapPc := (s.str c i).pc &&& 0x1FFFC, trapCause := f.cause.zeroExtend 64, trapInfo0 := f.info0, trapInfo1 := f.info1 })
    ∧ (∀ i q e cause side, k.faultedBy i q = some (e, cause, side) → e.id = id →
      (e.outstanding = 0 → exec (.cefctlAbandon c i q) s = .next ((s.modCore c (·.count 68)).modCore c fun k =>
        { k with ce := k.ce.filter (·.id ≠ id) }))
      ∧ exec (.cefctlResume c i q) s = .next ((s.modCe c id fun e => { e with st := .queued }).planStart c s.now)
      ∧ (e.outstanding = 0 → cause = 0xA1 ∨ cause = 0x68 ∨ cause = 0xA7 → s.missSide c e e.stale = none →
        exec (.cefctlRetranslate c i q) s
          = .next ((s.modCe c id fun x => { x with st := .retranslating 2 e.stale }).plan (s.now + 95) 1 (.ceRetranslationComplete c id))))
    ∧ (∀ e, s.entry c id = some e → s.missSide c e e.stale = none →
      ∃ (u : State) (e' : CeEntry), exec (.ceRetranslationComplete c id) s = .next u ∧ update u (fun _ => { e' with st := .queued })
        ∧ (∀ n ∈ e.stale, (e'.sideOf n).marked = false) ∧ u.mem = s.mem)

/-- R289 to R294, R302, R312, R313, R298, R299, R443: a sync agent gives a free lock to its caller, frees a lock that no one waits for, and
counts barrier arrivals, the last one opening the next phase; replies reach the register that waits; the digest engine, of the runs that wait the one
that issued first (log 65), reads a line and takes from it every piece that follows there and, after the last one, writes the digest of what it has read; the grammar engine starts a command on a free walker and delivers its reply; packets go on, arrive, and are noticed.
That a packet names its command is the model's choice (log 14). -/
def Obligations.AgentsAnswer : Prop :=
  ∀ (s : State),
    (∀ q : SyncReq, q.pkg = s.pkg → q.pkg < 1024 → q.core < 512 → q.ppa = mkPpa s.pkg (ppaLocal q.ppa) → s.waitersOf q.ppa = [] →
      (∀ e ∈ s.agenda, ∀ x, e.2.2 = .syncOperationPerform x → e.1 = s.now → x.ppa = q.ppa → syncRank q ≤ syncRank x) →
      let l := ppaLocal q.ppa
      let r := s.syncRec l
      (q.timed = true ∨ s.slotOpen (portOf l) = true ∧ (place l = .hbm → s.ckptOpen = false ∧ (q.again = true → s.refreshing = false))) →
      s.uncorr l 64 = none →
      let gives (r' : SyncRec) (ans : Option SyncAns) : Prop :=
        ∃ u, exec (.syncOperationPerform q) s = .next u ∧ u.syncRec l = r'
          ∧ (∀ a, ¬ (l ≤ a ∧ a < l + 32) → u.mem.get a = s.mem.get a)
          ∧ ∀ a, ans = some a → (s.now + q.q, 1, Work.syncReply q a) ∈ u.agenda
      (r.kind = 1 → r.held = false → q.op = .acq → ∃ w, gives { r with w1 := w } (some (.word 0))
        ∧ w.getLsbD 63 = true ∧ w.extractLsb' 32 10 = BitVec.ofNat 10 q.pkg ∧ w.extractLsb' 0 9 = BitVec.ofNat 9 q.core
        ∧ w.extractLsb' 14 2 = BitVec.ofNat 2 (streamNum q.stream))
      ∧ (r.kind = 1 → r.held = true → r.holder = (q.pkg, q.core, streamNum q.stream) → q.op = .rel → gives { r with w1 := 0 } none)
      ∧ (r.kind = 2 → q.op = .arr → r.arrived + 1 < 2 ^ 16 →
        (r.arrived + 1 ≠ r.goal → ∃ w, gives { r with w1 := w, w2 := BitVec.ofNat 64 r.phase } (some (.word (BitVec.ofNat 64 r.phase)))
          ∧ w.extractLsb' 16 16 = BitVec.ofNat 16 (r.arrived + 1) ∧ w.extractLsb' 0 16 = r.w1.extractLsb' 0 16)
        ∧ (r.arrived + 1 = r.goal → ∃ w, gives { r with w1 := w, w2 := BitVec.ofNat 64 ((r.phase + 1) % 2 ^ 32) } (some (.word (BitVec.ofNat 64 r.phase)))
          ∧ w.extractLsb' 16 16 = (0 : BitVec 16) ∧ w.extractLsb' 0 16 = r.w1.extractLsb' 0 16)))
    ∧ (∀ (r : SyncReq) w,
      (∀ waits far, (s.str r.core r.stream).hold = some (.sync r.id waits far) →
        exec (.syncReply r (.word w)) s = .next ((s.modStr r.core r.stream (·.setG r.gw w)).releaseHold r.core r.stream s.now))
      ∧ ((∀ waits far, (s.str r.core r.stream).hold ≠ some (.sync r.id waits far)) →
        exec (.syncReply r (.word w)) s = .next (s.modStr r.core r.stream (·.answered r.gw r.id w))))
    ∧ (∀ c run t, (s.core c).dgRun = some run → s.gated 993 = false → (∀ e ∈ s.cores, ∀ x, e.2.dgRun = some x → run.id ≤ x.id) →
      (∀ a n l r, run.left = (a, n) :: (l ++ r) → (∀ e ∈ l, e.1 / 64 = a / 64) → (∀ e, r.head? = some e → e.1 / 64 ≠ a / 64) →
        ppaPkg a = s.pkg → s.classGrant 3 (ppaLocal a) n false = some t → (∀ e ∈ (a, n) :: l, s.uncorr (ppaLocal e.1) e.2 = none) →
        ∃ u, exec (.digestComplete c) s = .next u ∧ u.mem = s.mem
          ∧ (u.core c).dgRun = some { run with left := r, got := run.got ++ ((a, n) :: l).flatMap fun e => s.sampled (ppaLocal e.1) e.2 }
          ∧ (s.now + 1, 43, Work.digestComplete c) ∈ u.agenda)
      ∧ (run.left = [] → s.classGrant 3 (ppaLocal run.dst) 48 true = some t →
        ∃ u, exec (.digestComplete c) s = .next u ∧ (u.core c).dgRun = none
          ∧ (let d := sha384 run.got
             ∀ a, u.mem.get a = if ppaLocal run.dst ≤ a ∧ a < ppaLocal run.dst + d.length then d.getD (a - ppaLocal run.dst) 0 else s.mem.get a)))
    ∧ (∀ id x w, s.geCmd id = some x → s.soft = [] → s.gated 987 = false → x.req ≤ s.tick → x.begun = none → (∃ a, x.arrive = some a ∧ a ≤ s.now) →
      x.left = 0 → s.freeWalker = some w →
      (∀ y ∈ s.geCmds, y ≠ x → y.begun ≠ none ∧ ∃ p, y.stop = some p ∧ p ≤ s.now) →
      let stop := s.now + s.geTicks x
      let x' := { x with begun := some (s.now, w) }
      let t := ({ s with walkers := Sparse.insert s.walkers w stop } : State).modGeCmd id fun y => { y with begun := some (s.now, w) }
      t.geOpen x' = true →
      let a := t.geWork x'
      let v := a.s.modGeCmd id fun y =>
        { y with stop := some stop, reply := BitVec.ofNat 64 (a.status * 2 ^ 56 + a.val), outLines := a.lines, outAt := match x.op with
            | .gmask d => ppaLocal d
            | _ => 0 }
      exec (.geCommandStart id) s = .next ((if a.lines.isEmpty then v
        else v.plan (max s.now (stop + s.hubDist x.core - a.lines.length)) 14 (.geWrite id)).plan (stop + s.hubDist x.core + 1) 1 (.geReply id)))
    ∧ (∀ id x, s.geCmd id = some x → x.outLines = [] →
      exec (.geReply id) s = .next ((s.dropGeCmd id).modCore x.core fun k =>
        if x.qa then (k.count 71).modStr .c fun y => { y with qSucc := (y.qSucc.fill id s.now x.reply).now s.now }
        else (k.count 71).modStr .c (·.answered x.gw id x.reply)))
    ∧ (∀ p : Packet,
      (p.route.toNat % 16 = 0 → exec (.untimedPacketForward p) s = .next (s.plan (s.now + 1) 42 (.untimedPacketDelivery p)))
      ∧ (let port := p.route.toNat / 16 % 16
         let x := Sparse.get .idle s.les port
         p.route.toNat % 16 ≠ 0 → port ≤ 11 → x.failed = none →
         exec (.untimedPacketForward p) s
          = .next { s with les := Sparse.insert s.les port { x with out := x.out ++ [{ p with route := hopRoute p.route }] } }))
    ∧ (∀ (p : Packet) t,
      let a := ppaLocal p.target
      ppaPkg p.target = s.pkg → place a = .hbm → p.kind = .write → p.flag = none → s.swappedOut p.ctx = none →
      p.data.length ≤ 64 - p.target % 64 → s.classGrant 2 a p.data.length true = some t →
      ∃ u, exec (.untimedPacketDelivery p) s = .next u
        ∧ (∀ x, u.mem.get x = if a ≤ x ∧ x < a + p.data.length then p.data.getD (x - a) 0 else s.mem.get x)
        ∧ (p.srcPkg = s.pkg → (s.now + 1, 20, Work.deliveryNotice p.srcCore p.cmd (.done 0)) ∈ u.agenda)
        ∧ (p.srcPkg ≠ s.pkg → Output.notice p.srcPkg p.srcCore p.cmd (.done 0) ∈ u.out))
    ∧ (∀ c id e, c ≠ hostCore → s.entry c id = some e →
      (e.st = .finishing → ∀ n, exec (.deliveryNotice c id (.done n)) s
        = .next ((s.modCore c (·.count 68)).plan (s.now + 1) 0 (.ceCommandRetire c id)))
      ∧ (∀ n, exec (.deliveryNotice c id (.failed n)) s = .next (s.noticeFail c e n))
      ∧ (e.active = true → e.outstanding ≠ 0 → e.pushed + 2 ^ 22 ≤ s.tick → exec (.routeTimeout c id) s = .next (s.noticeFail c e 0)))

/-! ### Links and the Meridian count -/

/-- R38 to R40: what each entry of an ephemeris does at its link engine: the units it plans, one a period, or the window it opens; the
engine goes on to the next entry, which for a `jump` whose counter is not at its end is the target, its period added to D; a `halt`
stops it. `guard` passes at the first tick of a guard interval. With no damage in staging slots and ephemeris memory (R375). -/
def Obligations.EphemerisEntriesActOnTheirLinkEngine : Prop :=
  ∀ (s : State) (p : Nat) (off : BitVec 32), s.cur = .le p → s.soft = [] →
    let x := s.le p
    let next (t : State) : State := t.modLe p fun x => { x with idx := x.idx + 1 }
    let plans (u : State) (n : BitVec 3) (due : Nat → Nat) (w : Nat → UnitWork) : Prop :=
      (∀ i, i ≤ n.toNat → (due i, 13, Work.unit (w i)) ∈ u.agenda) ∧ u.mem = s.mem ∧ u.cores = s.cores
        ∧ u.le p = { x with idx := x.idx + 1 } ∧ ∀ q, q ≠ p → u.le q = s.le q
    (∀ (slot : BitVec 6) (first um1 : BitVec 3), first.toNat + um1.toNat ≤ 7 →
      (let sl := s.slot p slot.toNat
       sl.missing s.now (s.now + s.tInj + um1.toNat) first.toNat (um1.toNat + 1) = false →
       ∃ u, exec (.xfer off slot first um1) s = .next u
        ∧ plans u um1 (fun i => s.now + s.tInj + i) (fun i => .depart p (Sparse.getAll 0 sl.data (512 * (first.toNat + i)) 512))
        ∧ u.slot p slot.toNat = { sl with busyFrom := s.now, busyTo := s.now + s.tInj + um1.toNat })
      ∧ (∃ u, exec (.dlv off slot first um1) s = .next u
        ∧ plans u um1 (fun i => s.now + i) (fun i => .take p slot.toNat (first.toNat + i))
        ∧ u.slot p slot.toNat = (s.slot p slot.toNat).announce
            ((List.range (8 * (um1.toNat + 1))).map fun i => (8 * first.toNat + i, s.now + i / 8 + s.tEj)) none))
    ∧ (∀ (inp : BitVec 4) (um1 : BitVec 3), inp.toNat ≤ 11 → inp.toNat ≠ p →
      ∃ u, exec (.fwd off inp um1) s = .next u ∧ plans u um1 (fun i => s.now + i) (fun _ => .forward inp.toNat p))
    ∧ (∀ len : BitVec 16, len ≠ 0 → exec (.inj off len) s
        = .next (s.modLe p fun x => { x with injEnd := max x.injEnd (s.tick + len.toNat), idx := x.idx + 1 }))
    ∧ exec (.hold off) s = .next (next s)
    ∧ (s.tick % 2 ^ 20 = 0 → exec (.guard off) s = .next (next s))
    ∧ (∀ (target : BitVec 14) (lvl : BitVec 1) (count : BitVec 13),
      let t := (Sparse.get 0 x.mem target.toNat).toNat / 2 ^ 28 % 2 ^ 32
      let jc := if lvl = 0 then (if x.act0 then x.jc0 else count) else (if x.act1 then x.jc1 else count)
      t < off.toNat → ∃ u, exec (.jump off target lvl count) s = .next u ∧ u = { s with les := u.les } ∧ (∀ q, q ≠ p → u.le q = s.le q)
        ∧ (jc = 0 → (u.le p).idx = x.idx + 1 ∧ (u.le p).d = x.d ∧ (if lvl = 0 then (u.le p).act0 else (u.le p).act1) = false)
        ∧ (jc ≠ 0 → (u.le p).idx = target.toNat ∧ (u.le p).d = x.d + BitVec.ofNat 64 (off.toNat - t)
          ∧ (if lvl = 0 then (u.le p).jc0 else (u.le p).jc1) = jc - 1 ∧ (if lvl = 0 then (u.le p).act0 else (u.le p).act1) = true))
    ∧ (∃ u, exec (.leHalt off) s = .next u ∧ (u.le p).on = false ∧ (u.le p).idx = x.idx + 1 ∧ u.mem = s.mem ∧ u.cores = s.cores
      ∧ u.out = s.out ++ [.leStop p (BitVec.ofNat 64 s.tick)])
    ∧ (∀ code, ∃ u, exec (.mark off code) s = .next u ∧ u.le p = { x with idx := x.idx + 1 } ∧ u.mem = s.mem ∧ u.cores = s.cores
      ∧ u.out = s.out ++ [.schedMark code (BitVec.ofNat 64 s.tick) p])

/-- R24 to R30, R32, R34, R47, R341, R376, R432 to R437: the guard interval latches the pending slew, of a root or of a child, whose alternate parent
takes over from a failed one; the 480 periods of the slew advance the count by its whole value, and then end; a request for an operating point takes
effect or is dropped, shown for one request; an exchange measures a delay or an adjustment, or stamps the count for a child; acquisition from
16 exchanges and re-acquisition set the count, which stands while the parent's is behind it; a link slot's unit is taken in, lost, idle in a guard
interval, or passed through a spare, and an untimed unit is counted each time it fails; credits, slips, lock, failure, retraining.
The 16 credits after retraining, the slip as an event, the rounding of the mean, and that a unit which failed keeps its place are the model's reading
(log 22, log 51). -/
def Obligations.MeridianAndPortEvents : Prop :=
  ∀ (s : State) (p : Nat),
    let m := s.mu
    let x := s.le p
    (s.unitStops (none, uMu) = false →
      let mu : Mu := { m with
        slew := some (m.pending.getD 0, 0), pending := none, met := false
        parent := if m.root = false ∧ (s.le m.parent.toNat).failed.isSome = true ∧ m.parent ≠ m.alt then m.alt else m.parent }
      (s.islands = [] → exec .guardIntervalStart s = .next { s with mu := mu })
      ∧ (∀ i old pt, s.islands = [(i, ⟨old, some pt⟩)] →
        (s.pointWhy i pt = 0 → ∃ u, exec .guardIntervalStart s = .next u ∧ u.mu = mu ∧ u.islands = [(i, ⟨pt, none⟩)]
          ∧ (pt ≠ 3 → u = { s with mu := mu, islands := u.islands })
          ∧ (pt = 3 → 480 ≤ i → i < 960 → ∀ o, o < spadSize → u.mem.get (spadOf (i - 480) + o) = 0))
        ∧ (s.pointWhy i pt ≠ 0 → exec .guardIntervalStart s = .next { s with
            mu := mu, islands := [(i, ⟨old, none⟩)]
            phrej := BitVec.ofNat 64 (min (s.phrej.toNat / 2 ^ 32 + 1) (2 ^ 32 - 1) * 2 ^ 32 + s.pointWhy i pt * 2 ^ 12 + pt.toNat * 2 ^ 10 + i) })))
    ∧ (∀ a : Int,
      (∀ n, m.running = true → m.hold = 0 → m.slew = some (a, n) → n < 480 →
        m.advance = { m with
          slew := some (a, n + 1)
          count := m.count + BitVec.ofInt 80 (65536 + a.tdiv 480 + if n < (a - a.tdiv 480 * 480).natAbs then a.sign else 0) })
      ∧ ((List.range 480).map fun n => 65536 + a.tdiv 480 + if n < (a - a.tdiv 480 * 480).natAbs then a.sign else 0).sum = 480 * 65536 + a)
    ∧ (m.running = true → (65536 ≤ m.hold → m.advance = { m with hold := m.hold - 65536 })
      ∧ (0 < m.hold → m.hold < 65536 → m.advance = { m with hold := 0, count := m.count + BitVec.ofNat 80 (65536 - m.hold) }))
    ∧ exec .slewEnd s = .next { s with mu := { m with slew := none } }
    ∧ (∀ (t1 t4 : Int) (turn : Nat), m.root = false →
      let t3 : Int := m.count.toNat
      let t2 := t3 - turn
      ∀ e : Int, (t4 - t1) - (t3 - t2) = 2 * e →
      let delay := e - m.asym.getD m.parent.toNat 0
      (m.st ≠ 2 → exec (.delayExchange .asChild t1 t4 turn) s
        = .next { s with mu := { m with st := if m.st = 0 then 1 else m.st, delays := (delay :: m.delays).take 16 } })
      ∧ (∀ d : Int, m.st = 2 → (t2 - t1) - (t4 - t3) = 2 * d → -65536 ≤ d → d ≤ 65536 →
        exec (.delayExchange .asChild t1 t4 turn) s = .next { s with mu := { m with missed := 0, met := true, delays := [delay], pending := some (-d) } }))
    ∧ (m.st = 2 → ∀ t1 t4 turn, exec (.delayExchange (.asParent p) t1 t4 turn) s = .next { s with out := s.out ++ [.stamp p m.count.toNat] })
    ∧ (x.uses s.tick = false → ∀ t1 t4 turn, exec (.delayExchange (.failed p) t1 t4 turn) s = .next (s.raise 5 2 0 { unit := uLe, port := p } none 0 0))
    ∧ (∀ tick (frac : BitVec 16), m.root = false → m.st = 1 → 16 ≤ m.delays.length →
      let n : Int := m.delays.length
      ∃ mean : Int, 2 * (n * mean - m.delays.sum) ≤ n ∧ -n ≤ 2 * (n * mean - m.delays.sum)
        ∧ exec (.meridianAcquire tick frac) s = .next { s with
            mu := { m with count := BitVec.ofInt 80 ((tick * 2 ^ 16 + frac.toNat : Nat) + mean), running := true, st := 2, delays := [], missed := 0, met := true }
            out := s.out ++ [.up m.parent.toNat (.locked s.pkg)] })
    ∧ (m.root = false → m.st = 2 → 16 ≤ m.missed → ∃ u, exec .exchangeTimeout s = .next u
        ∧ u.mu = { m with st := 3, slew := none, pending := none, delays := [] } ∧ u.mem = s.mem ∧ u.cores = s.cores)
    ∧ (∀ value, m.root = false → m.st = 3 → 16 ≤ m.delays.length → ∃ u, exec (.meridianReacquire value) s = .next u ∧ u.mu.st = 2
        ∧ (m.count.toNat ≤ value → value < 2 ^ 80 → u.mu.count.toNat = value)
        ∧ (value < m.count.toNat → u.mu.count = m.count ∧ u.mu.hold = m.count.toNat - value))
    ∧ (∀ n, x.down s.now = false → s.gated (968 + p) = false →
      let t := s.modLe p fun x => { x with corr := BitVec.ofNat 32 (min (x.corr.toNat + n) (2 ^ 32 - 1)) }
      let takes (v : LinkUnit) (t : State) : Prop := exec (.linkSlotReceive p ⟨v, n⟩) s = .next t
      (s.inGuard = true → ∀ v, takes v t)
      ∧ (s.inGuard = false → takes .idle t ∧ ∀ data, data.length = 512 →
        (s.spare = false →
          (x.discard = none → takes (.timed data true) (t.modLe p fun x => { x with arrived := x.arrived ++ [data] }))
          ∧ (∀ kind cmd, (∀ e ∈ x.untimed, e.2 < 16) →
            let v : UntimedUnit := ⟨data, kind, cmd⟩
            let queue (l : List (UntimedUnit × Nat)) : State := t.modLe p fun x => { x with untimed := l }
            (∀ ok : Bool, x.untimed.length < 16 → (∀ e ∈ x.untimed, e.1 = v → e.2 = 0) →
              takes (.untimed v ok) (queue (x.untimed ++ [(v, if ok then 0 else 1)])))
            ∧ (∀ l n r, x.untimed = l ++ (v, n) :: r → n ≠ 0 → x.untimed.length ≤ 16 → (∀ e ∈ l, e.1 = v → e.2 = 0) →
              takes (.untimed v true) (queue (l ++ (v, 0) :: r))
              ∧ (n < 15 → takes (.untimed v false) (queue (l ++ (v, n + 1) :: r)))
              ∧ (n = 15 → ∃ u, exec (.linkSlotReceive p ⟨.untimed v false, 0⟩) s = .next u ∧ (u.le p).failed.isSome = true ∧ u.mem = s.mem))))
        ∧ (∀ q, s.spare = true → ringPeer p = some q →
          (x.discard = none → takes (.timed data true) { t with out := t.out ++ [.unit q data] })
          ∧ (∀ kind cmd, x.untimed.length < 16 → (∀ e ∈ x.untimed, e.1 ≠ ⟨data, kind, cmd⟩) →
            takes (.untimed ⟨data, kind, cmd⟩ true)
              (({ t with out := t.out ++ [.untimed q ⟨data, kind, cmd⟩] } : State).modLe p fun y => { y with untimed := x.untimed })))
        ∧ (∀ ok, x.discard = some true → x.lost ≠ 0xFFFF →
          takes (.timed data ok) (t.modLe p fun x => { x with lost := x.lost + 1, discard := some true }))))
    ∧ (∀ n, exec (.untimedRetransmit ⟨p, n⟩) s
        = .next (s.modLe p fun x => { x with again := x.again ++ (x.buf[n]?).toList, buf := x.buf.eraseIdx n }))
    ∧ (s.spare = false → exec (.creditReturn p) s
        = .next (s.modLe p fun x => { x with credits := min 16 (x.credits + 1), buf := x.buf.drop 1 }))
    ∧ (∀ q, s.spare = true → ringPeer p = some q → exec (.creditReturn p) s = .next (s.emit (.credit q)))
    ∧ (512 ≤ s.tick % 2 ^ 20 → x.failed = none → ∃ u, exec (.slip p) s = .next u ∧ (u.le p).slip = true ∧ (u.le p).discard.isSome = true
        ∧ u.mem = s.mem ∧ ((u.le p).failed.isSome = true ↔ 2 ≤ (x.slips.filter fun k => s.tick / 2 ^ 20 ≤ k + 2).length))
    ∧ (x.failed = none → ∃ u, exec (.lossOfLock p) s = .next u ∧ (u.le p).lockLoss = true ∧ (u.le p).failed = some s.now ∧ (u.le p).up = false
        ∧ (u.le p).out = [] ∧ u.mem = s.mem)
    ∧ (x.uses s.tick = false → exec (.portstatFailedClear p) s = .next (s.modLe p fun x => { x with failed := none }))
    ∧ (x.failed = none → exec (.retrainingComplete p) s = .next (s.modLe p fun x =>
        { x with up := true, credits := 16, buf := [], again := [] }))

/-! ### Launches -/

/-- R57 to R64, R77, R79, R81, R83, R127, R385, R421, R425, R431, R444: a doorbell moves the tail, and notes the aperture writes before it;
the check of a record passes a refusal on, reads what it needs a line at a time, refuses, or leaves the launch waiting; the policy, aging,
the bind, the start tick, retirement and other ends, completion records, feeds, pre-emption, save and restore.
That these are events of the outside world and the MC is the model's choice (log 1, log 9), and so is that a bind waits for the lines that it reads
and then takes effect in one period, as a save and a restore do (log 48); no hub memory is damaged (R375). -/
def Obligations.LaunchesAreDispatched : Prop :=
  ∀ (s : State) (q id : Nat), s.soft = [] →
    let x := s.queue q
    (∀ tail, 6 ≤ s.sec.stage.toNat → x.en = true → x.tail < tail → tail < 2 ^ 64 → tail ≤ x.cqHead + 2 ^ x.log2 →
      let ids := (s.apReqs.filter (·.write)).map (·.id)
      let t := s.modQueue q fun x => { x with tail := tail, bells := if ids.isEmpty then x.bells else x.bells ++ [(x.tail, ids)] }
      exec (.doorbell q tail) s = .next (if x.feed then t.planOnce s.now 41 (.feedEntryDelivery q) else t.poke).policy)
    ∧ (let n := x.next
       let ws := dwords 16 (s.ringRecord q n).1
       let l := launchOf q n ws
       let bad := (s.ringRecord q n).2
       let t := { s with serial := s.serial + 1 }.modQueue q fun x =>
         { x with next := n + 1, reading := none, bells := x.bells.filter fun e => decide (n < e.1) }
       let refuses (status : Byte) (data : DWord) : Prop := ∃ u, exec (.launchCheck q) s = .next u
         ∧ u.launch? s.serial = some { l with phase := .refused status } ∧ (u.queue q).next = n + 1 ∧ (n, status, data) ∈ (u.queue q).refused
         ∧ (∃ e ∈ (u.queue q).held, e.qseq = n ∧ e.kind = 3 ∧ e.status = status ∧ e.data = data) ∧ u.mem = s.mem ∧ u.cores = s.cores
       x.offers = true → s.queueStarted q = true → s.visible x n = true →
       (∀ st d, s.predState l = .refused st d → refuses st d)
       ∧ (s.predState l = .done →
         (∀ cls a k r v, x.reading.getD (s.checkLines q n l) = (cls, a, k) :: r → s.classGrant cls a k false = some v →
           ∃ u, exec (.launchCheck q) s = .next u ∧ (u.queue q).reading = some r ∧ (u.queue q).next = n ∧ u.mem = s.mem ∧ u.launches = s.launches)
         ∧ (x.reading.getD (s.checkLines q n l) = [] →
           (bad = none → l.ctx.toNat ≠ x.ctx → refuses 3 0)
           ∧ ((bad = none → l.ctx.toNat = x.ctx) → ∀ k g, firstFail (t.recordChecks ws l bad) = some (k, g) → refuses 11 (BitVec.ofNat 64 k))
           ∧ ((bad = none → l.ctx.toNat = x.ctx) → firstFail (t.recordChecks ws l bad) = none → ∃ u, exec (.launchCheck q) s = .next u
              ∧ u.launch? s.serial = some { l with since := s.tick } ∧ l.phase = .waiting ∧ (u.queue q).next = n + 1 ∧ u.mem = s.mem ∧ u.cores = s.cores))))
    ∧ ((∀ e ∈ s.launches, e.2.phase = .waiting → s.tooLate e.2 = false) →
      exec .defaultPolicyEvaluation s = .next
        ((s.choose (((s.launches.filter (·.2.phase = .waiting)).foldl (fun l e => launchInsert e l) []).filter fun e => !s.awaits (.bind e.1)) [] []).foldl
          (fun t e => t.afterLines true (t.bindLines e.2) 52 (.bind e.1)) s))
    ∧ (∀ l, s.launch? id = some l →
      (l.phase = .waiting → l.eff < 7 →
        let due := l.since + 2 ^ 16 * (l.eff - l.prio + 1)
        (due ≤ s.tick → exec (.agingPromotion id) s
          = .next ((s.setLaunch id { l with eff := l.eff + 1 }).planTick (due + 2 ^ 16) 50 (.agingPromotion id)))
        ∧ (s.tick < due → exec (.agingPromotion id) s = .next { s with alarms := s.alarms ++ [(due, 50, .agingPromotion id)] }))
      ∧ (let l' := { l with ranges := s.writeRanges l }
         l.phase = .waiting → s.rectFree l' = true → s.bindable l' = true →
         (s.refreshing = true ∨ s.ckptOpen = true → exec (.bind id) s = .next (s.plan (s.now + 1) 52 (.bind id)))
         ∧ (s.refreshing = false → s.ckptOpen = false →
           (s.overlaps id l' = true → exec (.bind id) s = .next (s.refuse id l' 1 0))
           ∧ (s.overlaps id l' = false → s.tooLate l' = true → exec (.bind id) s = .next (s.refuse id l' 2 0))
           ∧ (s.overlaps id l' = false → s.tooLate l' = false → exec (.bind id) s = .next (s.bindNow id l')
             ∧ ∀ img, s.readImage l.ctx l.image = .ok img → ((s.bindNow id l').launch? id).map (·.phase) = some .binding
               ∧ ∀ c ∈ l.cores, ((s.bindNow id l').core c).owner = some id ∧ ((s.bindNow id l').core c).running = false)))
      ∧ (l.phase = .binding → ∃ u, exec (.launchStart id) s = .next u ∧ u.launch? id = some { l with phase := .running, loaded := false } ∧ u.mem = s.mem
        ∧ (l.loaded = true → ∀ c ∈ l.cores, u.core c = { s.core c with running := true, ctr := [], ctrNew := [] })
        ∧ (l.loaded = false → l.w ≤ 24 → ∀ i, i < l.w * l.h →
            u.core (l.core i) = { l.coreAt id i (s.core (l.core i)) with running := true, ctr := [], ctrNew := [] })
        ∧ ∀ c, c ∉ l.cores → u.core c = s.core c)
      ∧ (s.retires id l = true → exec (.launchRetirement id) s = .next (s.endLaunch id l 0))
      ∧ (l.bound = true → exec (.launchEndByMc id .error) s = .next (s.endLaunch id l 4))
      ∧ (∀ status, l.bound = true → let u := s.endLaunch id l status
          u.launch? id = some { l with phase := .retired, savedCores := [], savedFrets := [], savedWork := [] }
          ∧ (∃ e ∈ (u.queue l.q).held, e.qseq = l.seq ∧ e.kind = 1 ∧ e.status = status ∧ e.numstat = s.launchNumstat l)
          ∧ u.mem = s.mem ∧ (∀ c, c ∉ l.cores → u.core c = s.core c)
          ∧ (l.placed = true → ∀ c ∈ l.cores, (s.core c).owner = some id →
              (u.core c).owner = none ∧ (u.core c).running = false ∧ (u.core c).ce = [] ∧ (u.core c).xa = (s.core c).xa))
      ∧ (∀ e ∈ ([(.overlap, 1), (.lateBind, 2), (.ctxMismatch, 3), (.badLaunch, 11)] : List (RefusalStatus × Byte)),
        l.timed = true → l.phase = .waiting → exec (.scheduleRefusalNotice id (.refusal e.1)) s
          = .next (((s.unbind id l).setLaunch id { l with phase := .refused e.2 }).refusePlace l.q l.seq e.2 0))
      ∧ (∀ pkg sched map d, l.sched? s = some d → d.rootPkg = s.pkg →
        let alike := d.id = sched ∧ d.pkgMap = map ∧ mapHas d.pkgMap pkg = true
        (alike → exec (.scheduleRefusalNotice id (.report pkg sched map)) s = .next s)
        ∧ (¬ alike → exec (.scheduleRefusalNotice id (.report pkg sched map)) s
          = .next ((s.refuseBound id l 11).emit (.down (.refused d.id id 11)))))
      ∧ (l.timed = false → l.phase = .running → exec (.preemptionRequest id) s
        = .next ({ s with launches := Sparse.insert s.launches id { l with phase := .preempting, reqTick := some s.tick }
                          alarms := s.alarms ++ [(s.tick + 2 ^ 20, 23, .preemptionTimeout id)] }))
      ∧ (∀ d, Sparse.get? s.scheds id = some d → l.phase = .running → (∃ y ∈ d.yields, d.base.toNat + y = s.tick) →
        ∃ u, exec (.timedPreemption id) s = .next u ∧ u.launch? id = some { l with phase := .preempting, reqTick := some s.tick }
          ∧ u.mem = s.mem ∧ u.cores = s.cores ∧ ∀ e ∈ u.les, e.2.owner = some id → e.2.on = false)
      ∧ (∀ r, l.phase = .preempting → l.reqTick = some r →
        (r + 2 ^ 20 ≤ s.tick → s.allStopped l = false → exec (.preemptionTimeout id) s = .next (s.endLaunch id l 6))
        ∧ (s.tick < r + 2 ^ 20 ∨ s.allStopped l = true → exec (.preemptionTimeout id) s = .next s))
      ∧ (s.savable l = true → exec (.contextSave id) s = .next (s.saveLaunch id l)
        ∧ (((s.saveLaunch id l).launch? id).map (·.phase) = some .saved ∨ ((s.saveLaunch id l).launch? id).map (·.phase) = some .retired))
      ∧ (∀ x0 y0 moved, l.phase = .saved →
        exec (.contextRestore id x0 y0 moved) s = .next (s.afterLines true (l.saveRanges
          ++ (l.savePieces 0x10000 0x10000).map (fun (a, _, n) => (0, a, n)) ++ s.rewalkLines l) 40 (.contextRestore id x0 y0 moved))
        ∧ (l.timed = false → x0 + l.w ≤ 24 → y0 + l.h ≤ 20 →
          let t := { l with x0 := x0, y0 := y0 }
          s.rectFree t = true → leNat (s.saveLoad t 0x1000 8) % 4 = 1 → s.saveBad t = none →
          (Work.contextRestore id x0 y0 moved).run s
            = .next (s.restoreLaunch id { t with phase := .running, savedCores := [], savedFrets := [], savedWork := [] } l 0))))
    ∧ (∀ e t, x.held = [e] → x.cqBase.getLsbD 63 = true → x.w < x.cqHead + 2 ^ x.log2 → e.tick.toNat < s.tick →
      let a := ringAddr x.cqBase x.log2 32 x.w
      place a = .hbm → s.classGrant 1 a 32 true = some t →
      ∃ u, exec (.completionRecordWrite q) s = .next u ∧ (u.queue q).held = [] ∧ (u.queue q).w = x.w + 1
        ∧ (∀ j, u.mem.get j = if a ≤ j ∧ j < a + 32 then (((e.words x.w x.log2).map (leBytes 8 ·.toNat)).flatten).getD (j - a) 0 else s.mem.get j)
        ∧ (x.irq = true → Output.msix x.vec ∈ u.out))
    ∧ (∀ l, x.en = true → x.feed = true → s.fedBy q = some l →
      (∀ n f ws, s.feedScan q l (x.next - x.watermark) x.watermark [] = some (n, f, ws) → f < l.frets →
        exec (.feedEntryDelivery q) s = .next (((s.modQueue q (·.close n)).planOnce s.now 41 (.feedEntryDelivery q)).modFret (l.fretCore f) fun y =>
          { y with mb := (List.range 8).map fun i => (i, ws.getD (2 + i) 0), entry := some (ws.getD 0 0).toNat }))
      ∧ (∀ cls a k t, s.feedScan q l (x.next - x.watermark) x.watermark [] = none → x.next < x.tail → s.visible x x.next = true →
        x.reading = some [(cls, a, k)] → s.classGrant cls a k false = some t →
        ∃ u, exec (.feedEntryDelivery q) s = .next u ∧ (u.queue q).next = x.next + 1 ∧ (u.queue q).reading = none ∧ u.mem = s.mem))

/-! ### Errors, misses, shootdowns, stations and rollback -/

/-- R94 to R99, R384, R386 to R389, R394, R395, R410, R412: TRAPCTL.FREEZE, and FRZ of a fret by its first core; what the MC's answers to a miss
of `xlate` leave: the slice entry, the companion word, the stream that goes on with the handle when the wire has dropped, the entries that the MC
installs first, PAGEFAULT where it declines, and a contained error where the walk meets an entry that no code can correct (the model's choice, log 9);
the three steps of a shootdown, the tree, the slices, the cores, and its completion; the ring of error records; ERRQ_CFG.
That the MC holds a shootdown of a page in timed use period by period is the model's reading (log 12); no hub array is damaged (R375). -/
def Obligations.ErrorsAreRecordedAndRecovered : Prop :=
  ∀ (s : State) (c : Nat) (i : StreamId), s.soft = [] →
    let k := s.core c
    (∃ u, exec (.trapctlFreeze c i) s = .next u ∧ u.mem = s.mem ∧ u.cores = s.cores ∧ (Sparse.get .idle u.frets k.fret).frozen = true
      ∧ (s.timedAt c = false → u = (s.raise 4 (s.str c i).trapCause.toNat 0 { core := some c, stream := some i, unit := uStream } none
          (s.str c i).trapInfo0 (s.str c i).trapInfo1).freeze c))
    ∧ (s.frzFrozen c = true → ∃ u, exec (.frzClear c) s = .next u ∧ u = { s with frets := u.frets }
        ∧ (Sparse.get .idle u.frets c).frozen = false
        ∧ ((Sparse.get .idle s.frets c).misses = 0 → (Sparse.get .idle u.frets c).wireTo = s.now + 1)
        ∧ ∀ n, n ≠ c → Sparse.get .idle u.frets n = Sparse.get .idle s.frets n)
    ∧ (s.frzFrozen c = false → exec (.frzClear c) s = .next s)
    ∧ (∀ ans, exec (.missFill c i ans) s = .next (s.afterLines false (s.fillLines c i ans) 40 (.missFill c i ans)))
    ∧ (let filled (u : State) (ctx : Byte) (va slot : Nat) (leaf : DWord) : Prop :=
         let psz := bits leaf 55 54
         let hm := homeOf va (pageShift psz)
         Sparse.get? (Sparse.get [] u.slices hm) (slot % 512)
             = some ⟨ctx, va % 2 ^ 48 / 2 ^ pageShift psz * 2 ^ pageShift psz, BitVec.ofNat 2 psz, leaf⟩
           ∧ (∀ j, j ≠ slot % 512 → Sparse.get? (Sparse.get [] u.slices hm) j = Sparse.get? (Sparse.get [] s.slices hm) j)
           ∧ ∀ n, n ≠ hm → Sparse.get [] u.slices n = Sparse.get [] s.slices n
       let marked (u : State) (comp die req : Nat) : Prop :=
         let w := s.word comp ||| 2 ^ die ||| (if req &&& 6 ≠ 0 then 2 ^ (4 + die) else 0)
         ∀ j, u.mem.get j = if comp ≤ j ∧ j < comp + 8 then (leBytes 8 w).getD (j - comp) 0 else s.mem.get j
       (∀ hd va req, (s.str c i).hold = some (.miss hd va req) →
         let answer (a : FillAnswer) (u : State) : Prop := (Work.missFill c i a).run s = .next u
         (∃ u, answer .decline u ∧ u.mem = s.mem ∧ u.slices = s.slices ∧ (u.core c).h = k.h ∧ (u.core c).pendH = k.pendH
           ∧ (u.str c i).hold = none
           ∧ ((s.str c i).nest = false → s.timedAt c = false →
             let x := u.str c i
             x.trapCause = 0x68 ∧ x.trapInfo0 = dw va ∧ x.trapInfo1 = req.zeroExtend 64 ∧ x.trapPc = (s.str c i).pc &&& 0x1FFFC
               ∧ x.pc = 0x1E000 + 8 * 0x68 ∧ x.nest = true ∧ (u.fretOf c).frozen = true))
         ∧ (∀ slot, s.treeBad k.ctx va = none →
           (s.walkCtx k.ctx va = none → answer (.walk slot) (s.emit (.pageFault c i va)))
           ∧ ∀ leaf comp, s.walkCtx k.ctx va = some (leaf, comp) →
             (s.classGrant 0 comp 8 true = none → answer (.walk slot) (s.plan (s.now + 1) 40 (.missFill c i (.walk slot))))
             ∧ ∀ t, s.classGrant 0 comp 8 true = some t → ∃ u, answer (.walk slot) u
               ∧ filled u k.ctx va slot leaf ∧ marked u comp (dieOf c) req.toNat
               ∧ (u.str c i).hold = some (.filled hd va req leaf false) ∧ (u.core c).h = k.h ∧ (u.core c).pendH = k.pendH
               ∧ (u.fretOf c).misses = (s.fretOf c).misses - 1
               ∧ ((s.fretOf c).frozen = false → (s.fretOf c).misses = 1 → (u.fretOf c).wireTo = s.now + 1))
         ∧ (∀ slot g, s.treeBad k.ctx va = some g →
           answer (.walk slot) (s.contain 1 8 { core := some c, stream := some i, unit := uMc } (some (mkPpa s.pkg g)))))
       ∧ (∀ ctx va die req slot leaf comp t, s.treeBad ctx va = none → s.walkCtx ctx va = some (leaf, comp) → s.classGrant 0 comp 8 true = some t →
         ∃ u, (Work.missFill c i (.ahead ctx va die req slot)).run s = .next u ∧ filled u ctx va slot leaf ∧ marked u comp die.toNat req.toNat)
       ∧ (∀ a v r slot t, a + 8 ≤ hbmTop → s.classGrant 0 a 8 true = some t →
         ∃ u, (Work.missFill c i (.install ((a, v) :: r) slot)).run s = .next u ∧ (s.now + 1, 40, Work.missFill c i (.install r slot)) ∈ u.agenda
           ∧ ∀ j, u.mem.get j = if a ≤ j ∧ j < a + 8 then (leBytes 8 (v &&& 0xFFE03FFFFFFFFFFF).toNat).getD (j - a) 0 else s.mem.get j)
       ∧ (∀ slot, (Work.missFill c i (.install [] slot)).run s
           = .next (s.afterLines false (s.fillLines c i (.walk slot)) 40 (.missFill c i (.walk slot))))
       ∧ (∀ hd va req leaf shot, (s.str c i).hold = some (.filled hd va req leaf shot) →
         let u := s.xlateResume c i
         let v := leafHandle s.pkg c k.ctx leaf va req.toNat
         (u.core c).pendH = k.pendH ++ [(s.now + 95, hd.toNat, if shot then v.invalidate else v)] ∧ (v.invalidate).valid = false
           ∧ (u.str c i).hold = none ∧ u.mem = s.mem))
    ∧ (∀ ctx lo hi psz (entry : DWord),
      let first := lo * pageLines psz
      exec (.shootdownDelivery ctx lo hi psz entry) s
          = .next (s.afterLines false (s.treeLines ctx (lineVa psz first)) 40 (.unmap ctx lo hi psz entry first ⟨[], 0, []⟩))
      ∧ (∀ n x leaf comp t v, n / pageLines psz ≤ hi → s.walkCtx ctx (lineVa psz n) = some (leaf, comp) → leaf.extractLsb' 54 2 = psz →
        let m := 8 * lineEntries psz
        s.classGrant 0 (comp - 4096) m true = some t → t.classGrant 0 comp m false = some v →
        ∃ u, (Work.unmap ctx lo hi psz entry n x).run s = .next u ∧ u.slices = s.slices
          ∧ (∀ a, u.mem.get a = if comp - 4096 ≤ a ∧ a < comp - 4096 + m
              then (leBytes 8 ((entry &&& 0xFFE03FFFFFFFFFFF).toNat % 2 ^ 63)).getD ((a - (comp - 4096)) % 8) 0 else s.mem.get a)
          ∧ (s.now + 1, 40, Work.lines false (u.treeLines ctx (lineVa psz (n + 1))) 40
              (.unmap ctx lo hi psz entry (n + 1) (x.add s leaf comp (lineEntries psz)))) ∈ u.agenda)
      ∧ (∀ n x, hi < n / pageLines psz → ∃ u, (Work.unmap ctx lo hi psz entry n x).run s = .next u
          ∧ (∀ d, ∀ y ∈ Sparse.get [] u.slices d, ¬ (y.2.ctx = ctx ∧ shotPage lo hi psz y.2.va = true)) ∧ u.mem = s.mem ∧ u.cores = s.cores
          ∧ (s.now + 1, 0, Work.shootdownDelivery ctx lo hi psz x) ∈ u.agenda)
      ∧ (∀ x, s.shotHeld ctx lo hi psz = true →
          (Work.shootdownDelivery ctx lo hi psz x).run s = .next (s.plan (s.now + 1) 0 (.shootdownDelivery ctx lo hi psz x)))
      ∧ (∀ x, s.shotHeld ctx lo hi psz = false → ∃ u, (Work.shootdownDelivery ctx lo hi psz x).run s = .next u
          ∧ u.mem = s.mem ∧ (s.now + 1, 40, Work.shootdownComplete x.companions x.dies s.serial) ∈ u.agenda
          ∧ (∀ j, x.dies.getLsbD (dieOf j) = false → u.core j = s.core j)
          ∧ ∀ j, x.dies.getLsbD (dieOf j) = true →
            let inv (h : Handle) : Handle := if shotHandle ctx lo hi psz h then h.invalidate else h
            (u.core j).h = (s.core j).h.map (fun e => (e.1, inv e.2))
              ∧ (u.core j).pendH = (s.core j).pendH.map (fun e => (e.1, e.2.1, inv e.2.2))
              ∧ (u.core j).ce = (s.core j).ce.map (fun e =>
                { e with dst := e.dst.shoot ctx lo hi psz, src := e.src.shoot ctx lo hi psz, idx := e.idx.shoot ctx lo hi psz,
                         flag := e.flag.map (·.shoot ctx lo hi psz) })
              ∧ ∀ z hd va req leaf b, (s.str j z).hold = some (.filled hd va req leaf b) → (s.core j).ctx = ctx →
                shotHandle ctx lo hi psz (leafHandle s.pkg j ctx leaf va req.toNat) = true → (u.str j z).hold = some (.filled hd va req leaf true)))
    ∧ (∀ a r t, s.inFlight 15 s.serial = false → (s.emit .shootdownDone).classGrant 0 a 8 true = some t →
      ∃ u, exec (.shootdownComplete (a :: r)) s = .next u ∧ Output.shootdownDone ∈ u.out
        ∧ (r ≠ [] → (s.now + 1, 40, Work.shootdownComplete (r.map fun a => (a, 1)) 0 s.serial) ∈ u.agenda)
        ∧ ∀ j, u.mem.get j = if a ≤ j ∧ j < a + 8 then 0 else s.mem.get j)
    ∧ (∀ r rest, s.col.held = r :: rest →
      (s.col.ready = false → exec .errorRecordWrite s = .next s)
      ∧ (let w := s.col.tail.toNat
         let a := ppaLocal (s.col.base.toNat % 2 ^ 58) + w % 2 ^ s.col.log2 * 64
         ∀ t, s.col.ready = true → s.classGrant 0 a 64 true = some t →
           ∃ u, exec .errorRecordWrite s = .next u ∧ u.col.tail = s.col.tail + 1
             ∧ (∀ j, u.mem.get j = if a ≤ j ∧ j < a + 64 then (r.bytes w s.col.log2).getD (j - a) 0 else s.mem.get j)
             ∧ (s.col.cfg.getLsbD 8 = true → Output.mcIrq ∈ u.out)))
    ∧ (∀ v : DWord, let n := v.toNat % 32
       ∃ u, exec (.errqCfgWrite v) s = .next u
         ∧ u.col = { s.col with cfg := BitVec.ofNat 64 ((if 6 ≤ n ∧ n ≤ 16 then n else 0) + if v.getLsbD 8 then 256 else 0) }
         ∧ u.mem = s.mem ∧ u.cores = s.cores)

/-- R44, R45, R46, R336, R424, R436, R438 to R442: a station's window opens and closes, and what its copy cannot read is contained; the journal; a
void freezes every fret of the schedule's launches here, stops their engines, and is reported toward the root; what ROOTPKG decides: after a SCHEDULE
record, a lost package, a MERIDIAN record before every package is LOCKED, a second void of one cause, a full journal or a missing mark, and the
rollback otherwise; what comes down the tree is obeyed; a rollback without its area ends with NOROLLBACK, one with
it binds the launch again; a package that stops, and the relabelling of its ring; a rebuilt block is the exclusive or of three.
What the checkpoint area keeps, at which tick of the window the accumulators are copied, what a released object is, and how the events of the MCs
come are the model's choice (log 15, log 25, log 50, log 59); no hub memory is damaged (R375). -/
def Obligations.StationsVoidsAndRollback : Prop :=
  ∀ (s : State) (id k : Nat), s.soft = [] →
    (s.stationAt id k = none → exec (.checkpointStation id k) s = .next s ∧ exec (.ckptWindowEnd id k) s = .next s)
    ∧ (∀ l d st, s.stationAt id k = some (l, d, st) →
      (∃ u, exec (.checkpointStation id k) s = .next u ∧ (s.now + st.len, 0, Work.ckptWindowEnd id k) ∈ u.agenda
        ∧ Sparse.get? u.scheds id = some { d with window := some (s.now + st.len) } ∧ (s.dmg = [] → u.cores = s.cores)
        ∧ ∃ x, Sparse.get? u.ckpts (d.other id) = some x ∧ x.station = k)
      ∧ (d.window.isSome = true →
        (s.ckptBad l st = none → ∃ u, exec (.ckptWindowEnd id k) s = .next u
          ∧ Sparse.get? u.scheds id = some { d with window := none, station := some k, area := !d.area } ∧ u.journal.on = true
          ∧ Sparse.get? u.ckpts (d.other id) = some (s.ckptCopy l k st))
        ∧ ∀ c a g, s.ckptBad l st = some (c, a, g) →
          exec (.ckptWindowEnd id k) s = .next (s.contain 1 a { core := some c, unit := uCkpt } (some g))))
    ∧ (s.journal.on = true → exec .journalDiscard s = .next { s with journal := { s.journal with recs := [], full := false, bad := [] } })
    ∧ (∀ l d, s.launch? id = some l → Sparse.get? s.scheds id = some d → l.placed = true →
      let u := s.voidAll d
      let alone := s.alone d
      exec (.voidNotice id .notice) s = .next u
      ∧ ((∀ e ∈ s.ofSched d.id, (∃ x, Sparse.get? u.scheds e.1 = some x ∧ x.id = d.id ∧ x.void = true ∧ x.voided = true ∧ x.window = none)
            ∧ (∀ f, f < e.2.1.frets → (u.fretOf (e.2.1.fretCore f)).frozen = true)
            ∧ ∀ le ∈ u.les, le.2.owner = some e.1 → le.2.on = false ∧ le.2.stopped = true)
        ∧ (∀ n, (∀ e ∈ s.ofSched d.id, e.1 ≠ n) → Sparse.get? u.scheds n = Sparse.get? s.scheds n) ∧ u.mem = s.mem
        ∧ (d.voided = false → d.rootPkg ≠ s.pkg → alone = false → Output.up s.mu.parent.toNat (.frozen d.id s.pkg) ∈ u.out))
      ∧ (∀ n, exec (.voidNotice id (.endWith n)) s = .next (u.decided d.id (.error n)))
      ∧ (∀ set j t, exec (.voidNotice id (.rollback set j t)) s = .next (u.decided d.id (.ok (set, j, t))))
      ∧ (∀ c, d.rootPkg ≠ s.pkg → alone = false → exec (.voidNotice id (.decide c)) s = .next u)
      ∧ (d.rootPkg = s.pkg ∨ alone = true → ∀ c : VoidCause,
        let last := u.lastStation d c
        let decides (v : State) : Prop := exec (.voidNotice id (.decide c)) s = .next v
        let ends (n : Nat) : Prop := decides ((if alone then u else u.emit (.down (.ended d.id n))).decided d.id (.error n))
        (c.cls = 3 → ends 7)
        ∧ (c.cls = 5 → c.code = 5 → ends 9)
        ∧ (c.cls = 5 → c.code = 4 → s.mu.st ≠ 2 ∨ (c.locked = false ∧ alone = false) → decides u)
        ∧ (c.cls = 2 ∨ c.cls = 4 →
          (last = none → ends 8)
          ∧ (∀ n, last = some n →
            ((n, c.cls, c.code) ∈ d.rolled → ends 4)
            ∧ ((n, c.cls, c.code) ∉ d.rolled →
              (c.full = true ∨ u.canRoll l d.set n = false → ends 8)
              ∧ (c.full = false → u.canRoll l d.set n = true →
                let at_ := rollTick s.tick
                let v := { u with scheds := u.scheds.map fun (e : Nat × Sched) =>
                  if e.2.id = d.id then (e.1, { e.2 with rolled := e.2.rolled ++ [(n, c.cls, c.code)] }) else e }
                decides ((if alone then v else v.emit (.down (.rollback d.id d.set n at_))).decided d.id (.ok (d.set, n, at_)))
                  ∧ at_ % 2 ^ 20 = 0 ∧ s.tick + 2 ^ 21 ≤ at_ ∧ at_ < s.tick + 2 ^ 21 + 2 ^ 20)))))
      ∧ (d.voided = true → (∀ e ∈ s.ofSched d.id, s.gePending e.2.1.cores = false) → ∀ set t,
          (s.canRoll l set k = false → exec (.rollback id set k t) s = .next (s.endLaunch id l 8))
          ∧ (s.canRoll l set k = true →
            (s.areaOf id k = none → exec (.rollback id set k t) s = .next (s.endLaunch id l 8))
            ∧ ∀ b x img, s.areaOf id k = some (b, x) → s.readImage l.ctx l.image = .ok img →
              exec (.rollback id set k t) s = .next (s.rebind id l d x b img set k t)
                ∧ ((s.rebind id l d x b img set k t).launch? id).map (fun m => (m.phase, m.loaded)) = some (.binding, true))))
    ∧ exec (.packageStop s.pkg) s = .next { s with stoppedPkg := true }
    ∧ (∀ pkg, pkg ≠ s.pkg → s.scheds = [] →
      ∃ u, exec (.packageStop pkg) s = .next u ∧ u.stoppedPkg = s.stoppedPkg ∧ u.mem = s.mem ∧ u.cores = s.cores
        ∧ (u.mu.root = true ↔ s.mu.root = true ∨ (s.mu.successor = true ∧ pkg = s.mu.rootPkg))
        ∧ (s.mu.successor = true → pkg = s.mu.rootPkg → u.mu.parent = 0xF)
        ∧ Sparse.get 0 u.relabel (pkg % 256) = relabelled (Sparse.get 0 s.relabel (pkg % 256)) (pkg / 256)
        ∧ u.pkg = logicalPkg u.relabel s.ring s.member)
    ∧ (∀ ext blk a b d, let e := s.extent ext
      s.holdsShare e = true → 4096 * blk < e.shareBytes →
      exec (.extentRebuild ext blk a b d) s
        = .next (s.plan s.now 45 (.rebuild (e.base.toNat + 4096 * blk) ((xorBytes a (xorBytes b d)).take 4096))))

/-! ### Hosts, extents, leases, publication, cancellation -/

/-- R329, R331, R335 to R337, R445 to R448: the aperture admits a request, or aborts it; queue configuration; leases; extents are
revoked, released, forced; a publication is decided by the ring's member with W = 0, applied by the others, and known when it has reached them all; a
cancellation waits for the first tick of a guard interval. On which copy of the table a publication is decided, and that the messages of a
publication and a renewal are events, is the model's choice (log 26). -/
def Obligations.HostsShareTheirMemory : Prop :=
  ∀ (s : State) (k n : Nat),
    let e := s.extent k
    (∀ write x data,
      let exec' := if write then exec (.apertureWrite x data) s else exec (.apertureRead x n) s
      let len := if write then data.length else n
      let admits (ext : Option Nat) (a : Nat) : Prop := ∃ u, exec' = .next u ∧ u.mem = s.mem ∧ u.cores = s.cores ∧ u.extents = s.extents
        ∧ u.apReqs = s.apReqs ++ [⟨s.serial, ext, write, a, len, if write then data else [], [], false, false, [], none⟩]
        ∧ (s.now, 41, Work.aperture s.serial) ∈ u.agenda
      let runOut := (e.state = 1 ∨ e.state = 2) ∧ ∃ t, Sparse.get? s.leases e.host = some t ∧ t ≤ s.tick
      6 ≤ s.sec.stage.toNat → x + len ≤ 2 ^ 36 →
      (s.apwin.getLsbD 63 = false → admits none (s.apwin.toNat / 2 ^ 36 % 8 * 2 ^ 36 + x))
      ∧ (s.apwin.getLsbD 63 = true → s.apwin.toNat % 1024 = k →
        (e.state = 3 ∨ runOut → exec' = .next ((s.emit .abort).hostRecord uHost 5))
        ∧ (¬ runOut →
          (write = true → e.state ≠ 3 → ¬ (e.state = 1 ∧ e.host = s.pkg) → exec' = .next ((s.emit .abort).hostRecord uHost 3))
          ∧ (e.state = 1 → e.host = s.pkg → x + len ≤ 3 * e.shareBytes → admits (some k) x)
          ∧ (e.state = 2 → write = false → x + len ≤ 3 * e.shareBytes → admits (some k) x))))
    ∧ (∀ v : DWord, s.hostOpen = true →
      let old := (s.queue k).qcfg
      (old.getLsbD 8 = false → (v.getLsbD 8 = true → 4 ≤ v.toNat % 32 ∧ v.toNat % 32 ≤ 16) →
        ∃ u, exec (.qcfgWrite k v) s = .next u ∧ u.queue k = { s.queue k with qcfg := v &&& 0xFFFF071F } ∧ u.mem = s.mem)
      ∧ (old.getLsbD 8 = true → v.getLsbD 8 = true → 4 ≤ old.toNat % 32 ∧ old.toNat % 32 ≤ 16 →
        ∃ u, exec (.qcfgWrite k v) s = .next u ∧ u.queue k = { s.queue k with qcfg := (u.queue k).qcfg } ∧ u.mem = s.mem
          ∧ (u.queue k).log2 = (s.queue k).log2 ∧ (u.queue k).feed = (s.queue k).feed ∧ (u.queue k).ctx = (s.queue k).ctx
          ∧ (u.queue k).vec = v.toNat / 2 ^ 16 % 256 ∧ (u.queue k).irq = v.getLsbD 10 ∧ (u.queue k).en = true))
    ∧ (s.hostOpen = true → let till := s.tick + s.leaseTicks
        (∀ t, Sparse.get? s.leases s.pkg = some t → t ≤ s.tick → exec (.leaseWrite .own) s = .next (s.hostRecord uHost 4))
        ∧ ((∀ t, Sparse.get? s.leases s.pkg = some t → s.tick < t ∧ t ≠ till) → exec (.leaseWrite .own) s
          = .next (({ s with out := s.out ++ [.leaseRenewed s.pkg s.tick], leases := Sparse.insert s.leases s.pkg till } : State).planTick till 0
            (.leaseExpiry s.pkg))))
    ∧ (∀ written, let till := written + s.leaseTicks
        ((∀ t, Sparse.get? s.leases k = some t → s.tick < t ∧ t < till) → exec (.leaseWrite (.renewed k written)) s
          = .next (({ s with leases := Sparse.insert s.leases k till } : State).planTick till 0 (.leaseExpiry k)))
        ∧ (∀ t, Sparse.get? s.leases k = some t → t ≤ s.tick ∨ till < t → exec (.leaseWrite (.renewed k written)) s = .next s))
    ∧ (∀ t, Sparse.get? s.leases k = some t →
      (s.tick < t → exec (.leaseExpiry k) s = .next s)
      ∧ (t ≤ s.tick → k ≠ s.pkg → ∃ u, exec (.leaseExpiry k) s = .next u ∧ u.mem = s.mem ∧ u.cores = s.cores
          ∧ ∀ x ∈ s.extents, Sparse.get? s.extents x.1 = some x.2 → x.2.host = k → x.2.state = 1 ∨ x.2.state = 2 → (u.extent x.1).state = 3))
    ∧ (e.state = 1 ∨ e.state = 2 → ∃ u, exec (.extentRevocation k) s = .next u ∧ u.extent k = e.setState 3 ∧ (e.setState 3).state = 3
        ∧ (∀ j, j ≠ k → u.extent j = s.extent j) ∧ u.mem = s.mem ∧ u.apReqs = s.apReqs ∧ (s.now, 45, Work.extentRelease k) ∈ u.agenda
        ∧ ∀ r ∈ s.apReqs, r.ext = some k → (s.tick + 2 ^ 20, 45, Work.forcedCompletion r.id) ∈ u.alarms)
    ∧ (∀ r, s.apReqs.find? (·.id = n) = some r →
      (r.write = true → exec (.forcedCompletion n) s = .next (s.dropReq n))
      ∧ (r.write = false → ∃ u, exec (.forcedCompletion n) s = .next u ∧ u.apReqs = s.apReqs.filter (·.id ≠ n) ∧ u.mem = s.mem
          ∧ Output.readData (r.got ++ List.replicate r.left 0) true ∈ u.out))
    ∧ (e.state = 3 → s.apReqs.any (·.ext = some k) = false → (s.holdsShare e && e.shareBytes ≠ 0) = false →
      ∃ u, exec (.extentRelease k) s = .next u ∧ u = { s with extents := u.extents } ∧ (u.extent k).state = 0 ∧ (u.extent k).version = 0
        ∧ ∀ j, j ≠ k → u.extent j = s.extent j)
    ∧ (∀ v : DWord, s.hostOpen = true → v.toNat % 1024 = k →
      exec (.publishWrite v) s = .next (if s.pkg = e.ring then s.pubDecide k (v.toNat / 2 ^ 32) s.pkg
        else s.emit (.publish k (v.toNat / 2 ^ 32) s.pkg)))
    ∧ (∀ version host, version < 2 ^ 32 → host < 1024 →
      let msg (m : PubStep) : Instr := .publicationDecision k version ⟨host, m⟩
      let greater := pairLt e.pair (version, host) = true
      let live := (Sparse.get? s.leases host).any (s.tick < ·) = true
      let ok := e.state = 1 ∧ e.host = host ∨ e.state = 2 ∧ live ∧ greater
      let newer := e.state = 1 ∧ e.host = host ∨ e.state = 2 ∧ greater
      let applied (u : State) : Prop := u.mem = s.mem ∧ (∀ j, j ≠ k → u.extent j = s.extent j) ∧ (u.extent k).state = 2
        ∧ (u.extent k).pair = (version, host) ∧ u.pubstat = s.pubstat
      let tells (v : State) (r : Nat) : State :=
        if host = s.pkg then { v with pubstat := BitVec.ofNat 2 r } else v.emit (.pubResult k version host r)
      (s.pkg = e.ring →
        (ok → ∃ u, exec (msg .request) s = .next u ∧ applied u ∧ (k, version, host) ∈ u.pubWait ∧ Output.published k version host 0 ∈ u.out)
        ∧ (¬ ok → exec (msg .request) s = .next (tells s (if e.state = 2 ∧ live then 1 else 2)))
        ∧ exec (msg .applied) s = .next s)
      ∧ (s.pkg ≠ e.ring → exec (msg .request) s = .next s
        ∧ (newer → ∃ u, exec (msg .applied) s = .next u ∧ applied u)
        ∧ (¬ newer → exec (msg .applied) s = .next s))
      ∧ (s.pubWait.contains (k, version, host) = true → exec (msg .reached) s
          = .next (tells { s with pubWait := s.pubWait.erase (k, version, host) } (if e.pair = (version, host) then 0 else 1)))
      ∧ (s.pubWait.contains (k, version, host) = false → exec (msg .reached) s = .next s)
      ∧ (∀ r, exec (msg (.result r)) s = .next (if host = s.pkg then { s with pubstat := BitVec.ofNat 2 r } else s)))
    ∧ (∀ v : DWord, s.hostOpen = true → v.toNat / 2 ^ 32 % 1024 = s.pkg →
      exec (.gcancelWrite v) s = .next { s with alarms := s.alarms ++ [((s.tick / 2 ^ 20 + 1) * 2 ^ 20, 1,
        .gectlCancelWrite (v.toNat % 1024) (BitVec.ofNat 8 (v.toNat / 2 ^ 24)))] })
    ∧ (∀ ctx, let x := s.geCtx n
      (s.tick % 2 ^ 20 ≠ 0 → exec (.gectlCancelWrite n ctx) s
        = .next { s with alarms := s.alarms ++ [((s.tick / 2 ^ 20 + 1) * 2 ^ 20, 1, .gectlCancelWrite n ctx)] })
      ∧ (s.tick % 2 ^ 20 = 0 → s.soft = [] → x.bound = true → x.ctx = ctx →
        exec (.gectlCancelWrite n ctx) s = .next (s.setGe n { x with cancel := some ((x.cancel.map (·.1)).getD s.now, s.now) }))
      ∧ (s.tick % 2 ^ 20 = 0 → ¬ (x.bound = true ∧ x.ctx = ctx) → exec (.gectlCancelWrite n ctx) s = .next (s.hostRecord uMc 6)))

/-! ### Power, attestation, upkeep, sampling, registers -/

/-- R23, R89, R328, R339, R343 to R346, R350 to R353, R374: power, the stages of the boot, attestation, refresh, scrubbing, budgets, the
sampling unit, and writes of registers, which fault where the specification describes none.
That the attestation report takes one period, and what the keys and verdicts are, is the model's choice (log 8, log 13); so are the stop at an address
without a register (log 26), that power leaves no core listed, every register of a core at the value that the model names, and every byte of memory
zero (log 3, log 5), and that LEASE reads as 0 (log 66). -/
def Obligations.PowerUpkeepAndSampling : Prop :=
  ∀ (s : State) (c : Nat),
    let x := s.sec
    let k := s.core c
    let p := k.smp
    let core (i : Instr) (q : Sampler) : Prop := exec i s = .next (s.modCore c fun k => { k with smp := q })
    exec .powerOff s = .next s.dark
    ∧ (∀ b : BootInput, ∃ u, exec (.powerOn b) s = .next u ∧ u.cores = [] ∧ u.mem = [] ∧ u.launches = [] ∧ u.inputs = s.inputs
        ∧ (b.hbmTrains = false → u.sec.stage = 1 ∧ u.sec.fail = 5)
        ∧ (b.hbmTrains = true → Config.imageVerdict b.firmware ≠ 0 → u.sec.stage = 2 ∧ u.sec.fail.toNat = (Config.imageVerdict b.firmware).val)
        ∧ (b.hbmTrains = true → Config.imageVerdict b.firmware = 0 → Config.imageVerdict b.config.bytes = 0 → PodConfig.treeOk b.config = true →
            u.sec.stage = 6 ∧ u.sec.fail = 0 ∧ u.pkg = logicalPkg u.relabel (b.config.ring % 256) (b.config.member % 5)
              ∧ u.mu.root = PodConfig.root b.config
              ∧ (PodConfig.root b.config = true → u.mu.running = true ∧ u.mu.st = 2) ∧ (PodConfig.root b.config = false → u.mu.st = 1)))
    ∧ (s.hostOpen = true → x.attBusy = false → ∀ v : DWord, v.getLsbD 0 = true →
        exec (.attctlGo v) s = .next (({ s with sec := { x with attBusy := true, attDone := false, attErr := false, asked := x.nonce } }).plan
          (s.now + 1) 20 .attestationReportDone))
    ∧ (x.attBusy = true → x.leaf < 1024 → exec .attestationReportDone s
        = .next { s with sec := { x with attBusy := false, attDone := true, report := x.reportOf, leaf := x.leaf + 1 } })
    ∧ (x.attBusy = true → 1024 ≤ x.leaf → exec .attestationReportDone s
        = .next { s with sec := { x with attBusy := false, attDone := true, attErr := true } })
    ∧ exec .hbmRefresh s = .next s
    ∧ (∃ u, exec .patrolScrub s = .next u ∧ u.mem = s.mem
        ∧ (∀ e ∈ u.dmg, e ∈ s.dmg) ∧ ∀ e ∈ s.dmg, e.2.fixable = false → e ∈ u.dmg)
    ∧ (s.soft = [] → ∃ u, exec .budgetRefill s = .next u ∧ u = { s with spent := u.spent }
        ∧ ∀ cls port, cls < 6 → port < 488 → Sparse.get 0 u.spent (1024 * cls + port)
          = (Sparse.get 0 s.budgets cls).toNat / (if port < 480 then 2 ^ 32 else 1) % 2 ^ 16)
    ∧ (∀ v : DWord, (v.getLsbD 0 = true → core (.smpctlWrite c v) { p with ctl := v, start := s.before, j := 0 })
        ∧ (v.getLsbD 0 = false → core (.smpctlWrite c v) { p with ctl := v }))
    ∧ (∀ v : DWord, (p.en = false → smpbufBad v = false → core (.smpbufWrite c v) { p with buf := v, wr := 0, rd := 0 })
        ∧ (p.en = true ∨ smpbufBad v = true → core (.smpbufWrite c v) p))
    ∧ (∀ v : DWord, let rd : BitVec 32 := v.extractLsb' 32 32
        core (.smpptrRdWrite c v) { p with rd := if (p.wr - rd).toNat ≤ p.cap then rd else p.wr })
    ∧ (k.running = true → p.en = true → (s.tick - p.start) / p.period ≤ p.j → exec (.samplingTick c) s = .next s)
    ∧ (∀ n, k.running = true → p.en = true → n = p.j + 1 → (s.tick - p.start) / p.period = n →
        (p.pend.length < 4 → (p.wr + BitVec.ofNat 32 p.pend.length - p.rd).toNat < p.cap →
          exec (.samplingTick c) s = .next (s.modCore c fun k => { k.count 65 with
            smp := { p with j := n, pend := p.pend ++ [k.sampleRec s.tick (streamOfNum (n - 1))] } }))
        ∧ (4 ≤ p.pend.length ∨ p.cap ≤ (p.wr + BitVec.ofNat 32 p.pend.length - p.rd).toNat → p.dropped ≠ 0xFFFFFFFF →
          exec (.samplingTick c) s = .next (s.modCore c fun k => { k.count 65 with smp := { p with j := n, dropped := p.dropped + 1 } })))
    ∧ (∀ r rest t, p.pend = r :: rest → s.recordWaits (some c) none uSmp 0 = false → k.parity.contains keySmp = false →
      let a := spadOf c + p.base + 16 * (p.wr.toNat % p.cap)
      s.classGrant 4 a 16 true = some t →
      ∃ u, exec (.sampleRecordWrite c) s = .next u ∧ (u.core c).smp = { p with pend := rest, wr := p.wr + 1 }
        ∧ ∀ j, u.mem.get j = if a ≤ j ∧ j < a + 16 then (leBytes 8 r.1.toNat ++ leBytes 8 r.2.toNat).getD (j - a) 0 else s.mem.get j)
    ∧ (∀ (addr : Nat) (v : DWord),
      (hubBase ≤ addr → addr < wordBase → s.hubWrite (addr - hubBase) v = none → exec (.registerWrite addr v) s = .fault .hubAddress)
      ∧ (∀ a, addr = wordBase + 8 * a →
          (hbmTop ≤ 8 * a → exec (.registerWrite addr v) s = .fault .hubAddress)
          ∧ ∀ t, 8 * a < hbmTop → s.classGrant 0 (8 * a) 8 true = some t → ∃ u, exec (.registerWrite addr v) s = .next u
            ∧ ∀ j, u.mem.get j = if 8 * a ≤ j ∧ j < 8 * a + 8 then (leBytes 8 v.toNat).getD (j - 8 * a) 0 else s.mem.get j)
      ∧ (addr < hubBase → s.bar0Write addr v = none → exec (.registerWrite addr v) s = .fault .hubAddress)
      ∧ (∀ n, s.soft = [] → n < 1024 → addr = hubBase + 0x200000 + 8 * n →
          exec (.registerWrite addr v) s = .next { s with routes := Sparse.set 0 s.routes n v })
      ∧ (∀ n i, s.soft = [] → n < 256 → i < 6 → (Sparse.get .idle s.ctxs n).bound = false → addr = hubBase + 0x100000 + 64 * n + 8 * i →
          ∃ u, exec (.registerWrite addr v) s = .next u ∧ u = { s with ctxs := u.ctxs }
            ∧ ∀ m, m ≠ n → Sparse.get .idle u.ctxs m = Sparse.get .idle s.ctxs m)
      ∧ (addr = 0x008 → s.hostOpen = true → exec (.registerWrite addr v) s = .next { s with apwin := v &&& 0x80000070000003FF }))
    ∧ s.bar0Get 0x000 = some (BitVec.ofNat 64 (x.stage.toNat + x.fail.toNat * 16)) ∧ s.bar0Get 0x008 = some s.apwin ∧ s.bar0Get 0x010 = some 0
    ∧ (∀ v, s.bar0Get 0x120 = some v → v.getLsbD 0 = false ∧ v.getLsbD 1 = x.attDone ∧ v.getLsbD 2 = x.attErr)
    ∧ (∀ n, n < 1024 → s.hubGet (0x200000 + 8 * n) = some (Sparse.get 0 s.routes n))
    ∧ (∀ n, n < 480 → s.hubGet (0x601000 + 8 * n) = some (if s.frzFrozen n then 1 else 0))

/-! ### Encoding -/

/-- R37, R38, R160 to R169: words written out from the formats, the specification's own examples among them (R188, R190, R192, R196,
R199, R201, R224, R229, R239, R294, R301, R438), decode to the instructions that they stand for; a reserved opcode, a function code
outside its list, token bits in a later word, a reserved field value and a non-zero unused field are refused. -/
def Obligations.WordsDecodeAsTheFormatsSay : Prop :=
  (∀ e ∈ ([ (0x00464285, .div 0 3 4 5), (0x90822FFF, .addi 9 1 2 0xFFF), (0x01843442, .srai 0 2 3 40), (0x03400008, .call 0 8),
            (0x038D3FFD, .bcz 0 6 .le 0x3FFD), (0x03C0C000, .jr 0 12), (0x03C00002, .ret 0), (0x04034064, .loopr 0 1 .lc2 100),
            (0x05102003, .ldd 0 8 2 3), (0x064A130C, .stwx 0 5 1 6), (0x06889600, .xlate 0 4 9 12),
            (0x06C05080, .qpush 0 5 .succ) ] : List (Word × Instr)), decode e.1 0 0 0 = .ok e.2)
  ∧ decode 0x02CFFFFF 0x0FFFFFFE 0 0 = .ok (.li 0 7 0x1FFFFFFFFFFE)
  ∧ decode 0x08831052 0x00000002 0 0 = .ok (.vcmp 0 ⟨false, false, 3, 4, 5, 2, .fp32, .lt⟩)
  ∧ decode 0x08410834 0x00001340 0 0 = .ok (.vadd 0 ⟨false, true, 1, 2, 3, 4, .bf16, .rtz, true⟩)
  ∧ decode 0x09141000 0x00003100 0 0 = .ok (.vcvt 0 ⟨false, false, 20, 4, 0, .e4m3, .fp32, .rne, true⟩)
  ∧ decode 0x09C91400 0x00070000 0 0 = .ok (.plen 0 ⟨false, false, 9, 5, 0⟩)
  ∧ decode 0x0C425325 0x00000800 0 0 = .ok (.mma 0 ⟨true, 4, 2, 2, 19, 5⟩)
  ∧ decode 0x0ED12000 0 0x00000005 0 = .ok (.soarr 0 false 9 5)
  ∧ decode 0x0F840301 0x00180000 0x00000100 0 = .ok (.dgadd 0 false 1 3 6 8)
  ∧ decodeEph 0x900200000FF01000 = some (.mark 0x200000 0xFF01)
  ∧ decodeEph 0x1000000010DC0000 = some (.xfer 1 3 3 4) ∧ decodeEph 0x5000000100000000 = some (.hold 16)
  ∧ decode 0x07000000 0 0 0 = .bad .maj ∧ decode 0x0040001E 0 0 0 = .bad .fn ∧ decode 0x02C00000 0x10000000 0 0 = .bad .tokenBits
  ∧ decode 0x08410834 0x00001E00 0 0 = .bad .field ∧ decode 0x00464298 0 0 0 = .bad .unused
  ∧ decodeEph 0x1000000010DD0000 = none ∧ decodeEph 0xA000000000000000 = none

/-- R159 to R169: decoding the words of a well-formed instruction gives it back, whatever words follow, and the first word tells its
length; likewise for the entries of an ephemeris (R37, R38). -/
def Obligations.DecodingInvertsEncoding : Prop :=
  ∀ i : Instr, i.wf = true →
    (encode i ≠ [] → ∀ x : Nat → Word, let w (j : Nat) : Word := (encode i).getD j (x j)
      decode (w 0) (w 1) (w 2) (w 3) = .ok i ∧ lenOfWord (w 0) = (encode i).length)
    ∧ ∀ e, encodeEph i = some e → decodeEph e = some i

/-- R163: an instruction has one encoding only: words that decode are the encoding of what they decode to, which is well formed. -/
def Obligations.EachInstructionHasOneEncoding : Prop :=
  (∀ (w0 w1 w2 w3 : Word) (i : Instr), decode w0 w1 w2 w3 = .ok i →
    i.wf = true ∧ encode i = [w0, w1, w2, w3].take (lenOfWord w0))
  ∧ ∀ (e : DWord) (i : Instr), decodeEph e = some i → i.wf = true ∧ encodeEph i = some e

/-! ### The step -/

/-- R39, R159, R173: where nothing comes before a stream, a step runs the instruction that the words at its program counter decode to;
words that decode to none trap with the code of the encoding error; a program counter outside the store is an illegal fetch. Neither the
program counter, the loop counters nor the words have an error. The first input that need not wait and is an event, and the due entry of a link
engine, its array undamaged, run as instructions too. The order of a step is the model's choice (log 6). -/
def Obligations.AStepRunsWhatItDecodes : Prop :=
  ∀ s : State, s.stoppedPkg = false → s.sec.fail = 0 →
    (s.takeInput s.inputs = none → (∀ e ∈ s.agenda.head?, s.now < e.1) → s.dueLe = none → ∀ c i, s.nextStream = some (c, i) →
      let t : State := { s with cur := .stream c i }
      let pc := (s.str c i).pc.toNat
      let w (j : Nat) : Word := s.iword c (pc / 4 + j)
      t.badPc = false → (s.core c).soft = [] →
      (pc < 0x1E000 ∨ (s.str c i).nest = true → pc + 4 * lenOfWord (w 0) ≤ 0x20000 →
        (∀ k, decode (w 0) (w 1) (w 2) (w 3) = .ok k → step s = exec k t)
        ∧ (∀ e, decode (w 0) (w 1) (w 2) (w 3) = .bad e → ∃ i0 i1, step s = .next (t.finish { t := 0 } (.trap (decCause e) i0 i1))))
      ∧ (0x1E000 ≤ pc ∧ (s.str c i).nest = false ∨ 0x20000 ≤ pc ∨ 0x20000 < pc + 4 * lenOfWord (w 0) →
        step s = .next (t.finish { t := 0 } (.trap 0x01 (s.str c i).pc 0))))
    ∧ (∀ e r, s.takeInput s.inputs = some (e, r) → firstEvent ≤ e.ctorIdx → step s = exec e { s with inputs := r, cur := .hub })
    ∧ (∀ e r, s.inputs = e :: r → s.holds e = false → s.takeInput s.inputs = some (e, r))
    ∧ (s.takeInput s.inputs = none → (∀ e ∈ s.agenda.head?, s.now < e.1) → s.soft = [] → ∀ p, s.dueLe = some p → ∀ k,
        decodeEph (Sparse.get 0 (s.le p).mem (s.le p).idx) = some k → (s.le p).idx ≤ 16383 → ((s.le p).at (s.le p).idx).toNat = s.tick →
        step s = exec k { s with cur := .le p })

/-- R163, R369: the machine never stops: each step goes on to a next state, unless the next input writes a register that the
specification does not describe; a package that has stopped, or in which a boot stage has failed, only lets time pass (R343, R442). -/
def Obligations.EveryStepGoesOn : Prop :=
  ∀ s : State,
    (∀ addr v r, s.takeInput s.inputs = some (.registerWrite addr v, r) →
      ∃ t, exec (.registerWrite addr v) { s with inputs := r, cur := .hub } = .next t) →
    s.goes ∧ (s.stoppedPkg = true ∨ s.sec.fail ≠ 0 → s.inputs = [] → step s = .next { s with now := s.now + 1 })

/-- Every step keeps the canonical form of memory: addresses rising, no entry that an unlisted address reads as (log 3). -/
def Obligations.EveryStepKeepsMemoryCanonical : Prop :=
  ∀ s t : State, s.mem.wf = true → step s = .next t → t.mem.wf = true

/-- R6, R23, R25, R39, R331, R343: after reset no core runs, no launch is bound, nothing is planned, no queue is enabled, no link engine
runs, no boot stage has begun and the count stands; memory has its canonical form (what it reads as is the model's choice, log 3; that every
stream is halted is too, log 5). -/
def Obligations.ResetLeavesThePackageIdle : Prop :=
  let s := State.reset
  s.mem.wf = true ∧ s.launches = [] ∧ s.inputs = [] ∧ s.agenda = [] ∧ s.geCmds = [] ∧ s.waiters = [] ∧ s.stoppedPkg = false
    ∧ (∀ c, (s.core c).running = false ∧ (s.core c).ce = [] ∧ (s.core c).numstat = 0)
    ∧ (∀ c i, (s.str c i).nest = false ∧ (s.str c i).halted = true)
    ∧ (∀ q, (s.queue q).en = false) ∧ (∀ p, (s.le p).on = false ∧ (s.le p).failed = none)
    ∧ s.sec.stage = 0 ∧ s.sec.fail = 0 ∧ s.mu.running = false
end

