-- ==== Sys2Proof/Laws/Sparse.lean ====
section
/-! SUPPORT. Finite maps and memory: what a key reads as after each operation, the canonical form that every operation keeps, and
the reads of memory after a write. -/

namespace Sys2Proof.Machine

variable {α : Type} {d : α} {m : Sparse α} {k j : Nat} {v : α}

/-! ### Reads after writes -/

@[simp] theorem Sparse.get_nil : Sparse.get d ([] : Sparse α) k = d := rfl
@[simp] theorem Sparse.get?_nil : Sparse.get? ([] : Sparse α) k = none := rfl

@[simp] theorem Sparse.get_insert_self : Sparse.get d (Sparse.insert m k v) k = v := by
  induction m with
  | nil => simp [Sparse.insert, Sparse.get]
  | cons e r ih =>
    obtain ⟨k', v'⟩ := e
    simp only [Sparse.insert]
    split
    · simp [Sparse.get]
    · split
      · simp [Sparse.get]
      · have : k' ≠ k := fun h => by omega
        simp [Sparse.get, this, ih]

theorem Sparse.get_insert_ne (h : j ≠ k) : Sparse.get d (Sparse.insert m k v) j = Sparse.get d m j := by
  induction m with
  | nil => simp [Sparse.insert, Sparse.get, Ne.symm h]
  | cons e r ih =>
    obtain ⟨k', v'⟩ := e
    simp only [Sparse.insert]
    split
    · simp [Sparse.get, Ne.symm h]
    · split
      · rename_i _ hk
        subst hk
        simp [Sparse.get, Ne.symm h]
      · simp [Sparse.get, ih]

@[simp] theorem Sparse.get?_insert_self : Sparse.get? (Sparse.insert m k v) k = some v := by
  induction m with
  | nil => simp [Sparse.insert, Sparse.get?]
  | cons e r ih =>
    obtain ⟨k', v'⟩ := e
    simp only [Sparse.insert]
    split
    · simp [Sparse.get?]
    · split
      · simp [Sparse.get?]
      · have : k' ≠ k := fun h => by omega
        simp [Sparse.get?, this, ih]

theorem Sparse.get?_insert_ne (h : j ≠ k) : Sparse.get? (Sparse.insert m k v) j = Sparse.get? m j := by
  induction m with
  | nil => simp [Sparse.insert, Sparse.get?, Ne.symm h]
  | cons e r ih =>
    obtain ⟨k', v'⟩ := e
    simp only [Sparse.insert]
    split
    · simp [Sparse.get?, Ne.symm h]
    · split
      · rename_i _ hk
        subst hk
        simp [Sparse.get?, Ne.symm h]
      · simp [Sparse.get?, ih]

@[simp] theorem Sparse.get_erase_self : Sparse.get d (Sparse.erase m k) k = d := by
  induction m with
  | nil => rfl
  | cons e r ih =>
    obtain ⟨k', v'⟩ := e
    by_cases h : k' = k <;> simp [Sparse.erase, Sparse.get, h, ih]

theorem Sparse.get_erase_ne (h : j ≠ k) : Sparse.get d (Sparse.erase m k) j = Sparse.get d m j := by
  induction m with
  | nil => rfl
  | cons e r ih =>
    obtain ⟨k', v'⟩ := e
    by_cases hk : k' = k
    · subst hk
      simp [Sparse.erase, Sparse.get, Ne.symm h, ih]
    · simp only [Sparse.erase, hk, if_false, Sparse.get, ih]

@[simp] theorem Sparse.get_set_self [DecidableEq α] : Sparse.get d (Sparse.set d m k v) k = v := by
  unfold Sparse.set
  split
  · rename_i h
    simp [h]
  · simp

theorem Sparse.get_set_ne [DecidableEq α] (h : j ≠ k) : Sparse.get d (Sparse.set d m k v) j = Sparse.get d m j := by
  unfold Sparse.set
  split
  · exact Sparse.get_erase_ne h
  · exact Sparse.get_insert_ne h

/-- Reading any key after writing one. -/
theorem Sparse.get_set [DecidableEq α] : Sparse.get d (Sparse.set d m k v) j = if j = k then v else Sparse.get d m j := by
  by_cases h : j = k
  · subst h
    simp
  · simp [h, Sparse.get_set_ne h]

/-! ### The canonical form -/

/-- Keys rise from `lo` on. -/
def Sparse.risesFrom : Nat → Sparse α → Prop
  | _, [] => True
  | lo, (k, _) :: r => lo ≤ k ∧ Sparse.risesFrom (k + 1) r

/-- Keys strictly rising, and no entry equal to `d`. -/
def Sparse.canon (d : α) (m : Sparse α) : Prop := Sparse.risesFrom 0 m ∧ ∀ e ∈ m, e.2 ≠ d

theorem Sparse.risesFrom_mono {lo hi : Nat} (h : lo ≤ hi) : Sparse.risesFrom hi m → Sparse.risesFrom lo m := by
  cases m with
  | nil => simp [Sparse.risesFrom]
  | cons e r => exact fun ⟨a, b⟩ => ⟨by omega, b⟩

theorem Sparse.risesFrom_insert {lo : Nat} (hk : lo ≤ k) (h : Sparse.risesFrom lo m) : Sparse.risesFrom lo (Sparse.insert m k v) := by
  induction m generalizing lo with
  | nil => exact ⟨hk, trivial⟩
  | cons e r ih =>
    obtain ⟨k', v'⟩ := e
    obtain ⟨h1, h2⟩ := h
    simp only [Sparse.insert]
    split
    · exact ⟨hk, by omega, h2⟩
    · split
      · rename_i hkk
        subst hkk
        exact ⟨h1, h2⟩
      · exact ⟨h1, ih (by omega) h2⟩

theorem Sparse.mem_insert {e : Nat × α} (h : e ∈ Sparse.insert m k v) : e = (k, v) ∨ e ∈ m := by
  induction m with
  | nil => simpa [Sparse.insert] using h
  | cons x r ih =>
    obtain ⟨k', v'⟩ := x
    simp only [Sparse.insert] at h
    split at h
    · simpa using h
    · split at h
      · rcases List.mem_cons.mp h with h | h
        · exact .inl h
        · exact .inr (List.mem_cons_of_mem _ h)
      · rcases List.mem_cons.mp h with h | h
        · exact .inr (by simp [h])
        · rcases ih h with h | h
          · exact .inl h
          · exact .inr (List.mem_cons_of_mem _ h)

theorem Sparse.erase_eq_filter : Sparse.erase m k = m.filter fun e => e.1 ≠ k := by
  induction m with
  | nil => rfl
  | cons e r ih =>
    obtain ⟨k', v'⟩ := e
    by_cases h : k' = k <;> simp [Sparse.erase, h, ih]

theorem Sparse.risesFrom_filter {lo : Nat} {p : Nat × α → Bool} (h : Sparse.risesFrom lo m) : Sparse.risesFrom lo (m.filter p) := by
  induction m generalizing lo with
  | nil => trivial
  | cons e r ih =>
    obtain ⟨h1, h2⟩ := h
    rw [List.filter_cons]
    split
    · exact ⟨h1, ih h2⟩
    · exact Sparse.risesFrom_mono (by omega) (ih h2)

theorem Sparse.canon_nil : Sparse.canon d ([] : Sparse α) := ⟨trivial, by simp⟩

theorem Sparse.canon_filter {p : Nat × α → Bool} (h : Sparse.canon d m) : Sparse.canon d (m.filter p) :=
  ⟨Sparse.risesFrom_filter h.1, fun e he => h.2 e (List.mem_filter.mp he).1⟩

theorem Sparse.canon_set [DecidableEq α] (h : Sparse.canon d m) : Sparse.canon d (Sparse.set d m k v) := by
  unfold Sparse.set
  split
  · rw [Sparse.erase_eq_filter]
    exact Sparse.canon_filter h
  · rename_i hv
    refine ⟨Sparse.risesFrom_insert (Nat.zero_le _) h.1, fun e he => ?_⟩
    rcases Sparse.mem_insert he with rfl | he
    · exact hv
    · exact h.2 e he

/-! ### Memory -/

/-- The canonical form of memory, as it is tested. -/
theorem Memory.wf_iff {m : Memory} : m.wf = true ↔ Sparse.canon (0 : Byte) m := by
  suffices h : ∀ m : Memory, m.wf = true ↔ (match m with
      | [] => True
      | (a, _) :: r => Sparse.risesFrom (a + 1) r) ∧ ∀ e ∈ m, e.2 ≠ 0 by
    rw [h]
    cases m with
    | nil => simp [Sparse.canon, Sparse.risesFrom]
    | cons e r => simp [Sparse.canon, Sparse.risesFrom]
  intro m
  induction m with
  | nil => simp [Memory.wf]
  | cons e r ih =>
    obtain ⟨a, b⟩ := e
    cases r with
    | nil => simp [Memory.wf, Sparse.risesFrom]
    | cons e' r' =>
      obtain ⟨a', b'⟩ := e'
      simp only [Memory.wf, Bool.and_eq_true, decide_eq_true_eq, Sparse.risesFrom, List.forall_mem_cons]
      rw [ih]
      simp only [List.forall_mem_cons]
      constructor
      · rintro ⟨⟨h1, h2⟩, h3, h4, h5⟩
        exact ⟨⟨by omega, h3⟩, h1, h4, h5⟩
      · rintro ⟨⟨h1, h2⟩, h3, h4, h5⟩
        exact ⟨⟨h3, by omega⟩, h2, h4, h5⟩

theorem Memory.wf_nil : Memory.wf [] = true := rfl

theorem Memory.wf_set {m : Memory} {a : Nat} {b : Byte} (h : m.wf = true) : (m.set a b).wf = true :=
  Memory.wf_iff.mpr (Sparse.canon_set (Memory.wf_iff.mp h))

theorem Memory.wf_write {m : Memory} {a : Nat} {bs : List Byte} (h : m.wf = true) : (m.write a bs).wf = true := by
  induction bs generalizing m a with
  | nil => exact h
  | cons b r ih => exact ih (Memory.wf_set h)

theorem Memory.wf_clear {m : Memory} {lo hi : Nat} (h : m.wf = true) : Memory.wf (Sparse.clear m lo hi) = true :=
  Memory.wf_iff.mpr (Sparse.canon_filter (Memory.wf_iff.mp h))

/-- Reading a byte after writing one. -/
theorem Memory.get_set {m : Memory} {a x : Nat} {b : Byte} : (m.set a b).get x = if x = a then b else m.get x := Sparse.get_set

/-- Reading a byte after writing bytes from `a` on. -/
theorem Memory.get_write {m : Memory} {a x : Nat} {bs : List Byte} :
    (m.write a bs).get x = if a ≤ x ∧ x < a + bs.length then bs.getD (x - a) 0 else m.get x := by
  induction bs generalizing m a with
  | nil => simp [Memory.write, show ¬(a ≤ x ∧ x < a) from by omega]
  | cons b r ih =>
    simp only [Memory.write, ih, Memory.get_set, List.length_cons]
    by_cases h : x = a
    · subst h
      simp [show ¬x + 1 ≤ x from by omega]
    · by_cases h1 : a + 1 ≤ x ∧ x < a + 1 + r.length
      · have h2 : x - a = (x - (a + 1)) + 1 := by omega
        rw [if_pos h1, if_pos (by omega), h2, List.getD_cons_succ]
      · rw [if_neg h1, if_neg h, if_neg (by omega)]

/-- The bytes that a write has stored read back. -/
theorem Memory.read_write {m : Memory} {a : Nat} {bs : List Byte} : (m.write a bs).read a bs.length = bs := by
  apply List.ext_getElem
  · simp [Memory.read]
  · intro i h1 h2
    simp only [Memory.read, List.getElem_map, List.getElem_range, Memory.get_write]
    simp [h2, List.getD]

end Sys2Proof.Machine
end

