-- ==== Sys2Proof/Laws/Arrays.lean ====
section
/-! SUPPORT. Reads and writes of the check state of the arrays where nothing is damaged, and what a granted access of a budget class
changes. -/

namespace Sys2Proof.Machine

variable {s : State}

/-- Where no granule of the arrays of a core, or of the hub, is damaged, a read meets nothing. -/
theorem State.softRead_clean {c : Option Nat} (h : s.softOf c = []) (w : Who) (array off n : Nat) : s.softRead w c array off n = (s, none) := by
  simp [State.softRead, h]

/-- The same of a write. -/
theorem State.softWrite_clean {c : Option Nat} (h : s.softOf c = []) (w : Who) (array off n : Nat) : s.softWrite w c array off n = s := by
  simp [State.softWrite, h]

theorem State.softBad_clean {c : Nat} (h : (s.core c).soft = []) (l : List (Nat × Nat × Nat)) : s.softBad c l = none := by
  have hr (a o n : Nat) : s.softRead { unit := uStream } (some c) a o n = (s, none) := State.softRead_clean (c := some c) h ..
  simp [State.softBad, hr]

theorem State.softTouch_clean {c : Nat} (h : (s.core c).soft = []) (w : Who) (l : List (Nat × Nat × Nat)) : s.softTouch w c l = s := by
  induction l with
  | nil => rfl
  | cons e r ih =>
    obtain ⟨a, o, n⟩ := e
    simp only [State.softTouch, List.foldl_cons, State.softRead_clean (c := some c) h]
    exact ih

theorem State.softFill_clean {c : Nat} (h : (s.core c).soft = []) (w : Who) (l : List (Nat × Nat × Nat)) : s.softFill w c l = s := by
  induction l with
  | nil => rfl
  | cons e r ih =>
    obtain ⟨a, o, n⟩ := e
    simp only [State.softFill, List.foldl_cons, State.softWrite_clean (c := some c) h]
    exact ih

/-- An engine whose core's arrays are undamaged goes on. -/
theorem State.arrays_clean {c : Nat} (h : (s.core c).soft = []) (w : Who) (l : List (Nat × Nat × Nat)) (bad f : State → State) :
    s.arrays w c l bad f = f s := by
  rw [State.arrays, State.softBad_clean h, State.softTouch_clean h]

/-- A read of undamaged hub memory goes on; so does the MC. -/
theorem State.hubRead_clean (h : s.soft = []) (array off n : Nat) (f : State → State) : s.hubRead array off n f = f s := by
  rw [State.hubRead, State.softRead_clean (c := none) h]

theorem State.mcActs_clean (h : s.soft = []) (f : State → State) : s.mcActs f = f s := State.hubRead_clean h ..

/-- A granted access changes the bank bookkeeping of a core, and no more. -/
theorem State.lineGrant_frame {t : State} {cls l n : Nat} {wr : Bool} (h : s.lineGrant cls l n wr = some t) : t = { s with cores := t.cores } := by
  unfold State.lineGrant at h
  split at h
  · cases h
  · split at h
    · split at h
      · cases h
      · cases h; rfl
    · split at h
      · cases h
      · cases h; rfl
    · cases h; rfl

/-- A corrected granule changes the counters of cores, the collector and its work, and no more. -/
theorem State.corrected_frame (s : State) (code array : Nat) (w : Who) (addr : Option Nat) :
    let t := s.corrected code array w addr
    t = { s with cores := t.cores, col := t.col, freeCtr := t.freeCtr, agenda := t.agenda, soft := t.soft } := by
  unfold State.corrected
  cases w.core <;> simp only [State.raise, State.planOnce, State.plan, State.modCore, State.setCore] <;> (repeat' split) <;> rfl

theorem State.correctedAt_frame (s : State) (w : Who) (a : Nat) :
    let t := s.correctedAt w a
    t = { s with cores := t.cores, col := t.col, freeCtr := t.freeCtr, agenda := t.agenda, soft := t.soft } := by
  unfold State.correctedAt
  split <;> exact State.corrected_frame ..

/-- So does a read that delivers corrected values, which also marks the granules as met. -/
theorem State.touch_frame (s : State) (w : Who) (l n : Nat) :
    let t := s.touch w l n
    t = { s with cores := t.cores, col := t.col, freeCtr := t.freeCtr, agenda := t.agenda, soft := t.soft, dmg := t.dmg } := by
  have go (hits : Sparse Damage) (u : State)
      (hu : u = { s with cores := u.cores, col := u.col, freeCtr := u.freeCtr, agenda := u.agenda, soft := u.soft, dmg := u.dmg }) :
      let t := hits.foldl (fun s e => s.correctedAt w (e.1 * 8)) u
      t = { s with cores := t.cores, col := t.col, freeCtr := t.freeCtr, agenda := t.agenda, soft := t.soft, dmg := t.dmg } := by
    induction hits generalizing u with
    | nil => exact hu
    | cons e r ih =>
      have h := State.correctedAt_frame u w (e.1 * 8)
      refine ih _ ?_
      dsimp only at h ⊢
      generalize u.correctedAt w (e.1 * 8) = t at h ⊢
      rw [h, hu]
  unfold State.touch
  dsimp only
  generalize (if n = 0 then [] else _ : Sparse Damage) = hits
  split
  · rfl
  · exact go hits { s with dmg := s.dmg.map fun e => if hits.contains e then (e.1, Damage.met) else e } rfl

/-- One of a budget class spends a unit and takes the slot as well. -/
theorem State.classGrant_frame {t : State} {cls l n : Nat} {wr : Bool} (h : s.classGrant cls l n wr = some t) :
    t = { s with cores := t.cores, spent := t.spent, slotTaken := t.slotTaken } := by
  unfold State.classGrant at h
  obtain ⟨v, hv, h⟩ := Option.bind_eq_some_iff.mp h
  have h := State.lineGrant_frame h
  unfold State.spend at hv
  dsimp only at hv
  split at hv
  · cases hv
  · cases hv
    rw [h]

end Sys2Proof.Machine
end

