-- ==== Sys2Proof/Laws/State.lean ====
section
/-! SUPPORT. What each small update of the state leaves alone: one lemma for each field and update, and what the updated part reads
as. -/

namespace Sys2Proof.Machine

variable (s : State) (k : Core) (x : Stream)

/-! ### A core of the package -/

@[simp] theorem State.core_setCore_self (c : Nat) : (s.setCore c k).core c = k := by simp [State.core, State.setCore]
theorem State.core_setCore_ne {c d : Nat} (h : d ≠ c) : (s.setCore c k).core d = s.core d := by
  simp [State.core, State.setCore, Sparse.get_insert_ne h]

theorem Sparse.insert_insert {α : Type} {m : Sparse α} {j : Nat} {v w : α} :
    Sparse.insert (Sparse.insert m j v) j w = Sparse.insert m j w := by
  induction m with
  | nil => simp [Sparse.insert]
  | cons e r ih =>
    obtain ⟨k', v'⟩ := e
    by_cases h1 : j < k'
    · simp [Sparse.insert, h1]
    · by_cases h2 : j = k'
      · simp [Sparse.insert, h2]
      · simp [Sparse.insert, h1, h2, ih]

@[simp] theorem State.setCore_setCore (c : Nat) (k' : Core) : (s.setCore c k).setCore c k' = s.setCore c k' := by
  simp [State.setCore, Sparse.insert_insert]

/-- The updates of one core, in terms of `setCore`. -/
@[simp] theorem State.modCore_eq (c : Nat) (f : Core → Core) : s.modCore c f = s.setCore c (f (s.core c)) := rfl
@[simp] theorem State.modStr_eq (c : Nat) (i : StreamId) (f : Stream → Stream) :
    s.modStr c i f = s.setCore c ((s.core c).modStr i f) := rfl
@[simp] theorem State.modMyCore_eq (f : Core → Core) : s.modMyCore f = s.setCore s.at.1 (f (s.core s.at.1)) := rfl
@[simp] theorem State.modMe_eq (f : Stream → Stream) : s.modMe f = s.setCore s.at.1 ((s.core s.at.1).modStr s.at.2 f) := rfl
@[simp] theorem State.setG_eq (g : G) (v : DWord) : s.setG g v = s.setCore s.at.1 ((s.core s.at.1).modStr s.at.2 (·.setG g v)) := rfl
@[simp] theorem State.str_eq (c : Nat) (i : StreamId) : s.str c i = (s.core c).str i := rfl
@[simp] theorem State.myCore_eq : s.myCore = s.core s.at.1 := rfl
@[simp] theorem State.me_eq : s.me = (s.core s.at.1).str s.at.2 := rfl
@[simp] theorem State.gr_eq (g : G) : s.gr g = ((s.core s.at.1).str s.at.2).gr g := rfl
@[simp] theorem State.at_setCore (c : Nat) : (s.setCore c k).at = s.at := rfl

@[simp] theorem State.setCore_now (c : Nat) : (s.setCore c k).now = s.now := rfl
@[simp] theorem State.setCore_before (c : Nat) : (s.setCore c k).before = s.before := rfl
@[simp] theorem State.setCore_inputs (c : Nat) : (s.setCore c k).inputs = s.inputs := rfl
@[simp] theorem State.setCore_agenda (c : Nat) : (s.setCore c k).agenda = s.agenda := rfl
@[simp] theorem State.setCore_alarms (c : Nat) : (s.setCore c k).alarms = s.alarms := rfl
@[simp] theorem State.setCore_cur (c : Nat) : (s.setCore c k).cur = s.cur := rfl
@[simp] theorem State.setCore_serial (c : Nat) : (s.setCore c k).serial = s.serial := rfl
@[simp] theorem State.setCore_freeCtr (c : Nat) : (s.setCore c k).freeCtr = s.freeCtr := rfl
@[simp] theorem State.setCore_mem (c : Nat) : (s.setCore c k).mem = s.mem := rfl
@[simp] theorem State.setCore_dmg (c : Nat) : (s.setCore c k).dmg = s.dmg := rfl
@[simp] theorem State.setCore_soft (c : Nat) : (s.setCore c k).soft = s.soft := rfl
@[simp] theorem State.setCore_frets (c : Nat) : (s.setCore c k).frets = s.frets := rfl
@[simp] theorem State.setCore_sup (c : Nat) : (s.setCore c k).sup = s.sup := rfl
@[simp] theorem State.setCore_launches (c : Nat) : (s.setCore c k).launches = s.launches := rfl
@[simp] theorem State.setCore_queues (c : Nat) : (s.setCore c k).queues = s.queues := rfl
@[simp] theorem State.setCore_ctxs (c : Nat) : (s.setCore c k).ctxs = s.ctxs := rfl
@[simp] theorem State.setCore_slices (c : Nat) : (s.setCore c k).slices = s.slices := rfl
@[simp] theorem State.setCore_waiters (c : Nat) : (s.setCore c k).waiters = s.waiters := rfl
@[simp] theorem State.setCore_ge (c : Nat) : (s.setCore c k).ge = s.ge := rfl
@[simp] theorem State.setCore_walkers (c : Nat) : (s.setCore c k).walkers = s.walkers := rfl
@[simp] theorem State.setCore_geCmds (c : Nat) : (s.setCore c k).geCmds = s.geCmds := rfl
@[simp] theorem State.setCore_les (c : Nat) : (s.setCore c k).les = s.les := rfl
@[simp] theorem State.setCore_slots (c : Nat) : (s.setCore c k).slots = s.slots := rfl
@[simp] theorem State.setCore_mu (c : Nat) : (s.setCore c k).mu = s.mu := rfl
@[simp] theorem State.setCore_col (c : Nat) : (s.setCore c k).col = s.col := rfl
@[simp] theorem State.setCore_scheds (c : Nat) : (s.setCore c k).scheds = s.scheds := rfl
@[simp] theorem State.setCore_almanac (c : Nat) : (s.setCore c k).almanac = s.almanac := rfl
@[simp] theorem State.setCore_ckpts (c : Nat) : (s.setCore c k).ckpts = s.ckpts := rfl
@[simp] theorem State.setCore_journal (c : Nat) : (s.setCore c k).journal = s.journal := rfl
@[simp] theorem State.setCore_routes (c : Nat) : (s.setCore c k).routes = s.routes := rfl
@[simp] theorem State.setCore_relabel (c : Nat) : (s.setCore c k).relabel = s.relabel := rfl
@[simp] theorem State.setCore_extents (c : Nat) : (s.setCore c k).extents = s.extents := rfl
@[simp] theorem State.setCore_rebuilt (c : Nat) : (s.setCore c k).rebuilt = s.rebuilt := rfl
@[simp] theorem State.setCore_lost (c : Nat) : (s.setCore c k).lost = s.lost := rfl
@[simp] theorem State.setCore_leaseTicks (c : Nat) : (s.setCore c k).leaseTicks = s.leaseTicks := rfl
@[simp] theorem State.setCore_leases (c : Nat) : (s.setCore c k).leases = s.leases := rfl
@[simp] theorem State.setCore_apReqs (c : Nat) : (s.setCore c k).apReqs = s.apReqs := rfl
@[simp] theorem State.setCore_apwin (c : Nat) : (s.setCore c k).apwin = s.apwin := rfl
@[simp] theorem State.setCore_pubstat (c : Nat) : (s.setCore c k).pubstat = s.pubstat := rfl
@[simp] theorem State.setCore_pubWait (c : Nat) : (s.setCore c k).pubWait = s.pubWait := rfl
@[simp] theorem State.setCore_pkg (c : Nat) : (s.setCore c k).pkg = s.pkg := rfl
@[simp] theorem State.setCore_ring (c : Nat) : (s.setCore c k).ring = s.ring := rfl
@[simp] theorem State.setCore_member (c : Nat) : (s.setCore c k).member = s.member := rfl
@[simp] theorem State.setCore_budgets (c : Nat) : (s.setCore c k).budgets = s.budgets := rfl
@[simp] theorem State.setCore_spent (c : Nat) : (s.setCore c k).spent = s.spent := rfl
@[simp] theorem State.setCore_slotTaken (c : Nat) : (s.setCore c k).slotTaken = s.slotTaken := rfl
@[simp] theorem State.setCore_islands (c : Nat) : (s.setCore c k).islands = s.islands := rfl
@[simp] theorem State.setCore_phrej (c : Nat) : (s.setCore c k).phrej = s.phrej := rfl
@[simp] theorem State.setCore_sec (c : Nat) : (s.setCore c k).sec = s.sec := rfl
@[simp] theorem State.setCore_hbmWrites (c : Nat) : (s.setCore c k).hbmWrites = s.hbmWrites := rfl
@[simp] theorem State.setCore_scrub (c : Nat) : (s.setCore c k).scrub = s.scrub := rfl
@[simp] theorem State.setCore_stoppedPkg (c : Nat) : (s.setCore c k).stoppedPkg = s.stoppedPkg := rfl
@[simp] theorem State.setCore_out (c : Nat) : (s.setCore c k).out = s.out := rfl

/-! ### Planned work, outputs, frets -/

@[simp] theorem State.plan_now (p r : Nat) (w : Work) : (s.plan p r w).now = s.now := rfl
@[simp] theorem State.plan_before (p r : Nat) (w : Work) : (s.plan p r w).before = s.before := rfl
@[simp] theorem State.plan_inputs (p r : Nat) (w : Work) : (s.plan p r w).inputs = s.inputs := rfl
@[simp] theorem State.plan_alarms (p r : Nat) (w : Work) : (s.plan p r w).alarms = s.alarms := rfl
@[simp] theorem State.plan_cur (p r : Nat) (w : Work) : (s.plan p r w).cur = s.cur := rfl
@[simp] theorem State.plan_serial (p r : Nat) (w : Work) : (s.plan p r w).serial = s.serial := rfl
@[simp] theorem State.plan_freeCtr (p r : Nat) (w : Work) : (s.plan p r w).freeCtr = s.freeCtr := rfl
@[simp] theorem State.plan_mem (p r : Nat) (w : Work) : (s.plan p r w).mem = s.mem := rfl
@[simp] theorem State.plan_dmg (p r : Nat) (w : Work) : (s.plan p r w).dmg = s.dmg := rfl
@[simp] theorem State.plan_soft (p r : Nat) (w : Work) : (s.plan p r w).soft = s.soft := rfl
@[simp] theorem State.plan_cores (p r : Nat) (w : Work) : (s.plan p r w).cores = s.cores := rfl
@[simp] theorem State.plan_frets (p r : Nat) (w : Work) : (s.plan p r w).frets = s.frets := rfl
@[simp] theorem State.plan_sup (p r : Nat) (w : Work) : (s.plan p r w).sup = s.sup := rfl
@[simp] theorem State.plan_launches (p r : Nat) (w : Work) : (s.plan p r w).launches = s.launches := rfl
@[simp] theorem State.plan_queues (p r : Nat) (w : Work) : (s.plan p r w).queues = s.queues := rfl
@[simp] theorem State.plan_ctxs (p r : Nat) (w : Work) : (s.plan p r w).ctxs = s.ctxs := rfl
@[simp] theorem State.plan_slices (p r : Nat) (w : Work) : (s.plan p r w).slices = s.slices := rfl
@[simp] theorem State.plan_waiters (p r : Nat) (w : Work) : (s.plan p r w).waiters = s.waiters := rfl
@[simp] theorem State.plan_ge (p r : Nat) (w : Work) : (s.plan p r w).ge = s.ge := rfl
@[simp] theorem State.plan_walkers (p r : Nat) (w : Work) : (s.plan p r w).walkers = s.walkers := rfl
@[simp] theorem State.plan_geCmds (p r : Nat) (w : Work) : (s.plan p r w).geCmds = s.geCmds := rfl
@[simp] theorem State.plan_les (p r : Nat) (w : Work) : (s.plan p r w).les = s.les := rfl
@[simp] theorem State.plan_slots (p r : Nat) (w : Work) : (s.plan p r w).slots = s.slots := rfl
@[simp] theorem State.plan_mu (p r : Nat) (w : Work) : (s.plan p r w).mu = s.mu := rfl
@[simp] theorem State.plan_col (p r : Nat) (w : Work) : (s.plan p r w).col = s.col := rfl
@[simp] theorem State.plan_scheds (p r : Nat) (w : Work) : (s.plan p r w).scheds = s.scheds := rfl
@[simp] theorem State.plan_almanac (p r : Nat) (w : Work) : (s.plan p r w).almanac = s.almanac := rfl
@[simp] theorem State.plan_ckpts (p r : Nat) (w : Work) : (s.plan p r w).ckpts = s.ckpts := rfl
@[simp] theorem State.plan_journal (p r : Nat) (w : Work) : (s.plan p r w).journal = s.journal := rfl
@[simp] theorem State.plan_routes (p r : Nat) (w : Work) : (s.plan p r w).routes = s.routes := rfl
@[simp] theorem State.plan_relabel (p r : Nat) (w : Work) : (s.plan p r w).relabel = s.relabel := rfl
@[simp] theorem State.plan_extents (p r : Nat) (w : Work) : (s.plan p r w).extents = s.extents := rfl
@[simp] theorem State.plan_rebuilt (p r : Nat) (w : Work) : (s.plan p r w).rebuilt = s.rebuilt := rfl
@[simp] theorem State.plan_lost (p r : Nat) (w : Work) : (s.plan p r w).lost = s.lost := rfl
@[simp] theorem State.plan_leaseTicks (p r : Nat) (w : Work) : (s.plan p r w).leaseTicks = s.leaseTicks := rfl
@[simp] theorem State.plan_leases (p r : Nat) (w : Work) : (s.plan p r w).leases = s.leases := rfl
@[simp] theorem State.plan_apReqs (p r : Nat) (w : Work) : (s.plan p r w).apReqs = s.apReqs := rfl
@[simp] theorem State.plan_apwin (p r : Nat) (w : Work) : (s.plan p r w).apwin = s.apwin := rfl
@[simp] theorem State.plan_pubstat (p r : Nat) (w : Work) : (s.plan p r w).pubstat = s.pubstat := rfl
@[simp] theorem State.plan_pubWait (p r : Nat) (w : Work) : (s.plan p r w).pubWait = s.pubWait := rfl
@[simp] theorem State.plan_pkg (p r : Nat) (w : Work) : (s.plan p r w).pkg = s.pkg := rfl
@[simp] theorem State.plan_ring (p r : Nat) (w : Work) : (s.plan p r w).ring = s.ring := rfl
@[simp] theorem State.plan_member (p r : Nat) (w : Work) : (s.plan p r w).member = s.member := rfl
@[simp] theorem State.plan_budgets (p r : Nat) (w : Work) : (s.plan p r w).budgets = s.budgets := rfl
@[simp] theorem State.plan_spent (p r : Nat) (w : Work) : (s.plan p r w).spent = s.spent := rfl
@[simp] theorem State.plan_slotTaken (p r : Nat) (w : Work) : (s.plan p r w).slotTaken = s.slotTaken := rfl
@[simp] theorem State.plan_islands (p r : Nat) (w : Work) : (s.plan p r w).islands = s.islands := rfl
@[simp] theorem State.plan_phrej (p r : Nat) (w : Work) : (s.plan p r w).phrej = s.phrej := rfl
@[simp] theorem State.plan_sec (p r : Nat) (w : Work) : (s.plan p r w).sec = s.sec := rfl
@[simp] theorem State.plan_hbmWrites (p r : Nat) (w : Work) : (s.plan p r w).hbmWrites = s.hbmWrites := rfl
@[simp] theorem State.plan_scrub (p r : Nat) (w : Work) : (s.plan p r w).scrub = s.scrub := rfl
@[simp] theorem State.plan_stoppedPkg (p r : Nat) (w : Work) : (s.plan p r w).stoppedPkg = s.stoppedPkg := rfl
@[simp] theorem State.plan_out (p r : Nat) (w : Work) : (s.plan p r w).out = s.out := rfl
@[simp] theorem State.core_plan (p r : Nat) (w : Work) (c : Nat) : (s.plan p r w).core c = s.core c := rfl
@[simp] theorem State.at_plan (p r : Nat) (w : Work) : (s.plan p r w).at = s.at := rfl
@[simp] theorem State.planOnce_now (p r : Nat) (w : Work) : (s.planOnce p r w).now = s.now := by unfold State.planOnce; split <;> rfl
@[simp] theorem State.planOnce_before (p r : Nat) (w : Work) : (s.planOnce p r w).before = s.before := by unfold State.planOnce; split <;> rfl
@[simp] theorem State.planOnce_inputs (p r : Nat) (w : Work) : (s.planOnce p r w).inputs = s.inputs := by unfold State.planOnce; split <;> rfl
@[simp] theorem State.planOnce_alarms (p r : Nat) (w : Work) : (s.planOnce p r w).alarms = s.alarms := by unfold State.planOnce; split <;> rfl
@[simp] theorem State.planOnce_cur (p r : Nat) (w : Work) : (s.planOnce p r w).cur = s.cur := by unfold State.planOnce; split <;> rfl
@[simp] theorem State.planOnce_serial (p r : Nat) (w : Work) : (s.planOnce p r w).serial = s.serial := by unfold State.planOnce; split <;> rfl
@[simp] theorem State.planOnce_freeCtr (p r : Nat) (w : Work) : (s.planOnce p r w).freeCtr = s.freeCtr := by unfold State.planOnce; split <;> rfl
@[simp] theorem State.planOnce_mem (p r : Nat) (w : Work) : (s.planOnce p r w).mem = s.mem := by unfold State.planOnce; split <;> rfl
@[simp] theorem State.planOnce_dmg (p r : Nat) (w : Work) : (s.planOnce p r w).dmg = s.dmg := by unfold State.planOnce; split <;> rfl
@[simp] theorem State.planOnce_soft (p r : Nat) (w : Work) : (s.planOnce p r w).soft = s.soft := by unfold State.planOnce; split <;> rfl
@[simp] theorem State.planOnce_cores (p r : Nat) (w : Work) : (s.planOnce p r w).cores = s.cores := by unfold State.planOnce; split <;> rfl
@[simp] theorem State.planOnce_frets (p r : Nat) (w : Work) : (s.planOnce p r w).frets = s.frets := by unfold State.planOnce; split <;> rfl
@[simp] theorem State.planOnce_sup (p r : Nat) (w : Work) : (s.planOnce p r w).sup = s.sup := by unfold State.planOnce; split <;> rfl
@[simp] theorem State.planOnce_launches (p r : Nat) (w : Work) : (s.planOnce p r w).launches = s.launches := by unfold State.planOnce; split <;> rfl
@[simp] theorem State.planOnce_queues (p r : Nat) (w : Work) : (s.planOnce p r w).queues = s.queues := by unfold State.planOnce; split <;> rfl
@[simp] theorem State.planOnce_ctxs (p r : Nat) (w : Work) : (s.planOnce p r w).ctxs = s.ctxs := by unfold State.planOnce; split <;> rfl
@[simp] theorem State.planOnce_slices (p r : Nat) (w : Work) : (s.planOnce p r w).slices = s.slices := by unfold State.planOnce; split <;> rfl
@[simp] theorem State.planOnce_waiters (p r : Nat) (w : Work) : (s.planOnce p r w).waiters = s.waiters := by unfold State.planOnce; split <;> rfl
@[simp] theorem State.planOnce_ge (p r : Nat) (w : Work) : (s.planOnce p r w).ge = s.ge := by unfold State.planOnce; split <;> rfl
@[simp] theorem State.planOnce_walkers (p r : Nat) (w : Work) : (s.planOnce p r w).walkers = s.walkers := by unfold State.planOnce; split <;> rfl
@[simp] theorem State.planOnce_geCmds (p r : Nat) (w : Work) : (s.planOnce p r w).geCmds = s.geCmds := by unfold State.planOnce; split <;> rfl
@[simp] theorem State.planOnce_les (p r : Nat) (w : Work) : (s.planOnce p r w).les = s.les := by unfold State.planOnce; split <;> rfl
@[simp] theorem State.planOnce_slots (p r : Nat) (w : Work) : (s.planOnce p r w).slots = s.slots := by unfold State.planOnce; split <;> rfl
@[simp] theorem State.planOnce_mu (p r : Nat) (w : Work) : (s.planOnce p r w).mu = s.mu := by unfold State.planOnce; split <;> rfl
@[simp] theorem State.planOnce_col (p r : Nat) (w : Work) : (s.planOnce p r w).col = s.col := by unfold State.planOnce; split <;> rfl
@[simp] theorem State.planOnce_scheds (p r : Nat) (w : Work) : (s.planOnce p r w).scheds = s.scheds := by unfold State.planOnce; split <;> rfl
@[simp] theorem State.planOnce_almanac (p r : Nat) (w : Work) : (s.planOnce p r w).almanac = s.almanac := by unfold State.planOnce; split <;> rfl
@[simp] theorem State.planOnce_ckpts (p r : Nat) (w : Work) : (s.planOnce p r w).ckpts = s.ckpts := by unfold State.planOnce; split <;> rfl
@[simp] theorem State.planOnce_journal (p r : Nat) (w : Work) : (s.planOnce p r w).journal = s.journal := by unfold State.planOnce; split <;> rfl
@[simp] theorem State.planOnce_routes (p r : Nat) (w : Work) : (s.planOnce p r w).routes = s.routes := by unfold State.planOnce; split <;> rfl
@[simp] theorem State.planOnce_relabel (p r : Nat) (w : Work) : (s.planOnce p r w).relabel = s.relabel := by unfold State.planOnce; split <;> rfl
@[simp] theorem State.planOnce_extents (p r : Nat) (w : Work) : (s.planOnce p r w).extents = s.extents := by unfold State.planOnce; split <;> rfl
@[simp] theorem State.planOnce_rebuilt (p r : Nat) (w : Work) : (s.planOnce p r w).rebuilt = s.rebuilt := by unfold State.planOnce; split <;> rfl
@[simp] theorem State.planOnce_lost (p r : Nat) (w : Work) : (s.planOnce p r w).lost = s.lost := by unfold State.planOnce; split <;> rfl
@[simp] theorem State.planOnce_leaseTicks (p r : Nat) (w : Work) : (s.planOnce p r w).leaseTicks = s.leaseTicks := by unfold State.planOnce; split <;> rfl
@[simp] theorem State.planOnce_leases (p r : Nat) (w : Work) : (s.planOnce p r w).leases = s.leases := by unfold State.planOnce; split <;> rfl
@[simp] theorem State.planOnce_apReqs (p r : Nat) (w : Work) : (s.planOnce p r w).apReqs = s.apReqs := by unfold State.planOnce; split <;> rfl
@[simp] theorem State.planOnce_apwin (p r : Nat) (w : Work) : (s.planOnce p r w).apwin = s.apwin := by unfold State.planOnce; split <;> rfl
@[simp] theorem State.planOnce_pubstat (p r : Nat) (w : Work) : (s.planOnce p r w).pubstat = s.pubstat := by unfold State.planOnce; split <;> rfl
@[simp] theorem State.planOnce_pubWait (p r : Nat) (w : Work) : (s.planOnce p r w).pubWait = s.pubWait := by unfold State.planOnce; split <;> rfl
@[simp] theorem State.planOnce_pkg (p r : Nat) (w : Work) : (s.planOnce p r w).pkg = s.pkg := by unfold State.planOnce; split <;> rfl
@[simp] theorem State.planOnce_ring (p r : Nat) (w : Work) : (s.planOnce p r w).ring = s.ring := by unfold State.planOnce; split <;> rfl
@[simp] theorem State.planOnce_member (p r : Nat) (w : Work) : (s.planOnce p r w).member = s.member := by unfold State.planOnce; split <;> rfl
@[simp] theorem State.planOnce_budgets (p r : Nat) (w : Work) : (s.planOnce p r w).budgets = s.budgets := by unfold State.planOnce; split <;> rfl
@[simp] theorem State.planOnce_spent (p r : Nat) (w : Work) : (s.planOnce p r w).spent = s.spent := by unfold State.planOnce; split <;> rfl
@[simp] theorem State.planOnce_slotTaken (p r : Nat) (w : Work) : (s.planOnce p r w).slotTaken = s.slotTaken := by unfold State.planOnce; split <;> rfl
@[simp] theorem State.planOnce_islands (p r : Nat) (w : Work) : (s.planOnce p r w).islands = s.islands := by unfold State.planOnce; split <;> rfl
@[simp] theorem State.planOnce_phrej (p r : Nat) (w : Work) : (s.planOnce p r w).phrej = s.phrej := by unfold State.planOnce; split <;> rfl
@[simp] theorem State.planOnce_sec (p r : Nat) (w : Work) : (s.planOnce p r w).sec = s.sec := by unfold State.planOnce; split <;> rfl
@[simp] theorem State.planOnce_hbmWrites (p r : Nat) (w : Work) : (s.planOnce p r w).hbmWrites = s.hbmWrites := by unfold State.planOnce; split <;> rfl
@[simp] theorem State.planOnce_scrub (p r : Nat) (w : Work) : (s.planOnce p r w).scrub = s.scrub := by unfold State.planOnce; split <;> rfl
@[simp] theorem State.planOnce_stoppedPkg (p r : Nat) (w : Work) : (s.planOnce p r w).stoppedPkg = s.stoppedPkg := by unfold State.planOnce; split <;> rfl
@[simp] theorem State.planOnce_out (p r : Nat) (w : Work) : (s.planOnce p r w).out = s.out := by unfold State.planOnce; split <;> rfl
@[simp] theorem State.core_planOnce (p r : Nat) (w : Work) (c : Nat) : (s.planOnce p r w).core c = s.core c := by
  simp [State.core]
@[simp] theorem State.emit_now (a : Output) : (s.emit a).now = s.now := rfl
@[simp] theorem State.emit_before (a : Output) : (s.emit a).before = s.before := rfl
@[simp] theorem State.emit_inputs (a : Output) : (s.emit a).inputs = s.inputs := rfl
@[simp] theorem State.emit_agenda (a : Output) : (s.emit a).agenda = s.agenda := rfl
@[simp] theorem State.emit_alarms (a : Output) : (s.emit a).alarms = s.alarms := rfl
@[simp] theorem State.emit_cur (a : Output) : (s.emit a).cur = s.cur := rfl
@[simp] theorem State.emit_serial (a : Output) : (s.emit a).serial = s.serial := rfl
@[simp] theorem State.emit_freeCtr (a : Output) : (s.emit a).freeCtr = s.freeCtr := rfl
@[simp] theorem State.emit_mem (a : Output) : (s.emit a).mem = s.mem := rfl
@[simp] theorem State.emit_dmg (a : Output) : (s.emit a).dmg = s.dmg := rfl
@[simp] theorem State.emit_soft (a : Output) : (s.emit a).soft = s.soft := rfl
@[simp] theorem State.emit_cores (a : Output) : (s.emit a).cores = s.cores := rfl
@[simp] theorem State.emit_frets (a : Output) : (s.emit a).frets = s.frets := rfl
@[simp] theorem State.emit_sup (a : Output) : (s.emit a).sup = s.sup := rfl
@[simp] theorem State.emit_launches (a : Output) : (s.emit a).launches = s.launches := rfl
@[simp] theorem State.emit_queues (a : Output) : (s.emit a).queues = s.queues := rfl
@[simp] theorem State.emit_ctxs (a : Output) : (s.emit a).ctxs = s.ctxs := rfl
@[simp] theorem State.emit_slices (a : Output) : (s.emit a).slices = s.slices := rfl
@[simp] theorem State.emit_waiters (a : Output) : (s.emit a).waiters = s.waiters := rfl
@[simp] theorem State.emit_ge (a : Output) : (s.emit a).ge = s.ge := rfl
@[simp] theorem State.emit_walkers (a : Output) : (s.emit a).walkers = s.walkers := rfl
@[simp] theorem State.emit_geCmds (a : Output) : (s.emit a).geCmds = s.geCmds := rfl
@[simp] theorem State.emit_les (a : Output) : (s.emit a).les = s.les := rfl
@[simp] theorem State.emit_slots (a : Output) : (s.emit a).slots = s.slots := rfl
@[simp] theorem State.emit_mu (a : Output) : (s.emit a).mu = s.mu := rfl
@[simp] theorem State.emit_col (a : Output) : (s.emit a).col = s.col := rfl
@[simp] theorem State.emit_scheds (a : Output) : (s.emit a).scheds = s.scheds := rfl
@[simp] theorem State.emit_almanac (a : Output) : (s.emit a).almanac = s.almanac := rfl
@[simp] theorem State.emit_ckpts (a : Output) : (s.emit a).ckpts = s.ckpts := rfl
@[simp] theorem State.emit_journal (a : Output) : (s.emit a).journal = s.journal := rfl
@[simp] theorem State.emit_routes (a : Output) : (s.emit a).routes = s.routes := rfl
@[simp] theorem State.emit_relabel (a : Output) : (s.emit a).relabel = s.relabel := rfl
@[simp] theorem State.emit_extents (a : Output) : (s.emit a).extents = s.extents := rfl
@[simp] theorem State.emit_rebuilt (a : Output) : (s.emit a).rebuilt = s.rebuilt := rfl
@[simp] theorem State.emit_lost (a : Output) : (s.emit a).lost = s.lost := rfl
@[simp] theorem State.emit_leaseTicks (a : Output) : (s.emit a).leaseTicks = s.leaseTicks := rfl
@[simp] theorem State.emit_leases (a : Output) : (s.emit a).leases = s.leases := rfl
@[simp] theorem State.emit_apReqs (a : Output) : (s.emit a).apReqs = s.apReqs := rfl
@[simp] theorem State.emit_apwin (a : Output) : (s.emit a).apwin = s.apwin := rfl
@[simp] theorem State.emit_pubstat (a : Output) : (s.emit a).pubstat = s.pubstat := rfl
@[simp] theorem State.emit_pubWait (a : Output) : (s.emit a).pubWait = s.pubWait := rfl
@[simp] theorem State.emit_pkg (a : Output) : (s.emit a).pkg = s.pkg := rfl
@[simp] theorem State.emit_ring (a : Output) : (s.emit a).ring = s.ring := rfl
@[simp] theorem State.emit_member (a : Output) : (s.emit a).member = s.member := rfl
@[simp] theorem State.emit_budgets (a : Output) : (s.emit a).budgets = s.budgets := rfl
@[simp] theorem State.emit_spent (a : Output) : (s.emit a).spent = s.spent := rfl
@[simp] theorem State.emit_slotTaken (a : Output) : (s.emit a).slotTaken = s.slotTaken := rfl
@[simp] theorem State.emit_islands (a : Output) : (s.emit a).islands = s.islands := rfl
@[simp] theorem State.emit_phrej (a : Output) : (s.emit a).phrej = s.phrej := rfl
@[simp] theorem State.emit_sec (a : Output) : (s.emit a).sec = s.sec := rfl
@[simp] theorem State.emit_hbmWrites (a : Output) : (s.emit a).hbmWrites = s.hbmWrites := rfl
@[simp] theorem State.emit_scrub (a : Output) : (s.emit a).scrub = s.scrub := rfl
@[simp] theorem State.emit_stoppedPkg (a : Output) : (s.emit a).stoppedPkg = s.stoppedPkg := rfl
@[simp] theorem State.core_emit (a : Output) (c : Nat) : (s.emit a).core c = s.core c := rfl
@[simp] theorem State.at_emit (a : Output) : (s.emit a).at = s.at := rfl
@[simp] theorem State.modFret_now (n : Nat) (f : Fret → Fret) : (s.modFret n f).now = s.now := rfl
@[simp] theorem State.modFret_before (n : Nat) (f : Fret → Fret) : (s.modFret n f).before = s.before := rfl
@[simp] theorem State.modFret_inputs (n : Nat) (f : Fret → Fret) : (s.modFret n f).inputs = s.inputs := rfl
@[simp] theorem State.modFret_agenda (n : Nat) (f : Fret → Fret) : (s.modFret n f).agenda = s.agenda := rfl
@[simp] theorem State.modFret_alarms (n : Nat) (f : Fret → Fret) : (s.modFret n f).alarms = s.alarms := rfl
@[simp] theorem State.modFret_cur (n : Nat) (f : Fret → Fret) : (s.modFret n f).cur = s.cur := rfl
@[simp] theorem State.modFret_serial (n : Nat) (f : Fret → Fret) : (s.modFret n f).serial = s.serial := rfl
@[simp] theorem State.modFret_freeCtr (n : Nat) (f : Fret → Fret) : (s.modFret n f).freeCtr = s.freeCtr := rfl
@[simp] theorem State.modFret_mem (n : Nat) (f : Fret → Fret) : (s.modFret n f).mem = s.mem := rfl
@[simp] theorem State.modFret_dmg (n : Nat) (f : Fret → Fret) : (s.modFret n f).dmg = s.dmg := rfl
@[simp] theorem State.modFret_soft (n : Nat) (f : Fret → Fret) : (s.modFret n f).soft = s.soft := rfl
@[simp] theorem State.modFret_cores (n : Nat) (f : Fret → Fret) : (s.modFret n f).cores = s.cores := rfl
@[simp] theorem State.modFret_sup (n : Nat) (f : Fret → Fret) : (s.modFret n f).sup = s.sup := rfl
@[simp] theorem State.modFret_launches (n : Nat) (f : Fret → Fret) : (s.modFret n f).launches = s.launches := rfl
@[simp] theorem State.modFret_queues (n : Nat) (f : Fret → Fret) : (s.modFret n f).queues = s.queues := rfl
@[simp] theorem State.modFret_ctxs (n : Nat) (f : Fret → Fret) : (s.modFret n f).ctxs = s.ctxs := rfl
@[simp] theorem State.modFret_slices (n : Nat) (f : Fret → Fret) : (s.modFret n f).slices = s.slices := rfl
@[simp] theorem State.modFret_waiters (n : Nat) (f : Fret → Fret) : (s.modFret n f).waiters = s.waiters := rfl
@[simp] theorem State.modFret_ge (n : Nat) (f : Fret → Fret) : (s.modFret n f).ge = s.ge := rfl
@[simp] theorem State.modFret_walkers (n : Nat) (f : Fret → Fret) : (s.modFret n f).walkers = s.walkers := rfl
@[simp] theorem State.modFret_geCmds (n : Nat) (f : Fret → Fret) : (s.modFret n f).geCmds = s.geCmds := rfl
@[simp] theorem State.modFret_les (n : Nat) (f : Fret → Fret) : (s.modFret n f).les = s.les := rfl
@[simp] theorem State.modFret_slots (n : Nat) (f : Fret → Fret) : (s.modFret n f).slots = s.slots := rfl
@[simp] theorem State.modFret_mu (n : Nat) (f : Fret → Fret) : (s.modFret n f).mu = s.mu := rfl
@[simp] theorem State.modFret_col (n : Nat) (f : Fret → Fret) : (s.modFret n f).col = s.col := rfl
@[simp] theorem State.modFret_scheds (n : Nat) (f : Fret → Fret) : (s.modFret n f).scheds = s.scheds := rfl
@[simp] theorem State.modFret_almanac (n : Nat) (f : Fret → Fret) : (s.modFret n f).almanac = s.almanac := rfl
@[simp] theorem State.modFret_ckpts (n : Nat) (f : Fret → Fret) : (s.modFret n f).ckpts = s.ckpts := rfl
@[simp] theorem State.modFret_journal (n : Nat) (f : Fret → Fret) : (s.modFret n f).journal = s.journal := rfl
@[simp] theorem State.modFret_routes (n : Nat) (f : Fret → Fret) : (s.modFret n f).routes = s.routes := rfl
@[simp] theorem State.modFret_relabel (n : Nat) (f : Fret → Fret) : (s.modFret n f).relabel = s.relabel := rfl
@[simp] theorem State.modFret_extents (n : Nat) (f : Fret → Fret) : (s.modFret n f).extents = s.extents := rfl
@[simp] theorem State.modFret_rebuilt (n : Nat) (f : Fret → Fret) : (s.modFret n f).rebuilt = s.rebuilt := rfl
@[simp] theorem State.modFret_lost (n : Nat) (f : Fret → Fret) : (s.modFret n f).lost = s.lost := rfl
@[simp] theorem State.modFret_leaseTicks (n : Nat) (f : Fret → Fret) : (s.modFret n f).leaseTicks = s.leaseTicks := rfl
@[simp] theorem State.modFret_leases (n : Nat) (f : Fret → Fret) : (s.modFret n f).leases = s.leases := rfl
@[simp] theorem State.modFret_apReqs (n : Nat) (f : Fret → Fret) : (s.modFret n f).apReqs = s.apReqs := rfl
@[simp] theorem State.modFret_apwin (n : Nat) (f : Fret → Fret) : (s.modFret n f).apwin = s.apwin := rfl
@[simp] theorem State.modFret_pubstat (n : Nat) (f : Fret → Fret) : (s.modFret n f).pubstat = s.pubstat := rfl
@[simp] theorem State.modFret_pubWait (n : Nat) (f : Fret → Fret) : (s.modFret n f).pubWait = s.pubWait := rfl
@[simp] theorem State.modFret_pkg (n : Nat) (f : Fret → Fret) : (s.modFret n f).pkg = s.pkg := rfl
@[simp] theorem State.modFret_ring (n : Nat) (f : Fret → Fret) : (s.modFret n f).ring = s.ring := rfl
@[simp] theorem State.modFret_member (n : Nat) (f : Fret → Fret) : (s.modFret n f).member = s.member := rfl
@[simp] theorem State.modFret_budgets (n : Nat) (f : Fret → Fret) : (s.modFret n f).budgets = s.budgets := rfl
@[simp] theorem State.modFret_spent (n : Nat) (f : Fret → Fret) : (s.modFret n f).spent = s.spent := rfl
@[simp] theorem State.modFret_slotTaken (n : Nat) (f : Fret → Fret) : (s.modFret n f).slotTaken = s.slotTaken := rfl
@[simp] theorem State.modFret_islands (n : Nat) (f : Fret → Fret) : (s.modFret n f).islands = s.islands := rfl
@[simp] theorem State.modFret_phrej (n : Nat) (f : Fret → Fret) : (s.modFret n f).phrej = s.phrej := rfl
@[simp] theorem State.modFret_sec (n : Nat) (f : Fret → Fret) : (s.modFret n f).sec = s.sec := rfl
@[simp] theorem State.modFret_hbmWrites (n : Nat) (f : Fret → Fret) : (s.modFret n f).hbmWrites = s.hbmWrites := rfl
@[simp] theorem State.modFret_scrub (n : Nat) (f : Fret → Fret) : (s.modFret n f).scrub = s.scrub := rfl
@[simp] theorem State.modFret_stoppedPkg (n : Nat) (f : Fret → Fret) : (s.modFret n f).stoppedPkg = s.stoppedPkg := rfl
@[simp] theorem State.modFret_out (n : Nat) (f : Fret → Fret) : (s.modFret n f).out = s.out := rfl
@[simp] theorem State.core_modFret (n : Nat) (f : Fret → Fret) (c : Nat) : (s.modFret n f).core c = s.core c := rfl
@[simp] theorem State.at_modFret (n : Nat) (f : Fret → Fret) : (s.modFret n f).at = s.at := rfl

/-! ### A stream of a core -/

@[simp] theorem Core.str_setStr_self (i : StreamId) : (k.setStr i x).str i = x := by cases i <;> rfl
theorem Core.str_setStr_ne {i j : StreamId} (h : j ≠ i) : (k.setStr i x).str j = k.str j := by
  cases i <;> cases j <;> first | rfl | exact absurd rfl h
@[simp] theorem Core.modStr_eq (i : StreamId) (f : Stream → Stream) : k.modStr i f = k.setStr i (f (k.str i)) := rfl
@[simp] theorem Core.setStr_ptr (i : StreamId) : (k.setStr i x).ptr = k.ptr := by cases i <;> rfl
@[simp] theorem Core.setStr_grantE (i : StreamId) : (k.setStr i x).grantE = k.grantE := by cases i <;> rfl
@[simp] theorem Core.setStr_grantS (i : StreamId) : (k.setStr i x).grantS = k.grantS := by cases i <;> rfl
@[simp] theorem Core.setStr_istore (i : StreamId) : (k.setStr i x).istore = k.istore := by cases i <;> rfl
@[simp] theorem Core.setStr_h (i : StreamId) : (k.setStr i x).h = k.h := by cases i <;> rfl
@[simp] theorem Core.setStr_pendH (i : StreamId) : (k.setStr i x).pendH = k.pendH := by cases i <;> rfl
@[simp] theorem Core.setStr_v (i : StreamId) : (k.setStr i x).v = k.v := by cases i <;> rfl
@[simp] theorem Core.setStr_p (i : StreamId) : (k.setStr i x).p = k.p := by cases i <;> rfl
@[simp] theorem Core.setStr_vrb (i : StreamId) : (k.setStr i x).vrb = k.vrb := by cases i <;> rfl
@[simp] theorem Core.setStr_prb (i : StreamId) : (k.setStr i x).prb = k.prb := by cases i <;> rfl
@[simp] theorem Core.setStr_tie (i : StreamId) : (k.setStr i x).tie = k.tie := by cases i <;> rfl
@[simp] theorem Core.setStr_rotary (i : StreamId) : (k.setStr i x).rotary = k.rotary := by cases i <;> rfl
@[simp] theorem Core.setStr_tdesc (i : StreamId) : (k.setStr i x).tdesc = k.tdesc := by cases i <;> rfl
@[simp] theorem Core.setStr_tiles (i : StreamId) : (k.setStr i x).tiles = k.tiles := by cases i <;> rfl
@[simp] theorem Core.setStr_xa (i : StreamId) : (k.setStr i x).xa = k.xa := by cases i <;> rfl
@[simp] theorem Core.setStr_side (i : StreamId) : (k.setStr i x).side = k.side := by cases i <;> rfl
@[simp] theorem Core.setStr_maQueue (i : StreamId) : (k.setStr i x).maQueue = k.maQueue := by cases i <;> rfl
@[simp] theorem Core.setStr_maRun (i : StreamId) : (k.setStr i x).maRun = k.maRun := by cases i <;> rfl
@[simp] theorem Core.setStr_maFree (i : StreamId) : (k.setStr i x).maFree = k.maFree := by cases i <;> rfl
@[simp] theorem Core.setStr_epcfg (i : StreamId) : (k.setStr i x).epcfg = k.epcfg := by cases i <;> rfl
@[simp] theorem Core.setStr_epidx (i : StreamId) : (k.setStr i x).epidx = k.epidx := by cases i <;> rfl
@[simp] theorem Core.setStr_dstat (i : StreamId) : (k.setStr i x).dstat = k.dstat := by cases i <;> rfl
@[simp] theorem Core.setStr_bias (i : StreamId) : (k.setStr i x).bias = k.bias := by cases i <;> rfl
@[simp] theorem Core.setStr_scale (i : StreamId) : (k.setStr i x).scale = k.scale := by cases i <;> rfl
@[simp] theorem Core.setStr_heaps (i : StreamId) : (k.setStr i x).heaps = k.heaps := by cases i <;> rfl
@[simp] theorem Core.setStr_heapLeft (i : StreamId) : (k.setStr i x).heapLeft = k.heapLeft := by cases i <;> rfl
@[simp] theorem Core.setStr_drains (i : StreamId) : (k.setStr i x).drains = k.drains := by cases i <;> rfl
@[simp] theorem Core.setStr_epOld (i : StreamId) : (k.setStr i x).epOld = k.epOld := by cases i <;> rfl
@[simp] theorem Core.setStr_epPend (i : StreamId) : (k.setStr i x).epPend = k.epPend := by cases i <;> rfl
@[simp] theorem Core.setStr_epReady (i : StreamId) : (k.setStr i x).epReady = k.epReady := by cases i <;> rfl
@[simp] theorem Core.setStr_deuFree (i : StreamId) : (k.setStr i x).deuFree = k.deuFree := by cases i <;> rfl
@[simp] theorem Core.setStr_colEff (i : StreamId) : (k.setStr i x).colEff = k.colEff := by cases i <;> rfl
@[simp] theorem Core.setStr_tileEff (i : StreamId) : (k.setStr i x).tileEff = k.tileEff := by cases i <;> rfl
@[simp] theorem Core.setStr_vmPort (i : StreamId) : (k.setStr i x).vmPort = k.vmPort := by cases i <;> rfl
@[simp] theorem Core.setStr_port (i : StreamId) : (k.setStr i x).port = k.port := by cases i <;> rfl
@[simp] theorem Core.setStr_vmRetry (i : StreamId) : (k.setStr i x).vmRetry = k.vmRetry := by cases i <;> rfl
@[simp] theorem Core.setStr_ce (i : StreamId) : (k.setStr i x).ce = k.ce := by cases i <;> rfl
@[simp] theorem Core.setStr_rfA (i : StreamId) : (k.setStr i x).rfA = k.rfA := by cases i <;> rfl
@[simp] theorem Core.setStr_rfW (i : StreamId) : (k.setStr i x).rfW = k.rfW := by cases i <;> rfl
@[simp] theorem Core.setStr_numstat (i : StreamId) : (k.setStr i x).numstat = k.numstat := by cases i <;> rfl
@[simp] theorem Core.setStr_dg (i : StreamId) : (k.setStr i x).dg = k.dg := by cases i <;> rfl
@[simp] theorem Core.setStr_dgRun (i : StreamId) : (k.setStr i x).dgRun = k.dgRun := by cases i <;> rfl
@[simp] theorem Core.setStr_smp (i : StreamId) : (k.setStr i x).smp = k.smp := by cases i <;> rfl
@[simp] theorem Core.setStr_ctr (i : StreamId) : (k.setStr i x).ctr = k.ctr := by cases i <;> rfl
@[simp] theorem Core.setStr_ctrNew (i : StreamId) : (k.setStr i x).ctrNew = k.ctrNew := by cases i <;> rfl
@[simp] theorem Core.setStr_pendW (i : StreamId) : (k.setStr i x).pendW = k.pendW := by cases i <;> rfl
@[simp] theorem Core.setStr_launchId (i : StreamId) : (k.setStr i x).launchId = k.launchId := by cases i <;> rfl
@[simp] theorem Core.setStr_ctx (i : StreamId) : (k.setStr i x).ctx = k.ctx := by cases i <;> rfl
@[simp] theorem Core.setStr_resident (i : StreamId) : (k.setStr i x).resident = k.resident := by cases i <;> rfl
@[simp] theorem Core.setStr_timed (i : StreamId) : (k.setStr i x).timed = k.timed := by cases i <;> rfl
@[simp] theorem Core.setStr_lgeom (i : StreamId) : (k.setStr i x).lgeom = k.lgeom := by cases i <;> rfl
@[simp] theorem Core.setStr_schedbase (i : StreamId) : (k.setStr i x).schedbase = k.schedbase := by cases i <;> rfl
@[simp] theorem Core.setStr_owner (i : StreamId) : (k.setStr i x).owner = k.owner := by cases i <;> rfl
@[simp] theorem Core.setStr_running (i : StreamId) : (k.setStr i x).running = k.running := by cases i <;> rfl
@[simp] theorem Core.setStr_fret (i : StreamId) : (k.setStr i x).fret = k.fret := by cases i <;> rfl
@[simp] theorem Core.setStr_lastCtx (i : StreamId) : (k.setStr i x).lastCtx = k.lastCtx := by cases i <;> rfl
@[simp] theorem Core.setStr_geLast (i : StreamId) : (k.setStr i x).geLast = k.geLast := by cases i <;> rfl
@[simp] theorem Core.setStr_bankUse (i : StreamId) : (k.setStr i x).bankUse = k.bankUse := by cases i <;> rfl
@[simp] theorem Core.setStr_spadWr (i : StreamId) : (k.setStr i x).spadWr = k.spadWr := by cases i <;> rfl
@[simp] theorem Core.setStr_parity (i : StreamId) : (k.setStr i x).parity = k.parity := by cases i <;> rfl
@[simp] theorem Core.setStr_soft (i : StreamId) : (k.setStr i x).soft = k.soft := by cases i <;> rfl

/-! ### A register of a stream -/

theorem Stream.gr_setG (g j : G) (v : DWord) : (x.setG g v).gr j = if j = g ∧ g ≠ 0 then v else x.gr j := by
  by_cases hg : g = 0
  · rw [if_neg (fun h : j = g ∧ g ≠ 0 => h.2 hg)]
    simp only [Stream.setG, if_pos hg]
  · by_cases hj : j = 0
    · rw [if_neg (fun h : j = g ∧ g ≠ 0 => hg (h.1 ▸ hj))]
      simp only [Stream.gr, if_pos hj]
    · simp only [Stream.gr, Stream.setG, if_neg hg, if_neg hj]
      by_cases h : j = g
      · rw [if_pos ⟨h, hg⟩, h, Sparse.get_set_self]
      · rw [if_neg (fun e : j = g ∧ g ≠ 0 => h e.1), Sparse.get_set_ne (fun e => h (BitVec.eq_of_toNat_eq e))]
@[simp] theorem Stream.setG_pc (g : G) (v : DWord) : (x.setG g v).pc = x.pc := by unfold Stream.setG; split <;> rfl
@[simp] theorem Stream.setG_l0 (g : G) (v : DWord) : (x.setG g v).l0 = x.l0 := by unfold Stream.setG; split <;> rfl
@[simp] theorem Stream.setG_l1 (g : G) (v : DWord) : (x.setG g v).l1 = x.l1 := by unfold Stream.setG; split <;> rfl
@[simp] theorem Stream.setG_l2 (g : G) (v : DWord) : (x.setG g v).l2 = x.l2 := by unfold Stream.setG; split <;> rfl
@[simp] theorem Stream.setG_order (g : G) (v : DWord) : (x.setG g v).order = x.order := by unfold Stream.setG; split <;> rfl
@[simp] theorem Stream.setG_halted (g : G) (v : DWord) : (x.setG g v).halted = x.halted := by unfold Stream.setG; split <;> rfl
@[simp] theorem Stream.setG_hasCode (g : G) (v : DWord) : (x.setG g v).hasCode = x.hasCode := by unfold Stream.setG; split <;> rfl
@[simp] theorem Stream.setG_round (g : G) (v : DWord) : (x.setG g v).round = x.round := by unfold Stream.setG; split <;> rfl
@[simp] theorem Stream.setG_srctr (g : G) (v : DWord) : (x.setG g v).srctr = x.srctr := by unfold Stream.setG; split <;> rfl
@[simp] theorem Stream.setG_trapPc (g : G) (v : DWord) : (x.setG g v).trapPc = x.trapPc := by unfold Stream.setG; split <;> rfl
@[simp] theorem Stream.setG_trapCause (g : G) (v : DWord) : (x.setG g v).trapCause = x.trapCause := by unfold Stream.setG; split <;> rfl
@[simp] theorem Stream.setG_trapInfo0 (g : G) (v : DWord) : (x.setG g v).trapInfo0 = x.trapInfo0 := by unfold Stream.setG; split <;> rfl
@[simp] theorem Stream.setG_trapInfo1 (g : G) (v : DWord) : (x.setG g v).trapInfo1 = x.trapInfo1 := by unfold Stream.setG; split <;> rfl
@[simp] theorem Stream.setG_scr0 (g : G) (v : DWord) : (x.setG g v).scr0 = x.scr0 := by unfold Stream.setG; split <;> rfl
@[simp] theorem Stream.setG_scr1 (g : G) (v : DWord) : (x.setG g v).scr1 = x.scr1 := by unfold Stream.setG; split <;> rfl
@[simp] theorem Stream.setG_nest (g : G) (v : DWord) : (x.setG g v).nest = x.nest := by unfold Stream.setG; split <;> rfl
@[simp] theorem Stream.setG_notBefore (g : G) (v : DWord) : (x.setG g v).notBefore = x.notBefore := by unfold Stream.setG; split <;> rfl
@[simp] theorem Stream.setG_hold (g : G) (v : DWord) : (x.setG g v).hold = x.hold := by unfold Stream.setG; split <;> rfl
@[simp] theorem Stream.setG_holdTok (g : G) (v : DWord) : (x.setG g v).holdTok = x.holdTok := by unfold Stream.setG; split <;> rfl
@[simp] theorem Stream.setG_faults (g : G) (v : DWord) : (x.setG g v).faults = x.faults := by unfold Stream.setG; split <;> rfl
@[simp] theorem Stream.setG_busy (g : G) (v : DWord) : (x.setG g v).busy = x.busy := by unfold Stream.setG; split <;> rfl
@[simp] theorem Stream.setG_await (g : G) (v : DWord) : (x.setG g v).await = x.await := by unfold Stream.setG; split <;> rfl
@[simp] theorem Stream.setG_retireAt (g : G) (v : DWord) : (x.setG g v).retireAt = x.retireAt := by unfold Stream.setG; split <;> rfl
@[simp] theorem Stream.setG_tried (g : G) (v : DWord) : (x.setG g v).tried = x.tried := by unfold Stream.setG; split <;> rfl
@[simp] theorem Stream.setG_cls (g : G) (v : DWord) : (x.setG g v).cls = x.cls := by unfold Stream.setG; split <;> rfl
@[simp] theorem Stream.setG_clsPc (g : G) (v : DWord) : (x.setG g v).clsPc = x.clsPc := by unfold Stream.setG; split <;> rfl
@[simp] theorem Stream.setG_point (g : G) (v : DWord) : (x.setG g v).point = x.point := by unfold Stream.setG; split <;> rfl
@[simp] theorem Stream.setG_stopped (g : G) (v : DWord) : (x.setG g v).stopped = x.stopped := by unfold Stream.setG; split <;> rfl
@[simp] theorem Stream.setG_tokPred (g : G) (v : DWord) : (x.setG g v).tokPred = x.tokPred := by unfold Stream.setG; split <;> rfl
@[simp] theorem Stream.setG_tokSucc (g : G) (v : DWord) : (x.setG g v).tokSucc = x.tokSucc := by unfold Stream.setG; split <;> rfl
@[simp] theorem Stream.setG_qPred (g : G) (v : DWord) : (x.setG g v).qPred = x.qPred := by unfold Stream.setG; split <;> rfl
@[simp] theorem Stream.setG_qSucc (g : G) (v : DWord) : (x.setG g v).qSucc = x.qSucc := by unfold Stream.setG; split <;> rfl

end Sys2Proof.Machine
end

