-- ==== Sys2Proof/Laws/Issue.lean ====
section
/-! SUPPORT. What the issue of an instruction does besides its effect: the frame of `State.finish`, and what `State.issue` answers
where the instruction may issue, may not, or waits. -/

namespace Sys2Proof.Machine

/-! ### Streams of a core -/

theorem Core.str_modStr (k : Core) (i j : StreamId) (f : Stream → Stream) :
    (k.modStr i f).str j = if j = i then f (k.str i) else k.str j := by
  cases i <;> cases j <;> rfl

theorem streamPred_ne (i : StreamId) : streamPred i ≠ i := by cases i <;> decide
theorem streamSucc_ne (i : StreamId) : streamSucc i ≠ i := by cases i <;> decide
theorem streamPred_ne_succ (i : StreamId) : streamPred i ≠ streamSucc i := by cases i <;> decide

/-! ### The relation between a core before and after an issue -/

theorem Stream.TokensOnly.rfl' (x : Stream) : Stream.TokensOnly x x := rfl
theorem Stream.TokensOnly.of (x : Stream) (p q : Chan) : Stream.TokensOnly x { x with tokPred := p, tokSucc := q } := rfl
theorem Stream.TokensOnly.trans {x y z : Stream} (h : Stream.TokensOnly x y) (h' : Stream.TokensOnly y z) : Stream.TokensOnly x z := by
  unfold Stream.TokensOnly at *
  rw [h'] ; rw [h]

theorem Stream.Kept.rfl' (x : Stream) : Stream.Kept x x := rfl
theorem Stream.Kept.trans {x y z : Stream} (h : Stream.Kept x y) (h' : Stream.Kept y z) : Stream.Kept x z := by
  unfold Stream.Kept at *
  rw [h'] ; rw [h]
theorem Stream.TokensOnly.kept {x y : Stream} (h : Stream.TokensOnly x y) : Stream.Kept x y := by
  unfold Stream.TokensOnly at h; unfold Stream.Kept; rw [h]

/-- `k'` is `k` after bookkeeping for an instruction of stream `i`. -/
structure Core.Booked (i : StreamId) (k k' : Core) : Prop where
  core : k' = { k with c := k'.c, a := k'.a, e := k'.e, w := k'.w, ptr := k'.ptr, grantE := k'.grantE, grantS := k'.grantS,
                       vrb := k'.vrb, prb := k'.prb, parity := k'.parity }
  streams : ∀ j, j ≠ i → Stream.TokensOnly (k.str j) (k'.str j)
  me : Stream.Kept (k.str i) (k'.str i)

theorem Core.Booked.refl (i : StreamId) (k : Core) : Core.Booked i k k := ⟨rfl, fun _ _ => rfl, rfl⟩
theorem Core.Booked.trans {i : StreamId} {k l m : Core} (h : Core.Booked i k l) (h' : Core.Booked i l m) : Core.Booked i k m where
  core := by rw [h'.core]; conv => lhs; rw [h.core]
  streams j hj := (h.streams j hj).trans (h'.streams j hj)
  me := h.me.trans h'.me

theorem Core.Booked.modStr_self {i : StreamId} {k : Core} {f : Stream → Stream} (h : Stream.Kept (k.str i) (f (k.str i))) :
    Core.Booked i k (k.modStr i f) where
  core := by cases i <;> rfl
  streams j hj := by rw [Core.str_modStr, if_neg hj]; rfl
  me := by rw [Core.str_modStr, if_pos rfl]; exact h

theorem Core.Booked.modStr {i j : StreamId} {k : Core} {f : Stream → Stream} (h : Stream.TokensOnly (k.str j) (f (k.str j))) :
    Core.Booked i k (k.modStr j f) where
  core := by cases j <;> rfl
  streams l hl := by
    rw [Core.str_modStr]; split
    · subst_vars; exact h
    · rfl
  me := by
    rw [Core.str_modStr]; split
    · subst_vars; exact h.kept
    · rfl

/-- The same, with loops, program counter and rotating bases untouched. -/
structure Core.Quiet (i : StreamId) (k k' : Core) : Prop extends Core.Booked i k k' where
  loops : Stream.SameLoops (k.str i) (k'.str i)
  pc : (k'.str i).pc = (k.str i).pc
  point : (k'.str i).point = (k.str i).point
  vrb : k'.vrb = k.vrb
  prb : k'.prb = k.prb

theorem Core.Quiet.trans {i : StreamId} {k l m : Core} (h : Core.Quiet i k l) (h' : Core.Quiet i l m) : Core.Quiet i k m where
  toBooked := h.toBooked.trans h'.toBooked
  loops := ⟨h'.loops.1.trans h.loops.1, h'.loops.2.1.trans h.loops.2.1, h'.loops.2.2.1.trans h.loops.2.2.1,
    h'.loops.2.2.2.trans h.loops.2.2.2⟩
  pc := h'.pc.trans h.pc
  point := h'.point.trans h.point
  vrb := h'.vrb.trans h.vrb
  prb := h'.prb.trans h.prb

theorem Core.modStr_vrb (k : Core) (i : StreamId) (f : Stream → Stream) : (k.modStr i f).vrb = k.vrb := by cases i <;> rfl
theorem Core.modStr_prb (k : Core) (i : StreamId) (f : Stream → Stream) : (k.modStr i f).prb = k.prb := by cases i <;> rfl

theorem Core.Quiet.modStr_self {i : StreamId} {k : Core} {f : Stream → Stream} (h : Stream.Kept (k.str i) (f (k.str i)))
    (hl : Stream.SameLoops (k.str i) (f (k.str i))) (hp : (f (k.str i)).pc = (k.str i).pc)
    (hy : (f (k.str i)).point = (k.str i).point) : Core.Quiet i k (k.modStr i f) where
  toBooked := Core.Booked.modStr_self h
  loops := by rw [Core.str_modStr, if_pos rfl]; exact hl
  pc := by rw [Core.str_modStr, if_pos rfl]; exact hp
  point := by rw [Core.str_modStr, if_pos rfl]; exact hy
  vrb := Core.modStr_vrb _ _ _
  prb := Core.modStr_prb _ _ _

theorem Core.Quiet.modStr {i j : StreamId} {k : Core} {f : Stream → Stream} (h : ∀ x, Stream.TokensOnly x (f x))
    (hl : ∀ x, Stream.SameLoops x (f x)) (hp : ∀ x, (f x).pc = x.pc)
    (hy : ∀ x, (f x).point = x.point) : Core.Quiet i k (k.modStr j f) where
  toBooked := Core.Booked.modStr (h _)
  loops := by
    rw [Core.str_modStr]; split
    · subst_vars; exact hl _
    · exact ⟨rfl, rfl, rfl, rfl⟩
  pc := by
    rw [Core.str_modStr]; split
    · subst_vars; exact hp _
    · rfl
  point := by
    rw [Core.str_modStr]; split
    · subst_vars; exact hy _
    · rfl
  vrb := Core.modStr_vrb _ _ _
  prb := Core.modStr_prb _ _ _

theorem Core.Quiet.tokFrom (i : StreamId) (k : Core) (d : Dir) (f : Chan → Chan) : Core.Quiet i k (k.modTokFrom i d f) := by
  cases d
  · exact Core.Quiet.modStr (f := fun x => { x with tokSucc := f x.tokSucc }) (fun _ => by rfl) (fun _ => ⟨rfl, rfl, rfl, rfl⟩) (fun _ => by rfl)
      (fun _ => by rfl)
  · exact Core.Quiet.modStr (f := fun x => { x with tokPred := f x.tokPred }) (fun _ => by rfl) (fun _ => ⟨rfl, rfl, rfl, rfl⟩) (fun _ => by rfl)
      (fun _ => by rfl)
theorem Core.Quiet.tokTo (i : StreamId) (k : Core) (d : Dir) (f : Chan → Chan) : Core.Quiet i k (k.modTokTo i d f) := by
  cases d
  · exact Core.Quiet.modStr (f := fun x => { x with tokPred := f x.tokPred }) (fun _ => by rfl) (fun _ => ⟨rfl, rfl, rfl, rfl⟩) (fun _ => by rfl)
      (fun _ => by rfl)
  · exact Core.Quiet.modStr (f := fun x => { x with tokSucc := f x.tokSucc }) (fun _ => by rfl) (fun _ => ⟨rfl, rfl, rfl, rfl⟩) (fun _ => by rfl)
      (fun _ => by rfl)
theorem Core.Quiet.grant (i j : StreamId) (k : Core) : Core.Quiet i k (k.grant j) where
  core := by cases j <;> rfl
  streams l _ := by cases j <;> cases l <;> rfl
  me := by cases j <;> cases i <;> rfl
  loops := by cases j <;> cases i <;> exact ⟨rfl, rfl, rfl, rfl⟩
  pc := by cases j <;> cases i <;> rfl
  point := by cases j <;> cases i <;> rfl
  vrb := by cases j <;> rfl
  prb := by cases j <;> rfl
theorem Core.Quiet.parity (i : StreamId) (k : Core) (p : List Nat) : Core.Quiet i k { k with parity := p } where
  core := rfl
  streams l _ := by cases l <;> rfl
  me := by cases i <;> rfl
  loops := by cases i <;> exact ⟨rfl, rfl, rfl, rfl⟩
  pc := by cases i <;> rfl
  point := by cases i <;> rfl
  vrb := rfl
  prb := rfl
theorem Core.Booked.rotate {i : StreamId} {k : Core} : Core.Booked i k k.rotate where
  core := rfl
  streams l _ := by cases l <;> rfl
  me := by cases i <;> rfl

theorem Stream.kept_setBusy (x : Stream) (n p : Nat) (ks : List Nat) (r : Nat) :
    Stream.Kept x { x.setBusy n p ks with retireAt := r } := rfl
theorem Stream.kept_setLoop (x : Stream) (n : Lvl) (l : LoopRec) (o : List Lvl) :
    Stream.Kept x { x.setLoop n l with order := o } := by cases n <;> rfl

theorem Core.Quiet.moveTokens (i : StreamId) (k : Core) (g : Sig) (r : Nat) : Core.Quiet i k (k.moveTokens i g r) := by
  unfold Core.moveTokens
  exact (((Core.Quiet.tokFrom i _ _ _).trans (Core.Quiet.tokFrom i _ _ _)).trans (Core.Quiet.tokTo i _ _ _)).trans
    (Core.Quiet.tokTo i _ _ _)

theorem backEdge_booked (ns : List Lvl) (k : Core) (i : StreamId) (p : DWord) : Core.Booked i k (backEdge ns k i p).1 := by
  induction ns generalizing k with
  | nil => exact Core.Booked.refl i k
  | cons n r ih =>
    unfold backEdge
    dsimp only
    split
    · split
      · have h : Core.Booked i k (k.modStr i fun x => x.setLoop n { (k.str i).loopOf n with lc := ((k.str i).loopOf n).lc - 1 }) :=
          Core.Booked.modStr_self (Stream.kept_setLoop _ _ _ _)
        dsimp only
        split
        · exact h.trans Core.Booked.rotate
        · exact h
      · refine Core.Booked.trans (Core.Booked.modStr_self ?_) (ih _)
        exact Stream.kept_setLoop _ _ _ _
    · exact ih k

theorem Core.Booked.passTo {i : StreamId} {k : Core} (p : DWord) (y : Bool) : Core.Booked i k (k.passTo i p y) := by
  unfold Core.passTo
  exact (backEdge_booked _ _ _ _).trans (Core.Booked.modStr_self (by rfl))

/-- Two cores whose stream `i` has the same loops, with the same rotating bases. -/
def Core.LoopsEq (i : StreamId) (k k' : Core) : Prop := Stream.SameLoops (k.str i) (k'.str i) ∧ k'.vrb = k.vrb ∧ k'.prb = k.prb

theorem Core.Quiet.loopsEq {i : StreamId} {k k' : Core} (h : Core.Quiet i k k') : Core.LoopsEq i k k' := ⟨h.loops, h.vrb, h.prb⟩

theorem Stream.sameLoops_loopOf {x y : Stream} (h : Stream.SameLoops x y) (n : Lvl) : y.loopOf n = x.loopOf n := by
  cases n <;> simp [Stream.loopOf, h.1, h.2.1, h.2.2.1]

theorem Stream.sameLoops_setLoop {x y : Stream} (h : Stream.SameLoops x y) (n : Lvl) (l : LoopRec) :
    Stream.SameLoops (x.setLoop n l) (y.setLoop n l) := by
  obtain ⟨h0, h1, h2, h3⟩ := h
  cases n <;> exact ⟨by simp [Stream.setLoop, h0], by simp [Stream.setLoop, h1], by simp [Stream.setLoop, h2], h3⟩

theorem Core.LoopsEq.setLoop {i : StreamId} {k k' : Core} (h : Core.LoopsEq i k k') (n : Lvl) (l : LoopRec) :
    Core.LoopsEq i (k.modStr i fun x => x.setLoop n l) (k'.modStr i fun x => x.setLoop n l) := by
  refine ⟨?_, ?_, ?_⟩
  · rw [Core.str_modStr, Core.str_modStr, if_pos rfl, if_pos rfl]; exact Stream.sameLoops_setLoop h.1 n l
  · rw [Core.modStr_vrb, Core.modStr_vrb]; exact h.2.1
  · rw [Core.modStr_prb, Core.modStr_prb]; exact h.2.2

theorem Core.LoopsEq.endLoop {i : StreamId} {k k' : Core} (h : Core.LoopsEq i k k') (n : Lvl) (l : LoopRec) :
    Core.LoopsEq i (k.modStr i fun x => { x.setLoop n l with order := x.order.filter (· ≠ n) })
      (k'.modStr i fun x => { x.setLoop n l with order := x.order.filter (· ≠ n) }) := by
  refine ⟨?_, ?_, ?_⟩
  · rw [Core.str_modStr, Core.str_modStr, if_pos rfl, if_pos rfl]
    have hs := Stream.sameLoops_setLoop h.1 n l
    exact ⟨hs.1, hs.2.1, hs.2.2.1, by dsimp only; rw [h.1.2.2.2]⟩
  · rw [Core.modStr_vrb, Core.modStr_vrb]; exact h.2.1
  · rw [Core.modStr_prb, Core.modStr_prb]; exact h.2.2

theorem Core.LoopsEq.rotate {i : StreamId} {k k' : Core} (h : Core.LoopsEq i k k') : Core.LoopsEq i k.rotate k'.rotate := by
  obtain ⟨hl, hv, hp⟩ := h
  refine ⟨?_, ?_, ?_⟩
  · cases i <;> exact hl
  · unfold Core.rotate; dsimp only; rw [hv]
  · unfold Core.rotate; dsimp only; rw [hp]

/-- The back-edge test depends on the loops and the bases alone. -/
theorem backEdge_loopsEq (ns : List Lvl) {k k' : Core} (i : StreamId) (p : DWord) (h : Core.LoopsEq i k k') :
    Core.LoopsEq i (backEdge ns k i p).1 (backEdge ns k' i p).1 ∧ (backEdge ns k' i p).2 = (backEdge ns k i p).2 := by
  induction ns generalizing k k' with
  | nil => exact ⟨h, rfl⟩
  | cons n r ih =>
    unfold backEdge
    dsimp only
    rw [Stream.sameLoops_loopOf h.1 n]
    split
    · split
      · refine ⟨?_, rfl⟩
        dsimp only
        split
        · exact (h.setLoop n _).rotate
        · exact h.setLoop n _
      · exact ih (h.endLoop n _)
    · exact ih h

/-- Where no active loop ends at `p`, control passes there and nothing of the core changes. -/
theorem backEdge_none (ns : List Lvl) (k : Core) (i : StreamId) (p : DWord)
    (h : ns.all (fun n => !(((k.str i).loopOf n).active && ((k.str i).loopOf n).stop = p)) = true) : backEdge ns k i p = (k, p, false) := by
  induction ns with
  | nil => rfl
  | cons n r ih =>
    simp only [List.all_cons, Bool.and_eq_true, Bool.not_eq_true'] at h
    unfold backEdge
    dsimp only
    rw [if_neg (by rw [h.1]; exact Bool.false_ne_true)]
    exact ih h.2

/-! ### The state at the end of an issue -/

theorem State.granted_eq (t : State) : t.granted = t.setCore t.at.1 ((t.myCore.modStr t.at.2 (·.looked .issued)).grant t.at.2) := rfl

theorem Core.quiet_granted (k : Core) (i : StreamId) : Core.Quiet i k ((k.modStr i (·.looked .issued)).grant i) :=
  Core.Quiet.trans (Core.Quiet.modStr_self (f := (·.looked .issued)) (by rfl) ⟨rfl, rfl, rfl, rfl⟩ (by rfl) (by rfl)) (Core.Quiet.grant i i _)

/-- The core part of `State.retired`. -/
def Core.retired (k : Core) (i : StreamId) (now : Nat) (g : Sig) : Core :=
  let r := max (k.str i).retireAt (now + g.lat - 1)
  ({ k with parity := k.parity.filter fun p => !(g.writes.any fun w => parityKey i w = p) }.moveTokens i g r).modStr i
    fun x => { x.setBusy now (now + g.lat) g.writes with retireAt := r }

theorem State.retired_eq (t : State) (g : Sig) : t.retired g = t.setCore t.at.1 (t.myCore.retired t.at.2 t.now g) := rfl
theorem Core.quiet_retired (k : Core) (i : StreamId) (now : Nat) (g : Sig) : Core.Quiet i k (k.retired i now g) := by
  unfold Core.retired
  exact ((Core.Quiet.parity i k _).trans (Core.Quiet.moveTokens i _ g _)).trans
    (Core.Quiet.modStr_self (Stream.kept_setBusy _ _ _ _ _) ⟨rfl, rfl, rfl, rfl⟩ (by rfl) (by rfl))

/-- The core after grant and retirement. -/
def Core.issued (k : Core) (i : StreamId) (now : Nat) (g : Sig) : Core :=
  ((k.modStr i (·.looked .issued)).grant i).retired i now g
theorem Core.quiet_issued (k : Core) (i : StreamId) (now : Nat) (g : Sig) : Core.Quiet i k (k.issued i now g) :=
  (Core.quiet_granted k i).trans (Core.quiet_retired _ i now g)

theorem State.issued_eq (t : State) (g : Sig) : t.granted.retired g = t.setCore t.at.1 (t.myCore.issued t.at.2 t.now g) := by
  rw [State.retired_eq, State.granted_eq]
  simp [Core.issued]

/-- A state that differs from `t` in bookkeeping of the core of stream `i` alone frames `t`. -/
theorem State.Frame.ofBooked {s t : State} (hc : t.cur = s.cur) {k : Core} (h : Core.Booked s.at.2 (t.core s.at.1) k) :
    State.Frame s t (t.setCore s.at.1 k) := by
  have ha : t.at = s.at := by simp [State.at, hc]
  refine ⟨rfl, fun c hc => State.core_setCore_ne t k hc, ?_, ?_, ?_⟩
  · simp only [State.myCore_eq, State.at_setCore, ha, State.core_setCore_self]; exact h.core
  · intro j hj; simp only [State.myCore_eq, State.at_setCore, ha, State.core_setCore_self]; exact h.streams j hj
  · simp only [State.me_eq, State.at_setCore, ha, State.core_setCore_self]; exact h.me

/-! ### Loops through grant and retirement -/

theorem Stream.loopOf_congr {x y : Stream} (h : y.l0 = x.l0 ∧ y.l1 = x.l1 ∧ y.l2 = x.l2) (n : Lvl) : y.loopOf n = x.loopOf n := by
  cases n <;> simp [Stream.loopOf, h]

theorem Stream.noLoopEnd_congr {x y : Stream} (h : Stream.SameLoops x y) (p : DWord) : y.noLoopEnd p = x.noLoopEnd p := by
  unfold Stream.noLoopEnd
  rw [h.2.2.2]
  congr 1
  funext n
  rw [Stream.loopOf_congr ⟨h.1, h.2.1, h.2.2.1⟩]

/-- `finish` with a sequential result. -/
theorem State.passes_of {s t : State} (hc : t.cur = s.cur) (g : Sig) (p : DWord) (y : Bool) :
    State.Passes s t ((t.granted.retired g).modMyCore (·.passTo s.at.2 p y)) p y := by
  have ha : t.at = s.at := by simp only [State.at, hc]
  have he : (t.granted.retired g).modMyCore (·.passTo s.at.2 p y)
      = t.setCore s.at.1 (((t.core s.at.1).issued s.at.2 t.now g).passTo s.at.2 p y) := by
    rw [State.issued_eq]
    simp only [State.modMyCore_eq, State.at_setCore, ha, State.core_setCore_self, State.setCore_setCore, State.myCore_eq]
  have hq := Core.quiet_issued (t.core s.at.1) s.at.2 t.now g
  rw [he]
  generalize (t.core s.at.1).issued s.at.2 t.now g = k at hq ⊢
  refine ⟨State.Frame.ofBooked hc (hq.toBooked.trans (Core.Booked.passTo _ _)), ?_⟩
  obtain ⟨hl, he⟩ := backEdge_loopsEq (k.str s.at.2).order s.at.2 p hq.loopsEq
  refine ⟨(backEdge (k.str s.at.2).order k s.at.2 p).2.2, ?_, ?_⟩
  · unfold State.Tested
    simp only [State.me_eq, State.myCore_eq, State.at_setCore, ha, State.core_setCore_self]
    unfold Core.passTo
    dsimp only
    rw [Core.str_modStr, if_pos rfl, Core.modStr_vrb, Core.modStr_prb, ← hq.loops.2.2.2]
    refine ⟨congrArg Prod.fst he, congrArg Prod.snd he, hl.1, hl.2.1, hl.2.2, fun h => ?_⟩
    have hn : backEdge (k.str s.at.2).order k s.at.2 p = (k, p, false) :=
      backEdge_none _ _ _ _ (by rw [← Stream.noLoopEnd_congr hq.loops] at h; exact h)
    rw [hn]
    exact ⟨rfl, rfl, hq.loops, hq.vrb, hq.prb⟩
  · simp only [State.me_eq, State.at_setCore, ha, State.core_setCore_self]
    unfold Core.passTo
    dsimp only
    rw [Core.str_modStr, if_pos rfl]

/-- `finish` with a transfer of control. -/
theorem State.jumps_of {s t : State} (hc : t.cur = s.cur) (g : Sig) (p : DWord) (b : Bool) :
    State.Jumps s t ((t.granted.retired g).modMe fun x => { x with pc := p, point := b }) p b := by
  have ha : t.at = s.at := by simp only [State.at, hc]
  generalize hf : (fun x : Stream => { x with pc := p, point := b }) = f
  have he : (t.granted.retired g).modMe f = t.setCore s.at.1 (((t.core s.at.1).issued s.at.2 t.now g).modStr s.at.2 f) := by
    rw [State.issued_eq]
    simp only [State.modMe_eq, State.at_setCore, ha, State.core_setCore_self, State.setCore_setCore, State.myCore_eq]
  have hq := Core.quiet_issued (t.core s.at.1) s.at.2 t.now g
  rw [he]
  generalize (t.core s.at.1).issued s.at.2 t.now g = k at hq ⊢
  have hb : Core.Booked s.at.2 k (k.modStr s.at.2 f) := Core.Booked.modStr_self (by rw [← hf]; rfl)
  refine ⟨State.Frame.ofBooked hc (hq.toBooked.trans hb), ?_, ?_, ?_, ?_, ?_⟩ <;>
    simp only [State.me_eq, State.myCore_eq, State.at_setCore, ha, State.core_setCore_self, Core.str_modStr, if_pos, Core.modStr_vrb,
      Core.modStr_prb]
  · rw [← hf]
  · rw [← hf]
  · rw [← hf]; exact ⟨hq.loops.1, hq.loops.2.1, hq.loops.2.2.1, hq.loops.2.2.2⟩
  · exact hq.vrb
  · exact hq.prb

/-- `finish` with a program counter left as the effect has it. -/
theorem State.stays_of {s t : State} (hc : t.cur = s.cur) (g : Sig) : State.Jumps s t (t.granted.retired g) t.me.pc t.me.point := by
  have ha : t.at = s.at := by simp only [State.at, hc]
  have he : t.granted.retired g = t.setCore s.at.1 ((t.core s.at.1).issued s.at.2 t.now g) := by
    rw [State.issued_eq, ha, State.myCore_eq, ha]
  have hq := Core.quiet_issued (t.core s.at.1) s.at.2 t.now g
  rw [he]
  refine ⟨State.Frame.ofBooked hc hq.toBooked, ?_, ?_, ?_, ?_, ?_⟩ <;>
    simp only [State.me_eq, State.myCore_eq, State.at_setCore, ha, State.core_setCore_self]
  · exact hq.pc
  · exact hq.point
  · exact hq.loops
  · exact hq.vrb
  · exact hq.prb

/-! ### Instructions that issue and wait -/

/-- `k'` is `k` but for the token FIFOs of its streams. -/
structure Core.TokensOnly (k k' : Core) : Prop where
  core : k' = { k with c := k'.c, a := k'.a, e := k'.e, w := k'.w }
  streams : ∀ j, Stream.TokensOnly (k.str j) (k'.str j)

theorem Core.TokensOnly.trans {k l m : Core} (h : Core.TokensOnly k l) (h' : Core.TokensOnly l m) : Core.TokensOnly k m where
  core := by rw [h'.core]; conv => lhs; rw [h.core]
  streams j := (h.streams j).trans (h'.streams j)

theorem Core.TokensOnly.modStr {k : Core} {j : StreamId} {f : Stream → Stream} (h : ∀ x, Stream.TokensOnly x (f x)) :
    Core.TokensOnly k (k.modStr j f) where
  core := by cases j <;> rfl
  streams l := by
    rw [Core.str_modStr]; split
    · subst_vars; exact h _
    · rfl

theorem Core.TokensOnly.tokFrom (i : StreamId) (k : Core) (d : Dir) (f : Chan → Chan) : Core.TokensOnly k (k.modTokFrom i d f) := by
  cases d
  · exact Core.TokensOnly.modStr (f := fun x => { x with tokSucc := f x.tokSucc }) fun _ => by rfl
  · exact Core.TokensOnly.modStr (f := fun x => { x with tokPred := f x.tokPred }) fun _ => by rfl
theorem Core.TokensOnly.tokTo (i : StreamId) (k : Core) (d : Dir) (f : Chan → Chan) : Core.TokensOnly k (k.modTokTo i d f) := by
  cases d
  · exact Core.TokensOnly.modStr (f := fun x => { x with tokPred := f x.tokPred }) fun _ => by rfl
  · exact Core.TokensOnly.modStr (f := fun x => { x with tokSucc := f x.tokSucc }) fun _ => by rfl
theorem Core.tokensOnly_reserve (k : Core) (i : StreamId) (g : Sig) : Core.TokensOnly k (k.reserveTokens i g) := by
  unfold Core.reserveTokens
  exact (((Core.TokensOnly.tokFrom i _ _ _).trans (Core.TokensOnly.tokFrom i _ _ _)).trans (Core.TokensOnly.tokTo i _ _ _)).trans
    (Core.TokensOnly.tokTo i _ _ _)

/-- `k'` is `k` but for its streams and its ports' grants. -/
def Core.GrantOnly (k k' : Core) : Prop :=
  k' = { k with c := k'.c, a := k'.a, e := k'.e, w := k'.w, ptr := k'.ptr, grantE := k'.grantE, grantS := k'.grantS }
theorem Core.GrantOnly.trans {k l m : Core} (h : Core.GrantOnly k l) (h' : Core.GrantOnly l m) : Core.GrantOnly k m := by
  unfold Core.GrantOnly at *
  rw [h']; conv => lhs; rw [h]
theorem Core.grantOnly_modStr (k : Core) (i : StreamId) (f : Stream → Stream) : Core.GrantOnly k (k.modStr i f) := by cases i <;> rfl
theorem Core.grantOnly_grant (k : Core) (i : StreamId) : Core.GrantOnly k (k.grant i) := by cases i <;> rfl
theorem Core.TokensOnly.grantOnly {k l : Core} (h : Core.TokensOnly k l) : Core.GrantOnly k l := by
  have := h.core
  unfold Core.GrantOnly
  rw [this]

/-- The core after the issue of an instruction that waits. -/
def Core.heldBy (k : Core) (i : StreamId) (g : Sig) (h : Hold) : Core :=
  ((((k.modStr i (·.looked .issued)).grant i).reserveTokens i g).modStr i
    fun x => { x with hold := some h, holdTok := g.t, point := g.y })

theorem Core.grantOnly_heldBy (k : Core) (i : StreamId) (g : Sig) (h : Hold) : Core.GrantOnly k (k.heldBy i g h) :=
  (((Core.grantOnly_modStr _ _ _).trans (Core.grantOnly_grant _ _)).trans (Core.tokensOnly_reserve _ _ _).grantOnly).trans
    (Core.grantOnly_modStr _ _ _)

theorem Core.str_heldBy_ne (k : Core) (i j : StreamId) (g : Sig) (h : Hold) (hj : j ≠ i) :
    Stream.TokensOnly (k.str j) ((k.heldBy i g h).str j) := by
  unfold Core.heldBy
  rw [Core.str_modStr, if_neg hj]
  exact ((Core.quiet_granted k i).streams j hj).trans ((Core.tokensOnly_reserve _ i g).streams j)

theorem Core.str_heldBy_self (k : Core) (i : StreamId) (g : Sig) (h : Hold) : ∃ p q : Chan, (k.heldBy i g h).str i
    = { (k.str i).looked .issued with hold := some h, holdTok := g.t, point := g.y, tokPred := p, tokSucc := q } := by
  unfold Core.heldBy
  rw [Core.str_modStr, if_pos rfl]
  have hg : ((k.modStr i (·.looked .issued)).grant i).str i = (k.str i).looked .issued := by cases i <;> rfl
  have h2 := (Core.tokensOnly_reserve ((k.modStr i (·.looked .issued)).grant i) i g).streams i
  rw [hg] at h2
  unfold Stream.TokensOnly at h2
  rw [h2]
  exact ⟨_, _, rfl⟩

/-- `finish` with a wait. -/
theorem State.holds_of {s t : State} (hc : t.cur = s.cur) (g : Sig) (h : Hold) : State.Holds s t (s.finish g (.hold t h)) h := by
  have ha : t.at = s.at := by simp only [State.at, hc]
  have he : s.finish g (.hold t h) = t.setCore s.at.1 ((t.core s.at.1).heldBy s.at.2 g h) := by
    have hat : t.granted.at = t.at := by rw [State.granted_eq, State.at_setCore]
    unfold State.finish Core.heldBy
    dsimp only
    rw [State.modMyCore_eq, hat, State.granted_eq, ha, State.core_setCore_self, State.setCore_setCore, State.myCore_eq, ha]
  rw [he]
  obtain ⟨p, q, hm⟩ := Core.str_heldBy_self (t.core s.at.1) s.at.2 g h
  refine ⟨rfl, fun c hc => State.core_setCore_ne t _ hc, ?_, ?_, ?_⟩
  · simp only [State.myCore_eq, State.at_setCore, ha, State.core_setCore_self]
    exact Core.grantOnly_heldBy _ _ _ _
  · intro j hj
    simp only [State.myCore_eq, State.at_setCore, ha, State.core_setCore_self]
    exact Core.str_heldBy_ne _ _ _ _ _ hj
  · simp only [State.me_eq, State.at_setCore, ha, State.core_setCore_self]
    rw [hm]
    rfl

/-! ### `issue` -/

/-- The parts of `mayIssue`. -/
theorem State.mayIssue_iff {s : State} {g : Sig} : s.mayIssue g = true ↔
    s.me.retrying = none ∧ g.streams.contains s.at.2 = true ∧ (g.priv = true → s.myCore.privileged s.at.2 = true)
      ∧ g.mode = true ∧ s.notReady g = none ∧ s.badReg g = none := by
  simp only [State.mayIssue, Bool.and_eq_true, Option.isNone_iff_eq_none, Bool.or_eq_true, Bool.not_eq_true']
  constructor
  · rintro ⟨⟨⟨⟨⟨a, b⟩, c⟩, d⟩, e⟩, f⟩
    refine ⟨a, b, fun h => ?_, d, e, f⟩
    rcases c with c | c
    · rw [h] at c; cases c
    · exact c
  · rintro ⟨a, b, c, d, e, f⟩
    refine ⟨⟨⟨⟨⟨a, b⟩, ?_⟩, d⟩, e⟩, f⟩
    cases h : g.priv
    · exact .inl rfl
    · exact .inr (c h)

/-- Where the instruction may issue, its effect decides. -/
theorem State.issue_may {s : State} {g : Sig} (h : s.mayIssue g = true) (f : State → Res) : s.issue g f = .next (s.finish g (f s)) := by
  obtain ⟨a, b, c, d, e, r⟩ := State.mayIssue_iff.mp h
  unfold State.issue
  dsimp only
  rw [a, b, d, e]
  have hp : (g.priv && !(s.core s.at.1).privileged s.at.2) = false := by
    cases hg : g.priv
    · rfl
    · have := c hg; rw [State.myCore_eq] at this; rw [this]; rfl
  rw [hp]
  dsimp only [Option.isSome, Bool.not]
  rw [r]
  rfl

/-- An instruction that only some streams may issue, on another stream (R170, R173). -/
theorem State.issue_wrongStream {s : State} {g : Sig} (a : s.me.retrying = none) (b : g.streams.contains s.at.2 = false) (f : State → Res) :
    s.issue g f = .next (s.finish g (.trap 0x08 (s.infoWords s.at.1 s.me.pc g.len).1 (s.infoWords s.at.1 s.me.pc g.len).2)) := by
  unfold State.issue
  dsimp only
  rw [a, b]
  rfl

theorem State.issue_notPrivileged {s : State} {g : Sig} (a : s.me.retrying = none) (b : g.streams.contains s.at.2 = true)
    (c : g.priv = true) (d : s.myCore.privileged s.at.2 = false) (f : State → Res) :
    s.issue g f = .next (s.finish g (.trap 0x09 (s.infoWords s.at.1 s.me.pc g.len).1 (s.infoWords s.at.1 s.me.pc g.len).2)) := by
  rw [State.myCore_eq] at d
  unfold State.issue
  dsimp only
  rw [a, b, c, d]
  rfl

/-- A sequential result. -/
theorem State.issue_seq {s t : State} {g : Sig} {f : State → Res} (h : s.mayIssue g = true) (hf : f s = .seq t) (hc : t.cur = s.cur) :
    ∃ u, s.issue g f = .next u ∧ State.Passes s t u (s.after g.len) g.y :=
  ⟨_, by rw [State.issue_may h, hf]; rfl, State.passes_of hc _ _ _⟩
theorem State.issue_seqLat {s t : State} {g : Sig} {f : State → Res} {l : Nat} (h : s.mayIssue g = true) (hf : f s = .seqLat t l)
    (hc : t.cur = s.cur) : ∃ u, s.issue g f = .next u ∧ State.Passes s t u (s.after g.len) g.y :=
  ⟨_, by rw [State.issue_may h, hf]; rfl, State.passes_of hc _ _ _⟩
theorem State.issue_seqTo {s t : State} {g : Sig} {f : State → Res} {p : DWord} (h : s.mayIssue g = true) (hf : f s = .seqTo t p)
    (hc : t.cur = s.cur) : ∃ u, s.issue g f = .next u ∧ State.Passes s t u p g.y :=
  ⟨_, by rw [State.issue_may h, hf]; rfl, State.passes_of hc _ _ _⟩
theorem State.issue_jump {s t : State} {g : Sig} {f : State → Res} {p : DWord} {b : Bool} (h : s.mayIssue g = true)
    (hf : f s = .jump t p b) (hc : t.cur = s.cur) : ∃ u, s.issue g f = .next u ∧ State.Jumps s t u p (b || g.y) :=
  ⟨_, by rw [State.issue_may h, hf]; rfl, State.jumps_of hc _ _ _⟩
theorem State.issue_hold {s t : State} {g : Sig} {f : State → Res} {w : Hold} (h : s.mayIssue g = true) (hf : f s = .hold t w)
    (hc : t.cur = s.cur) : ∃ u, s.issue g f = .next u ∧ State.Holds s t u w :=
  ⟨_, by rw [State.issue_may h, hf], State.holds_of hc _ _⟩
theorem State.issue_stay {s t : State} {g : Sig} {f : State → Res} (h : s.mayIssue g = true) (hf : f s = .stay t) (hc : t.cur = s.cur) :
    ∃ u, s.issue g f = .next u ∧ State.Jumps s t u t.me.pc t.me.point :=
  ⟨_, by rw [State.issue_may h, hf]; rfl, State.stays_of hc _⟩

end Sys2Proof.Machine
end

