-- ==== Sys2Proof/Laws/Scalar.lean ====
section
/-! SUPPORT. The shared forms of the scalar instructions, each with everything it answers where it may issue. -/

namespace Sys2Proof.Machine

/-- Two sources, one destination. -/
theorem State.rr_next {s : State} {t : Tok} {a b : G} (h : s.mayIssue { t := t, reads := [keyG a, keyG b] } = true) (d : G) (lat : Nat)
    (f : DWord → DWord → DWord) : ∃ u, s.rr t d a b lat f = .next u ∧ s.Passes (s.setG d (f (s.gr a) (s.gr b))) u s.after :=
  State.issue_seq (g := { t := t, reads := [keyG a, keyG b], writes := [keyG d], lat := lat }) h rfl rfl

/-- One source, one destination. -/
theorem State.ri_next {s : State} {t : Tok} {a : G} (h : s.mayIssue { t := t, reads := [keyG a] } = true) (d : G) (f : DWord → DWord) :
    ∃ u, s.ri t d a f = .next u ∧ s.Passes (s.setG d (f (s.gr a))) u s.after :=
  State.issue_seq (g := { t := t, reads := [keyG a], writes := [keyG d] }) h rfl rfl

/-- A counted loop: skipped at a count of zero, else started, with the back-edge test at the next word. -/
theorem State.loopInstr_next {s : State} {t : Tok} {gc : G} (h : s.mayIssue { t := t, reads := [keyG gc] } = true) (k : Lvl)
    (len : BitVec 14) (rot : Bool) :
    ∃ u, s.loopInstr t gc k len rot = .next u ∧
      if bits (s.gr gc) 31 0 = 0 then s.Passes s u (s.me.pc + 4 + dw (4 * len.toNat))
      else s.Passes (s.modMe (·.startLoop k (bits (s.gr gc) 31 0) (rot && s.at.2 = .e) len.toNat)) u s.after := by
  by_cases hn : bits (s.gr gc) 31 0 = 0
  · simp only [if_pos hn]
    refine State.issue_seqTo h ?_ rfl
    dsimp only; rw [if_pos hn]
  · simp only [if_neg hn]
    refine State.issue_seq h ?_ rfl
    dsimp only; rw [if_neg hn]

end Sys2Proof.Machine
end

