-- ==== Sys2Proof/Laws/Trap.lean ====
section
/-! SUPPORT. Taking an exception: what `State.takeTrap` leaves in the free regime outside the handler, and in the handler. -/

namespace Sys2Proof.Machine

/-- The trap registers that a trap leaves: bits [16:2] of the address (R380). -/
theorem trapPc_eq (pc : DWord) : dw (bits pc 16 2 * 4) = pc &&& 0x1FFFC := by
  apply BitVec.eq_of_toNat_eq
  simp only [dw, bits, BitVec.toNat_ofNat, BitVec.toNat_and]
  apply Nat.eq_of_testBit_eq
  intro i
  rw [Nat.testBit_mod_two_pow, Nat.testBit_and, show (4 : Nat) = 2 ^ 2 from rfl, Nat.testBit_mul_two_pow, Nat.testBit_mod_two_pow,
    Nat.testBit_div_two_pow, show BitVec.toNat (131068 : DWord) = (2 ^ 15 - 1) * 2 ^ 2 from rfl, Nat.testBit_mul_two_pow,
    Nat.testBit_two_pow_sub_one]
  by_cases h : 2 ≤ i
  · rw [show i - 2 + 2 = i by omega]
    by_cases h2 : i - 2 < 15
    · simp [h, h2]; intro; omega
    · simp [h, h2]
  · simp [h]

/-- A stream that enters its handler in period `now`. -/
def Stream.enter (x : Stream) (now cause : Nat) (i0 i1 pc : DWord) : Stream :=
  { x.trapRegs cause i0 i1 pc with
    nest := true, pc := dw (0x1E000 + 8 * (cause % 256)), notBefore := now + 4, halted := false, point := false }

/-- Outside the handler and outside the timed regime a trap changes the stream and the count of traps alone (R378). -/
theorem State.takeTrap_free {t : State} {c : Nat} {i : StreamId} (hn : (t.str c i).nest = false) (ht : t.timedAt c = false)
    (cause : Nat) (i0 i1 pc : DWord) :
    t.takeTrap c i cause i0 i1 pc = t.setCore c (((t.core c).count 73).modStr i (·.enter t.now cause i0 i1 pc)) := by
  have hk : ((t.core c).count 73).str i = (t.core c).str i := by cases i <;> rfl
  unfold State.takeTrap
  simp only [State.modCore_eq, State.modStr_eq, State.str_eq, State.core_setCore_self, State.setCore_setCore, hk]
  rw [State.str_eq] at hn
  rw [if_neg (by rw [hn]; exact Bool.false_ne_true)]
  have htm : (t.setCore c (((t.core c).count 73).modStr i (·.trapRegs cause i0 i1 pc))).timedAt c = false := by
    unfold State.timedAt at ht ⊢
    rw [State.core_setCore_self]
    have h1 : (((t.core c).count 73).modStr i (·.trapRegs cause i0 i1 pc)).timed = (t.core c).timed := by cases i <;> rfl
    have h2 : (((t.core c).count 73).modStr i (·.trapRegs cause i0 i1 pc)).schedbase = (t.core c).schedbase := by cases i <;> rfl
    rw [h1, h2]
    exact ht
  rw [if_neg (by rw [htm]; exact Bool.false_ne_true)]
  congr 1
  cases i <;> rfl

/-- `k'` is `k` but for its streams, its ports' grants, the counters of the period and the parity marks. -/
def Core.TrapOnly (k k' : Core) : Prop :=
  k' = { k with c := k'.c, a := k'.a, e := k'.e, w := k'.w, ptr := k'.ptr, grantE := k'.grantE, grantS := k'.grantS,
                ctrNew := k'.ctrNew, parity := k'.parity }
theorem Core.TrapOnly.trans {k l m : Core} (h : Core.TrapOnly k l) (h' : Core.TrapOnly l m) : Core.TrapOnly k m := by
  unfold Core.TrapOnly at *
  rw [h']; conv => lhs; rw [h]
theorem Core.Quiet.trapOnly {i : StreamId} {k l : Core} (h : Core.Quiet i k l) : Core.TrapOnly k l := by
  have h3 := h.core
  rw [h.vrb, h.prb] at h3
  have h4 : l.ctrNew = k.ctrNew := by rw [h3]
  unfold Core.TrapOnly
  rw [h4]
  exact h3
theorem Core.trapOnly_count (k : Core) (n d : Nat) : Core.TrapOnly k (k.count n d) := rfl
theorem Core.trapOnly_modStr (k : Core) (i : StreamId) (f : Stream → Stream) : Core.TrapOnly k (k.modStr i f) := by cases i <;> rfl

/-- Grant and retirement before a trap leave room for the trap alone. -/
theorem State.traps_of {s t : State} (hc : t.cur = s.cur) (hw : t.now = s.now) {k : Core} (hq : Core.Quiet s.at.2 (t.core s.at.1) k)
    (hn : t.me.nest = false) (ht : t.timedAt s.at.1 = false) {cause : Nat} (hl : cause < 256) (i0 i1 pc : DWord) :
    State.Traps s t ((t.setCore s.at.1 k).takeTrap s.at.1 s.at.2 cause i0 i1 pc) cause i0 i1 pc := by
  have ha : t.at = s.at := by simp only [State.at, hc]
  have hme := hq.me
  unfold Stream.Kept at hme
  have hn' : ((t.setCore s.at.1 k).str s.at.1 s.at.2).nest = false := by
    rw [State.str_eq, State.core_setCore_self, hme]
    simpa only [State.me_eq, ha] using hn
  have ht' : (t.setCore s.at.1 k).timedAt s.at.1 = false := by
    unfold State.timedAt at ht ⊢
    rw [State.core_setCore_self, hq.core]
    exact ht
  rw [State.takeTrap_free hn' ht', State.core_setCore_self, State.setCore_setCore, State.setCore_now, hw]
  have hg : (k.count 73).str s.at.2 = k.str s.at.2 := by cases s.at.2 <;> rfl
  refine ⟨rfl, fun c hc => State.core_setCore_ne t _ hc, ?_, ?_, ?_⟩
  · simp only [State.myCore_eq, State.at_setCore, ha, State.core_setCore_self]
    exact (hq.trapOnly.trans (Core.trapOnly_count _ _ _)).trans (Core.trapOnly_modStr _ _ _)
  · intro j hj
    simp only [State.myCore_eq, State.at_setCore, ha, State.core_setCore_self]
    rw [Core.str_modStr, if_neg hj]
    have : (k.count 73).str j = k.str j := by cases j <;> rfl
    rw [this]
    exact hq.streams j hj
  · simp only [State.me_eq, State.at_setCore, ha, State.core_setCore_self]
    rw [Core.str_modStr, if_pos rfl, hg]
    unfold Stream.enter Stream.trapRegs
    rw [Nat.mod_eq_of_lt hl, trapPc_eq]
    have hl := hq.loops
    have h0 := hq.pc
    rw [hme]
    simp only [hl.1, hl.2.1, hl.2.2.1, hl.2.2.2]

/-- A precise trap of an instruction that may issue, and a trap that is its own effect. -/
theorem State.issue_trap {s : State} {g : Sig} {f : State → Res} {cause : Nat} {i0 i1 : DWord} (h : s.mayIssue g = true)
    (hf : f s = .trap cause i0 i1) (hn : s.me.nest = false) (ht : s.timedAt s.at.1 = false) (hl : cause < 256) :
    ∃ u, s.issue g f = .next u ∧ State.Traps s s u cause i0 i1 s.me.pc := by
  refine ⟨_, by rw [State.issue_may h, hf], ?_⟩
  unfold State.finish
  dsimp only
  rw [State.granted_eq]
  exact State.traps_of rfl rfl (Core.quiet_granted _ _) hn ht hl _ _ _
theorem State.issue_soft {s : State} {g : Sig} {f : State → Res} {cause : Nat} {i0 i1 : DWord} (h : s.mayIssue g = true)
    (hf : f s = .soft cause i0 i1) (hn : s.me.nest = false) (ht : s.timedAt s.at.1 = false) (hl : cause < 256) :
    ∃ u, s.issue g f = .next u ∧ State.Traps s s u cause i0 i1 (s.me.pc + dw (4 * g.len)) := by
  refine ⟨_, by rw [State.issue_may h, hf], ?_⟩
  unfold State.finish
  dsimp only
  rw [State.issued_eq]
  exact State.traps_of rfl rfl (Core.quiet_issued _ _ _ _) hn ht hl _ _ _

end Sys2Proof.Machine
end

