-- ==== Sys2Proof/Tests/Slice0.lean ====
section
/-! SUPPORT. Tests of the model on small states. A witness shows concrete states and operands that meet the hypotheses of the
statement it is named after, clause by clause; a test checks one or two fields of one step against a value worked out from the rule
that it names. -/

namespace Sys2Proof.Tests
open Sys2Proof Sys2Proof.Machine
set_option Elab.async false

/-! ### Small states -/

/-- A stream that runs from address 0, with some registers. -/
def run (g : Sparse DWord) : Stream := { Stream.ready Stream.idle with g := g }

/-- Handles: H1 the own scratchpad, H2 HBM of the package, H3 a generator window, H4 a sync object. -/
def handles : Sparse Handle :=
  [(1, mkHandle true 0 3 (spadOf 0) 15 0 0 0x300000), (2, mkHandle true 0 3 0x40000000 15 0x40000000 0 0x100000),
   (3, mkHandle true 1 3 0 15 0x80000000 0 0x10000), (4, mkHandle true 2 0 0x100000 15 0x1000 0 0x1000)]

/-- Core 0 of a free launch of context 0, every stream with the registers `g`. -/
def core0 (g : Sparse DWord) : Core :=
  { Core.idle with c := run g, a := run g, e := run g, w := run g, h := handles, running := true }

/-- Period 1,000 of a package whose stream `i` of core 0 is looked at, core 0 changed by `f`; descriptor 0 of context 0 is RAMP, INT32,
START 0, STEP 1 (R130). -/
def st (i : StreamId) (g : Sparse DWord) (f : Core → Core := id) : State :=
  { State.reset with
      now := 1000, mu := { Mu.idle with count := BitVec.ofNat 80 (5000 * 65536), running := true }
      cores := [(0, f (core0 g))], cur := .stream 0 i
      ctxs := [(0, { CtxRec.idle with bound := true, win := [(0, 0x8000000000000020), (1, 0x0000000100000000)] })] }

/-- The state that an instruction leaves. -/
def run1 (i : Instr) (s : State) : Option State :=
  match exec i s with
  | .next t => some t
  | _ => none

/-- G[n] after an instruction. -/
def gAfter (i : Instr) (s : State) (n : G) : Option DWord := (run1 i s).map (·.gr n)

/-! ### Scalar and control instructions -/

theorem witness_ScalarOperationsOfRegisters :
    (st .a [(1, 5), (2, 7)]).mayIssue { t := 0, reads := [keyG 1, keyG 2] } = true
    ∧ (st .c [(1, 5)]).mayIssue { t := 0, reads := [keyG 1] } = true
    ∧ (st .w [(1, 5), (2, 7), (3, 1)]).mayIssue { t := 0, reads := [keyG 1, keyG 2, keyG 3] } = true := by decide +kernel
theorem witness_ScalarImmediateForms : (st .e [(1, 5)]).mayIssue { t := 0, reads := [keyG 1] } = true := by decide +kernel
theorem witness_ConstantsIntoRegisters : (st .c []).mayIssue { t := 0 } = true
    ∧ (st .c [(5, 1)]).mayIssue { t := 0, reads := [keyG 5] } = true := by decide +kernel
theorem witness_DivisionNeverTraps : (3 : G) ≠ 0
    ∧ (st .a [(1, 0x8000000000000000), (2, 0)]).mayIssue { t := 0, reads := [keyG 1, keyG 2] } = true
    ∧ (st .a [(1, 0x8000000000000000), (2, 0)]).gr 2 = 0
    ∧ (st .a [(1, 0x8000000000000000), (2, 0xFFFFFFFFFFFFFFFF)]).mayIssue { t := 0, reads := [keyG 1, keyG 2] } = true := by decide +kernel
theorem witness_BranchesCallsAndJumps : (st .c []).mayIssue { t := 0 } = true
    ∧ (st .c [(6, 0)]).mayIssue { t := 0, reads := [keyG 6] } = true
    ∧ (st .c [(31, 64)]).mayIssue { t := 0, reads := [keyG 31] } = true := by decide +kernel
/-- A loop of E with its counter at `n`, that ends at 0x40. -/
def looped (n : Nat) (rot : Bool) : Core :=
  { core0 [] with e := { run [] with l1 := ⟨BitVec.ofNat 32 n, 0x20, 0x40, rot, true⟩, order := [.lc1] } }
theorem witness_HardwareLoops : (st .e [(1, 0)]).mayIssue { t := 0, reads := [keyG 1] } = true
    ∧ ((st .e [(1, 0)]).gr 1).truncate 32 = (0 : BitVec 32) ∧ ((st .e [(1, 3)]).gr 1).truncate 32 ≠ (0 : BitVec 32)
    ∧ (((looped 2 true).str .e).loopOf .lc1).active = true ∧ (((looped 2 true).str .e).loopOf .lc1).stop = 0x40
    ∧ 1 < (((looped 2 true).str .e).loopOf .lc1).lc.toNat ∧ (((looped 1 true).str .e).loopOf .lc1).lc.toNat ≤ 1
    ∧ (((looped 2 true).str .e).loopOf .lc0).active = false := by decide +kernel
/-- The E stream of core 0 at 0x3C, the last word of the loop `looped`. -/
def atEnd : State := st .e [] fun _ => { (looped 2 true) with e := { (looped 2 true).e with pc := 0x3C, g := [(1, 3), (2, 0x100000000)] } }
theorem witness_HardwareLoops_end : atEnd.mayIssue { t := 0 } = true ∧ atEnd.mayIssue { t := 0, reads := [keyG 1] } = true ∧ atEnd.gr 1 ≠ 0
    ∧ atEnd.mayIssue { t := 0, reads := [keyG 2] } = true ∧ (atEnd.gr 2).truncate 32 = (0 : BitVec 32) ∧ atEnd.me.noLoopEnd atEnd.after = false := by
  decide +kernel
/-- R195: an instruction before the end of a loop takes its back-edge. -/
theorem test_nop_at_end : (run1 (.nop 0) atEnd).map (fun t => (t.me.pc, t.myCore.vrb, t.me.l1.lc)) = some (0x20, 47, 1) := by decide +kernel

/-- No array of the package or of core 0 is damaged. -/
theorem witness_undamaged : (st .c []).soft = [] ∧ (st .c []).dmg = [] ∧ ((st .c []).core 0).soft = [] ∧ ((st .c []).core 0).parity = []
    ∧ (st .c []).recordWaits (some 0) none uSmp 0 = false := by decide +kernel

/-- R188 and R189: rows of the table of R189. -/
theorem test_div : gAfter (.div 0 3 1 2) (st .a [(1, 0xFFFFFFFFFFFFFFF9), (2, 2)]) 3 = some 0xFFFFFFFFFFFFFFFD
    ∧ gAfter (.div 0 3 1 2) (st .a [(1, 0x8000000000000000), (2, 0xFFFFFFFFFFFFFFFF)]) 3 = some 0x8000000000000000 := by decide +kernel
/-- R189. -/
theorem test_rem : gAfter (.rem 0 3 1 2) (st .a [(1, 0xFFFFFFFFFFFFFFF9), (2, 2)]) 3 = some 0xFFFFFFFFFFFFFFFF
    ∧ gAfter (.remu 0 3 1 2) (st .a [(1, 7), (2, 0)]) 3 = some 7 := by decide +kernel
/-- R188: the sum is taken modulo 2^64, with a source that is the destination. -/
theorem test_add_wraps : gAfter (.add 0 1 1 2) (st .c [(1, 0xFFFFFFFFFFFFFFFF), (2, 2)]) 1 = some 1 := by decide +kernel
/-- R54, R174: a write of G0 is discarded. -/
theorem test_g0 : gAfter (.addi 0 0 1 7) (st .c [(1, 5)]) 0 = some 0 := by decide +kernel
/-- R188: high product of -1 and 1; sign extension from bit 7. -/
theorem test_mulh_sext : gAfter (.mulh 0 3 1 2) (st .c [(1, 0xFFFFFFFFFFFFFFFF), (2, 1)]) 3 = some 0xFFFFFFFFFFFFFFFF
    ∧ gAfter (.sext 0 3 1 2) (st .c [(1, 0x1FF), (2, 7)]) 3 = some 0xFFFFFFFFFFFFFFFF := by decide +kernel
/-- R191: `movhi` shifts the old value by 17. -/
theorem test_movhi : gAfter (.movhi 0 3 5) (st .c [(3, 1)]) 3 = some 0x20005 := by decide +kernel
/-- R192: a taken branch goes to PC + 4 x off14; R193: with a negative offset it is a pre-emption point. -/
theorem test_bcz : (run1 (.bcz 0 1 .eq 3) (st .c [])).map (·.me.pc) = some 12
    ∧ (run1 (.bcz 0 1 .eq 0x3FFF) (st .c [] fun k => { k with c := { k.c with pc := 8 } })).map (fun t => (t.me.pc, t.me.point)) = some (4, true) := by
  decide +kernel
/-- R195: a back-edge of a rotating loop of E on its last pass but one; VRB goes from 0 to 47. -/
theorem test_backEdge : (backEdge [.lc1] (looped 2 true) .e 0x40).2 = (0x20, true)
    ∧ (backEdge [.lc1] (looped 2 true) .e 0x40).1.vrb = 47 ∧ (backEdge [.lc1] (looped 1 true) .e 0x40).2 = (0x40, false) := by decide +kernel

/-! ### System instructions, exceptions, tokens, queues -/

theorem witness_StreamControlInstructions : (st .c []).mayIssue { t := 0 } = true ∧ (∀ e ∈ (st .c []).myCore.ce, e.stream ≠ .c)
    ∧ (st .c [(1, 5000)]).mayIssue { t := 0, reads := [keyG 1] } = true
    ∧ ((st .c [(1, 5000)]).gr 1).toNat ≤ (st .c []).mu.count.toNat / 2 ^ 16
    ∧ (st .c []).mu.count.toNat / 2 ^ 16 < ((st .c [(1, 5001)]).gr 1).toNat := by decide +kernel
theorem witness_AdjustAndPhase : (st .c [(1, 0x100000)]).mayIssue { t := 0, streams := [.c], priv := true, reads := [keyG 1] } = true
    ∧ ((st .c [(1, 0x100000)]).gr 1).toInt ≤ 2 ^ 20 ∧ -(2 ^ 20 : Int) ≤ ((st .c [(1, 0x100000)]).gr 1).toInt
    ∧ (st .c [(1, 0xFFF)]).mayIssue { t := 0, streams := [.c], priv := true, reads := [keyG 1] } = true
    ∧ ((st .c [(1, 0xFFF)]).gr 1).toNat < 2 ^ 12 := by decide +kernel
theorem witness_SystemRegistersRead : (st .e []).mayIssue { t := 0, priv := false, reads := [keyEp] } = true
    ∧ (st .a []).mayIssue { t := 0, priv := (0x800 : BitVec 12).getLsbD 11, reads := [] } = true
    ∧ (st .a []).mayIssue { t := 0, priv := (0x047 : BitVec 12).getLsbD 11, reads := [] } = true
    ∧ (st .a []).myCore.soft = [] ∧ (st .a []).mayIssue { t := 0, priv := (0x030 : BitVec 12).getLsbD 11, reads := (st .a []).sysKeys 0x030 } = true
    ∧ (st .a []).mayIssue { t := 0, priv := (0x7FF : BitVec 12).getLsbD 11, reads := (st .a []).sysKeys 0x7FF } = true
    ∧ (st .a []).me.nest = false ∧ (st .a []).timedAt 0 = false := by decide +kernel
/-- R26: MU_STATUS of a unit that is LOCKED with port 11 as its parent's; R177: an unassigned index traps. -/
theorem test_muStatus : gAfter (.sysr 0 3 0x030) { st .a [] with mu := { (st .a []).mu with st := 2, parent := 11, root := false } } 3 = some 0xB400
    ∧ (run1 (.sysr 0 3 0x7FF) (st .a [])).map (fun t => (t.me.trapCause, t.me.trapInfo0)) = some (0x45, 0x7FF) := by decide +kernel
theorem witness_SystemRegistersOfAStreamWritten : (st .a [(1, 3)]).mayIssue { t := 0, priv := (0x800 : BitVec 12).getLsbD 11, reads := [keyG 1] } = true
    ∧ (st .a [(1, 3)]).mayIssue { t := 0, priv := (0x010 : BitVec 12).getLsbD 11, reads := [keyG 1] } = true
    ∧ (∀ i ∈ [StreamId.c, .a, .e, .w], ∀ x ∈ ([0x012, 0x020, 0x050, 0x051, 0x052, 0x053, 0x806, 0x807, 0x801, 0x000] : List (BitVec 12)),
      (st i [(1, 3)]).mayIssue { t := 0, priv := x.getLsbD 11, reads := [keyG 1] } = true
      ∧ (st i [(1, 3)]).mayIssue { t := 0, priv := x.getLsbD 11, reads := [keyG 1, keySys x.toNat] } = true)
    ∧ smpbufBad ((0 : DWord) &&& ~~~0x0000FFFF003FFFFF ||| (0x100000100 &&& 0x0000FFFF003FFFFF)) = false ∧ (st .e []).myCore.vmPort ≤ (st .e []).now := by
  decide +kernel
/-- R144, R175, R205: ROUND never keeps a mode of 7; a VRB of 50 is stored as 2; NUMSTAT is cleared at the end of the period; `syss` orders CEFCTL. -/
theorem test_sysw : (run1 (.sysw 0 1 0x010) (st .a [(1, 0x907)])).map (·.me.round) = some 0x900
    ∧ (run1 (.sysw 0 1 0x012) (st .e [(1, 0x332)])).map (fun t => (t.myCore.vrb, t.myCore.prb)) = some (2, 3)
    ∧ (run1 (.sysw 0 1 0x012) (st .a [(1, 0x332)])).map (fun t => (t.myCore.vrb, t.myCore.prb)) = some (0, 0)
    ∧ (run1 (.syss 0 1 0x807) (st .a [(1, 0x209)])).map (fun t => t.agenda.map (·.2.2)) = some [.cefctlResume 0 .a 9]
    ∧ (((st .c [] fun k => { k with numstat := 0xFF }).applyWrite 0 ⟨0, 0x020, 1, 0x0F⟩).core 0).numstat = 0xF0 := by decide +kernel
/-- A stream in its handler. -/
def nested (i : StreamId) : State := st i [] fun k => k.modStr i fun x => { x with nest := true, trapPc := 0x104 }
theorem witness_SoftwareTrapAndReturn : (st .a [(1, 3)]).mayIssue { t := 0, reads := [keyG 1] } = true ∧ (st .a [(1, 3)]).me.nest = false
    ∧ (st .a [(1, 3)]).timedAt 0 = false ∧ (nested .w).mayIssue { t := 0, priv := true } = true ∧ (nested .w).me.nest = true := by decide +kernel
/-- A core of context 3; a core of a timed launch from its base on. -/
def unpriv (i : StreamId) : State := st i [] fun k => { k with ctx := 3 }
def timed (i : StreamId) (g : Sparse DWord) : State := st i g fun k => { k with timed := true, schedbase := 4000 }
theorem witness_PreciseTrapsAndFreezes : (st .a []).me.retrying = none ∧ (st .a []).me.nest = false ∧ (st .a []).timedAt 0 = false
    ∧ (st .a []).at.2 ≠ .c ∧ (unpriv .c).at.2 = .c ∧ (unpriv .c).myCore.ctx ≠ 0 ∧ (unpriv .c).me.retrying = none
    ∧ (st .a []).mayIssue { t := 0 } = true ∧ (st .a []).mayIssue { t := 0, priv := (0xFFF : BitVec 12).getLsbD 11 } = true
    ∧ (st .c [(1, 0x1000)]).mayIssue { t := 0, streams := [.c], priv := true, reads := [keyG 1] } = true
    ∧ 2 ^ 12 ≤ ((st .c [(1, 0x1000)]).gr 1).toNat ∧ (st .c []).mayIssue { t := 0, priv := true } = true
    ∧ (st .a []).at.2 ≠ .w ∧ (st .a []).at.2 ≠ .e ∧ (st .w []).at.2 ≠ .a ∧ (st .w []).me.retrying = none ∧ (st .w []).timedAt 0 = false
    ∧ ((nested .w).str 0 .w).nest = true ∧ ((timed .a []).str 0 .a).nest = false ∧ (timed .a []).timedAt 0 = true := by decide +kernel
/-- A stream whose neighbour's token FIFO is empty. -/
theorem witness_WaitingInstructionsChangeNothing : (st .a []).me.retrying = none ∧ ({ t := 8 } : Sig).streams.contains (st .a []).at.2 = true
    ∧ ({ t := 8 } : Sig).mode = true ∧ (st .a []).notReady { t := 8 } = some .token ∧ (Instr.add 8 3 1 2).ctorIdx < (Instr.xfer 0 0 0 0).ctorIdx
    ∧ (((encode (.add 8 3 1 2)).headD 0).extractLsb' 28 4 : Tok) = 8 ∧ ((st .a []).myCore.tokFrom (st .a []).at.2 .pred).words = [] := by decide +kernel
/-- Three tokens in every FIFO of core 0, and two words in every queue to a successor. -/
def tokens (i : StreamId) : State :=
  let f (x : Stream) : Stream := { x with tokPred := ⟨[0, 0, 0], [], 0, 0⟩, tokSucc := ⟨[0, 0, 0], [], 0, 0⟩, qSucc := ⟨[17, 18], [], 0, 0⟩ }
  st i [] fun k => { k with c := f k.c, a := f k.a, e := f k.e, w := f k.w }
theorem witness_TokensAreMovedAtIssueAndRetirement : (tokens .a).mayIssue { t := 15 } = true
    ∧ (tokens .a).mayIssue { t := 0, popP := 2 } = true ∧ (tokens .a).mayIssue { t := 8, popS := 1 } = true
    ∧ (tokens .a).mayIssue { t := 0, pushP := 5 } = true ∧ (tokens .a).mayIssue { t := 1, pushS := 1 } = true := by decide +kernel
theorem witness_TokensAreMovedAtIssueAndRetirement_forms : (tokens .a).mayIssue { t := 15, reads := [keyG 1] } = true
    ∧ (tokens .a).mayIssue { t := 15, reads := [keyG 1, keyG 2] } = true ∧ (tokens .a).mayIssue { t := 15, reads := [keyG 1, keyG 2, keyG 3] } = true
    ∧ (tokens .a).mayIssue { t := 15, reads := [keyG 31] } = true ∧ (tokens .a).mayIssue { t := 15, streams := [.a], reads := [keyH 1] } = true
    ∧ (tokens .a).mayIssue { t := 15, streams := [.a], reads := [keyH 1, keyH 2] } = true
    ∧ (tokens .e).mayIssue ((tokens .e).vecSig 15 [1, 2] [] 1 false 3) = true ∧ (tokens .e).mayIssue ((tokens .e).vecSig 15 [1] [] 1 false 3) = true
    ∧ (let k := (tokens .e).myCore
       (tokens .e).mayIssue { t := 15, streams := [.e], reads := k.rdP 1 ++ k.rdP 2 ++ k.rdP 0 ++ k.keepP 0 false 3 } = true)
    ∧ ((tokens .a).myCore.hreg 1).kind = 0 ∧ ((tokens .a).myCore.hreg 1).alignBase ((1 : BitVec 12).toNat * 8) % 8 = 0
    ∧ (tokens .a).mayIssue { t := 15, streams := [.a], reads := [keyH 1, keyG 0] } = true ∧ ((tokens .a).chkLoad 0 1 ((1 : BitVec 12).toNat * 8) 8).isNone = true
    ∧ (tokens .w).mayIssue { t := 15, streams := [.w], reads := [keyH 1, keyG 0, keyG 1] } = true
    ∧ ((tokens .w).chkStore 0 1 ((1 : BitVec 12).toNat * 8) 8).isNone = true := by decide +kernel
/-- R66, R186: the token of a `mul` can be taken three ticks after its issue. -/
theorem test_token_latency : (run1 (.mul 1 3 1 2) (st .a [])).map (fun t => (t.myCore.tokTo .a .succ).due) = some [(.at 1003, 0)] := by decide +kernel
/-- A resident launch of core 0, whose fret holds mailbox 2 and entry 9. -/
def launch0 : Launch := { launchOf 0 0 [] with w := 1, h := 1, fw := 1, fh := 1, phase := .running }
def feeding : State :=
  { st .c [(1, 77)] (fun k => { k with resident := true, owner := some 4 }) with
      launches := [(4, { launch0 with resident := true, feedQ := 6 })], frets := [(0, { Fret.idle with mb := [(2, 33)], entry := some 9 })] }
theorem witness_QueuesAndMailboxes :
    (st .a [(1, 5)]).mayIssue { t := 0, reads := [keyG 1], wait := if 16 ≤ ((st .a [(1, 5)]).myCore.qTo .a .succ).used then some .queue else none } = true
    ∧ ((tokens .a).myCore.qFrom (tokens .a).at.2 .pred).words = [17, 18] ∧ (tokens .a).mayIssue { t := 0 } = true
    ∧ Sparse.get? (feeding.fretOf feeding.at.1).mb (2 : BitVec 3).toNat = some 33 ∧ feeding.mayIssue { t := 0, streams := [.c] } = true
    ∧ feeding.mayIssue { t := 0, streams := [.c], reads := [keyG 1] } = true ∧ feeding.myCore.resident = true
    ∧ (feeding.fretOf feeding.at.1).entry = some 9 ∧ feeding.myCore.owner = some 4
    ∧ Sparse.get? feeding.launches 4 = some { launch0 with resident := true, feedQ := 6 } := by decide +kernel

/-- R207: a count that has been reached passes; one tick more waits. -/
theorem test_waitm : (run1 (.waitm 0 1) (st .c [(1, 5000)])).map (·.me.pc) = some 4
    ∧ (run1 (.waitm 0 1) (st .c [(1, 5001)])).map (·.me.hold) = some (some (.meridian 5001)) := by decide +kernel
/-- R209, R378: `trap` enters the handler entry of SOFTWARE, 0x1E000 + 8 x 0xE0, four ticks later, to return to PC + 4. -/
theorem test_trap : (run1 (.trap 0 1 9) (st .a [(1, 3)])).map (fun t => (t.me.pc, t.me.trapPc, t.me.trapCause)) = some (0x1E700, 4, 0xE0)
    ∧ (run1 (.trap 0 1 9) (st .a [(1, 3)])).map (fun t => (t.me.trapInfo0, t.me.trapInfo1, t.me.nest, t.me.notBefore)) = some (3, 9, true, 1004) := by
  decide +kernel
/-- R208: `eret` goes back to TRAPPC and clears NEST. -/
theorem test_eret : (run1 (.eret 0) (nested .w)).map (fun t => (t.me.pc, t.me.nest)) = some (0x104, false) := by decide +kernel
/-- R170, R392: `madj` on A is STREAM, on an unprivileged C it is PRIV. -/
theorem test_madj_illegal : (run1 (.madj 0 1) (st .a [])).map (·.me.trapCause) = some 8
    ∧ (run1 (.madj 0 1) (unpriv .c)).map (·.me.trapCause) = some 9 := by decide +kernel
/-- R26, R205: LGEOM reads; TRAPCTL reads NEST in bit 1. -/
theorem test_sysr : gAfter (.sysr 0 3 0x806) (nested .w) 3 = some 2 ∧ gAfter (.sysr 0 3 0x002) (timed .a []) 3 = some 4000 := by decide +kernel
/-- R66: WP with an empty FIFO waits with the class TOKEN and leaves the program counter. -/
theorem test_token_wait : (run1 (.nop 8) (st .a [])).map (fun t => (t.me.pc, t.me.cls)) = some (0, .token) := by decide +kernel
/-- R201: `qpop` from the predecessor takes its oldest word. -/
theorem test_qpop : gAfter (.qpop 0 3 .pred) (tokens .a) 3 = some 17 := by decide +kernel
/-- R77, R203: `mbxack` completes entry 9 with KIND 2 and the word, for the feed queue. -/
theorem test_mbxack : (run1 (.mbxack 0 1) feeding).map (fun t => (t.queue 6).held.map fun e => (e.qseq, e.kind, e.data)) = some [(9, 2, 77)] := by
  decide +kernel

/-! ### Handles, loads and stores -/

theorem witness_LoadsThroughMemoryHandlesAreChecked : (((st .a []).core 0).hreg 1).kind = 0 := by decide +kernel
/-- The checks in their order: an invalid handle, one of another context, a SYNC handle, one of HBM, one without R, one whose LEN is passed; a
window whose descriptor is unusable; an odd address. -/
theorem witness_LoadsThroughMemoryHandlesAreChecked_traps :
    let s := st .a [] fun k => { k with h := handles ++ [(5, mkHandle true 0 3 (spadOf 0) 15 0 7 64), (6, mkHandle true 0 3 (spadOf 0) 4 0 0 64),
                                                         (7, mkHandle true 0 3 (spadOf 0) 8 0 0 64), (8, mkHandle true 1 3 (3 * 2 ^ 42) 15 0 0 64)] }
    (s.me.nest = false ∧ s.timedAt 0 = false ∧ s.at.1 < 480 ∧ s.mayIssue { t := 0, streams := [.a], reads := [keyH 9, keyG 0] } = true
      ∧ s.mayIssue { t := 0, streams := [.a], reads := [keyH 7, keyG 5] } = true)
    ∧ (s.myCore.hreg 9).w0.getLsbD 63 = false ∧ (s.myCore.hreg 5).w2.toNat / 2 ^ 32 % 256 = 7 ∧ 2 ≤ (s.myCore.hreg 4).kind
    ∧ (s.myCore.hreg 2).base % 2 ^ 48 < spadBase ∧ (s.myCore.hreg 6).w1.getLsbD 63 = false
    ∧ ((s.myCore.hreg 7).kind = 0 ∧ (s.myCore.hreg 7).w0.getLsbD 63 = true ∧ (s.myCore.hreg 7).w2.toNat / 2 ^ 32 % 256 = s.myCore.ctx.toNat
      ∧ (s.myCore.hreg 7).base / 2 ^ 48 = s.pkg ∧ (s.myCore.hreg 7).base % 2 ^ 48 = spadBase ∧ (s.myCore.hreg 7).w1.getLsbD 63 = true
      ∧ (s.myCore.hreg 7).w2.toNat % 2 ^ 31 < 60 + 8)
    ∧ (match s.chkLoad 0 8 0 8 with
       | some (.trap c _ _) => c
       | _ => 0) = 0x67
    ∧ (s.chkLoad 0 1 9 8).isNone = true ∧ (s.myCore.hreg 1).alignBase 9 % 8 ≠ 0 := by decide +kernel
/-- Eight bytes of the own scratchpad at offset 8; the same with a stream that is at its access at offset `o`. -/
def eight (i : StreamId) (g : Sparse DWord) : State :=
  { st i g with mem := (List.range 8).map fun j => (spadOf 0 + 8 + j, BitVec.ofNat 8 (0x81 + j)) }
def accessing (i : StreamId) (g : Sparse DWord) (o : Nat) : State :=
  { eight i g with cores := [(0, (core0 g).modStr i fun x => { x with hold := some (.bank 1000 o 0 false) })] }
theorem witness_ScalarLoadsDeliverBytes : (st .a []).mayIssue { t := 0, streams := [.a], reads := [keyH 1, keyG 0] } = true
    ∧ ((st .a []).chkLoad 0 1 8 8).isNone = true ∧ ((st .a []).myCore.hreg 1).alignBase 8 % 8 = 0 ∧ ((st .a []).myCore.hreg 1).kind = 0
    ∧ ((accessing .a [] 8).me.retrying = some 8 ∧ (accessing .a [] 8).me.hold = some (.bank 1000 8 0 false)
      ∧ (accessing .a [] 8).ceClash 0 4 false (banksOf 8 8) = none
      ∧ (accessing .a [] 8).uncorr (spadOf 0 + 8) 8 = none)
    ∧ (st .a [(5, 24)]).mayIssue { t := 0, streams := [.a], reads := [keyH 1, keyG 5] } = true
    ∧ ((st .a []).chkLoad 0 3 8 8).isNone = true ∧ ((st .a []).myCore.hreg 3).alignBase 8 % 8 = 0 ∧ ((st .a []).myCore.hreg 3).kind = 1 := by
  decide +kernel
theorem witness_ScalarStoresWriteBytes : (st .w [(1, 9)]).mayIssue { t := 0, streams := [.w], reads := [keyH 1, keyG 0, keyG 1] } = true
    ∧ (st .w [(1, 9), (5, 16)]).mayIssue { t := 0, streams := [.w], reads := [keyH 1, keyG 5, keyG 1] } = true
    ∧ ((st .w []).chkStore 0 1 16 8).isNone = true ∧ ((st .w []).chkStore 0 3 16 8).isNone = true ∧ (st .w []).strap 0 ((st .w []).myCore.hreg 3) = false
    ∧ ((accessing .w [] 16).me.retrying = some 16 ∧ (accessing .w [] 16).me.hold = some (.bank 1000 16 0 false)
      ∧ (accessing .w [] 16).ceClash 0 5 false (banksOf 16 8) = none) := by
  decide +kernel
/-- Bank 0 of core 0 is taken by the copy engine in this period, in which A's access is due; the same in a timed launch. -/
def taken (tm : Bool) : State :=
  st .a [] fun k => ({ k with bankUse := [(1000, 0, 2)], timed := tm }).modStr .a fun x => { x with hold := some (.bank 1000 0 0 tm) }
theorem witness_RefusedScalarAccessesRetry : (taken false).me.retrying = some 0 ∧ (taken false).me.hold = some (.bank 1000 0 0 false)
    ∧ (taken false).ceClash 0 4 false (banksOf 0 8) = some (0, 2) ∧ (taken true).me.retrying = some 0 ∧ (taken true).me.hold = some (.bank 1000 0 0 true)
    ∧ (taken true).ceClash 0 4 true (banksOf 0 8) = some (0, 2) ∧ (taken false).ceClash 0 5 false (banksOf 0 8) = some (0, 2)
    ∧ (taken true).ceClash 0 5 true (banksOf 0 8) = some (0, 2) := by decide +kernel
theorem witness_HandleInstructions : (st .a []).mayIssue { t := 0, streams := [.a], reads := [keyH 1, keyH 2] } = true
    ∧ (st .a []).mayIssue { t := 0, streams := [.a], reads := [keyH 2] } = true
    ∧ (st .a [(6, 0x100000000010)]).mayIssue { t := 0, streams := [.a], reads := [keyH 1, keyH 2, keyG 6] } = true
    ∧ ((st .a []).myCore.hreg 1).valid = true ∧ 0x10 + 0x1000 ≤ ((st .a []).myCore.hreg 1).len := by decide +kernel
/-- The slice of the home core holds the leaf of the page at 0x1000: HBM frame 1, R and W (R92, R95). -/
def sliced : State := { st .a [(1, 0x1234)] with slices := [(homeOf 0x1234 12, [(3, ⟨0, 0x1000, 0, 0x8C00000000000001⟩)])] }
theorem witness_TranslationHitsAndMisses : sliced.mayIssue { t := 0, streams := [.a], reads := [keyG 1, keyH 7] } = true
    ∧ sliced.sliceHit sliced.myCore.ctx 0x1234 = some (homeOf 0x1234 12, 3, ⟨0, 0x1000, 0, 0x8C00000000000001⟩)
    ∧ (sliced.core (homeOf 0x1234 12)).parity.contains (sliceKey 3) = false
    ∧ (st .a [(1, 0x1234)]).mayIssue { t := 0, streams := [.a], reads := [keyG 1, keyH 7] } = true
    ∧ (st .a [(1, 0x1234)]).sliceHit 0 0x1234 = none ∧ (st .a []).myCore.timed = false
    ∧ (timed .a [(1, 0x1234)]).mayIssue { t := 0, streams := [.a], reads := [keyG 1, keyH 7] } = true
    ∧ (timed .a [(1, 0x1234)]).sliceHit 0 0x1234 = none ∧ (timed .a [(1, 0x1234)]).myCore.timed = true := by decide +kernel

/-- R196, R2: little-endian bytes, zero- and sign-extended. -/
theorem test_load : gAfter (.ldd 0 3 1 1) (accessing .a [] 8) 3 = some 0x8887868584838281 ∧ gAfter (.ldhs 0 3 1 4) (accessing .a [] 8) 3 = some 0xFFFFFFFFFFFF8281 := by
  decide +kernel
/-- R133: element 2 of a RAMP window from 0 by 1. -/
theorem test_load_window : gAfter (.ldw 0 3 3 2) (st .a []) 3 = some 2 := by decide +kernel
/-- R196: `sth` stores two bytes and leaves their neighbours. -/
theorem test_store : (run1 (.sth 0 1 1 5) (accessing .w [(1, 0xABCD)] 10)).map (fun t => t.mem.read (spadOf 0 + 9) 4) = some [0x82, 0xCD, 0xAB, 0x85] := by
  decide +kernel
/-- R403, R198: H_PERM, and a misaligned address. -/
theorem test_load_checks : (run1 (.ldd 0 3 1 0) (st .a [] fun k => { k with h := [(1, mkHandle true 0 3 (spadOf 0) 4 0 0 64)] })).map (·.me.trapCause) = some 0x64
    ∧ (run1 (.lddx 0 3 1 5) (st .a [(5, 4)])).map (·.me.trapCause) = some 0x80 := by decide +kernel
/-- R200: `hnarrow` of H1 by 0x10 to 0x1000 bytes. -/
theorem test_hnarrow : (run1 (.hnarrow 0 7 1 6) (st .a [(6, 0x100000000010)])).map (fun t => ((t.myCore.hreg 7).len, (t.myCore.hreg 7).base)) = some (0x1000, spadOf 0 + 0x10) := by
  decide +kernel
/-- R96, R199: a hit plans the handle for 95 periods later, with the permissions asked for and granted. -/
theorem test_xlate : (run1 (.xlate 0 7 1 10) sliced).map (fun t => t.myCore.pendH.map fun e => (e.1, e.2.1, e.2.2.perm, e.2.2.va, e.2.2.base)) = some [(1095, 7, 8, 0x1234, 0x1234)] := by
  decide +kernel
/-- R96: the length runs to the end of the page; R411: a miss in a timed launch is XLATEMISS with the address. -/
theorem test_xlate_ends : (run1 (.xlate 0 7 1 10) sliced).map (fun t => t.myCore.pendH.map fun e => (e.2.2.len, e.2.2.psz, e.2.2.kind)) = some [(0xDCC, 0, 0)]
    ∧ (run1 (.xlate 0 7 1 10) (timed .a [(1, 0x1234)])).map (fun t => (t.me.trapCause, t.me.trapInfo0, (t.fretOf 0).frozen)) = some (0xC7, 0x1234, true) := by
  decide +kernel

/-! ### Vector instructions -/

/-- Lanes 0 to 3 hold the words `xs`. -/
def lanes4 (xs : List Lane) : Sparse Lane := (List.range 4).foldl (fun v i => Sparse.set 0 v i (xs.getD i 0)) []
/-- E of core 0 with V1 and V2 holding four lanes each and P1 naming lanes 0 and 2, P2 the four. -/
def vec (x y : List Lane) (g : Sparse DWord := []) : State := st .e g fun k => { k with v := [(1, lanes4 x), (2, lanes4 y)], p := [(1, 5), (2, 15)] }
/-- Lanes 0 to 3 of V3 after an instruction. -/
def v3 (i : Instr) (s : State) : Option (List Lane) := (run1 i s).map fun t => (List.range 4).map fun l => laneOf (t.myCore.vreg 3) l

theorem witness_VectorAndPredicateRegisters : (looped 2 true).vphys 3 ≠ (looped 2 true).vphys 20 ∧ (5 : P) ≠ 0 ∧ (9 : P) ≠ 0
    ∧ (looped 2 true).pphys 9 ≠ (looped 2 true).pphys 5 ∧ (15 : V).toNat < 16 ∧ 16 ≤ (16 : V).toNat ∧ 16 ≤ (63 : V).toNat
    ∧ (7 : P).toNat < 8 ∧ 8 ≤ (8 : P).toNat ∧ 8 ≤ (15 : P).toNat := by decide +kernel
theorem witness_VectorFloatingPoint : tyArith .fp16 = true ∧ tyFmt .fp16 = some fmtFP16 ∧ tyArith .fp32 = true ∧ tyFmt .fp32 = some fmtFP32
    ∧ (vec [] []).mayIssue ((vec [] []).vecSig 0 [1, 2] [] 0 false 3) = true ∧ (vec [] []).mayIssue ((vec [] []).vecSig 15 [1, 2, 3] [] 1 false 3) = false
    ∧ (vec [] []).mayIssue ((vec [] []).vecSig 0 [1, 2, 63] [] 1 false 3) = true ∧ (vec [] []).mayIssue ((vec [] []).vecSig 0 [1] [] 1 true 3) = true := by
  decide +kernel
theorem witness_VectorComparisons : tyArith .bf16 = true ∧ tyFmt .bf16 = some fmtBF16 ∧ tyFmt .e5m2 = some fmtE5M2
    ∧ (vec [] []).mayIssue ((vec [] []).vecSig 0 [1, 2] [] 0 false 3) = true ∧ (vec [] []).mayIssue ((vec [] []).vecSig 0 [1] [] 0 false 3) = true
    ∧ (Ty.int32 ≠ .int4 ∧ isFloat .int32 = false ∧ VCond.le ≠ .un ∧ VCond.le ≠ .or)
    ∧ (let k := (vec [] []).myCore
       (vec [] []).mayIssue { t := 0, streams := [.e], reads := [k.keyV 1, k.keyV 2] ++ k.rdP 1 ++ k.keepP 1 false 2 } = true
       ∧ (vec [] []).mayIssue { t := 0, streams := [.e], reads := [k.keyV 1, k.keyV 2] ++ k.rdP 1 } = true) := by decide +kernel
theorem witness_VectorConditions : laneVal .fp32 0x7FC00000 = .nan ∧ laneVal .fp32 0x3F800000 ≠ .nan ∧ laneVal .int8 0xFF = .fin ⟨true, 1, 1⟩ := by
  decide +kernel
theorem witness_VectorIntegerArithmetic : tyInt .uint8 = true ∧ tyInt .int32 = true
    ∧ (vec [] []).mayIssue ((vec [] []).vecSig 0 [1, 2] [] 1 true 3) = true ∧ (vec [] []).mayIssue ((vec [] []).vecSig 0 [1] [] 1 false 3) = true := by decide +kernel
theorem witness_VectorConversionsAndPermutes : Ty.fp16 ≠ .fp32 ∧ Ty.fp16 ≠ .int4 ∧ Ty.fp32 ≠ .int4
    ∧ (vec [] []).mayIssue ((vec [] []).vecSig 0 [1] [] 1 false 3) = true ∧ (vec [] []).mayIssue ((vec [] []).vecSig 0 [1, 2] [] 0 false 3) = true
    ∧ (vec [] []).mayIssue ((vec [] []).vecSig 0 [1, 2, 3] [] 1 false 3) = true ∧ (vec [] []).mayIssue ((vec [] []).vecSig 0 [1] [4] 1 false 3) = true
    ∧ (vec [] []).mayIssue ((vec [] []).vecSig 0 [1, 2] [4] 1 false 3) = true := by decide +kernel
/-- Table 3: domain 0 to 1, linear, every entry 0.5 (R233). -/
def half258 : TieTable := ⟨0, 0, 0, List.replicate 258 0x3F000000⟩
def tied : State := st .e [(4, 1), (5, 3), (7, 0x300000)] fun k => { k with tie := [(3, half258)] }
theorem witness_VectorMovesTablesDrawsAndSelection : (vec [] []).mayIssue ((vec [] []).vecSig 0 [] [4] 1 false 3) = true
    ∧ (vec [] []).mayIssue { t := 0, streams := [.e], reads := [(vec [] []).myCore.keyV 1, keyG 4] } = true
    ∧ (vec [] []).mayIssue { t := 0, streams := [.e], reads := [(vec [] []).myCore.keyV 3, keyG 4, keyG 5] } = true
    ∧ tyArith .fp32 = true ∧ Sparse.get? tied.myCore.tie (3 : BitVec 4).toNat = some half258
    ∧ tied.mayIssue { t := 0, streams := [.e], reads := [tied.myCore.keyV 1, keyT (3 : BitVec 4).toNat] ++ tied.myCore.rdP 0 ++ tied.myCore.keepV 0 false 3 } = true
    ∧ tyInt .int16 = true ∧ tied.mayIssue (tied.vecSig 0 [] [4, 5] 0 false 3) = true ∧ tied.mayIssue (tied.vecSig 0 [1, 2] [] 0 false 3) = true := by decide +kernel
theorem witness_ExactReductionAddsTheGroups : (9 : BitVec 4).toNat ≤ 9 ∧ Ty.bf16 ≠ .int4
    ∧ ((vec [] [] [(4, 63), (5, 511)]).gr 4).toNat ≤ 63 ∧ ((vec [] [] [(4, 63), (5, 511)]).gr 5).toNat + 512 / 2 ^ (9 : BitVec 4).toNat ≤ 512
    ∧ (vec [] [] [(4, 63), (5, 511)]).myCore.colBusy 1000 0 511 511 = false
    ∧ (vec [] [] [(4, 63), (5, 511)]).mayIssue { t := 0, streams := [.e], reads := [keyG 4, keyG 5, (vec [] []).myCore.keyV 1] ++ ((none : Option V).elim [] fun v => [(vec [] []).myCore.keyV v]) ++ (vec [] []).myCore.rdP 1 } = true
    ∧ (vec [] [] [(4, 0), (5, 0)]).mayIssue { t := 0, streams := [.e], reads := [keyG 4, keyG 5, (vec [] []).myCore.keyV 1] ++ ((some 2 : Option V).elim [] fun v => [(vec [] []).myCore.keyV v]) ++ (vec [] []).myCore.rdP 1 } = true := by
  decide +kernel
theorem witness_ExactReductionAddsTheGroups_empty : (vec [] []).myCore.soft = [] ∧ (vec [] []).myCore.preg 3 = 0 ∧ (vec [] []).myCore.preg 1 ≠ 0 := by
  decide +kernel
theorem witness_PredicateInstructions :
    let k := (vec [] []).myCore
    let sig (ps : List P) (gs : List G) (pd pg : P) (z : Bool) : Sig :=
      { t := 0, streams := [.e], reads := ps.flatMap k.rdP ++ gs.map keyG ++ k.rdP pg ++ k.keepP pg z pd }
    (vec [] []).mayIssue (sig [1, 2] [] 3 0 false) = true ∧ (vec [] []).mayIssue (sig [1] [] 3 1 false) = true
    ∧ (vec [] []).mayIssue (sig [] [4, 5] 3 0 true) = true ∧ (vec [] []).mayIssue (sig [] [4] 0 1 false) = true
    ∧ (vec [] []).mayIssue { t := 0, streams := [.e], reads := k.rdP 1 ++ k.rdP 0 } = true := by decide +kernel
theorem witness_VectorLoadsAndStoresTakeThePort :
    (let k := (vec [] []).myCore
     let act := (List.range 512).filter fun i => (k.preg 1).getLsbD i
     let none_ := (List.range 512).filter fun i => (k.preg 3).getLsbD i
     act = [0, 2] ∧ none_ = []
     ∧ (vec [] []).mayIssue { t := 0, streams := [.e], port := true, reads := [keyG 4, keyH 1] ++ [k.keyV 1] ++ [keyG 5] ++ [k.keyV 2] ++ k.rdP 1 } = true
     ∧ (vec [] []).mayIssue { t := 0, streams := [.e], port := true, reads := [keyG 4, keyH 1] ++ k.rdP 1 ++ k.keepV 1 false 3 } = true
     ∧ Ty.fp32 ≠ .int4 ∧ (k.hreg 1).kind ≠ 1 ∧ (k.hreg 3).kind = 1)
    ∧ ((vec [] []).vecChk 0 1 false .flat .fp32 64 [0, 2]).isNone = true ∧ ((vec [] []).vecChk 0 3 false .flat .fp32 64 [0, 2]).isNone = true
    ∧ ((vec [] []).vecChk 0 1 true (.stride 12) .fp16 64 [0, 2]).isNone = true ∧ ((vec [8, 0, 4] []).vecChk 0 1 false (.index ((vec [8, 0, 4] []).myCore.vreg 1)) .int8 64 [0, 2]).isNone = true
    ∧ (vec [] []).strap 0 ((vec [] []).myCore.hreg 3) = false := by decide +kernel
theorem witness_TablesAreLoadedAndThePortMovesBytes : tied.mayIssue { t := 0, streams := [.e], port := true, reads := [keyG 6, keyH 1, keyG 7] } = true
    ∧ tieOk (tied.gr 7) = true ∧ (tied.chkLoad 0 1 0 1032).isNone = true ∧ (tied.chkLoad 0 3 0 1032).isNone = true
    ∧ (tied.myCore.hreg 3).kind = 1 ∧ (tied.myCore.hreg 1).kind ≠ 1
    ∧ [(0, 64, 0), (2, 72, 0)].find? (fun e => e.1 = 2) = some ((2, 72, 0) : Nat × Nat × Nat) ∧ [(0, 64, 0)].find? (fun (e : Nat × Nat × Nat) => e.1 = 2) = none := by
  decide +kernel

/-- R145, R222: 1 + 2^-24 in FP32 is a tie and goes to the even 1, toward plus infinity to the next; 3 - 3 is +0, under RDN -0. -/
theorem test_vadd : v3 (.vadd 0 ⟨false, false, 3, 1, 2, 2, .fp32, .rne, false⟩) (vec [0x3F800000, 0x40400000] [0x33800000, 0xC0400000]) = some [0x3F800000, 0, 0, 0]
    ∧ v3 (.vadd 0 ⟨false, false, 3, 1, 2, 2, .fp32, .rup, false⟩) (vec [0x3F800000] [0x33800000]) = some [0x3F800001, 0, 0, 0]
    ∧ v3 (.vadd 0 ⟨false, false, 3, 1, 2, 2, .fp32, .rdn, false⟩) (vec [0x3F800000, 0x40400000] [0x33800000, 0xC0400000]) = some [0x3F800000, 0x80000000, 0, 0] := by
  decide +kernel
/-- R222: vfms and vfnma negate what the rule says; 2 x 3 - 1 = 5, -(2 x 3) + 1 = -5. -/
theorem test_vfma : v3 (.vfms 0 ⟨false, false, 3, 1, 2, 4, 2, .fp32, .rne, false⟩) { vec [0x40000000] [0x40400000] with cores := [(0, { (vec [0x40000000] [0x40400000]).core 0 with v := [(1, lanes4 [0x40000000]), (2, lanes4 [0x40400000]), (4, lanes4 [0x3F800000])] })] } = some [0x40A00000, 0, 0, 0] := by
  decide +kernel
/-- R222: 1/0 is +infinity, the root of -0 is -0, of -1 the NaN. -/
theorem test_vrcp : v3 (.vrcp 0 ⟨false, false, 3, 1, 2, .fp32, .rne, false⟩) (vec [0, 0x40000000, 0x3F800000, 0x3F800000] []) = some [0x7F800000, 0x3F000000, 0x3F800000, 0x3F800000]
    ∧ v3 (.vsqrt 0 ⟨false, false, 3, 1, 1, .fp32, .rne, false⟩) (vec [0x80000000, 0, 0xBF800000] []) = some [0x80000000, 0, 0x7FC00000, 0] := by decide +kernel
/-- R214: inactive lanes keep their value, or are cleared with Z; R223: the minimum of -0 and +0 is -0. -/
theorem test_vmin : (run1 (.vmin 0 ⟨false, false, 1, 1, 2, 1, .fp32⟩) (vec [0, 7, 5] [0x80000000, 9, 4])).map (fun t => (List.range 3).map (laneOf (t.myCore.vreg 1))) = some [0x80000000, 7, 4]
    ∧ (run1 (.vmin 0 ⟨false, true, 1, 1, 2, 1, .fp32⟩) (vec [0, 7, 5] [0x80000000, 9, 4])).map (fun t => (List.range 3).map (laneOf (t.myCore.vreg 1))) = some [0x80000000, 0, 4] := by
  decide +kernel
/-- R227: clamped and wrapped bytes; counts of the width and more. -/
theorem test_viadd : v3 (.viadd 0 ⟨false, false, 3, 1, 2, 2, .int8, true⟩) (vec [127, 0x80] [1, 0xFF]) = some [127, 0xFFFFFF80, 0, 0]
    ∧ v3 (.viadd 0 ⟨false, false, 3, 1, 2, 2, .int8, false⟩) (vec [127, 0x80] [1, 0xFF]) = some [0xFFFFFF80, 127, 0, 0]
    ∧ v3 (.vsra 0 ⟨false, false, 3, 1, 2, 2, .int16⟩) (vec [0x8000, 0x8000] [15, 40]) = some [0xFFFFFFFF, 0xFFFFFFFF, 0, 0]
    ∧ v3 (.vshl 0 ⟨false, false, 3, 1, 2, 2, .int32⟩) (vec [1, 1] [31, 32]) = some [0x80000000, 0, 0, 0] := by decide +kernel
/-- R228, R229: 2.5 to an integer is 2, to nearest away 3; 1e10 clamps and plans CV. -/
theorem test_vcvt : v3 (.vcvt 0 ⟨false, false, 3, 1, 2, .int32, .fp32, .rne, true⟩) (vec [0x40200000, 0xC0200000] []) = some [2, 0xFFFFFFFE, 0, 0]
    ∧ v3 (.vcvt 0 ⟨false, false, 3, 1, 2, .int32, .fp32, .rna, true⟩) (vec [0x40200000, 0x501502F9] []) = some [3, 0x7FFFFFFF, 0, 0] := by decide +kernel
/-- R232, R231: slide and rotate by lane. -/
theorem test_vslide : v3 (.vslide 0 ⟨false, false, 3, 1, 2, 4, 2⟩) (vec [1, 2, 3, 4] [] [(4, 513)]) = some [2, 3, 4, 0]
    ∧ v3 (.vrot 0 ⟨false, false, 3, 1, 4, 2⟩) (vec [1, 2, 3, 4] [] [(4, 511)]) = some [0, 1, 2, 3] := by decide +kernel
/-- R224: NaN compares unequal and unordered. -/
theorem test_vcmp : (run1 (.vcmp 0 ⟨false, false, 3, 1, 2, 1, .fp32, .lt⟩) (vec [0xBF800000, 0, 0x7FC00000] [])).map (fun t => t.myCore.preg 3) = some 1
    ∧ (run1 (.vcmp 0 ⟨false, false, 3, 1, 2, 1, .fp32, .un⟩) (vec [0xBF800000, 0, 0x7FC00000] [])).map (fun t => t.myCore.preg 3) = some 4 := by decide +kernel
/-- R239: `pset` of every third lane from 2; `plen`, `pcnt` and `pfirst`. -/
theorem test_pset : (run1 (.pset 0 ⟨false, false, 3, 4, 5, 0⟩) (vec [] [] [(4, 3), (5, 2)])).map (fun t => (t.myCore.preg 3).toNat % 256) = some 0x24
    ∧ (run1 (.plen 0 ⟨false, false, 3, 4, 0⟩) (vec [] [] [(4, 600)])).map (fun t => t.myCore.preg 3) = some (BitVec.allOnes 512)
    ∧ gAfter (.pcnt 0 ⟨false, 6, 1, 0⟩) (vec [] []) 6 = some 2 ∧ gAfter (.pfirst 0 ⟨false, 6, 3, 0⟩) (vec [] []) 6 = some 512 := by decide +kernel
/-- R237: one group of all lanes; with anchor 0 the sum of INT8 lanes 3, -1 and 4. -/
theorem test_vxsum : (run1 (.vxsum 0 ⟨false, 4, 5, 1, none, 2, .int8, 9⟩) (vec [3, 0xFF, 4] [] [(4, 2), (5, 7)])).map (fun t => t.myCore.xaOf 2 7) = some 6 := by
  decide +kernel
/-- R216: a contiguous load takes its lanes when the port has read their bytes. -/
theorem test_vld : (run1 (.vld 0 ⟨false, true, 3, 4, 3, 0, 1, .int32⟩) (vec [] [] [(4, 8)])).map (fun t => (List.range 3).map (laneOf (t.myCore.vreg 3))) = some [2, 0, 4] := by
  decide +kernel

/-! ### Tiles, the matrix array and the accumulators -/

/-- A tile of 64 rows of `cols` elements with the tag `tag` (R241). -/
def td (cols tag : Nat) : DWord := dw (cols * 2 ^ 16 + 64 * 2 ^ 8 + tag)
/-- T1 64 by 64 and T2 64 by 16 of INT8, T3 of BF16. -/
def tiled (g : Sparse DWord) (f : Core → Core := id) : State := st .e g fun k => f { k with tdesc := [(1, td 64 5), (2, td 16 5), (3, td 64 1)] }

theorem witness_TilesAreConfiguredAndWritten : (tiled []).myCore.tileBusy 1000 true 4 = false
    ∧ (tiled [(1, td 2048 9)]).mayIssue { t := 0, streams := [.e], reads := [keyG 1] } = true ∧ tdOk ((tiled [(1, td 2048 9)]).gr 1) = true
    ∧ (tiled [(1, td 2048 9)]).gr 1 &&& ~~~0x0FFF7F0F = 0 ∧ (tiled []).mayIssue { t := 0, streams := [.e] } = true
    ∧ (tiled []).mayIssue { t := 0, streams := [.e], reads := [keyG 1, (tiled []).myCore.keyV 2] } = true := by decide +kernel
theorem witness_TileLoadsAndStores :
    let s := tiled [(4, 0x400), (5, 64)]
    s.mayIssue { t := 0, streams := [.e], port := true, reads := [keyG 4, keyG 5, keyH 1] } = true ∧ s.myCore.tileBusy 1000 true 1 = false
    ∧ tdOk ((s.myCore.tdescOf 1 &&& ~~~0xF) ||| (tyCode .int8).zeroExtend 64) = true ∧ (s.rowsChk 0 1 pR 0x400 64 64 64).isNone = true
    ∧ s.myCore.tileBusy 1000 false 1 = false ∧ tdTag (s.myCore.tdescOf 1) ≠ 15 ∧ (s.rowsChk 0 1 pW 0x400 64 64 64).isNone = true := by decide +kernel
theorem witness_MatrixMultiplyIsAccepted : (tiled [(4, 496), (5, 16)]).mayIssue { t := 0, streams := [.e], reads := [keyG 4, keyG 5] } = true
    ∧ ((tiled []).myCore.mmaWait 1000 1 2 0 496 16).isNone = true ∧ ((tiled []).myCore.mmaWait 1000 1 2 2 496 16).isNone = true
    ∧ tdRows (td 64 5) = 64 ∧ tdCols (td 64 5) = 64 ∧ tdCols (td 16 5) = 16 ∧ (tdTag (td 64 5), tdTag (td 16 5)) = (5, 5)
    ∧ ((tiled []).myCore.mmaWait 1000 1 3 0 496 16).isNone = true ∧ (tdTag (td 64 5), tdTag (td 64 1)) = (5, 1)
    ∧ ((tiled []).myCore.mmaWait 1000 1 2 0 497 16).isNone = true ∧ ((tiled []).myCore.mmaWait 1000 1 2 0 0 17).isNone = true
    ∧ (tiled []).me.nest = false ∧ (tiled []).timedAt 0 = false := by decide +kernel
theorem witness_AccumulatorColumnsAreConfigured : 1 ≤ ((st .e [(4, 511), (5, 1)]).gr 5).toNat
    ∧ ((st .e [(4, 511), (5, 1)]).gr 4).toNat + ((st .e [(4, 511), (5, 1)]).gr 5).toNat ≤ 512
    ∧ (st .e []).myCore.colBusy 1000 2 511 511 = false ∧ (st .e []).myCore.colBusy 1000 1 511 511 = false
    ∧ (st .e []).mayIssue { t := 0, streams := [.e], reads := [keyG 4, keyG 5] ++ [keyG 6] } = true
    ∧ (st .e []).mayIssue { t := 0, streams := [.e], reads := [keyG 4, keyG 5] ++ [] } = true := by decide +kernel
theorem witness_AccumulatorColumnsAreSavedAndRestored :
    let s := st .e [(4, 510), (5, 2), (6, 64)]
    s.mayIssue { t := 0, streams := [.e], port := true, reads := [keyG 4, keyG 5, keyG 6, keyH 1] } = true ∧ (s.accChk 4 5 6 1 pW).isNone = true
    ∧ (s.accChk 4 5 6 1 pR).isNone = true ∧ s.myCore.colBusy 1000 1 510 511 = false ∧ s.myCore.colBusy 1000 2 510 511 = false := by decide +kernel
/-- An epilogue to FP32 in memory with a bias (bit 3); the same without. -/
theorem witness_EpilogueConfigurationAndDrains :
    let s := st .e [(1, 8), (2, 0), (3, 64), (4, 0), (5, 0), (6, 16), (7, 0x80000200), (8, 64)]
    s.mayIssue { t := 0, streams := [.e], port := true, reads := [keyG 1, keyG 2] ++ [keyG 3, keyH 1] } = true ∧ s.myCore.drains = []
    ∧ (s.epChk 8 0 ⟨false, 1, 2, 3, 1⟩).isNone = true ∧ (s.hCheck 0 1 4 [kMem] pR (s.ownSpad 0) 64 4096).isNone = true
    ∧ (s.epChk 0 0 ⟨false, 4, 2, 0, 0⟩).isNone = true ∧ s.mayIssue { t := 0, streams := [.e], port := false, reads := [keyG 4, keyG 2] ++ [] } = true
    ∧ s.mayIssue { t := 0, streams := [.e], reads := [keyG 5, keyG 6, keyG 7, keyG 8, keyH 1] } = true
    ∧ ¬ (s.myCore.epFrom ≤ 1000 ∧ 1000 < s.myCore.epReady) ∧ s.myCore.colBusy 1000 1 0 15 = false ∧ (s.myCore.epNow 1000).1 = 0
    ∧ (drainChk s 0 ⟨false, 5, 6, 7, 8, 1, 0⟩).isNone = true := by decide +kernel
theorem witness_HeapsAreClearedAndRead :
    let s := st .e [(4, 0x3F + 0x100), (5, 64), (6, 128)]
    (s.myCore.heapWait (s.gr 4)).isNone = true ∧ s.mayIssue { t := 0, streams := [.e], reads := [keyG 4, keyG 5] } = true
    ∧ s.mayIssue { t := 0, streams := [.e], port := true, reads := [keyG 4, keyG 6, keyH 1] } = true ∧ (s.hUse 0 1 4 [kMem] pW (s.ownSpad 0) 128).isNone = true
    ∧ (hBounds (s.myCore.hreg 1) 1 4 128 512).isNone = true ∧ (s.hMapped (s.myCore.hreg 1) 1 4 128 512).isNone = true := by decide +kernel

/-- R248: the MA takes an accepted `mma` as its last operation. -/
theorem test_mma : (run1 (.mma 0 ⟨false, 4, 1, 2, 5, 0⟩) (tiled [(4, 496), (5, 16)])).map (fun t => t.myCore.maQueue.map fun o => (o.ta, o.tb, o.n, o.c)) = some [(1, 2, 16, 496)] := by
  decide +kernel
/-- R246: c + N above 512 is VALUE; INT8 by BF16 is the pairing trap. -/
theorem test_mma_checks : (run1 (.mma 0 ⟨false, 4, 1, 2, 5, 0⟩) (tiled [(4, 497), (5, 16)])).map (·.me.trapCause) = some 0x40
    ∧ (run1 (.mmaz 0 ⟨false, 4, 1, 3, 5, 0⟩) (tiled [(4, 496), (5, 16)])).map (·.me.trapCause) = some 0x42 := by decide +kernel
/-- R243: a row of more than 1,024 bytes is no legal descriptor. -/
theorem test_tcfg : (run1 (.tcfg 0 false 4 1) (tiled [(1, td 257 0)])).map (·.me.trapCause) = some 0x43
    ∧ (run1 (.tcfg 0 false 4 1) (tiled [(1, td 256 0)])).map (fun t => t.myCore.tdescOf 4) = some (td 256 0) := by decide +kernel
/-- R251: `anchor` of one column leaves the next. -/
theorem test_anchor : (run1 (.anchor 0 false 4 5 6) (st .e [(4, 510), (5, 1), (6, 0x3FF)])).map (fun t => ((t.myCore.colSide 510).anchor, (t.myCore.colSide 511).anchor)) = some (0x3FF, 0) := by
  decide +kernel
/-- R247: INT8 operands -1 and 3 add -3 to their element. -/
theorem test_mma_product : (productOf 0 .int8 0xFF .int8 (some 3)).1 = -3 := by decide +kernel
/-- R257: `topkclr` of row 63 with K 64. -/
theorem test_topkclr : (run1 (.topkclr 0 false 4 5) (st .e [(4, 0x3F + 0x100), (5, 9)])).map (fun t => ((Sparse.get ⟨64, []⟩ t.myCore.heaps 63).k, (Sparse.get ⟨64, []⟩ t.myCore.heaps 62).k)) = some (9, 64) := by
  decide +kernel

/-! ### Copy commands, synchronisation, digests, the grammar engine -/

/-- The entry that a command puts into the buffer. -/
def entry (s : State) (hdr : CmdHdr) (kind : CmdKind) (dst src idx : Side) (flag : Option Side) (ord : Ord) (split : BitVec 4) : CeEntry :=
  { id := s.serial, seq := hdr.seq, stream := s.at.2, kind := kind, dst := dst, src := src, idx := idx, flag := flag
    pred := if hdr.aft then (s.myCore.ce.reverse.find? fun x => x.seq = hdr.pred).map (·.id) else none
    req := if hdr.gt = 0 then s.now + 1 else (s.gr hdr.gt).toNat, timed := hdr.gt ≠ 0, strict := s.strictCmd 0 hdr.gt
    ord := ord, ford := false, split := split, st := .queued, base := 0, el := 0, sub := 0, ev := 0, m := 0, nextAt := 0
    prog := 0, outstanding := 0, idxBuf := [], dataBuf := [], landBuf := [], flagSent := false, foHeld := false, pushed := s.tick, born := s.now, noticed := false }
/-- What a queued command needs, beside its checks and its reach. -/
def queues (s : State) (hdr : CmdHdr) (streams : List StreamId) (flg only : Bool) (gs : List G) (hs : List H) : Bool :=
  s.mayIssue { t := 0, streams := streams, reads := (hdr.gt :: gs).map keyG ++ hs.map keyH }
    && (s.myCore.timed || hdr.gt = 0 && !only) && !(s.myCore.timed && flg) && decide (s.myCore.ce.length < 64)
    && (!s.timedAt 0 || hdr.gt ≠ 0) && (!s.strictCmd 0 hdr.gt || decide (s.tick < (s.gr hdr.gt).toNat))
    && s.myCore.ce.all fun x => x.seq ≠ hdr.seq
def reach (s : State) (self : Bool) (e : CeEntry) : Bool := (!self || (s.selfLap 0 e).isNone) && (s.overlap 0 e).isNone
def copying (i : StreamId) : State := st i [(1, 0x1000), (2, 0x2000), (3, 64), (4, 1), (5, 0x3000), (6, 8), (7, 64)]
def hdr0 : CmdHdr := ⟨false, 0, 9, false, 0⟩
/-- A command of a timed launch with its requested tick in G8. -/
def hdrT : CmdHdr := ⟨false, 8, 9, true, 9⟩
def sending (i : StreamId) : State := timed i [(1, 0x1000), (3, 64), (8, 6000)]

theorem witness_CopyCommandsAreQueued :
    (let s := copying .a
     let o : CpyOp := ⟨hdr0, 0, 2, 1, 0, false, 1, 2, 3, ⟨true, 2, 6⟩⟩
     let p := s.cpyPush o
     queues s o.hdr [.a, .w] o.flag.flg false ([o.gdo, o.gso, o.gv, o.gshape] ++ flagGs o.flag) ([o.hd, o.hs] ++ flagHs o.flag) = true
     ∧ (p.vals ++ [p.shape] ++ p.handles ++ p.align).all (·.isNone) = true
     ∧ reach s true (entry s o.hdr (.cpy 64) (s.side o.hd 0x1000) (s.side o.hs 0x2000) noSide (s.flagSide o.flag) .relaxed 0) = true)
    ∧ (let s := copying .a
       let o : CpyAccOp := ⟨hdr0, 0, .relaxed, 2, .packed 1 2, false, 1, 4, 0, 0, 0, 0, false, ⟨false, 0, 0⟩⟩
       let p := s.accPush o .iadd32
       queues s o.hdr [.a, .w] false false ([o.gdo, o.gv] ++ [2]) ([o.hd] ++ [1]) = true ∧ (p.vals ++ p.handles ++ p.align).all (·.isNone) = true
       ∧ reach s false (entry s o.hdr (.acc .iadd32 1 0 none false false) (s.side 2 0x1000) (s.side 1 0x2000) noSide none .relaxed 0) = true) := by
  decide +kernel
theorem witness_CopyCommandsAreQueued_others :
    (let s := copying .w
     (s.useChk 0 1 1 [kMem, kGen] pR (s.srcSpace 0 false) 0x2000).isNone = true ∧ (alignIssue 0x2000).isNone = true
     ∧ (countChk 64 3 1 65536).isNone = true ∧ (s.spanChk 0 1 0 [kMem] pW (s.ownSpad 0) 0x1000 0 (64 * 4 : Nat)).isNone = true ∧ (s.idxChk 0 1 0x3000 64).isNone = true
     ∧ (s.useChk 0 2 0 [kMem] pW (s.dstSpace 0 false) 0x1000).isNone = true
     ∧ (s.spanChk 0 2 0 [kMem] pR (s.dstSpace 0 false) 0x1000 0 (8 : Nat)).isNone = true ∧ ((s.myCore.hreg 2).alignAt 0x1000 8).isNone = true
     ∧ queues s hdr0 [.a, .w] false false [1, 2, 3, 5] [1, 2, 1] = true)
    ∧ (let s := sending .w
       queues s hdrT [.w] false true [1, 3] [1] = true ∧ (slotChk (s.gr 3) 3 0).isNone = true
       ∧ (s.spanChk 0 1 1 [kMem] pR (s.ownSpad 0) 0x1000 0 (64 : Nat)).isNone = true
       ∧ reach s false (entry s hdrT (.send 11 63 0 64) noSide (s.side 1 0x1000) noSide none .relaxed 0) = true)
    ∧ queues (sending .a) hdrT [.a] false true [1, 3] [1] = true
    ∧ (let s := copying .w
       (countChk (s.gr 3) 3 1 4096).isNone = true ∧ (s.spanChk 0 2 0 [kMem] pW (s.anySpace 0) 0x1000 0 (64 : Nat)).isNone = true) := by
  decide +kernel

/-- R266: a copy is put into the buffer with its number and its length. -/
theorem test_cpy : (run1 (.cpy 0 ⟨hdr0, 0, 2, 1, 0, false, 1, 2, 3, ⟨true, 2, 6⟩⟩) (copying .a)).map (fun t => t.myCore.ce.map fun e => (e.seq, e.kind)) = some [(9, .cpy 64)] := by
  decide +kernel
/-- R276, R278: a flag in a timed launch and a `send` in a free one are MODE. -/
theorem test_cpy_mode : (run1 (.send 0 ⟨hdr0, 1, 1, 3, 0, 0, 0⟩) (copying .w)).map (·.me.trapCause) = some 0x0A
    ∧ (run1 (.send 0 ⟨hdrT, 1, 1, 3, 11, 63, 0⟩) (sending .w)).map (fun t => t.myCore.ce.map fun e => (e.req, e.kind)) = some [(6000, .send 11 63 0 64)] := by
  decide +kernel

/-- A queued command with the number 9. -/
def cmd (i : StreamId) (kind : CmdKind) (so do_ : Nat) (st : EntState := .queued) : CeEntry :=
  { id := 40, seq := 9, stream := i, kind := kind, dst := ⟨mkHandle true 0 3 (spadOf 0) 15 0 0 0x300000, 0, do_, false⟩
    src := ⟨mkHandle true 0 3 0x40000000 15 0x40000000 0 0x100000, 0x40000000, so, false⟩, idx := noSide, flag := none, pred := none
    req := 900, timed := false, strict := false, ord := .relaxed, ford := false, split := 0, st := st, base := 0, el := 0, sub := 0, ev := 0
    m := 1, nextAt := 1000, prog := 0, outstanding := 0, idxBuf := [], dataBuf := [], landBuf := [], flagSent := false, foHeld := false, pushed := 4900, born := 900, noticed := false }
def buffered (i : StreamId) (e : CeEntry) (g : Sparse DWord := []) : State := st i g fun k => { k with ce := [e] }
/-- A shape record at 0x1000 of the scratchpad: INT8, one dimension of 64 elements, tile rows of 64 (R104, R105). -/
def shaping : State := { copying .w with mem := Memory.write [] (spadOf 0 + 0x1000) (leBytes 8 0x4001000105 ++ leBytes 8 64 ++ leBytes 8 0 ++ leBytes 8 1) }
theorem witness_CopyWaitsResultsAndShapes :
    (copying .w).mayIssue { t := 0, streams := [.a, .w] } = true ∧ (∀ e ∈ (buffered .w (cmd .a (.cpy 64) 0 0)).myCore.ce, e.seq ≠ 8)
    ∧ (∀ e ∈ (buffered .w (cmd .a (.cpy 64) 0 0)).myCore.ce, e.stream ≠ (buffered .w (cmd .a (.cpy 64) 0 0)).at.2)
    ∧ (st .a [] fun k => { k with rfA := [(1000, 5), (1001, 6)] }).myCore.rf .a = (1000, 5) :: [(1001, 6)]
    ∧ (copying .w).mayIssue { t := 0, streams := [.a, .w], priv := true, reads := [keyG 7, keyG 4, keyG 1, keyH 1] } = true
    ∧ ((copying .w).spanChk 0 1 1 [kMem] pR ((copying .w).ownSpad 0) 0x1000 0 64).isNone = true ∧ (copying .w).uncorr (spadOf 0 + 0x1000) 64 = none
    ∧ shapeStatus (dwords 8 ((copying .w).load (spadOf 0 + 0x1000) 64)) ≠ 0 ∧ shapeStatus (dwords 8 (shaping.load (spadOf 0 + 0x1000) 64)) = 0 := by
  decide +kernel
/-- R287: `shpset` of a legal record gives 0, of zeros the number of the first check that fails, 2. -/
theorem test_shpset : gAfter (.shpset 0 ⟨false, 7, 1, 1, 4, 3⟩) shaping 3 = some 0 ∧ gAfter (.shpset 0 ⟨false, 7, 1, 2, 4, 3⟩) shaping 3 = some 2 := by
  decide +kernel
theorem witness_SynchronisationAndDigestRequests :
    let s := st .w [(1, 0x10), (2, 64), (3, 0x20001)]
    ((s.syncChk 4).isNone = true ∧ s.mayIssue { t := 0, streams := [.w], reads := [keyH 4] } = true
      ∧ (∀ e ∈ s.myCore.ce, e.stream ≠ s.at.2) ∧ s.me.retireAt < s.now ∧ s.mayIssue { t := 0, streams := [.w], reads := [keyH 4, keyG 3] } = true
      ∧ ((s.gr 3).toNat % 4 ≠ 3 ∧ s.gr 3 &&& ~~~0xFFFF0003 = 0) ∧ s.mayIssue { t := 0, streams := [.w], reads := [keyH 4, keyG 1, keyG 2] } = true)
    ∧ s.mayIssue { t := 0, streams := [.c, .w] } = true ∧ s.mayIssue { t := 0, streams := [.c, .w], reads := [keyG 1, keyG 2, keyH 1] } = true
    ∧ (s.myCore.session 3).regions.length < 64 ∧ (s.spanChk 0 1 1 [kMem] pR (s.anySpace 0) 0x10 0 64).isNone = true ∧ s.myCore.dgRun = none
    ∧ (s.myCore.session 3).marked = false ∧ (s.spanChk 0 1 0 [kMem] pW (s.ownOrHbm 0) 0x10 0 48).isNone = true := by
  decide +kernel
/-- C of core 0 with operands of the grammar engine, and GE context 5 bound without a grammar. -/
def ge (g : Sparse DWord) : State := { st .c g with ge := [(5, { GeCtx.idle with bound := true, nogr := true })] }
def gh : GeHdr := ⟨false, 0, 1, 6⟩
theorem witness_GrammarCommandsAreHandedOver :
    let s := ge [(1, 5), (2, 0x1000), (3, 0x2000), (4, 64)]
    s.mayIssue { t := 0, streams := [.c], reads := (0 :: 1 :: [(2 : G), 3, 4]).map keyG ++ [(1 : H), 2].map keyH } = true
    ∧ (s.myCore.timed = false ∧ s.myCore.c.qSucc.used < 16) ∧ (s.geCmds.filter (·.core = 0)).length < 8
    ∧ ((s.geCtx 5).bound = true ∧ (s.geCtx 5).ctx = s.myCore.ctx)
    ∧ (s.spanChk 0 2 0 [kMem] (pR + pW) (s.hbmSpace 0) 0x1000 0 (0x43000 : Nat)).isNone = true ∧ (alignIssue 0x1000 4096).isNone = true
    ∧ (s.spanChk 0 2 1 [kMem] pR (s.pkgSpace 0) 0x2000 0 64).isNone = true ∧ (s.spanChk 0 1 0 [kMem] pW (s.ownSpad 0) 0x1000 0 (0 : Nat)).isNone = true
    ∧ (s.filterChk 2).isNone = false ∧ ((ge [(1, 0x803F800000)]).filterChk 1).isNone = true ∧ (s.spanChk 0 1 1 [kMem] pR (s.ownSpad 0) 0x2000 0 (512 * 64 : Nat)).isNone = true
    ∧ (s.hUse 0 1 0 [kMem] pR (s.ownSpad 0) (s.gr 3)).isNone = true := by decide +kernel

/-- A grammar of one state at 0x8000, which accepts and reads the byte 'a' any number of times; token 0 is 'a', token 3 the end, of four (R315, R450). -/
def gram : Memory := Memory.write [] 0x8000
  (([0x31524D47, 1, 4, 3, 1, 0, 1024, 1, 0x40, 1, 0x48, 2, 0x50, 0, 0, 0] : List Nat).flatMap (leBytes 4)
    ++ ([2 ^ 63 + 2 ^ 32, 0x61 + 0xFFF * 2 ^ 8 + 0xFFF * 2 ^ 36, 2 * 2 ^ 32, 0x61 + 2 ^ 26 + 2 * 2 ^ 32] : List Nat).flatMap (leBytes 8))
/-- GE context 5 bound to it, its SSR at 0x40000. -/
def gctx0 : GeCtx := { GeCtx.idle with bound := true, nogr := false, grammar := 0x8000, ssr := 0x40000, ckint := 4 }
def grammared (c : GeCtx) (m : Memory := gram) : State := { st .c [] with mem := m, ge := [(5, c)] }
def geCmd1 (op : GeOp) : GeCmd := { (⟨42, 0, 6, false, some 5, 0, op, 0, some 990, some 990, 0, [], none, none, 0, 0, [], false, false⟩ : GeCmd) with begun := some (995, 0) }
theorem witness_GrammarCommandsAreHandedOver_effects :
    let s := grammared gctx0
    let g := s.geImg 0x8000
    let w := g.walk s gctx0.live none
    (s.dmg = [] ∧ s.soft = [] ∧ (s.geCtx 5).bound = true ∧ (s.geCtx 5).ctx = (geCmd1 .gcommit).ctx ∧ (s.geCtx 5).damaged = false ∧ (s.geCtx 5).nogr = false)
    ∧ ((GeOp.gadv 0).named = true ∧ (s.geCtx 6).bound = false ∧ (GeOp.gadv 0).grammar = true ∧ ((ge []).geCtx 5).nogr = true
      ∧ ((grammared { gctx0 with damaged := true }).geCtx 5).damaged = true)
    ∧ ((grammared (gctx0.setSlot 7 ⟨gctx0.live, 1, 2, true⟩)).geCtx 5).slot 7 = ⟨gctx0.live, 1, 2, true⟩
    ∧ (w.stop = none ∧ w.found.find? (·.1 = 1) = none ∧ (w.found.find? (·.1 = 0)).isSome = true ∧ (w.found.find? (·.1 = 3)).isSome = true ∧ g.eos = 3)
    ∧ (let s := grammared gctx0 (gram.write 0x8054 [9])
       (((s.geImg 0x8000).walk s gctx0.live none).stop = some 5))
    ∧ (g.walk s gctx0.live (some (g.budget - g.maskLines - 16))).stop = none ∧ g.maskLines = 1
    ∧ (let s := grammared gctx0 ((gram.write 0x40010 [9]).write 0x40018 [5])
       4 < s.word 0x40018 ∧ s.word 0x40018 ≤ 8 ∧ 8 ≤ s.word 0x40010 ∧ s.word 0x40010 < 10 ∧ 8 % gctx0.ckint = 0)
    ∧ (gctx0.live.stack.length ≤ 1024 ∧ gctx0.base.stack.length ≤ 1024)
    ∧ ((geCmd1 .gcommit).start = 995 ∧ ({ gctx0 with cancel := some (994, 994) }).cancelled 995 = true ∧ gctx0.cancelled 995 = false)
    ∧ g.ok 0x8000 0x100 = true ∧ (s.geImg 0x9000).ok 0x9000 0x100 = false
    ∧ (let s := grammared GeCtx.idle ((Memory.write [] 0x40000 (leBytes 8 0x31525353 ++ leBytes 8 (2 ^ 63))).write 0x40020 [4])
       (s.geCtx 5).bound = false ∧ (s.geCtx 5).damaged = false ∧ s.word 0x40000 = 0x31525353 ∧ s.word 0x40028 % 256 = 0 ∧ s.word 0x40008 / 2 ^ 63 = 1)
    ∧ (filterCands [(0x3F800000, 7), (0x40000000, 9)] 0x3F800000 2 0x3F800000 fun w => w = 9).isSome = true
    ∧ filterCands [(0x3F800000, 7)] 0x3F800000 1 0x3F800000 (fun _ => true) = none := by
  decide +kernel
/-- R317: the mask of that grammar holds tokens 0 and 3; R316: `gadv` of the end token ends the configuration, of token 1 is REJECT. -/
theorem test_grammar : (((grammared gctx0).geWork (geCmd1 (.gmask 0x50000))).lines.map fun l => l.headD 0) = [9]
    ∧ ((((grammared gctx0).geWork (geCmd1 (.gadv 3))).s.geCtx 5).live.done = true) ∧ ((grammared gctx0).geWork (geCmd1 (.gadv 1))).status = 3 := by decide +kernel

/-- R284, R287: an empty result FIFO waits; `shpset` of an invalid record gives its status. -/
theorem test_cpypop : gAfter (.cpypop 0 false 3) (st .a [] fun k => { k with rfA := [(1000, 5), (1001, 6)] }) 3 = some 5
    ∧ (run1 (.cpypop 0 false 3) (st .a [] fun k => { k with rfA := [(1001, 6)] })).map (·.me.pc) = some 0 := by decide +kernel
/-- R300: `dgadd` appends its region. -/
theorem test_dgadd : (run1 (.dgadd 0 false 3 1 1 2) (st .w [(1, 0x10), (2, 64)])).map (fun t => (t.myCore.session 3).regions) = some [⟨0x10, spadOf 0 + 0x10, 64⟩] := by
  decide +kernel

/-! ### The events of the engines -/

/-- An `mma` of T1 and T2 at columns 496 to 511; started; a drain of two rows of 16 columns to FP32. -/
def maOp : MaOp := ⟨40, false, 1, 2, 16, 496, 0, 990, 0, false⟩
def maQueued : State := tiled [] fun k => { k with maQueue := [maOp] }
def maStarted : State := tiled [] fun k => { k with maRun := [⟨maOp, 990, 5, 5, [(0, 0xFF), (1025, 2)], [(0, 3), (1024, 5)], 0⟩] }
def drainRec : DrainRec := ⟨40, 0, 16, 0, 2, 64, 128, 0, 0, .rne, .rne, 0, 0, none, [], [], 0, 990, false, 0, [], [], false, 0, 0, 0⟩
def draining : State := st .e [] fun k => { k with drains := [drainRec] }
theorem witness_MatrixArrayAndDrainUnitWork : ((maQueued.core 0).maQueue = maOp :: [] ∧ maQueued.stopping 0 = false ∧ (maQueued.core 0).maFree ≤ 1000
      ∧ maOp.arrive < 1000 ∧ (maQueued.core 0).tileEff = [] ∧ (maQueued.core 0).ce = [] ∧ (maQueued.core 0).maHeld 1000 maOp 8 = false)
    ∧ ((maStarted.core 0).maRun.find? (·.op.id = 40)).isSome = true
    ∧ ((1 + 1) * ((maStarted.core 0).maRun.headD ⟨maOp, 0, 0, 0, [], [], 0⟩).width ≤ 16 ∧ 496 + 16 ≤ 512)
    ∧ ((draining.core 0).drains.find? (!·.started) = some drainRec ∧ draining.stopping 0 = false ∧ (draining.core 0).deuFree ≤ 1000)
    ∧ (draining.core 0).drains.find? (·.id = 40) = some drainRec ∧ 0 + 1 < drainRec.chunks ∧ drainRec.chunks ≤ (drainRec.chunks - 1) + 1
    ∧ (draining.core 0).portBefore drainRec = false ∧ drainRec.atSplit 0 = false ∧ (draining.core 0).soft = []
    ∧ draining.ceClash 0 3 false (banksOf (drainRec.chunkOut 0).1 (drainRec.chunkOut 0).2) = none
    ∧ ((maStarted.core 0).maRun.head?.map fun r => maStarted.maStops 0 40 r) = some false
    ∧ ((maQueued.core 0).parity.contains (keyTd 1) = false ∧ (maQueued.core 0).parity.contains (keyTd 2) = false) := by decide +kernel
/-- R253: a written chunk puts the little-endian words of its elements from the base. -/
theorem test_chunk : (run1 (.drainChunkWrite 0 40 0 [⟨0, 0, 0x3F800000, 0x3F800000⟩, ⟨0, 1, 0x40000000, 0x40000000⟩]) draining).map
    (fun t => t.mem.read (spadOf 0 + 128) 8) = some [0, 0, 0x80, 0x3F, 0, 0, 0, 0x40] := by decide +kernel

/-- A copy of 64 bytes from HBM to the own scratchpad at offset 128, queued. -/
def copyIn (st : EntState) : State := buffered .a (cmd .a (.cpy 64) 0x40 128 st)
/-- The same with destination and source exchanged: the write goes to HBM. -/
def copyOut : CeEntry := { cmd .a (.cpy 64) 0 0 .running with dst := (cmd .a (.cpy 64) 0x40 128).src, src := (cmd .a (.cpy 64) 0x40 128).dst }
/-- A copy whose source lies in the scratchpad of core 1. -/
def copyFar : CeEntry := { cmd .a (.cpy 64) 0 128 .running with src := ⟨mkHandle true 0 3 (spadOf 1) 15 0 0 0x300000, 0, 64, false⟩ }
/-- A flag at 0x40 of HBM; a tile with a follow-on `mma`. -/
def flagged : CeEntry := { cmd .a (.cpy 64) 0 0 .finishing with flag := some { (cmd .a (.cpy 64) 0x40 128).src with off := 0x40 } }
def followed : CeEntry := cmd .a (.tile 1 64 true false 1 2 16 496 0) 0 0 .finishing
def tileFollow : State := tiled [] fun k => { k with ce := [followed] }
def faulting : State := st .a [] fun k => k.modStr .a fun x => { x with faults := [⟨990, 30, 0xA1, 9, 8, false⟩] }
def faulted : State := { buffered .a (cmd .a (.cpy 64) 0x40 128 (.faulted 0xA1 0)) with slices := [(homeOf 0x40000040 (pageShift 1), [(3, ⟨0, 0x40000000, 1, 0x8C00000000000000⟩)])] }
theorem witness_CopyEngineWorks :
    (let s := copyIn .queued
     (∀ x ∈ (s.core 0).ce, x.strict = false ∧ x.marks = []) ∧ (s.fretOf 0).stalled s.now = false ∧ s.stopping 0 = false ∧ (s.core 0).slotFree = true
     ∧ (s.core 0).ce.find? (fun e => s.ceFree 0 e && !s.ceHeld 0 e) = some (cmd .a (.cpy 64) 0x40 128))
    ∧ (let s := buffered .a copyFar
       let e := copyFar
       s.entry 0 40 = some e ∧ e.active = true ∧ (e.next.map (·.1)) = some (.line 0) ∧ (s.fretOf 0).stalled s.now = false ∧ e.marks = []
       ∧ (s.badAccess 0 e (.line 0)).isNone = true ∧ e.returns = false ∧ s.hbmIssues 0 e (.line 0) = []
       ∧ ((e.accesses (.line 0)).all fun a => s.locAt 0 (e.sideOf a.1) a.2.1 == (if a.1 = 0 then .core 1 else .own)) = true
       ∧ (s.core 0).parity = []
       ∧ (s.ceClash 0 2 false ((e.ownReads s 0 (.line 0)).flatMap fun x => banksOf x.1 x.2)).isNone = true ∧ s.ckptOpen = false)
    ∧ (copyIn .running).uncorr (ppaLocal ((cmd .a (.cpy 64) 0x40 128).src.addr (dispOf 0))) 64 = none
    ∧ (let s := buffered .a copyOut
       let l := ppaLocal (copyOut.dst.addr (dispOf 0))
       s.entry 0 40 = some copyOut ∧ place l = .hbm ∧ s.uncorr l 64 = none ∧ s.lineWritten (l / 64) = false)
    ∧ (let s := buffered .a copyFar
       spadAt s.pkg (copyFar.src.addr (dispOf 0)) = some (1, 64) ∧ s.slotOpen 1 = true ∧ (s.ceClash 1 0 false (banksOf 64 64)).isNone = true
       ∧ s.uncorr (ppaLocal (copyFar.src.addr (dispOf 0))) 64 = none)
    ∧ ((buffered .a flagged).lineGrant 2 (ppaLocal ((cmd .a (.cpy 64) 0x40 128).src.h.base + 0x40)) 8 true).isSome = true := by decide +kernel
theorem witness_CopyEngineWorks_ends : (((copyIn .queued).core 0).rf .a).length < 32
    ∧ (tileFollow.entry 0 40 = some followed ∧ (tileFollow.core 0).maQueue.length < 4
      ∧ (mmaChk 496 16 0 0 1 2 ((tileFollow.core 0).tdescOf 1) ((tileFollow.core 0).tdescOf 2)).isNone = true)
    ∧ ((faulting.str 0 .a).faults = [⟨990, 30, 0xA1, 9, 8, false⟩] ∧ (faulting.str 0 .a).nest = false ∧ (faulting.str 0 .a).hold = none
      ∧ (faulting.str 0 .a).retireAt < faulting.now ∧ (faulting.str 0 .a).stopped = false ∧ faulting.timedAt 0 = false)
    ∧ ((faulted.core 0).faultedBy .a 9 = some (cmd .a (.cpy 64) 0x40 128 (.faulted 0xA1 0), 0xA1, 0)
      ∧ faulted.missSide 0 (cmd .a (.cpy 64) 0x40 128 (.faulted 0xA1 0)) (cmd .a (.cpy 64) 0x40 128 (.faulted 0xA1 0)).stale = none
      ∧ faulted.missSide 0 (cmd .a (.cpy 64) 0x40 128 (.retranslating 2 [0])) (cmd .a (.cpy 64) 0x40 128 (.retranslating 2 [0])).stale = none) := by
  decide +kernel
/-- An add of 32-bit words, a compare-and-swap against 0, a gather of four words, at offset 128 of the own scratchpad. -/
def adding : CeEntry := cmd .a (.acc .iadd32 4 2 none false false) 0x40 128 .running
def swapping : CeEntry := cmd .a (.cas 2 0 7) 0x40 128 .running
def gathering : CeEntry := cmd .a (.gath 4 2) 0x40 128 .running
theorem witness_CopyEngineWorks_lands :
    (let e := cmd .a (.cpy 64) 0x40 128 .running
     let s := buffered .a e
     s.entry 0 40 = some e ∧ s.isFar 0 e 0 = false ∧ e.landBuf = [] ∧ place (ppaLocal (e.dst.addr (dispOf 0))) = .spad 0 128
     ∧ s.ceClash 0 1 false (banksOf 128 64) = none ∧ s.uncorr (spadOf 0 + 128) 64 = none
     ∧ s.ceClash 0 0 false (banksOf 128 64) = none ∧ (s.core 0).sameByte 1000 1 128 64 = false ∧ s.rival 0 .a 1 (spadOf 0 + 128) 64 = false)
    ∧ (let s := buffered .a adding
       s.entry 0 40 = some adding ∧ s.isFar 0 adding 4 = false ∧ s.ceClash 0 1 false (banksOf 132 4) = none ∧ s.uncorr (spadOf 0 + 132) 4 = none)
    ∧ (let s := buffered .a swapping
       s.isFar 0 swapping 0 = false ∧ BitVec.ofNat 64 (leNat (s.sampled (spadOf 0 + 128) 4)) = 0 ∧ swapping.dst.h.perm &&& pA ≠ 0
       ∧ BitVec.ofNat 64 (leNat (s.sampled (spadOf 0 + 128) 4)) ≠ 1)
    ∧ (let s := buffered .a gathering
       s.isFar 0 gathering 12 = false ∧ gathering.active = true ∧ gathering.flag = none ∧ gathering.gathLine 4 2 (0 / 2 ^ 2) = none
       ∧ gathering.gathLine 4 2 (12 / 2 ^ 2) = some (0, 16) ∧ s.ceClash 0 1 false (banksOf 128 16) = none)
    ∧ ((cmd .a (.cpy 64) 0x40 128 .running).srcLine 64 0 = some (0, 64) ∧ (cmd .a (.cpy 64) 0x40 128 .running).dstLine 64 0 = some (0, 64) ∧ gathering.idxOf 0 < 2 ^ 64
      ∧ (st .a []).locAt 0 adding.src 0 = .hbm ∧ (st .a []).locAt 0 adding.dst 0 = .own ∧ (st .a []).locAt 0 copyFar.src 0 = .core 1)
    ∧ ((cmd .a (.cpy 64) 0 0 .finishing).active = false ∧ flagged.flag.isSome = true
      ∧ (let e : CeEntry := { flagged with st := .running, ev := 1 }
         e.active = true ∧ e.outstanding = 0 ∧ e.next.isNone = true ∧ e.flagSent = false ∧ (e.flag.map (·.marked)) = some false)
      ∧ (let e : CeEntry := { cmd .a (.cpy 64) 0 0 .running with ev := 1 }
         e.next.isNone = true ∧ e.flag = none)) := by
  decide +kernel
/-- R275, R280: a landing adds its word to the one there; the words of a gather are written as one line. -/
theorem test_land_acc : (run1 (.ceEvent 0 40 4 (.land [3, 0, 0, 0])) { buffered .a adding with mem := [(spadOf 0 + 132, 0xFE)] }).map (fun t => t.mem.read (spadOf 0 + 132) 4) = some [1, 1, 0, 0]
    ∧ (run1 (.ceEvent 0 40 12 (.land [4, 0, 0, 0])) (buffered .a { gathering with landBuf := [1, 0, 0, 0, 2, 0, 0, 0, 3, 0, 0, 0] })).map (fun t => t.mem.read (spadOf 0 + 128) 16)
      = some [1, 0, 0, 0, 2, 0, 0, 0, 3, 0, 0, 0, 4, 0, 0, 0] := by
  decide +kernel
/-- R110, R272: a landing writes its bytes; R277: a flag counts up by one. -/
theorem test_land : (run1 (.ceEvent 0 40 0 (.land [1, 2, 3])) (buffered .a copyOut)).map (fun t => t.mem.read 0x40000040 4) = some [1, 2, 3, 0]
    ∧ (run1 (.flagIncrement 0 40) { buffered .a flagged with mem := [(0x40000040, 255)] }).map (fun t => t.mem.read 0x40000040 2) = some [0, 1] := by
  decide +kernel
/-- R393: a command fault enters its handler with INFO0 and INFO1. -/
theorem test_command_fault : (run1 (.commandFaultTrap 0 .a) faulting).map (fun t => ((t.str 0 .a).pc, (t.str 0 .a).trapInfo0, (t.str 0 .a).trapInfo1)) = some (0x1E508, 9, 8) := by
  decide +kernel

/-- One untimed access of HBM is left at every port of a stack in this period. -/
def granted : State := { st .a [] with spent := (List.range 8).map fun j => (2048 + 480 + j, 1) }
/-- A request of W of core 0 to the lock at 0x1000. -/
def ask (op : SyncOp) : SyncReq := ⟨0, 0, .w, 0x1000, op, 6, 5, 0, 0, 41, false, false⟩
/-- A record of the kind `k` at 0x1000 whose W1 is `x` (R291). -/
def object (k : Nat) (x : Nat) : State := { st .w [] with mem := Memory.write [] 0x1000 (leBytes 8 k ++ leBytes 8 x) }
def geCmd0 (op : GeOp) : GeCmd := ⟨42, 0, 6, false, some 5, 0, op, 0, some 990, some 990, 0, [], none, none, 0, 0, [], false, false⟩
def geAt (op : GeOp) : State := { ge [] with geCmds := [geCmd0 op] }
def pkt (route : DWord) : Packet := ⟨.write, route, 0x40000040, [1, 2], 0, none, 0, 0, .w, 40, 0⟩
theorem witness_AgentsAnswer :
    (let s := object 1 0
     (ask .acq).pkg = s.pkg ∧ s.waitersOf (ask .acq).ppa = [] ∧ s.agenda = [] ∧ s.uncorr 0x1000 64 = none ∧ (s.syncRec 0x1000).kind = 1
     ∧ (s.syncRec 0x1000).held = false)
    ∧ ((object 1 (2 ^ 63 + 0xC000)).syncRec 0x1000).held = true ∧ ((object 1 (2 ^ 63 + 0xC000)).syncRec 0x1000).holder = (0, 0, streamNum .w)
    ∧ (((object 2 0x10003).syncRec 0x1000).kind = 2 ∧ ((object 2 0x10003).syncRec 0x1000).arrived + 1 ≠ ((object 2 0x10003).syncRec 0x1000).goal
      ∧ ((object 2 0x20003).syncRec 0x1000).arrived + 1 = ((object 2 0x20003).syncRec 0x1000).goal)
    ∧ (st .w [] fun k => k.modStr .w fun x => { x with hold := some (.sync 41 true none) }).me.hold = some (.sync 41 true none)
    ∧ (st .w []).me.hold = none
    ∧ (let s := { st .w [] (fun k => { k with dgRun := some ⟨3, .w, [(0x40000000, 32), (0x40000020, 32), (0x40000080, 16)], [], 0x40001000⟩ }) with
                    spent := (List.range 8).map fun j => (3072 + 480 + j, 1) }
       s.gated 993 = false ∧ (s.core 0).dgRun.map (·.left) = some ((0x40000000, 32) :: ([(0x40000020, 32)] ++ [(0x40000080, 16)]))
       ∧ (∀ e ∈ s.cores, ∀ x ∈ e.2.dgRun.toList, 3 ≤ x.id) ∧ ppaPkg 0x40000000 = s.pkg
       ∧ (s.classGrant 3 0x40000000 32 false).isSome = true ∧ s.uncorr 0x40000000 32 = none ∧ s.uncorr 0x40000020 32 = none ∧ (s.classGrant 3 0x40001000 48 true).isSome = true)
    ∧ (let s := geAt (.groll 3)
       s.geCmd 42 = some (geCmd0 (.groll 3)) ∧ s.freeWalker = some 0 ∧ (∀ y ∈ s.geCmds, y = geCmd0 (.groll 3))
       ∧ s.soft = [] ∧ s.gated 987 = false ∧ (geCmd0 (.groll 3)).req ≤ s.tick ∧ (geCmd0 (.groll 3)).left = 0
       ∧ (geCmd0 (.groll 3)).begun = none ∧ (geCmd0 (.groll 3)).arrive = some 990
       ∧ (({ s with walkers := Sparse.insert s.walkers 0 (1000 + s.geTicks (geCmd0 (.groll 3))) } : State).modGeCmd 42 fun y =>
           { y with begun := some (1000, 0) }).geOpen { geCmd0 (.groll 3) with begun := some (1000, 0) } = true)
    ∧ (geAt (.groll 3)).geCmd 42 = some (geCmd0 (.groll 3)) ∧ (geCmd0 (.groll 3)).outLines = []
    ∧ (((pkt 0).route.toNat % 16 = 0) ∧ ((pkt 0xB1).route.toNat % 16 ≠ 0 ∧ (pkt 0xB1).route.toNat / 16 % 16 ≤ 11))
    ∧ (ppaPkg (pkt 0).target = (st .a []).pkg ∧ place (ppaLocal (pkt 0).target) = .hbm ∧ (st .a []).swappedOut 0 = none
      ∧ (pkt 0).data.length ≤ 64 - (pkt 0).target % 64 ∧ (granted.classGrant 2 0x40000040 2 true).isSome = true)
    ∧ ((buffered .a flagged).entry 0 40 = some flagged ∧ flagged.st = .finishing)
    ∧ (let e := { cmd .a (.cpy 64) 0 0 .running with outstanding := 1, pushed := 0 }
       e.active = true ∧ e.outstanding ≠ 0 ∧ e.pushed + 2 ^ 22 ≤ { st .a [] with mu := { Mu.idle with count := BitVec.ofNat 80 (2 ^ 38) } }.tick) := by decide +kernel
/-- R292: a free lock goes to its caller: HELD, stream 3, core 0, package 0. R294: the last arrival opens phase 1. -/
theorem test_lock : (run1 (.syncOperationPerform (ask .acq)) (object 1 0)).map (fun t => t.word 0x1008) = some (2 ^ 63 + 0xC000)
    ∧ (run1 (.syncOperationPerform (ask .arr)) (object 2 0x20003)).map (fun t => (t.word 0x1008, t.word 0x1010)) = some (3, 1) := by decide +kernel
/-- R298: a delivered write writes its bytes. -/
theorem test_packet : (run1 (.untimedPacketDelivery (pkt 0)) granted).map (fun t => t.mem) = some [(0x40000040, 1), (0x40000041, 2)] := by decide +kernel

/-! ### Links, the Meridian count and the ports -/

/-- The link engine of port 3 acts on entry 7; staging slot 5 holds units 0 and 1, landed before. -/
def linked : State :=
  { st .c [] with
      cur := .le 3, les := [(3, { Le.idle with on := true, up := true, idx := 7, owner := some 4, mem := [(2, 0x5000000100000000)] })]
      slots := [(3 * 64 + 5, { Slot.free with landed := (List.range 16).map fun l => (l, 990) })] }
theorem witness_EphemerisEntriesActOnTheirLinkEngine : linked.cur = .le 3
    ∧ ((0 : BitVec 3).toNat + (1 : BitVec 3).toNat ≤ 7 ∧ (linked.slot 3 5).missing 1000 (1000 + linked.tInj + 1) 0 2 = false) ∧ (7 : BitVec 3).toNat + (0 : BitVec 3).toNat ≤ 7
    ∧ ((11 : BitVec 4).toNat ≤ 11 ∧ (11 : BitVec 4).toNat ≠ 3) ∧ (1 : BitVec 16) ≠ 0
    ∧ { linked with mu := { linked.mu with count := BitVec.ofNat 80 (2 ^ 36) } }.tick % 2 ^ 20 = 0
    ∧ (Sparse.get 0 (linked.le 3).mem 2).toNat / 2 ^ 28 % 2 ^ 32 < (17 : BitVec 32).toNat := by decide +kernel
/-- R40: a `jump` back to entry 2, whose tick is 16, adds 34 - 16 to D and counts. -/
theorem test_jump : (run1 (.jump 34 2 0 5) linked).map (fun t => ((t.le 3).idx, (t.le 3).d, (t.le 3).jc0, (t.le 3).act0)) = some (2, 18, 4, true)
    ∧ (run1 (.jump 34 2 0 0) linked).map (fun t => ((t.le 3).idx, (t.le 3).d, (t.le 3).act0)) = some (8, 0, false) := by decide +kernel
theorem test_mark : (run1 (.mark 0 0xFF01) linked).map (·.out) = some [.schedMark 0xFF01 5000 3] := by decide +kernel

/-- A package that is no root, with its unit in the state `n` after `e` exchanges. -/
def acquiring (n : BitVec 2) (e missed : Nat) : State := { linked with mu := { linked.mu with st := n, delays := List.replicate e 0, missed := missed } }
theorem witness_MeridianAndPortEvents : ({ linked with mu := { linked.mu with root := true } }).mu.root = true ∧ linked.islands = []
    ∧ ((acquiring 1 3 0).mu.root = false ∧ (acquiring 1 3 0).mu.st ≠ 2) ∧ ((acquiring 2 0 0).mu.st = 2 ∧ ((-65536 : Int) - 65536) - (65536 - 65536) = 2 * (-65536) ∧ (acquiring 2 0 0).inGuard = false
      ∧ ({ linked with mu := { linked.mu with count := BitVec.ofNat 80 (2 ^ 36) } }).inGuard = true ∧ ({ linked with member := 1 }).spare = false
      ∧ ({ linked with member := 0 }).spare = true ∧ ringPeer 7 = some 6 ∧ (linked.le 3).untimed.length < 16)
    ∧ ((acquiring 1 16 0).mu.st = 1 ∧ 16 ≤ (acquiring 1 16 0).mu.delays.length) ∧ 16 ≤ (acquiring 2 0 16).mu.missed
    ∧ ((acquiring 3 16 0).mu.st = 3 ∧ (acquiring 3 16 0).mu.count.toNat ≤ 5000 * 65536 ∧ 5000 * 65536 - 1 < (acquiring 3 16 0).mu.count.toNat)
    ∧ ((linked.le 3).down 1000 = false ∧ (linked.le 3).discard = none ∧ (linked.le 7).discard = none ∧ (linked.le 7).down 1000 = false)
    ∧ (512 ≤ linked.tick % 2 ^ 20 ∧ (linked.le 3).failed = none) ∧ (linked.le 4).uses linked.tick = false ∧ (acquiring 2 0 0).mu.st = 2
    ∧ (let x : Le := { Le.idle with up := true, discard := some true }
       x.down 1000 = false ∧ x.lost ≠ 0xFFFF) := by decide +kernel

/-- A unit that runs, with what is said of it changed; an island with a request for an operating point; port 3 with a unit that has failed. -/
def metered (f : Mu → Mu) : State := { linked with mu := f linked.mu }
def islanded (i : Nat) (pt : BitVec 2) : State := { linked with islands := [(i, ⟨0, some pt⟩)] }
def unit0 : UntimedUnit := ⟨List.replicate 512 0, .write, 7⟩
def unitFailed (n : Nat) : State := linked.modLe 3 fun x => { x with untimed := [(unit0, n)] }
theorem witness_MeridianAndPortEvents_clauses :
    (linked.unitStops (none, uMu) = false ∧ ((islanded 490 3).islands = [(490, ⟨0, some 3⟩)] ∧ (islanded 490 3).pointWhy 490 3 = 0) ∧ (islanded 984 1).pointWhy 984 1 ≠ 0)
    ∧ (let s : State := { metered (fun m => { m with parent := 3, alt := 4 }) with les := [(3, { Le.idle with failed := some 990 })] }
       s.mu.root = false ∧ (s.le s.mu.parent.toNat).failed.isSome = true ∧ s.mu.parent ≠ s.mu.alt)
    ∧ (let m := (metered fun m => { m with slew := some (17, 5) }).mu
       m.running = true ∧ m.hold = 0 ∧ m.slew = some (17, 5))
    ∧ (65536 ≤ (metered fun m => { m with hold := 65536 }).mu.hold ∧ (0 < (metered fun m => { m with hold := 65535 }).mu.hold ∧ (metered fun m => { m with hold := 65535 }).mu.hold < 65536))
    ∧ (let t3 : Int := (acquiring 1 3 0).mu.count.toNat
       ((4 : Int) - 0) - (t3 - (t3 - (2 : Nat))) = 2 * 1) ∧ linked.gated (968 + 3) = false ∧ linked.inGuard = false ∧ linked.spare = false ∧ unit0.data.length = 512
    ∧ (((unitFailed 3).le 3).untimed = [] ++ (unit0, 3) :: [] ∧ ((unitFailed 15).le 3).untimed = [] ++ (unit0, 15) :: [] ∧ (∀ e ∈ (linked.le 3).untimed, e.2 < 16)) := by decide +kernel

/-! ### Launches -/

/-- Context 0 maps the first GiB of its addresses to HBM: root at 0x30000, leaf at 0x31000 (R92, R93); an image without code at 0x10000
(R185); the record of an unplaced free launch of one core, 0, at 0x20080 (R56). -/
def tree : Memory :=
  (((Memory.write [] 0x10000 ((leBytes 4 0x31494758 ++ leBytes 4 1 ++ leBytes 4 64 ++ leBytes 4 0) ++ List.replicate 16 0xFF)).write 0x20080
    (leBytes 8 1 ++ List.replicate 32 0 ++ leBytes 8 0x10000 ++ leBytes 8 0 ++ leBytes 8 0x01010101)).write 0x30000 (leBytes 8 (2 ^ 63 + 0x31))).write
      0x31000 (leBytes 8 0xCFC0000000000000)
def launchAt (ph : Phase) : Launch := { launch0 with q := 5, image := 0x10000, phase := ph }
/-- Queue 5 in HBM at 0x20000 with one record offered; launch 4 of it in the phase `ph`. -/
def hub (ph : Phase) (f : Launch → Launch := id) : State :=
  { st .c [] (fun k => { k with owner := some 4 }) with
      mem := tree, sec := { Security.idle with stage := 6 }
      ctxs := [(0, { CtxRec.idle with bound := true, root := dw (2 ^ 63 + 0x30000) })]
      queues := [(5, { Hwq.idle with sqBase := dw (2 ^ 63 + 0x20000), cqBase := dw (2 ^ 63 + 0x28000), qcfg := 0x504, tail := 2, next := 1, watermark := 1, refused := [(0, 11, 9)] })]
      launches := [(4, f (launchAt ph))] }
/-- The same while the MC has the lines `l` left to read for the check of the record. -/
def checking (l : List (Nat × Nat × Nat)) : State :=
  { (hub .running).modQueue 5 (fun x => { x with reading := some l }) with spent := (List.range 8).map fun j => (1024 + 480 + j, 1) }
theorem witness_LaunchesAreDispatched_queues :
    (let s := hub .running
     let x := s.queue 5
     (6 ≤ s.sec.stage.toNat ∧ x.en = true ∧ x.tail < 16 ∧ (16 : Nat) < 2 ^ 64 ∧ 16 ≤ x.cqHead + 2 ^ x.log2)
     ∧ (x.offers = true ∧ s.queueStarted 5 = true ∧ s.visible x 1 = true ∧ s.soft = [] ∧ (∀ r ∈ s.apReqs, r.write = false))
     ∧ (let w : List DWord := [1, 0, 0, 0, 0, 0x10000, 0, 0x01010101]
        let l := launchOf 5 1 w
        let t := { s with serial := s.serial + 1 }.modQueue 5 fun x => { x with next := 2, reading := none }
        (checking []).predState l = .done ∧ ((checking []).queue 5).reading.getD (s.checkLines 5 1 l) = []
        ∧ ((s.checkLines 5 1 l).head?.map fun e => e.1) = some 1 ∧ ((checking [(1, 0x20080, 64)]).classGrant 1 0x20080 64 false).isSome = true
        ∧ (s.predState (launchOf 5 1 (w.set 1 (dw (2 ^ 63 + 5 * 2 ^ 51)))) = .refused 11 9) ∧ s.predState l = .done ∧ l.ctx.toNat = x.ctx ∧ firstFail (t.recordChecks w l none) = none ∧ (t.readRanges l).toOption = some []
        ∧ (firstFail (t.recordChecks (w.set 7 0) (launchOf 5 1 (w.set 7 0)) none)).map (·.1) = some 2))
    ∧ (let s := { hub .running with queues := [(5, { Hwq.idle with cqBase := dw (2 ^ 63 + 0x28000), qcfg := 0x504, held := [⟨0, 0, 0, 0, 4999, 0⟩] })] }
       let x := s.queue 5
       x.held.map (·.tick) = [4999] ∧ x.cqBase.getLsbD 63 = true ∧ x.w < x.cqHead + 2 ^ x.log2 ∧ (4999 : DWord).toNat < s.tick
       ∧ place (ringAddr x.cqBase x.log2 32 x.w) = .hbm ∧ x.irq = true ∧ ((checking []).classGrant 1 (ringAddr x.cqBase x.log2 32 x.w) 32 true).isSome = true) := by
  decide +kernel
theorem witness_LaunchesAreDispatched_lives :
    (let s := hub .waiting
     (∀ e ∈ s.launches, e.2 = launchAt .waiting) ∧ s.tooLate (launchAt .waiting) = false ∧ s.launch? 4 = some (launchAt .waiting)
     ∧ (launchAt .waiting).eff < 7 ∧ (launchAt .waiting).since + 2 ^ 16 * ((launchAt .waiting).eff - (launchAt .waiting).prio + 1) ≤ 65536
     ∧ { s with mu := { s.mu with count := BitVec.ofNat 80 (2 ^ 32) } }.tick = 65536 ∧ s.rectFree (launchAt .waiting) = true
     ∧ s.overlaps 4 (launchAt .waiting) = false ∧ s.bindable (launchAt .waiting) = true ∧ s.refreshing = false ∧ s.ckptOpen = false
     ∧ s.writeRanges (launchAt .waiting) = [] ∧ (s.readImage 0 0x10000).toOption.isSome = true
     ∧ ({ s with mu := { s.mu with count := BitVec.ofNat 80 (3700 * 65536) } }).refreshing = true ∧ s.tooLate { launchAt .waiting with timed := true } = true)
    ∧ (hub .binding).launch? 4 = some (launchAt .binding) ∧ (launchAt .binding).loaded = false ∧ (launchAt .binding).w ≤ 24
    ∧ (hub .binding fun l => { l with loaded := true }).launch? 4 = some { launchAt .binding with loaded := true }
    ∧ (let s := { hub .running with cores := [] }
       s.retires 4 (launchAt .running) = true ∧ (launchAt .running).bound = true ∧ (launchAt .running).timed = false)
    ∧ (hub .preempting).allStopped (launchAt .preempting) = false
    ∧ (let s := { hub .preempting with cores := [] }
       s.savable (launchAt .preempting) = true)
    ∧ (let s := { hub .waiting with launches := [(4, launchAt .waiting), (6, { launchAt .running with ranges := [(0, 64)], x0 := 3 })] }
       s.overlaps 4 { launchAt .waiting with ranges := [(63, 1)] } = true) := by decide +kernel
/-- A saved launch whose save area, at 0x40000, is complete (R416); a timed one with a station at tick 1,000 and a yield at 5,000. -/
def savedState : State := { hub .saved (fun l => { l with save := 0x40000, saveMap := [(0, 0x40000, 0x4A0000)] }) with mem := tree.write 0x41000 [1] }
def station0 : Station := ⟨0, 100, [(0, 0, 64)], []⟩
def sched0 : Sched := ⟨9, 0, 0, [], 4096, 0, [station0], [904], [], none, false, none, false, false, []⟩
def timedHub (d : Sched) : State :=
  { hub .running (fun l => { l with timed := true, base := 4096 }) with scheds := [(4, d)], les := [(3, { Le.idle with on := true, owner := some 4 })] }
theorem witness_LaunchesAreDispatched_saves :
    (let l := { launchAt .saved with save := 0x40000, saveMap := [(0, 0x40000, 0x4A0000)] }
     savedState.launch? 4 = some l ∧ 23 + l.w ≤ 24 ∧ 19 + l.h ≤ 20 ∧ savedState.rectFree { l with x0 := 23, y0 := 19 } = true
     ∧ leNat (savedState.saveLoad { l with x0 := 23, y0 := 19 } 0x1000 8) % 4 = 1)
    ∧ ((Sparse.get? (timedHub sched0).scheds 4) = some sched0 ∧ sched0.base.toNat + 904 = (timedHub sched0).tick)
    ∧ (let s := { feeding with queues := [(6, { Hwq.idle with sqBase := dw (2 ^ 63 + 0x20000), qcfg := 0x304, tail := 2, next := 1, reading := some [(1, 0x20040, 64)] })], ctxs := (hub .running).ctxs
                               frets := [(0, Fret.idle)] }
       let l := { launch0 with resident := true, feedQ := 6 }
       (s.queue 6).en = true ∧ (s.queue 6).feed = true ∧ s.fedBy 6 = some l
       ∧ ((s.feedScan 6 l 1 0 []).map fun e => (e.1, e.2.1)) = some (0, 0) ∧ 0 < l.frets
       ∧ { s with frets := [(0, { Fret.idle with mb := [(2, 33)] })] }.feedScan 6 l 1 0 [] = none ∧ s.visible (s.queue 6) 1 = true ∧ ((checking []).classGrant 1 0x20040 64 false).isSome = true) := by decide +kernel
/-- The save area of a saved launch holds no granule that cannot be read: nothing is damaged. -/
theorem witness_LaunchesAreDispatched_clean : savedState.saveBad { launchAt .saved with save := 0x40000, saveMap := [(0, 0x40000, 0x4A0000)] } = none := by
  have h : ∀ a n, savedState.uncorr a n = none := fun a n => by simp [State.uncorr, savedState, hub, st, State.reset]
  simp [State.saveBad, h]
/-- The image with one schedule record of package 0 as root, number 9 (R50). -/
def scheduled (ph : Phase) : State :=
  { hub ph (fun l => { l with timed := true }) with
      mem := (tree.write 0x10028 (leBytes 4 0x40 ++ leBytes 4 1)).write 0x10040
        (leBytes 4 10 ++ leBytes 4 0xA0 ++ leBytes 4 0x31444353 ++ leBytes 4 1 ++ leBytes 4 9 ++ leBytes 4 0 ++ [3]) }
theorem witness_LaunchesAreDispatched_clauses :
    ((hub .waiting).awaits (.bind 4) = false ∧ (launchAt .waiting).since + 2 ^ 16 * ((launchAt .waiting).eff - (launchAt .waiting).prio + 1) > (hub .waiting).tick)
    ∧ (let l := { launchAt .binding with timed := true }
       (scheduled .binding).launch? 4 = some l ∧ (l.sched? (scheduled .binding)).map (fun d => (d.rootPkg, d.id, d.pkgMap.take 2, mapHas d.pkgMap 1, mapHas d.pkgMap 2))
         = some ((scheduled .binding).pkg, 9, [3, 0], true, false))
    ∧ (let l := { launchAt .preempting with reqTick := some 4990 }
       l.reqTick = some 4990 ∧ (hub .preempting fun _ => l).launch? 4 = some l ∧ (hub .preempting fun _ => l).tick < 4990 + 2 ^ 20
       ∧ 4990 + 2 ^ 20 ≤ ({ hub .preempting (fun _ => l) with mu := { Mu.idle with count := BitVec.ofNat 80 (2 ^ 38) } }).tick) := by decide +kernel
/-- R332: a doorbell moves the tail. R59: check 9 refuses a record whose QSEQ is not its place. -/
theorem test_doorbell : (run1 (.doorbell 5 16) (hub .running)).map (fun t => (t.queue 5).tail) = some 16 := by decide +kernel
theorem test_launchCheck : (run1 (.launchCheck 5) (checking [])).map (fun t => ((t.queue 5).next, t.launches.map fun e => (e.1, e.2.phase))) = some (2, [(0, .waiting), (4, .running)])
    ∧ (run1 (.launchCheck 5) { checking [] with mem := tree.set 0x20080 3 }).map (fun t => (t.queue 5).refused.map fun e => (e.1, e.2.1, e.2.2)) = some [(1, 11, 9), (0, 11, 9)] := by
  decide +kernel

/-! ### Errors, stations, hosts, upkeep -/

def record0 : ErrRec := ⟨2, 7, 1, 1, 4990, 0, 0, 0, 0, 0, 0⟩
/-- The ring of error records at 0x50000 with 64 places; one record is held. -/
def collecting : State :=
  { granted with col := { Collector.idle with base := dw (2 ^ 63 + 0x50000), cfg := 0x106, held := [record0] }
                 spent := (List.range 8).map fun j => (480 + j, 1) }
/-- The tree of `tree`, with two units of class 0 left at every port of a stack. -/
def mapped : State := { hub .running with spent := (List.range 8).map fun j => (480 + j, 2) }
theorem witness_ErrorsAreRecordedAndRecovered : (st .a []).timedAt 0 = false
    ∧ (Sparse.get Fret.idle ({ st .a [] with frets := [(0, { Fret.idle with frozen := true })] }).frets 0).frozen = true
    ∧ (Sparse.get Fret.idle (st .a []).frets 0).frozen = false
    ∧ ((st .a [] fun k => k.modStr .a fun x => { x with hold := some (.miss 7 0x1234 10) }).str 0 .a).hold = some (.miss 7 0x1234 10)
    ∧ (let s := mapped
       s.soft = [] ∧ s.shotHeld 0 0 0 3 = false ∧ (s.walkCtx 0 0).isSome = true ∧ ((s.walkCtx 0 0).map fun e => e.1.extractLsb' 54 2) = some 3
       ∧ ((s.walkCtx 0 0).map fun e => ((s.classGrant 0 (e.2 - 4096) 8 true).isSome, (s.classGrant 0 e.2 8 true).isSome)) = some (true, true)
       ∧ s.inFlight 15 s.serial = false ∧ ((s.emit .shootdownDone).classGrant 0 0x32000 8 true).isSome = true)
    ∧ ((3 : BitVec 4).getLsbD (dieOf 0) = true ∧ (2 : BitVec 4).getLsbD (dieOf 0) = false)
    ∧ ({ st .a [] (fun k => { k with owner := some 4 }) with frets := [(0, { Fret.idle with frozen := true })] }).frzFrozen 0 = true
    ∧ (st .a []).frzFrozen 0 = false
    ∧ collecting.col.held = record0 :: [] ∧ collecting.col.ready = true ∧ ({ collecting.col with cfg := 0 } : Collector).ready = false
    ∧ (collecting.classGrant 0 (ppaLocal (collecting.col.base.toNat % 2 ^ 58)) 64 true).isSome = true := by decide +kernel
/-- A miss of stream A of core 0 stalls, alone in its fret; the leaf at 0x31000 damaged; a fill that has come. -/
def missing : State :=
  { mapped with cores := [(0, { core0 [] with owner := some 4, a := { run [] with hold := some (.miss 7 0x1234 10) } })], frets := [(0, { Fret.idle with misses := 1 })] }
def missBad : State := { missing with dmg := [(0x31000 / 8, .double)] }
def filled : State := { mapped with cores := [(0, { core0 [] with a := { run [] with hold := some (.filled 7 0x1234 10 0xCFC0000000000000 false) } })] }
theorem witness_ErrorsAreRecordedAndRecovered_clauses :
    ((missing.str 0 .a).hold = some (.miss 7 0x1234 10) ∧ ((missing.str 0 .a).nest = false ∧ missing.timedAt 0 = false) ∧ missing.soft = [])
    ∧ (missing.treeBad (missing.core 0).ctx 0x1234 = none ∧ (missing.walkCtx 0 0x1234).map (·.2) = some 0x32000 ∧ (missing.classGrant 0 0x32000 8 true).isSome = true)
    ∧ (({ missing with spent := [] }).classGrant 0 0x32000 8 true = none ∧ ((missing.fretOf 0).frozen = false ∧ (missing.fretOf 0).misses = 1))
    ∧ (({ missing with ctxs := [] }).treeBad 0 0x1234 = none ∧ ({ missing with ctxs := [] }).walkCtx 0 0x1234 = none ∧ (missBad.treeBad 0 0x1234).isSome = true)
    ∧ (0x31000 + 8 ≤ hbmTop ∧ (missing.classGrant 0 0x31000 8 true).isSome = true ∧ (filled.str 0 .a).hold = some (.filled 7 0x1234 10 0xCFC0000000000000 false))
    ∧ (0 / pageLines 3 ≤ 0 ∧ ((mapped.classGrant 0 0x31000 8 true).bind fun t => t.classGrant 0 0x32000 8 false).isSome = true ∧ 0 < 1 / pageLines 3)
    ∧ (let s := { timedHub sched0 with cores := [(0, { core0 [] with owner := some 4, timed := true, h := [(1, mkHandle true 0 3 0x40000000 15 0 0 64)] })] }
       s.shotHeld 0 0 0 3 = true)
    ∧ ((1 : BitVec 4).getLsbD (dieOf 0) = true ∧ shotHandle 0 0 0 3 (leafHandle 0 0 0 0xCFC0000000000000 0x1234 10) = true) := by decide +kernel
/-- R388: the record goes to the place of TAIL, with its class, code and count in the last word but two (R386). -/
theorem test_errorRecord : (run1 .errorRecordWrite collecting).map (fun t => (t.col.tail, t.col.held, t.mem.all fun e => 0x50000 ≤ e.1 && e.1 < 0x50040)) = some (1, [], true) := by
  decide +kernel
/-- R93, R98: a shootdown first clears V of the leaf, and its reserved bits stay 0; with the pages done, its second step drops the slice entry. -/
theorem test_shootdown : (mapped.unmap 0 0 0 3 0x801FC00000000005 0 ⟨[], 0, []⟩).word 0x31000 = 5
    ∧ ((sliced.unmap 0 0 2 0 0 3 ⟨[], 0, []⟩).slices.map fun e => e.2.length).sum = 0 := by decide +kernel

def ckpt0 : Ckpt := ⟨0, [], [], []⟩
def voided : State := { timedHub { sched0 with voided := true, station := some 0 } with ckpts := [(8, ckpt0)] }
theorem witness_StationsVoidsAndRollback : ((timedHub sched0).stationAt 4 1).isNone = true
    ∧ ((timedHub { sched0 with window := some 1100 }).stationAt 4 0).map (fun e => (e.2.1, e.2.2)) = some ({ sched0 with window := some 1100 }, station0)
    ∧ ({ st .a [] with journal := { Journal.idle with on := true } }).journal.on = true
    ∧ ((timedHub sched0).launch? 4 = some { launchAt .running with timed := true, base := 4096 } ∧ ({ launchAt .running with timed := true } : Launch).placed = true)
    ∧ (voided.gePending [0] = false ∧ Sparse.get? voided.ckpts (2 * 4 + 0) = some ckpt0 ∧ (voided.readImage 0 0x10000).toOption = some ⟨[], [noEntry, noEntry, noEntry, noEntry], []⟩)
    ∧ ({ timedHub sched0 with mu := { Mu.idle with root := true } }).mu.root = true ∧ (0, 2, 1) ∈ ({ sched0 with station := some 0, rolled := [(0, 2, 1)] }).rolled
    ∧ Sparse.get? (timedHub { sched0 with voided := true }).ckpts 8 = none ∧ (3 : Nat) ≠ (st .a []).pkg ∧ (st .a []).scheds = []
    ∧ (st .a []).holdsShare ⟨0, 0, 1, 0⟩ = true ∧ (st .a []).soft = [] ∧ 4096 * 5 < ({ ctl := 0, base := 0, share := 1, version := 0 } : Extent).shareBytes := by decide +kernel

/-- The cause of a void (R439): class, code, whether a journal is full, whether every package is LOCKED. -/
def cause (cls code : Nat) (full locked : Bool) : VoidCause := ⟨cls, code, [], full, locked, none⟩
def completed (f : Sched → Sched) : State := timedHub (f { sched0 with station := some 0, pkgMap := [1] })
theorem witness_StationsVoidsAndRollback_clauses :
    ((timedHub sched0).dmg = [] ∧ (timedHub sched0).ckptBad { launchAt .running with timed := true, base := 4096 } station0 = none
       ∧ (({ timedHub sched0 with dmg := [(spadOf 0 / 8, .double)] }).ckptBad { launchAt .running with timed := true, base := 4096 } station0).isSome = true)
    ∧ ((completed id).alone { sched0 with pkgMap := [1] } = true ∧ (completed id).alone { sched0 with pkgMap := [3] } = false ∧ sched0.rootPkg = (completed id).pkg ∧ ({ sched0 with rootPkg := 1 }).rootPkg ≠ (completed id).pkg)
    ∧ ((cause 3 0 false true).cls = 3 ∧ ((cause 5 5 false true).cls = 5 ∧ (cause 5 5 false true).code = 5) ∧ ((cause 5 4 false false).code = 4 ∧ (completed id).mu.st ≠ 2))
    ∧ (((completed id).voidAll { sched0 with pkgMap := [1] }).lastStation { sched0 with pkgMap := [1] } (cause 2 0 false true) = none ∧ ((completed id).voidAll sched0).lastStation { sched0 with station := some 0, pkgMap := [1] } (cause 2 1 false true) = some 0)
    ∧ ((0, 2, 1) ∉ sched0.rolled ∧ (cause 2 1 true true).full = true ∧ (cause 2 1 false true).full = false ∧ ((completed id).voidAll { sched0 with pkgMap := [1] }).canRoll (launchAt .running) 0 0 = true)
    ∧ (({ completed id with journal := { Journal.idle with full := true } }).canRoll (launchAt .running) 0 0 = false ∧ (∀ e ∈ (voided).ofSched 9, voided.gePending e.2.1.cores = false))
    ∧ (voided.areaOf 4 0 = some (false, ckpt0) ∧ voided.areaOf 4 1 = none ∧ ({ st .a [] with mu := { Mu.idle with successor := true, rootPkg := 3 } }).mu.successor = true) := by decide +kernel
/-- Extent 5, published by host 0 as version 7 (`n` = 2) or in another state, with a share of 2 MiB at 0x600000. -/
def ext (n : Nat) : Extent := ⟨dw (n * 2 ^ 16), 0x600000, 1, 7⟩
def shared (n : Nat) : State :=
  { st .a [] with sec := { Security.idle with stage := 6 }, extents := [(5, ext n)], apwin := dw (2 ^ 63 + 5), queues := [(5, { Hwq.idle with qcfg := 0x506 })] }
def request : AperReq := ⟨9, some 5, false, 0, 2, [], [1], false, false, [], none⟩
/-- A stripe that has lost two blocks aborts a write; one that has lost its data block 0, at W = 1, is read from W = 0, 2 and 3 (R336, R442). -/
theorem test_lostStripe : (({ shared 1 with lost := [256, 512], apReqs := [request] }).extentStep 5 { request with write := true, data := [1, 2] }).out = [.abort]
    ∧ (({ shared 2 with lost := [256], pkg := 512, apReqs := [request] }).extentStep 5 request).apReqs.map (fun r : AperReq => (r.asked, r.todo)) = [(true, [0, 2, 3])] := by
  decide +kernel
theorem witness_HostsShareTheirMemory : (6 ≤ (shared 1).sec.stage.toNat ∧ 100 + 64 ≤ 2 ^ 36 ∧ (st .a []).apwin.getLsbD 63 = false)
    ∧ ((shared 1).apwin.getLsbD 63 = true ∧ (shared 1).apwin.toNat % 1024 = 5) ∧ ((shared 3).extent 5).state = 3
    ∧ (((shared 1).extent 5).state = 1 ∧ ((shared 1).extent 5).host = (shared 1).pkg ∧ 100 + 64 ≤ 3 * ((shared 1).extent 5).shareBytes)
    ∧ ((shared 2).extent 5).state = 2 ∧ (shared 2).hostOpen = true ∧ ((shared 2).queue 5).qcfg.getLsbD 8 = true ∧ ((shared 2).queue 4).qcfg.getLsbD 8 = false
    ∧ Sparse.get? (shared 2).leases 5 = none ∧ Sparse.get? ({ shared 2 with leases := [(5, 5000)] }).leases 5 = some 5000
    ∧ ({ shared 2 with apReqs := [request] }).apReqs.find? (·.id = 9) = some request
    ∧ ((shared 3).apReqs.any (·.ext = some 5) = false ∧ (({ shared 3 with pkg := 1 }).holdsShare ((shared 3).extent 5) && ((shared 3).extent 5).shareBytes ≠ 0) = false)
    ∧ ((0x700000005 : DWord).toNat % 1024 = 5 ∧ (0x000000005 : DWord).toNat / 2 ^ 32 % 1024 = (shared 2).pkg)
    ∧ pairLt ((shared 2).extent 5).pair (8, 0) = true ∧ pairLt ((shared 2).extent 5).pair (7, 0) = false
    ∧ (st .a []).tick % 2 ^ 20 ≤ 2 ^ 19 ∧ ((ge []).geCtx 5).bound = true ∧ ((ge []).geCtx 6).bound = false := by decide +kernel
/-- The same, with a lease of host 0 till tick 6,000. -/
def leased (n : Nat) : State := { shared n with leases := [(0, 6000)] }
/-- A package of another ring than extent 5's; a state at the start of a guard interval. -/
def elsewhere (n : Nat) : State := { leased n with pkg := 7 }
def starting (s : State) : State := { s with mu := { s.mu with count := BitVec.ofNat 80 (2 ^ 36) } }
theorem witness_HostsShareTheirMemory_clauses :
    ((leased 2).hostOpen = true ∧ Sparse.get? (leased 2).leases (leased 2).pkg = some 6000 ∧ (leased 2).tick < 6000 ∧ 6000 ≠ (leased 2).tick + (leased 2).leaseTicks ∧ 6000 ≤ (starting (leased 2)).tick)
    ∧ (6000 < 7000 + (leased 2).leaseTicks ∧ Sparse.get? (leased 2).leases 5 = none ∧ Sparse.get? ({ leased 2 with leases := [(5, 6000)] }).leases 5 = some 6000)
    ∧ ((leased 2).pkg = ((leased 2).extent 5).ring ∧ (elsewhere 2).pkg ≠ ((elsewhere 2).extent 5).ring ∧ (Sparse.get? (leased 2).leases 0).any ((leased 2).tick < ·) = true ∧ (Sparse.get? (shared 2).leases 0).any ((shared 2).tick < ·) = false)
    ∧ (({ leased 2 with pubWait := [(5, 8, 0)] }).pubWait.contains (5, 8, 0) = true ∧ (leased 2).pubWait.contains (5, 8, 0) = false)
    ∧ ((ge []).tick % 2 ^ 20 ≠ 0 ∧ ((starting (ge [])).tick % 2 ^ 20 = 0 ∧ (starting (ge [])).soft = [] ∧ ((starting (ge [])).geCtx 5).bound = true ∧ ((starting (ge [])).geCtx 5).ctx = 0)) := by decide +kernel
/-- R447: a later version is published, and known once every member has it; the same one again is SUPERSEDED. -/
theorem test_publication : (run1 (.publicationDecision 5 8 ⟨0, .request⟩) (leased 2)).map (fun t => ((t.extent 5).pair, t.pubWait)) = some ((8, 0), [(5, 8, 0)])
    ∧ (run1 (.publicationDecision 5 7 ⟨0, .request⟩) (leased 2)).map (fun t => ((t.extent 5).pair, t.pubstat)) = some ((7, 0), 1) := by decide +kernel

/-- The sampling unit of core 0 with a period of 2 and a buffer of four records at 0x100, `n` of them written. -/
def sampling (n : Nat) (pend : List (DWord × DWord)) : State :=
  { st .a [] (fun k => { k with smp := { Sampler.off with ctl := 5, buf := 0x100000100, start := 4998, wr := BitVec.ofNat 32 n, pend := pend } }) with
      spent := [(4096, 1)] }
/-- Which images the supervisor accepts is a free value (log 8): no witness for a boot that succeeds can be written down. -/
theorem witness_PowerUpkeepAndSampling : (shared 2).hostOpen = true ∧ (shared 2).sec.attBusy = false ∧ (1 : DWord).getLsbD 0 = true
    ∧ ({ Security.idle with attBusy := true, leaf := 1023 } : Security).leaf < 1024 ∧ 1024 ≤ ({ Security.idle with attBusy := true, leaf := 1024 } : Security).leaf
    ∧ smpbufBad 0x100000100 = false ∧ smpbufBad 1 = true ∧ (sampling 0 []).myCore.smp.en = true
    ∧ ((sampling 0 []).myCore.running = true ∧ (sampling 0 []).myCore.smp.j + 1 = 1
      ∧ ((sampling 0 []).tick - (sampling 0 []).myCore.smp.start) / (sampling 0 []).myCore.smp.period = 1)
    ∧ ((0 : BitVec 32) + BitVec.ofNat 32 0 - 0).toNat < (sampling 0 []).myCore.smp.cap ∧ (sampling 0 []).myCore.smp.cap ≤ ((4 : BitVec 32) + BitVec.ofNat 32 0 - 0).toNat
    ∧ ((sampling 0 [(1, 2)]).classGrant 4 (spadOf 0 + 0x100) 16 true).isSome = true
    ∧ ((st .a []).hubWrite 0x3000000 0).isNone = true ∧ ((st .a []).bar0Write 0x3000000 0).isNone = true
    ∧ (Sparse.get .idle (st .a []).ctxs 5).bound = false := by decide +kernel
theorem witness_PowerUpkeepAndSampling_clauses :
    (let s : State := sampling 0 []
     s.myCore.running = true ∧ (({ s with mu := { s.mu with count := BitVec.ofNat 80 (4999 * 65536) } }).tick - s.myCore.smp.start) / s.myCore.smp.period ≤ s.myCore.smp.j)
    ∧ (8 * 0x8000 < hbmTop ∧ (mapped.classGrant 0 (8 * 0x8000) 8 true).isSome = true ∧ hbmTop ≤ 8 * hbmTop ∧ mapped.soft = [])
    ∧ ((sampling 0 [(1, 2)]).recordWaits (some 0) none uSmp 0 = false ∧ (sampling 0 [(1, 2)]).myCore.parity.contains keySmp = false) := by decide +kernel
/-- R353: a record is written to its place, 16 bytes; R352: with a full buffer it is counted as dropped. -/
theorem test_sampling : (run1 (.sampleRecordWrite 0) (sampling 0 [(1, 2)])).map (fun t => (t.mem.read (spadOf 0 + 0x100) 16, t.myCore.smp.wr))
      = some ([1, 0, 0, 0, 0, 0, 0, 0, 2, 0, 0, 0, 0, 0, 0, 0], 1)
    ∧ (run1 (.samplingTick 0) (sampling 4 [])).map (·.myCore.smp.dropped) = some 1 := by decide +kernel

/-! ### Encoding and the step -/

/-- Each check of well-formedness refuses a term (R37, R38, R164 to R169, R237). -/
theorem test_illFormed : (Instr.loop 0 1 .lc0 0).wf = false ∧ (Instr.loopr 0 1 .lc2 0).wf = false
    ∧ (Instr.vxsum 0 ⟨false, 1, 2, 3, none, 0, .fp32, 10⟩).wf = false ∧ (Instr.send 0 ⟨hdrT, 1, 1, 3, 12, 0, 0⟩).wf = false
    ∧ (Instr.recv 0 ⟨hdrT, 1, 1, 3, 12, 0, 0⟩).wf = false ∧ (Instr.xfer 1 0 7 1).wf = false ∧ (Instr.dlv 1 0 7 1).wf = false
    ∧ (Instr.fwd 1 12 0).wf = false ∧ (Instr.inj 1 0).wf = false := by decide +kernel
/-- Words of further families put together by hand (R161 to R168, R194, R205, R272, R310): `sysr G3, 0x806`, a loop, a plain `cpy`, `gadv`. -/
theorem test_decode : decode 0x00083806 0 0 0 = .ok (.sysr 0 3 0x806) ∧ decode 0x04028005 0 0 0 = .ok (.loop 0 1 .lc1 5)
    ∧ decode 0x0E004100 0x00880120 0x00000060 0 = .ok (.cpy 0 ⟨hdr0, 0, 2, 1, 0, false, 1, 2, 3, ⟨false, 0, 0⟩⟩)
    ∧ decode 0x0F480000 0 0x00000026 0x01000000 = .ok (.gadv 0 gh 2) := by decide +kernel
theorem witness_AStepRunsWhatItDecodes :
    (let s := (st .a []).withFetchWord 32 0x00464285
     s.inputs = [] ∧ s.agenda = [] ∧ s.dueLe = none ∧ s.nextStream = some (0, .c) ∧ (s.str 0 .c).pc = 0 ∧ s.iword 0 0 = 0x00464285
     ∧ s.stoppedPkg = false ∧ decode (s.iword 0 0) 0 0 0 = .ok (.div 0 3 4 5))
    ∧ decode 0x07000000 0 0 0 = .bad .maj ∧ firstEvent ≤ (Instr.powerOff).ctorIdx
    ∧ (let s := { st .c [] with les := [(3, { Le.idle with on := true, mem := [(0, 0x5000000100000000)], base := 4984 })] }
       s.dueLe = some 3 ∧ decodeEph (Sparse.get 0 (s.le 3).mem 0) = some (.hold 16) ∧ ((s.le 3).at 0).toNat = s.tick) := by decide +kernel
theorem witness_AStepRunsWhatItDecodes_premises :
    (let s := (st .a []).withFetchWord 32 0x00464285
     s.sec.fail = 0 ∧ s.takeInput s.inputs = none ∧ ({ s with cur := .stream 0 .c } : State).badPc = false ∧ (s.core 0).soft = [] ∧ s.soft = [])
    ∧ (({ st .a [] with inputs := [.powerOff] }).takeInput [.powerOff] = some (.powerOff, []) ∧ (st .a []).holds .powerOff = false
    ∧ ({ st .a [] with sec := { Security.idle with fail := 5 } }).sec.fail ≠ 0) := by decide +kernel
theorem witness_DecodingInvertsEncoding : (Instr.div 0 3 4 5).wf = true ∧ encode (.div 0 3 4 5) ≠ [] ∧ encodeEph (.hold 16) = some 0x5000000100000000 := by
  decide +kernel
theorem witness_EachInstructionHasOneEncoding : decode 0x00464285 0 0 0 = .ok (.div 0 3 4 5) ∧ decodeEph 0x5000000100000000 = some (.hold 16) := by decide +kernel
theorem witness_EveryStepGoesOn : (∃ t, exec (.registerWrite 0x008 0) { st .a [] with inputs := [], cur := .hub } = .next t)
    ∧ ({ st .a [] with stoppedPkg := true }).stoppedPkg = true ∧ ({ st .a [] with stoppedPkg := true }).inputs = [] := ⟨⟨_, rfl⟩, rfl, rfl⟩
theorem witness_EveryStepKeepsMemoryCanonical : (eight .a []).mem.wf = true ∧ ∃ t, step (eight .a []) = .next t := ⟨by decide +kernel, ⟨_, rfl⟩⟩
/-- The first event follows the last instruction of the streams and the ephemerides. -/
theorem test_firstEvent : (Instr.maStart 0).ctorIdx = firstEvent := by decide +kernel
/-- A word that the fetch finds runs: `addi G1, G2, -1` (R190). -/
theorem test_withFetchWord : (match step (State.reset.withFetchWord 32 0x00822FFF) with
    | .next t => some (((t.str 0 .c).gr 1), (t.str 0 .c).pc)
    | _ => none) = some (0xFFFFFFFFFFFFFFFF, 4) := by decide +kernel
theorem test_decodeTableWord : decodeTableWord 32 0x00822FFF = some (.addi 0 1 2 0xFFF) ∧ decodeTableWord 64 0x0FFFFFFE02CFFFFF = some (.li 0 7 0x1FFFFFFFFFFE) := by
  decide +kernel
end Sys2Proof.Tests
end

section
/-! PROOFS. The state after reset (R6, R23, R25, R39, R331, R343): its maps list nothing, so each core, stream, queue and link engine
reads as the idle one. -/

namespace Sys2Proof.Machine

/-! ### What the parts of the reset state read as -/

@[simp] theorem State.reset_core (c : Nat) : State.reset.core c = .idle := Sparse.get_nil
@[simp] theorem State.reset_queue (q : Nat) : State.reset.queue q = .idle := Sparse.get_nil
@[simp] theorem State.reset_le (p : Nat) : State.reset.le p = .idle := Sparse.get_nil

@[simp] theorem Core.idle_str (i : StreamId) : Core.idle.str i = .idle := by cases i <;> rfl

theorem State.reset_str (c : Nat) (i : StreamId) : State.reset.str c i = .idle := by simp

/-! ### The package is idle -/

theorem State.reset_core_stopped (c : Nat) :
    (State.reset.core c).running = false ∧ (State.reset.core c).ce = [] ∧ (State.reset.core c).numstat = 0 := by
  rw [State.reset_core]
  exact ⟨rfl, rfl, rfl⟩

theorem State.reset_str_halted (c : Nat) (i : StreamId) :
    (State.reset.str c i).nest = false ∧ (State.reset.str c i).halted = true := by
  rw [State.reset_str]
  exact ⟨rfl, rfl⟩

/-- EN of QCFG is clear in a queue whose register is zero (R331). -/
theorem State.reset_queue_disabled (q : Nat) : (State.reset.queue q).en = false := by
  rw [State.reset_queue]
  rfl

theorem State.reset_le_off (p : Nat) : (State.reset.le p).on = false ∧ (State.reset.le p).failed = none := by
  rw [State.reset_le]
  exact ⟨rfl, rfl⟩

/-- Settles O60: the parts kept in maps read as idle, and the other fields stand in the reset state itself. -/
theorem resetLeavesThePackageIdle : Obligations.ResetLeavesThePackageIdle := by
  unfold Obligations.ResetLeavesThePackageIdle
  exact ⟨Memory.wf_nil, rfl, rfl, rfl, rfl, rfl, rfl, State.reset_core_stopped, State.reset_str_halted, State.reset_queue_disabled,
    State.reset_le_off, rfl, rfl, rfl⟩

end Sys2Proof.Machine
end

section
/-! PROOFS. Stores and granted accesses, in what they leave of memory and of the cores: a store writes its bytes and counts events
(R369 to R375), a grant takes banks (R102, R339). -/

namespace Sys2Proof.Machine

/-! ### Records and counts -/

/-- Of memory and the cores, `t` differs from `s` in the event counts of this tick alone. -/
structure State.CountsOnly (s t : State) : Prop where
  mem : t.mem = s.mem
  core (c : Nat) : t.core c = { s.core c with ctrNew := (t.core c).ctrNew }

theorem State.CountsOnly.of_eq {s t : State} (hm : t.mem = s.mem) (hc : t.cores = s.cores) : s.CountsOnly t :=
  ⟨hm, fun c => by simp only [State.core, hc]⟩

theorem State.CountsOnly.refl (s : State) : s.CountsOnly s := .of_eq rfl rfl

theorem State.CountsOnly.trans {s t u : State} (h : s.CountsOnly t) (h' : t.CountsOnly u) : s.CountsOnly u :=
  ⟨h'.mem.trans h.mem, fun c => by rw [h'.core c, h.core c]⟩

/-- Steps of a fold that count events alone do so together. -/
theorem State.CountsOnly.foldl {α : Type} {s t : State} {f : State → α → State} (hf : ∀ (u : State) a, u.CountsOnly (f u a)) (l : List α)
    (h : s.CountsOnly t) : s.CountsOnly (l.foldl f t) :=
  List.foldlRecOn (motive := s.CountsOnly) l f h fun u hu a _ => hu.trans (hf u a)

theorem State.countsOnly_setCore_count (s : State) (c n : Nat) : s.CountsOnly (s.setCore c ((s.core c).count n)) where
  mem := rfl
  core d := by
    by_cases h : d = c
    · subst h
      rw [State.core_setCore_self]
      rfl
    · rw [State.core_setCore_ne _ _ h]

theorem State.countsOnly_raise (s : State) (cls code array : Nat) (w : Who) (addr : Option Nat) (i0 i1 : DWord) :
    s.CountsOnly (s.raise cls code array w addr i0 i1) := by
  unfold State.raise
  dsimp only
  split
  · exact .refl s
  · exact .of_eq (State.planOnce_mem ..) (State.planOnce_cores ..)

theorem State.countsOnly_corrected (s : State) (code array : Nat) (w : Who) (addr : Option Nat) :
    s.CountsOnly (s.corrected code array w addr) := by
  unfold State.corrected
  cases w.core with
  | none => exact State.countsOnly_raise ..
  | some c => exact (State.countsOnly_setCore_count s c 74).trans (State.countsOnly_raise ..)

theorem State.countsOnly_correctedAt (s : State) (w : Who) (a : Nat) : s.CountsOnly (s.correctedAt w a) := by
  unfold State.correctedAt
  split <;> exact State.countsOnly_corrected ..

theorem State.countsOnly_touch (s : State) (w : Who) (l n : Nat) : s.CountsOnly (s.touch w l n) := by
  unfold State.touch
  dsimp only
  generalize (if n = 0 then [] else _ : Sparse Damage) = hits
  split
  · exact .refl s
  · exact .foldl (fun u _ => State.countsOnly_correctedAt u ..) _ (.of_eq rfl rfl)

/-! ### Stores -/

theorem State.countsOnly_journalLine (s : State) (line : Nat) : s.CountsOnly (s.journalLine line) := by
  unfold State.journalLine
  split
  · exact .refl s
  · exact (State.CountsOnly.foldl (fun u _ => State.countsOnly_raise u ..) _ (State.countsOnly_touch s ..)).trans (.of_eq rfl rfl)

theorem State.countsOnly_journalRange (s : State) (l n : Nat) : s.CountsOnly (s.journalRange l n) := by
  unfold State.journalRange
  split
  · exact .refl s
  · exact .foldl (fun u _ => State.countsOnly_journalLine u _) _ (.refl s)

theorem State.countsOnly_noteLines (s : State) (l n : Nat) : s.CountsOnly (s.noteLines l n) := by
  unfold State.noteLines
  split
  · exact .refl s
  · exact .of_eq rfl rfl

/-- A store writes its bytes; what it journals, corrects and records counts events. -/
theorem State.countsOnly_store (s : State) (w : Who) (l : Nat) (bs : List Byte) :
    State.CountsOnly { s with mem := s.mem.write l bs } (s.store w l bs) := by
  have hj : s.CountsOnly ((s.journalRange l bs.length).noteLines l bs.length) :=
    (State.countsOnly_journalRange s ..).trans (State.countsOnly_noteLines ..)
  unfold State.store
  dsimp only
  refine .foldl (fun u _ => State.countsOnly_raise u ..) _ (.foldl (fun u _ => State.countsOnly_correctedAt u ..) _ ?_)
  exact ⟨congrArg (·.write l bs) hj.mem, hj.core⟩

theorem State.get_mem_store (s : State) (w : Who) (l j : Nat) (bs : List Byte) :
    (s.store w l bs).mem.get j = if l ≤ j ∧ j < l + bs.length then bs.getD (j - l) 0 else s.mem.get j := by
  rw [(State.countsOnly_store s w l bs).mem]
  exact Memory.get_write

theorem State.smp_store (s : State) (w : Who) (l c : Nat) (bs : List Byte) : ((s.store w l bs).core c).smp = (s.core c).smp := by
  rw [(State.countsOnly_store s w l bs).core c]
  rfl

theorem length_leBytes (n v : Nat) : (leBytes n v).length = n := by
  induction n generalizing v with
  | zero => rfl
  | succ n ih => exact congrArg (· + 1) (ih _)

/-! ### Granted accesses -/

/-- A granted access takes banks of a core, and leaves the rest of each core. -/
theorem State.core_lineGrant {s t : State} {cls l n : Nat} {wr : Bool} (h : s.lineGrant cls l n wr = some t) (c : Nat) :
    t.core c = { s.core c with bankUse := (t.core c).bankUse } := by
  unfold State.lineGrant at h
  split at h
  · cases h
  · split at h
    next tc o _ =>
      split at h
      · cases h
      · cases h
        rw [State.modCore_eq]
        by_cases hc : c = tc
        · subst hc
          rw [State.core_setCore_self]
          rfl
        · rw [State.core_setCore_ne _ _ hc]
    next =>
      split at h
      · cases h
      · cases h
        rfl
    next =>
      cases h
      rfl

theorem State.core_classGrant {s t : State} {cls l n : Nat} {wr : Bool} (h : s.classGrant cls l n wr = some t) (c : Nat) :
    t.core c = { s.core c with bankUse := (t.core c).bankUse } := by
  unfold State.classGrant at h
  obtain ⟨v, hv, hg⟩ := Option.bind_eq_some_iff.mp h
  unfold State.spend at hv
  dsimp only at hv
  split at hv
  · cases hv
  · cases hv
    exact State.core_lineGrant hg c

theorem State.smp_classGrant {s t : State} {cls l n : Nat} {wr : Bool} (h : s.classGrant cls l n wr = some t) (c : Nat) :
    (t.core c).smp = (s.core c).smp := by
  rw [State.core_classGrant h c]

theorem State.mem_classGrant {s t : State} {cls l n : Nat} {wr : Bool} (h : s.classGrant cls l n wr = some t) : t.mem = s.mem := by
  rw [State.classGrant_frame h]

theorem State.dmg_classGrant {s t : State} {cls l n : Nat} {wr : Bool} (h : s.classGrant cls l n wr = some t) : t.dmg = s.dmg := by
  rw [State.classGrant_frame h]

end Sys2Proof.Machine
end

section
/-! PROOFS. Power, the stages of the boot, attestation, upkeep, sampling and the registers of the hub and the host port (R23, R89, R328,
R339, R343 to R346, R350 to R353, R374). -/

namespace Sys2Proof.Machine

/-! ### Boot (R343) -/

/-- Where stage 1 ends. -/
def State.stage1 (s : State) : State :=
  { s.dark with sec := { s.dark.sec with boot := s.dark.freeCtr, stage := 1 }, freeCtr := s.dark.freeCtr + 1 }

/-- Where stage 4 ends: the firmware is measured. -/
def State.stage4 (s : State) (firmware : List Byte) : State :=
  { s.stage1 with sec := { s.stage1.sec.measure 0 firmware with stage := 4 } }

/-- Where stage 5 ends: the configuration is loaded, and the firmware has extended its measurements. -/
def State.stage5 (s : State) (b : BootInput) : State :=
  (((s.stage4 b.firmware).configure b.config).extendMeas b.extend).stageDone 5

/-- The boot stops in the first stage that fails. -/
theorem State.boot_eq (s : State) (b : BootInput) : s.boot b =
    if !b.hbmTrains then s.stage1.stageFail 5
    else if Config.imageVerdict b.firmware ≠ 0 then (s.stage1.stageDone 2).stageFail (BitVec.ofNat 4 (Config.imageVerdict b.firmware).val)
    else if Config.imageVerdict b.config.bytes ≠ 0 then
      (s.stage4 b.firmware).stageFail (BitVec.ofNat 4 (Config.imageVerdict b.config.bytes).val)
    else if !PodConfig.treeOk b.config then (s.stage4 b.firmware).stageFail 4
    else (s.stage5 b).stage6 := rfl

/-- A boot, wherever it stops, leaves no core and no launch listed and all of memory zero (log 3, log 5); the inputs stay. -/
theorem State.boot_idle (s : State) (b : BootInput) :
    (s.boot b).cores = [] ∧ (s.boot b).mem = [] ∧ (s.boot b).launches = [] ∧ (s.boot b).inputs = s.inputs := by
  rw [State.boot_eq]
  repeat' split
  all_goals exact ⟨rfl, rfl, rfl, rfl⟩

theorem State.fail_extendMeas (s : State) (l : List (Nat × List Byte)) : (s.extendMeas l).sec.fail = s.sec.fail :=
  List.foldlRecOn (motive := fun x : Security => x.fail = s.sec.fail) _ _ rfl fun _ hx _ _ => hx

theorem State.fail_stage5 (s : State) (b : BootInput) : (s.stage5 b).sec.fail = 0 := State.fail_extendMeas _ b.extend

/-- Stage 6 starts the root's count and lets another package's MU acquire (R25, R343). -/
theorem State.stage6_spec (s : State) : s.stage6.sec = { s.sec with stage := 6 } ∧ s.stage6.pkg = s.pkg ∧ s.stage6.relabel = s.relabel
    ∧ s.stage6.mu.root = s.mu.root ∧ (s.mu.root = true → s.stage6.mu.running = true ∧ s.stage6.mu.st = 2)
    ∧ (s.mu.root = false → s.stage6.mu.st = 1) := by
  unfold State.stage6
  cases h : s.mu.root <;> simp [State.stageDone, h]

theorem State.boot_untrained (s : State) {b : BootInput} (h : b.hbmTrains = false) :
    (s.boot b).sec.stage = 1 ∧ (s.boot b).sec.fail = 5 := by
  rw [State.boot_eq, if_pos (by simp [h])]
  exact ⟨rfl, rfl⟩

theorem State.boot_firmwareRefused (s : State) {b : BootInput} (h : b.hbmTrains = true) (hv : Config.imageVerdict b.firmware ≠ 0) :
    (s.boot b).sec.stage = 2 ∧ (s.boot b).sec.fail.toNat = (Config.imageVerdict b.firmware).val := by
  have hlt := (Config.imageVerdict b.firmware).isLt
  rw [State.boot_eq, if_neg (by simp [h]), if_pos hv]
  exact ⟨rfl, Nat.mod_eq_of_lt (by omega)⟩

theorem State.boot_succeeds (s : State) {b : BootInput} (h : b.hbmTrains = true) (hv : Config.imageVerdict b.firmware = 0)
    (hc : Config.imageVerdict b.config.bytes = 0) (ht : PodConfig.treeOk b.config = true) : s.boot b = (s.stage5 b).stage6 := by
  rw [State.boot_eq, if_neg (by simp [h]), if_neg (fun h => h hv), if_neg (fun h => h hc), if_neg (by simp [ht])]

/-! ### Attestation (R344 to R346) -/

theorem exec_attctlGo {s : State} (ho : s.hostOpen = true) (hb : s.sec.attBusy = false) {v : DWord} (hv : v.getLsbD 0 = true) :
    exec (.attctlGo v) s = .next (({ s with sec :=
      { s.sec with attBusy := true, attDone := false, attErr := false, asked := s.sec.nonce } }).plan (s.now + 1) 20 .attestationReportDone) := by
  change Host.Outcome.next (if s.hostOpen then s.attestGo v else s) = _
  unfold State.attestGo
  rw [if_pos ho, hv, hb, if_neg (by decide)]

theorem exec_attestationReportDone {s : State} (hb : s.sec.attBusy = true) (hl : s.sec.leaf < 1024) :
    exec .attestationReportDone s = .next { s with sec :=
      { s.sec with attBusy := false, attDone := true, report := s.sec.reportOf, leaf := s.sec.leaf + 1 } } := by
  change execAttestationReportDone s = _
  unfold execAttestationReportDone
  dsimp only
  rw [hb, if_neg (by decide), if_neg (by omega)]

theorem exec_attestationReportDone_used {s : State} (hb : s.sec.attBusy = true) (hl : 1024 ≤ s.sec.leaf) :
    exec .attestationReportDone s = .next { s with sec := { s.sec with attBusy := false, attDone := true, attErr := true } } := by
  change execAttestationReportDone s = _
  unfold execAttestationReportDone
  dsimp only
  rw [hb, if_neg (by decide), if_pos hl]

/-- ATTCTL reads GO as zero, then DONE and ERR (R346). -/
theorem Security.getLsbD_attctl (x : Security) :
    x.attctl.getLsbD 0 = false ∧ x.attctl.getLsbD 1 = x.attDone ∧ x.attctl.getLsbD 2 = x.attErr := by
  unfold Security.attctl
  cases x.attDone <;> cases x.attErr <;> decide

/-! ### Scrubbing (R374) -/

/-- A scrubber leaves memory as it stands, adds no damage, and keeps what no code can correct. -/
structure State.Scrubs (s t : State) : Prop where
  mem : t.mem = s.mem
  old : ∀ e ∈ t.dmg, e ∈ s.dmg
  kept : ∀ e ∈ s.dmg, e.2.fixable = false → e ∈ t.dmg

theorem State.Scrubs.of_eq {s t : State} (hm : t.mem = s.mem) (hd : t.dmg = s.dmg) : s.Scrubs t :=
  ⟨hm, fun _ h => hd ▸ h, fun _ h _ => hd ▸ h⟩

theorem State.Scrubs.trans {s t u : State} (h : s.Scrubs t) (h' : t.Scrubs u) : s.Scrubs u :=
  ⟨h'.mem.trans h.mem, fun e he => h.old e (h'.old e he), fun e he hf => h'.kept e (h.kept e he hf) hf⟩

theorem State.Scrubs.foldl {α : Type} {s t : State} {f : State → α → State} (hf : ∀ (u : State) a, u.Scrubs (f u a)) (l : List α)
    (h : s.Scrubs t) : s.Scrubs (l.foldl f t) :=
  List.foldlRecOn (motive := s.Scrubs) l f h fun u hu a _ => hu.trans (hf u a)

theorem State.scrubs_corrected (s : State) (code array : Nat) (w : Who) (addr : Option Nat) : s.Scrubs (s.corrected code array w addr) := by
  have hf := State.corrected_frame s code array w addr
  dsimp only at hf
  exact .of_eq (by rw [hf]) (by rw [hf])

/-- Only granules that a code can correct are written back. -/
theorem State.Scrubs.scrubLine {s t : State} (h : s.Scrubs t) (a array : Nat) (c : Option Nat) : s.Scrubs (t.scrubLine a array c) := by
  refine h.trans ?_
  unfold State.scrubLine
  dsimp only
  split
  · exact .of_eq rfl rfl
  · refine .foldl (fun u _ => State.scrubs_corrected u ..) _ ⟨rfl, fun e he => (List.mem_filter.mp he).1, fun e he hf => ?_⟩
    exact List.mem_filter.mpr ⟨he, by simp [hf]⟩

theorem State.scrubs_classGrant {s t : State} {cls l n : Nat} {wr : Bool} (h : s.classGrant cls l n wr = some t) : s.Scrubs t :=
  .of_eq (State.mem_classGrant h) (State.dmg_classGrant h)

/-- The scrubber's line of a scratchpad in this tick, or the core in the list of those that wait. -/
def State.scrubCore (p : State × List Nat) (c : Nat) : State × List Nat :=
  let m := Sparse.get 0 p.1.scrub c
  match p.1.classGrant 0 (spadOf c + 64 * m) 64 false with
  | some s => (({ s with scrub := Sparse.set 0 s.scrub c ((m + 1) % (spadSize / 64)) }).scrubLine (spadOf c + 64 * m) 1 (some c), p.2)
  | none => (p.1, p.2 ++ [c])

theorem State.scrubCores_eq (s : State) (cs : List Nat) : s.scrubCores cs =
    let p := cs.foldl State.scrubCore (s, [])
    if p.2.isEmpty || p.1.tick % 4096 = 3966 then p.1 else p.1.plan (p.1.now + 1) 46 (.scrubCores p.2) := rfl

theorem State.scrubs_scrubCore (p : State × List Nat) (c : Nat) : p.1.Scrubs (State.scrubCore p c).1 := by
  unfold State.scrubCore
  dsimp only
  split
  next t hg =>
    refine State.Scrubs.scrubLine ?_ ..
    exact (State.scrubs_classGrant hg).trans (.of_eq rfl rfl)
  next => exact .of_eq rfl rfl

theorem State.scrubs_scrubCores (s : State) (cs : List Nat) : s.Scrubs (s.scrubCores cs) := by
  have hfold : s.Scrubs (cs.foldl State.scrubCore (s, [])).1 :=
    List.foldlRecOn (motive := fun p : State × List Nat => s.Scrubs p.1) _ _ (.of_eq rfl rfl)
      fun p hp c _ => hp.trans (State.scrubs_scrubCore p c)
  rw [State.scrubCores_eq]
  dsimp only
  split
  · exact hfold
  · exact hfold.trans (.of_eq rfl rfl)

theorem State.scrubs_patrolScrub (s : State) : ∃ u, exec .patrolScrub s = .next u ∧ s.Scrubs u := by
  refine ⟨_, rfl, (State.Scrubs.foldl (fun u n => ?_) _ (.of_eq rfl rfl)).trans (State.scrubs_scrubCores ..)⟩
  refine State.Scrubs.scrubLine ?_ ..
  exact .of_eq rfl rfl

/-! ### Budgets (R339) -/

/-- Write `f p` under key `b + p`, for each `p` below `n`. -/
def Sparse.setRange (b n : Nat) (f : Nat → Nat) (m : Sparse Nat) : Sparse Nat := (List.range n).foldl (fun m p => Sparse.set 0 m (b + p) (f p)) m

theorem Sparse.get_setRange {m : Sparse Nat} {f : Nat → Nat} {b n j : Nat} :
    Sparse.get 0 (Sparse.setRange b n f m) j = if b ≤ j ∧ j < b + n then f (j - b) else Sparse.get 0 m j := by
  unfold Sparse.setRange
  induction n with
  | zero => rw [if_neg (by omega)]; rfl
  | succ n ih =>
    rw [List.range_succ, List.foldl_append, List.foldl_cons, List.foldl_nil, Sparse.get_set, ih]
    by_cases h : j = b + n
    · subst h
      rw [if_pos rfl, if_pos (by omega), Nat.add_sub_cancel_left]
    · have hlt : (b ≤ j ∧ j < b + (n + 1)) ↔ (b ≤ j ∧ j < b + n) := by omega
      simp only [if_neg h, hlt]

/-- Units of class `cls` at a port: bits [47:32] of its register at a scratchpad, bits [15:0] at a stack of HBM. -/
def State.budgetAt (s : State) (cls port : Nat) : Nat :=
  if port < 480 then bits (Sparse.get 0 s.budgets cls) 47 32 else bits (Sparse.get 0 s.budgets cls) 15 0

/-- The units of one class are renewed at every port. -/
def State.refillClass (s : State) (cls : Nat) : State :=
  { s with spent := Sparse.setRange (1024 * cls) 488 (s.budgetAt cls) s.spent }

theorem State.spent_refillClass (s : State) (cls : Nat) :
    (s.refillClass cls).spent = Sparse.setRange (1024 * cls) 488 (s.budgetAt cls) s.spent := by
  simp only [State.refillClass]

theorem exec_budgetRefill {s : State} (h : s.soft = []) :
    exec .budgetRefill s = .next ((List.range 6).foldl State.refillClass { s with spent := [] }) := by
  change execBudgetRefill s = _
  unfold execBudgetRefill
  dsimp only
  rw [State.hubRead_clean h, State.hubRead_clean h, State.hubRead_clean h]
  rfl

theorem State.refillClasses_frame (s : State) (l : List Nat) :
    l.foldl State.refillClass s = { s with spent := (l.foldl State.refillClass s).spent } := by
  induction l generalizing s with
  | nil => rfl
  | cons cls l ih =>
    obtain ⟨m, hm⟩ : ∃ m, s.refillClass cls = { s with spent := m } := ⟨_, rfl⟩
    rw [List.foldl_cons, hm]
    exact ih { s with spent := m }

theorem State.budgetAt_refillClasses (s : State) (l : List Nat) (cls port : Nat) :
    (l.foldl State.refillClass s).budgetAt cls port = s.budgetAt cls port := by
  rw [State.refillClasses_frame]
  rfl

theorem State.spent_refillClasses (s : State) {n cls port : Nat} (hc : cls < n) (hp : port < 488) :
    Sparse.get 0 ((List.range n).foldl State.refillClass s).spent (1024 * cls + port) = s.budgetAt cls port := by
  induction n with
  | zero => omega
  | succ n ih =>
    rw [List.range_succ, List.foldl_append, List.foldl_cons, List.foldl_nil, State.spent_refillClass,
      Sparse.get_setRange]
    by_cases h : cls = n
    · subst h
      rw [if_pos (by omega), Nat.add_sub_cancel_left, State.budgetAt_refillClasses]
    · rw [if_neg (by omega)]
      exact ih (by omega)

theorem State.budgetAt_eq (s : State) (cls port : Nat) :
    s.budgetAt cls port = (Sparse.get 0 s.budgets cls).toNat / (if port < 480 then 2 ^ 32 else 1) % 2 ^ 16 := by
  unfold State.budgetAt bits
  split <;> rfl

/-! ### Sampling (R350 to R353) -/

theorem exec_smpctlWrite_start (s : State) (c : Nat) {v : DWord} (h : v.getLsbD 0 = true) :
    exec (.smpctlWrite c v) s
      = .next (s.modCore c fun k => { k with smp := { (s.core c).smp with ctl := v, start := s.before, j := 0 } }) := by
  change Host.Outcome.next (s.modCore c fun k => { k with smp := if v.getLsbD 0 then _ else _ }) = _
  rw [h]
  rfl

theorem exec_smpctlWrite_stop (s : State) (c : Nat) {v : DWord} (h : v.getLsbD 0 = false) :
    exec (.smpctlWrite c v) s = .next (s.modCore c fun k => { k with smp := { (s.core c).smp with ctl := v } }) := by
  change Host.Outcome.next (s.modCore c fun k => { k with smp := if v.getLsbD 0 then _ else _ }) = _
  rw [h]
  rfl

theorem exec_smpbufWrite_set (s : State) (c : Nat) {v : DWord} (he : (s.core c).smp.en = false) (hb : smpbufBad v = false) :
    exec (.smpbufWrite c v) s = .next (s.modCore c fun k => { k with smp := { (s.core c).smp with buf := v, wr := 0, rd := 0 } }) := by
  change execSmpbufWrite c v s = _
  unfold execSmpbufWrite
  rw [State.modCore_eq, he, hb]
  rfl

theorem exec_smpbufWrite_refused (s : State) (c : Nat) {v : DWord} (h : (s.core c).smp.en = true ∨ smpbufBad v = true) :
    exec (.smpbufWrite c v) s = .next (s.modCore c fun k => { k with smp := (s.core c).smp }) := by
  change execSmpbufWrite c v s = _
  unfold execSmpbufWrite
  rw [State.modCore_eq, if_pos (Bool.or_eq_true_iff.mpr h)]
  rfl

theorem exec_smpptrRdWrite (s : State) (c : Nat) (v : DWord) :
    let p := (s.core c).smp
    let rd : BitVec 32 := v.extractLsb' 32 32
    exec (.smpptrRdWrite c v) s
      = .next (s.modCore c fun k => { k with smp := { p with rd := if (p.wr - rd).toNat ≤ p.cap then rd else p.wr } }) := by
  have hrd : BitVec.ofNat 32 (bits v 63 32) = v.extractLsb' 32 32 := by
    apply BitVec.eq_of_toNat_eq
    simp [bits, Nat.shiftRight_eq_div_pow]
  change execSmpptrRdWrite c v s = _
  unfold execSmpptrRdWrite
  rw [hrd]
  rfl

/-- The samples whose tick has come are taken, in order. -/
theorem exec_samplingTick {s : State} {c : Nat} (hr : (s.core c).running = true) (he : (s.core c).smp.en = true) :
    exec (.samplingTick c) s = .next ((List.range ((s.tick - (s.core c).smp.start) / (s.core c).smp.period - (s.core c).smp.j)).foldl
      (fun u i => u.modCore c (·.sample u.tick ((s.core c).smp.j + i + 1))) s) := by
  change execSamplingTick c s = _
  unfold execSamplingTick
  dsimp only
  rw [hr, he]
  rfl

theorem exec_samplingTick_early {s : State} {c : Nat} (hr : (s.core c).running = true) (he : (s.core c).smp.en = true)
    (h : (s.tick - (s.core c).smp.start) / (s.core c).smp.period ≤ (s.core c).smp.j) : exec (.samplingTick c) s = .next s := by
  rw [exec_samplingTick hr he, Nat.sub_eq_zero_of_le h]
  rfl

theorem exec_samplingTick_due {s : State} {c n : Nat} (hr : (s.core c).running = true) (he : (s.core c).smp.en = true)
    (hn : n = (s.core c).smp.j + 1) (h : (s.tick - (s.core c).smp.start) / (s.core c).smp.period = n) :
    exec (.samplingTick c) s = .next (s.modCore c (·.sample s.tick n)) := by
  rw [exec_samplingTick hr he, h, hn, Nat.add_sub_cancel_left]
  rfl

/-- A sample with room in the unit and in the buffer is accepted. -/
theorem Core.sample_room (k : Core) (t n : Nat) (hp : k.smp.pend.length < 4)
    (hc : (k.smp.wr + BitVec.ofNat 32 k.smp.pend.length - k.smp.rd).toNat < k.smp.cap) :
    k.sample t n = { k.count 65 with smp := { k.smp with j := n, pend := k.smp.pend ++ [k.sampleRec t (streamOfNum (n - 1))] } } := by
  unfold Core.sample
  dsimp only
  rw [if_neg (by simp only [Bool.or_eq_true, decide_eq_true_eq]; omega)]

/-- Any other is counted as dropped. -/
theorem Core.sample_full (k : Core) (t n : Nat)
    (hf : 4 ≤ k.smp.pend.length ∨ k.smp.cap ≤ (k.smp.wr + BitVec.ofNat 32 k.smp.pend.length - k.smp.rd).toNat)
    (hd : k.smp.dropped ≠ 0xFFFFFFFF) :
    k.sample t n = { k.count 65 with smp := { k.smp with j := n, dropped := k.smp.dropped + 1 } } := by
  unfold Core.sample
  dsimp only
  rw [if_pos (by simpa only [Bool.or_eq_true, decide_eq_true_eq] using hf), if_neg hd]

section
variable {s t : State} {c : Nat} {r : DWord × DWord} {rest : List (DWord × DWord)} (hp : (s.core c).smp.pend = r :: rest)
  (hw : s.recordWaits (some c) none uSmp 0 = false) (hk : (s.core c).parity.contains keySmp = false)
include hp hw hk

/-- The first pending record is stored, and WR advances. -/
theorem exec_sampleRecordWrite_granted :
    let p := (s.core c).smp
    let a := spadOf c + p.base + 16 * (p.wr.toNat % p.cap)
    s.classGrant 4 a 16 true = some t →
    exec (.sampleRecordWrite c) s = .next ((t.store { core := some c, unit := uSmp } a (leBytes 8 r.1.toNat ++ leBytes 8 r.2.toNat)).modCore c
      fun k => { k with smp := { k.smp with pend := rest, wr := k.smp.wr + 1 } }) := by
  intro p a hg
  change execSampleRecordWrite c s = _
  unfold execSampleRecordWrite
  dsimp only
  rw [hp]
  dsimp only
  rw [hw, hk, if_neg Bool.false_ne_true, if_neg Bool.false_ne_true, hg]

/-- A record is written to its place in the buffer, and to no other byte. -/
theorem exec_sampleRecordWrite :
    let p := (s.core c).smp
    let a := spadOf c + p.base + 16 * (p.wr.toNat % p.cap)
    s.classGrant 4 a 16 true = some t →
    ∃ u, exec (.sampleRecordWrite c) s = .next u ∧ (u.core c).smp = { p with pend := rest, wr := p.wr + 1 }
      ∧ ∀ j, u.mem.get j = if a ≤ j ∧ j < a + 16 then (leBytes 8 r.1.toNat ++ leBytes 8 r.2.toNat).getD (j - a) 0 else s.mem.get j := by
  intro p a hg
  refine ⟨_, exec_sampleRecordWrite_granted hp hw hk hg, ?_, fun j => ?_⟩
  · rw [State.modCore_eq, State.core_setCore_self, State.smp_store, State.smp_classGrant hg]
  · rw [State.modCore_eq, State.setCore_mem, State.get_mem_store, State.mem_classGrant hg, List.length_append, length_leBytes,
      length_leBytes]

end

/-! ### Registers (R6, R43, R103, R278, R328, R384) -/

theorem exec_registerWrite_hub {s : State} {addr : Nat} (hl : hubBase ≤ addr) (hu : addr < wordBase) (v : DWord) :
    exec (.registerWrite addr v) s = (s.hubWrite (addr - hubBase) v).elim (.fault .hubAddress) .next := by
  change execRegisterWrite addr v s = _
  unfold execRegisterWrite
  rw [if_neg (by omega), if_pos hl]
  cases s.hubWrite (addr - hubBase) v <;> rfl

theorem exec_registerWrite_bar0 {s : State} {addr : Nat} (h : addr < hubBase) (v : DWord) :
    exec (.registerWrite addr v) s = (s.bar0Write addr v).elim (.fault .hubAddress) fun t => .next (if s.hostOpen then t else s) := by
  have hb : hubBase ≤ wordBase := by decide
  change execRegisterWrite addr v s = _
  unfold execRegisterWrite
  rw [if_neg (by omega), if_neg (by omega)]
  cases s.bar0Write addr v <;> rfl

theorem exec_registerWrite_word (s : State) (a : Nat) (v : DWord) :
    exec (.registerWrite (wordBase + 8 * a) v) s =
      if 8 * a < hbmTop then .next (((s.classGrant 0 (8 * a) 8 true).getD s).store { unit := uMc } (8 * a) (leBytes 8 v.toNat))
      else .fault .hubAddress := by
  have ha : (wordBase + 8 * a - wordBase) / 8 * 8 = 8 * a := by omega
  change execRegisterWrite (wordBase + 8 * a) v s = _
  unfold execRegisterWrite
  dsimp only
  rw [if_pos (Nat.le_add_right _ _), ha]

theorem exec_registerWrite_word_granted {s t : State} {a : Nat} (ha : 8 * a < hbmTop) (hg : s.classGrant 0 (8 * a) 8 true = some t) (v : DWord) :
    ∃ u, exec (.registerWrite (wordBase + 8 * a) v) s = .next u
      ∧ ∀ j, u.mem.get j = if 8 * a ≤ j ∧ j < 8 * a + 8 then (leBytes 8 v.toNat).getD (j - 8 * a) 0 else s.mem.get j := by
  refine ⟨_, by rw [exec_registerWrite_word, if_pos ha], fun j => ?_⟩
  rw [hg, Option.getD_some, State.get_mem_store, State.mem_classGrant hg, length_leBytes]

/-- A write of the hub register at offset `o`. -/
theorem exec_registerWrite_hub_some {s t : State} {o : Nat} {v : DWord} (ho : o < wordBase - hubBase) (h : s.hubWrite o v = some t) :
    exec (.registerWrite (hubBase + o) v) s = .next t := by
  rw [exec_registerWrite_hub (Nat.le_add_right _ _) (by omega), Nat.add_sub_cancel_left, h]
  rfl

theorem State.hubWrite_route {s : State} (h : s.soft = []) {n : Nat} (hn : n < 1024) (v : DWord) :
    s.hubWrite (0x200000 + 8 * n) v = some { s with routes := Sparse.set 0 s.routes n v } := by
  have hi : (0x200000 + 8 * n - 0x200000) / 8 = n := by omega
  unfold State.hubWrite
  dsimp only
  rw [State.softWrite_clean (c := none) h, ite_self, if_neg (by omega), if_neg (by omega), if_pos (by omega), hi]

theorem State.hubWrite_ctx {s : State} (h : s.soft = []) {n i : Nat} (hn : n < 256) (hi : i < 6) (v : DWord) :
    s.hubWrite (0x100000 + 64 * n + 8 * i) v = some (s.ctxWrite n i v) := by
  have h1 : (0x100000 + 64 * n + 8 * i - 0x100000) / 64 = n := by omega
  have h2 : (0x100000 + 64 * n + 8 * i) % 64 / 8 = i := by omega
  unfold State.hubWrite
  dsimp only
  rw [State.softWrite_clean (c := none) h, ite_self, if_neg (by omega), if_pos (by omega), h1, h2]

/-- A write of a context's record changes no other. -/
theorem State.ctxWrite_frame (s : State) (n i : Nat) (v : DWord) :
    s.ctxWrite n i v = { s with ctxs := (s.ctxWrite n i v).ctxs }
      ∧ ∀ m, m ≠ n → Sparse.get .idle (s.ctxWrite n i v).ctxs m = Sparse.get .idle s.ctxs m := by
  unfold State.ctxWrite
  dsimp only
  split
  · exact ⟨rfl, fun _ _ => rfl⟩
  · exact ⟨rfl, fun m hm => Sparse.get_insert_ne hm⟩

theorem exec_registerWrite_route {s : State} (h : s.soft = []) {n : Nat} (hn : n < 1024) (v : DWord) :
    exec (.registerWrite (hubBase + 0x200000 + 8 * n) v) s = .next { s with routes := Sparse.set 0 s.routes n v } := by
  have hd : 2 ^ 57 < wordBase - hubBase := by decide
  rw [Nat.add_assoc]
  exact exec_registerWrite_hub_some (by omega) (State.hubWrite_route h hn v)

theorem exec_registerWrite_ctx {s : State} (h : s.soft = []) {n i : Nat} (hn : n < 256) (hi : i < 6) (v : DWord) :
    exec (.registerWrite (hubBase + 0x100000 + 64 * n + 8 * i) v) s = .next (s.ctxWrite n i v) := by
  have hd : 2 ^ 57 < wordBase - hubBase := by decide
  rw [Nat.add_assoc, Nat.add_assoc]
  exact exec_registerWrite_hub_some (by omega) (by rw [← Nat.add_assoc]; exact State.hubWrite_ctx h hn hi v)

theorem exec_registerWrite_apwin {s : State} (ho : s.hostOpen = true) (v : DWord) :
    exec (.registerWrite 0x008 v) s = .next { s with apwin := v &&& 0x80000070000003FF } := by
  rw [exec_registerWrite_bar0 (by decide)]
  change Host.Outcome.next (if s.hostOpen then { s with apwin := v &&& 0x80000070000003FF } else s) = _
  rw [if_pos ho]

theorem State.hubGet_route (s : State) {n : Nat} (hn : n < 1024) : s.hubGet (0x200000 + 8 * n) = some (Sparse.get 0 s.routes n) := by
  have hi : (0x200000 + 8 * n - 0x200000) / 8 = n := by omega
  unfold State.hubGet
  rw [if_neg (by omega), if_neg (by omega), if_pos (by omega), hi]

theorem State.hubGet_frz (s : State) {n : Nat} (hn : n < 480) :
    s.hubGet (0x601000 + 8 * n) = some (if s.frzFrozen n then 1 else 0) := by
  have hi : (0x601000 + 8 * n - 0x601000) / 8 = n := by omega
  unfold State.hubGet
  iterate 11 rw [if_neg (by omega)]
  rw [if_pos (by omega), hi]

end Sys2Proof.Machine
end

section
/-! PROOFS. The statement about power, upkeep and sampling. -/

namespace Sys2Proof.Machine

/-- Settles O53: what each event, each write and each read does is a lemma of its own. -/
theorem powerUpkeepAndSampling : Obligations.PowerUpkeepAndSampling := by
  unfold Obligations.PowerUpkeepAndSampling
  intro s c x k p core
  refine ⟨rfl, fun b => ?boot, fun ho hb v hv => exec_attctlGo ho hb hv, exec_attestationReportDone, exec_attestationReportDone_used, rfl,
    ?scrub, fun h => ⟨_, exec_budgetRefill h, State.refillClasses_frame { s with spent := [] } _, fun cls port hc hp => ?budget⟩,
    fun v => ⟨exec_smpctlWrite_start s c, exec_smpctlWrite_stop s c⟩, fun v => ⟨exec_smpbufWrite_set s c, exec_smpbufWrite_refused s c⟩,
    exec_smpptrRdWrite s c, exec_samplingTick_early, fun n hr he hn h => ⟨fun hp hc => ?sampled, fun hf hd => ?dropped⟩,
    fun r rest t hp hw hk => exec_sampleRecordWrite hp hw hk, fun addr v => ?registers, rfl, rfl, rfl, fun v hv => ?attctl,
    fun n => State.hubGet_route s, fun n => State.hubGet_frz s⟩
  case boot =>
    obtain ⟨hcores, hmem, hlaunches, hinputs⟩ := State.boot_idle s b
    refine ⟨s.boot b, rfl, hcores, hmem, hlaunches, hinputs, State.boot_untrained s, State.boot_firmwareRefused s, fun h hv hc ht => ?_⟩
    obtain ⟨hsec, hpkg, hrelabel, hroot, hrun, hacquire⟩ := State.stage6_spec (s.stage5 b)
    rw [State.boot_succeeds s h hv hc ht, hsec, hpkg, hrelabel, hroot]
    exact ⟨rfl, State.fail_stage5 s b, rfl, rfl, hrun, hacquire⟩
  case scrub =>
    obtain ⟨u, hu, hmem, hold, hkept⟩ := State.scrubs_patrolScrub s
    exact ⟨u, hu, hmem, hold, hkept⟩
  case budget =>
    rw [State.spent_refillClasses _ hc hp]
    exact State.budgetAt_eq s cls port
  case sampled =>
    rw [exec_samplingTick_due hr he hn h, State.modCore_eq, Core.sample_room _ _ _ hp hc]
    rfl
  case dropped =>
    rw [exec_samplingTick_due hr he hn h, State.modCore_eq, Core.sample_full _ _ _ hf hd]
    rfl
  case registers =>
    refine ⟨fun hl hu hw => ?_, ?_, fun h hw => ?_, ?_, ?_, ?_⟩
    · rw [exec_registerWrite_hub hl hu, hw]
      rfl
    · rintro a rfl
      exact ⟨fun ha => by rw [exec_registerWrite_word, if_neg (by omega)], fun t ha hg => exec_registerWrite_word_granted ha hg v⟩
    · rw [exec_registerWrite_bar0 h, hw]
      rfl
    · rintro n hs hn rfl
      exact exec_registerWrite_route hs hn v
    · rintro n i hs hn hi - rfl
      exact ⟨_, exec_registerWrite_ctx hs hn hi v, State.ctxWrite_frame s n i v⟩
    · rintro rfl ho
      exact exec_registerWrite_apwin ho v
  case attctl =>
    cases hv
    exact Security.getLsbD_attctl x

end Sys2Proof.Machine
end

section
/-! PROOFS. Results of vector instructions: the lanes that a function of the lane number lists (R213), and an effect that differs from
another in bookkeeping of the stream alone. -/

namespace Sys2Proof.Machine

/-! ### Lanes -/

/-- A map that lists the values of `f` at the keys `l`, but for those that are `d`, reads as `f` there and as `d` elsewhere. -/
theorem Sparse.get_filter_map {α : Type} [DecidableEq α] (d : α) (f : Nat → α) (l : List Nat) (i : Nat) :
    Sparse.get d ((l.map fun j => (j, f j)).filter fun e => e.2 ≠ d) i = if i ∈ l then f i else d := by
  induction l with
  | nil => rfl
  | cons j l ih =>
    rw [List.map_cons]
    by_cases hj : f j = d
    · rw [List.filter_cons_of_neg (by simp [hj]), ih]
      by_cases hi : i = j
      · subst hi
        simp [hj]
      · simp [hi]
    · rw [List.filter_cons_of_pos (by simp [hj]), Sparse.get, ih]
      by_cases hi : i = j
      · simp [hi]
      · simp [hi, Ne.symm hi]

/-- The lanes of a function of the lane number read as that function. -/
theorem laneOf_lanesBy {f : Nat → Lane} {i : Nat} (h : i < 512) : laneOf (lanesBy f) i = f i :=
  (Sparse.get_filter_map 0 f (List.range 512) i).trans (if_pos (List.mem_range.mpr h))

/-- The lanes of `vd` after an instruction whose active lanes are `f` (R213). -/
def Core.lanesAfter (k : Core) (vd : V) (pg : P) (z : Bool) (f : Nat → Lane) : Sparse Lane :=
  lanesBy fun i => if (k.preg pg).getLsbD i then f i else if z then 0 else laneOf (k.vreg vd) i

theorem Core.writeLanes_eq (k : Core) (vd : V) (pg : P) (z : Bool) (f : Nat → Lane) :
    k.writeLanes vd pg z f = k.setVreg vd (k.lanesAfter vd pg z f) := rfl

theorem State.lanes_lanesAfter (s : State) (vd : V) (pg : P) (z : Bool) (f : Nat → Lane) :
    s.Lanes vd pg z f (s.myCore.lanesAfter vd pg z f) :=
  fun _ h => laneOf_lanesBy h

/-! ### Bookkeeping before the end of an issue -/

theorem Stream.SameLoops.trans {x y z : Stream} (h : Stream.SameLoops x y) (h' : Stream.SameLoops y z) : Stream.SameLoops x z :=
  ⟨h'.1.trans h.1, h'.2.1.trans h.2.1, h'.2.2.1.trans h.2.2.1, h'.2.2.2.trans h.2.2.2⟩

/-- What frames `t` after bookkeeping of the stream frames `t`. -/
theorem State.Frame.of_booked {s t u : State} {k : Core} (ha : t.at = s.at) (hk : Core.Booked s.at.2 (t.core s.at.1) k)
    (h : s.Frame (t.setCore s.at.1 k) u) : s.Frame t u := by
  obtain ⟨hpackage, hothers, hcore, hstreams, hme⟩ := h
  have hu : u.at = s.at := by rw [hpackage]; exact ha
  simp only [State.me_eq, State.myCore_eq, State.at_setCore, ha, hu, State.core_setCore_self] at hcore hstreams hme
  refine ⟨hpackage, fun c hc => (hothers c hc).trans (State.core_setCore_ne t k hc), ?_, ?_, ?_⟩
  all_goals simp only [State.me_eq, State.myCore_eq, ha, hu]
  · rw [hcore]
    conv => lhs; rw [hk.core]
  · exact fun j hj => (hk.streams j hj).trans (hstreams j hj)
  · exact hk.me.trans hme

/-- The back-edge test from `t` is that after bookkeeping of the stream that leaves loops and bases. -/
theorem State.Tested.of_quiet {s t u : State} {k : Core} {p : DWord} {b : Bool} (ha : t.at = s.at)
    (hk : Core.Quiet s.at.2 (t.core s.at.1) k) (h : s.Tested (t.setCore s.at.1 k) u p b) : s.Tested t u p b := by
  unfold State.Tested at h ⊢
  simp only [State.me_eq, State.myCore_eq, State.at_setCore, ha, State.core_setCore_self] at h ⊢
  obtain ⟨hpc, hb, hloops, hvrb, hprb, hnone⟩ := h
  obtain ⟨hle, he⟩ := backEdge_loopsEq (k.str s.at.2).order s.at.2 p hk.loopsEq
  rw [← hk.loops.2.2.2]
  refine ⟨hpc.trans (congrArg Prod.fst he), hb.trans (congrArg Prod.snd he), hle.1.trans hloops, hvrb.trans hle.2.1, hprb.trans hle.2.2,
    fun hn => ?_⟩
  obtain ⟨hb, hpc, hloops, hvrb, hprb⟩ := hnone ((Stream.noLoopEnd_congr hk.loops p).trans hn)
  exact ⟨hb, hpc, hk.loops.trans hloops, hvrb.trans hk.vrb, hprb.trans hk.prb⟩

/-- An effect that differs from `t` in bookkeeping of the stream alone passes control as `t` does. -/
theorem State.Passes.of_quiet {s t u : State} {k : Core} {p : DWord} {y : Bool} (hc : t.cur = s.cur)
    (hk : Core.Quiet s.at.2 (t.core s.at.1) k) (h : s.Passes (t.setCore s.at.1 k) u p y) : s.Passes t u p y := by
  have ha : t.at = s.at := by simp only [State.at, hc]
  obtain ⟨hf, b, ht, hp⟩ := h
  exact ⟨hf.of_booked ha hk.toBooked, b, ht.of_quiet ha hk, hp⟩

end Sys2Proof.Machine
end

section
/-! PROOFS. Vector floating-point arithmetic (R145, R214, R222): what an instruction that rounds leaves where it may issue, for one, two
and three sources. -/

namespace Sys2Proof.Machine

/-- What an instruction of latency `lat` that rounds by `rm` still does to SRCTR when it has its effect `v`: 512 more at its
retirement, under mode 5 (R145). -/
def State.srEffect (s : State) (rm : Rm) (lat : Nat) (v : State) : State :=
  if s.me.rmOf rm = .sr then v.modMyCore (·.delayWrite (s.retireTick lat) ⟨4, 0x011, 4, 512⟩) else v

theorem Core.delayWrite_modStr (k : Core) (i : StreamId) (f : Stream → Stream) (p : Nat) (w : SysWrite) :
    (k.modStr i f).delayWrite p w = (k.delayWrite p w).modStr i f := by cases i <;> rfl

theorem Core.str_setVreg (k : Core) (n : V) (x : Sparse Lane) (i : StreamId) : (k.setVreg n x).str i = k.str i := by cases i <;> rfl

theorem Stream.kept_busy (x : Stream) (n p : Nat) (ks : List Nat) : Stream.Kept x (x.setBusy n p ks) := rfl

/-- The advance of SRCTR is `srEffect`, but for the mark that later readers of SRCTR wait for. -/
theorem State.Passes.of_srAdvance {s u : State} {vd : V} {x : Sparse Lane} {rm : Rm} {lat : Nat} {p : DWord} {y : Bool}
    (h : s.Passes ((s.modMyCore (·.setVreg vd x)).srAdvance rm lat) u p y) :
    s.Passes (s.srEffect rm lat (s.modMyCore (·.setVreg vd x))) u p y := by
  have hme : (s.modMyCore (·.setVreg vd x)).me = s.me := by
    simp only [State.modMyCore_eq, State.me_eq, State.at_setCore, State.core_setCore_self, Core.str_setVreg]
  have hr : (s.modMyCore (·.setVreg vd x)).retireTick lat = s.retireTick lat := by unfold State.retireTick; rw [hme]; rfl
  unfold State.srAdvance at h
  unfold State.srEffect
  rw [hme, hr] at h
  by_cases hs : s.me.rmOf rm = .sr
  · rw [if_pos hs] at h ⊢
    refine State.Passes.of_quiet (k := ((s.modMyCore (·.setVreg vd x)).modMyCore
      (·.delayWrite (s.retireTick lat) ⟨4, 0x011, 4, 512⟩)).myCore.modStr s.at.2 (·.setBusy s.now (s.retireTick lat + 1) [keySr])) rfl ?_ ?_
    · exact Core.Quiet.modStr_self (Stream.kept_busy ..) ⟨rfl, rfl, rfl, rfl⟩ rfl rfl
    · simpa only [State.modMyCore_eq, State.modMe_eq, State.myCore_eq, State.at_setCore, State.core_setCore_self, State.setCore_setCore,
        State.setCore_now, Core.delayWrite_modStr] using h
  · rwa [if_neg hs] at h ⊢

theorem State.cur_srAdvance (s : State) (rm : Rm) (lat : Nat) : (s.srAdvance rm lat).cur = s.cur := by
  unfold State.srAdvance
  split <;> rfl

/-- A vector instruction that rounds writes its lanes and advances SRCTR. -/
theorem State.vop_round_next {s : State} {t : Tok} {vs : List V} {pg : P} {z : Bool} {vd : V} {rm : Rm}
    (h : s.mayIssue (s.vecSigR t vs pg z vd rm) = true) (y : Bool) (lat : Nat) (f : Core → State → Nat → Lane) :
    ∃ u x, s.vop t y lat vd pg z vs [] none f (·.srAdvance rm lat) (s.srReads rm) = .next u
      ∧ s.Passes (s.srEffect rm lat (s.modMyCore (·.setVreg vd x))) u (s.after 2) y ∧ s.Lanes vd pg z (f s.myCore s) x := by
  have hw : (s.modMyCore fun k => k.writeLanes vd pg z (f k s))
      = s.modMyCore (·.setVreg vd (s.myCore.lanesAfter vd pg z (f s.myCore s))) := by
    rw [State.modMyCore_eq, Core.writeLanes_eq]
    rfl
  obtain ⟨u, hu, hp⟩ := State.issue_seq
    (g := { s.vecSigR t vs pg z vd rm with len := 2, y := y, writes := [s.myCore.keyV vd], lat := lat })
    (f := fun s => .seq ((s.modMyCore fun k => k.writeLanes vd pg z (f k s)).srAdvance rm lat)) h rfl (State.cur_srAdvance _ rm lat)
  rw [hw] at hp
  exact ⟨u, _, hu, hp.of_srAdvance, s.lanes_lanesAfter vd pg z (f s.myCore s)⟩

/-- A float result that is rounded to the format of its type. -/
theorem State.roundLane_eq (s : State) {ty : Ty} {m : Fmt} (hm : tyFmt ty = some m) (rm : Rm) (sat : Bool) (i : Nat) (x : FVal) :
    s.roundLane ty rm sat i x = BitVec.ofNat 32 (m.result rm sat (s.draw rm i) x) := by
  unfold State.roundLane
  rw [hm]

theorem State.Lanes.congr {s : State} {vd : V} {pg : P} {z : Bool} {f g : Nat → Lane} {x : Sparse Lane} (h : s.Lanes vd pg z f x)
    (hfg : ∀ i, f i = g i) : s.Lanes vd pg z g x := fun i hi => by rw [h i hi, hfg]

section
variable {s : State} {t : Tok} {m : Fmt}

/-- One source. -/
theorem State.vfloat1_next {o : VUnR} (ht : tyArith o.ty = true) (hm : tyFmt o.ty = some m)
    (h : s.mayIssue (s.vecSigR t [o.va] o.pg o.z o.vd o.rm) = true) (lat : Nat) (f : FVal → FVal) :
    ∃ u x, s.vfloat1 t o lat f = .next u ∧ s.Passes (s.srEffect o.rm lat (s.modMyCore (·.setVreg o.vd x))) u (s.after 2) o.y
      ∧ s.Lanes o.vd o.pg o.z (fun i => BitVec.ofNat 32 (m.result (s.me.rmOf o.rm) o.sat (s.draw (s.me.rmOf o.rm) i)
          (f (laneVal o.ty (laneOf (s.myCore.vreg o.va) i))))) x := by
  unfold State.vfloat1 tyIn
  rw [if_pos ht]
  obtain ⟨u, x, hu, hp, hl⟩ := State.vop_round_next h o.y lat _
  exact ⟨u, x, hu, hp, hl.congr fun i => s.roundLane_eq hm ..⟩

/-- Two sources. -/
theorem State.vfloat2_next {o : VBinR} (ht : tyArith o.ty = true) (hm : tyFmt o.ty = some m)
    (h : s.mayIssue (s.vecSigR t [o.va, o.vb] o.pg o.z o.vd o.rm) = true) (lat : Nat) (f : Rm → FVal → FVal → FVal) :
    ∃ u x, s.vfloat2 t o lat f = .next u ∧ s.Passes (s.srEffect o.rm lat (s.modMyCore (·.setVreg o.vd x))) u (s.after 2) o.y
      ∧ s.Lanes o.vd o.pg o.z (fun i => BitVec.ofNat 32 (m.result (s.me.rmOf o.rm) o.sat (s.draw (s.me.rmOf o.rm) i)
          (f (s.me.rmOf o.rm) (laneVal o.ty (laneOf (s.myCore.vreg o.va) i)) (laneVal o.ty (laneOf (s.myCore.vreg o.vb) i))))) x := by
  unfold State.vfloat2 tyIn
  rw [if_pos ht]
  obtain ⟨u, x, hu, hp, hl⟩ := State.vop_round_next h o.y lat _
  exact ⟨u, x, hu, hp, hl.congr fun i => s.roundLane_eq hm ..⟩

/-- Three sources. -/
theorem State.vfloat3_next {o : VTriR} (ht : tyArith o.ty = true) (hm : tyFmt o.ty = some m)
    (h : s.mayIssue (s.vecSigR t [o.va, o.vb, o.vc] o.pg o.z o.vd o.rm) = true) (f : Rm → FVal → FVal → FVal → FVal) :
    ∃ u x, s.vfloat3 t o f = .next u ∧ s.Passes (s.srEffect o.rm 4 (s.modMyCore (·.setVreg o.vd x))) u (s.after 2) o.y
      ∧ s.Lanes o.vd o.pg o.z (fun i => BitVec.ofNat 32 (m.result (s.me.rmOf o.rm) o.sat (s.draw (s.me.rmOf o.rm) i)
          (f (s.me.rmOf o.rm) (laneVal o.ty (laneOf (s.myCore.vreg o.va) i)) (laneVal o.ty (laneOf (s.myCore.vreg o.vb) i))
            (laneVal o.ty (laneOf (s.myCore.vreg o.vc) i))))) x := by
  unfold State.vfloat3 tyIn
  rw [if_pos ht]
  obtain ⟨u, x, hu, hp, hl⟩ := State.vop_round_next h o.y 4 _
  exact ⟨u, x, hu, hp, hl.congr fun i => s.roundLane_eq hm ..⟩

end

/-- Settles O23: each instruction is a form of one, two or three sources, which lists its lanes. -/
theorem vectorFloatingPoint : Obligations.VectorFloatingPoint := by
  unfold Obligations.VectorFloatingPoint
  intro s t
  refine ⟨fun o m ht hm h e he => ?two, fun o m ht hm h e he => ?three, fun o m ht hm h e he => ?one⟩
  case two =>
    have hx : exec (e.1 t o) s = s.vfloat2 t o e.2.1 e.2.2 := by
      simp only [List.mem_cons, List.not_mem_nil, or_false] at he
      obtain rfl | rfl | rfl | rfl := he <;> rfl
    rw [hx]
    exact State.vfloat2_next ht hm h e.2.1 e.2.2
  case three =>
    have hx : exec (e.1 t o) s = s.vfloat3 t o e.2 := by
      simp only [List.mem_cons, List.not_mem_nil, or_false] at he
      obtain rfl | rfl | rfl := he <;> rfl
    rw [hx]
    exact State.vfloat3_next ht hm h e.2
  case one =>
    have hx : exec (e.1 t o) s = s.vfloat1 t o e.2.1 e.2.2 := by
      simp only [List.mem_cons, List.not_mem_nil, or_false] at he
      obtain rfl | rfl | rfl := he <;> rfl
    rw [hx]
    exact State.vfloat1_next ht hm h e.2.1 e.2.2

end Sys2Proof.Machine
end

section
/-! PROOFS. `sysw`, `syss` and `sysc` (R144, R155, R175, R205, R252, R350, R380, R394): which indices they answer, what they write of each
register, and what a delayed write does. -/

namespace Sys2Proof.Machine

/-! ### The registers (R177) -/

/-- The indices of the registers that R177 assigns. -/
def sysAssigned : List Nat :=
  [0x000, 0x001, 0x002, 0x010, 0x011, 0x012, 0x020, 0x021, 0x022, 0x023, 0x030, 0x040, 0x041, 0x042, 0x043, 0x044, 0x045, 0x046, 0x047,
   0x050, 0x051, 0x052, 0x053, 0x800, 0x801, 0x802, 0x803, 0x804, 0x805, 0x806, 0x807]

/-- Those of core scope, written at the end of the period. -/
def sysDelayed : List (BitVec 12) := [0x020, 0x050, 0x051, 0x052, 0x053]

/-- Those that have no writable field. -/
def sysReadOnly : List (BitVec 12) :=
  [0x000, 0x001, 0x002, 0x021, 0x022, 0x023, 0x030, 0x040, 0x041, 0x042, 0x043, 0x044, 0x045, 0x046, 0x047, 0x801, 0x802, 0x803]

theorem toNat_mem_sysAssigned_of_delayed : ∀ idx ∈ sysDelayed, idx.toNat ∈ sysAssigned := by
  unfold sysDelayed
  repeat refine List.forall_mem_cons.mpr ⟨by decide, ?_⟩
  exact nofun

theorem toNat_mem_sysAssigned_of_readOnly : ∀ idx ∈ sysReadOnly, idx.toNat ∈ sysAssigned ∧ idx ≠ 0x051 ∧ idx ≠ 0x052 := by
  unfold sysReadOnly
  repeat refine List.forall_mem_cons.mpr ⟨by decide, ?_⟩
  exact nofun

/-- Every stream reads every assigned register, those of E as zero elsewhere. -/
theorem State.isSome_sysGet (s : State) (c : Nat) (i : StreamId) : ∀ idx ∈ sysAssigned, (s.sysGet c i idx).isSome = true := by
  unfold sysAssigned
  cases i
  all_goals
    repeat refine List.forall_mem_cons.mpr ⟨rfl, ?_⟩
    exact nofun

/-! ### What is written of a register (R205) -/

section
variable (s : State) (c : Nat) (i : StreamId) (op : Nat) (v : DWord)

/-- A write of SRCTR replaces what E's earlier instructions still add to it (log 35). -/
theorem State.sysSet_srctr : s.sysSet c i 0x011 op v =
    (s.modStr c i fun x => { x with srctr := sysMerge op x.srctr v (BitVec.allOnes 64) }).modCore c fun k =>
      if i = .e then { k with pendW := k.pendW.filter fun w => w.2.idx ≠ 0x011 } else k := rfl

theorem State.sysSet_trapPc : s.sysSet c i 0x800 op v = s.modStr c i fun x => { x with trapPc := sysMerge op x.trapPc v 0x1FFFC } := rfl

theorem State.sysSet_scr0 : s.sysSet c i 0x804 op v = s.modStr c i fun x => { x with scr0 := sysMerge op x.scr0 v (BitVec.allOnes 64) } := rfl

theorem State.sysSet_scr1 : s.sysSet c i 0x805 op v = s.modStr c i fun x => { x with scr1 := sysMerge op x.scr1 v (BitVec.allOnes 64) } := rfl

/-- ROUND never keeps a mode of 6 or 7 (R144). -/
theorem State.sysSet_round : s.sysSet c i 0x010 op v = s.modStr c i fun x =>
    { x with round := let r := sysMerge op x.round v 0xFF07; if r.toNat % 8 ≤ 5 then r else r &&& ~~~7 } := by
  have hr (r : DWord) : (if 5 < bits r 2 0 then r &&& ~~~7 else r) = if r.toNat % 8 ≤ 5 then r else r &&& ~~~7 := by
    have hb : bits r 2 0 = r.toNat % 8 := by simp [bits]
    rw [hb]
    by_cases h : r.toNat % 8 ≤ 5
    · rw [if_pos h, if_neg (by omega)]
    · rw [if_neg h, if_pos (by omega)]
  have hx (x : Stream) : x.sysSet 0x010 op v
      = { x with round := let r := sysMerge op x.round v 0xFF07; if r.toNat % 8 ≤ 5 then r else r &&& ~~~7 } := by
    rw [← hr]; rfl
  exact congrArg (s.modStr c i) (funext hx)

theorem State.sysSet_rbase : s.sysSet c i 0x012 op v = if i = .e then s.modCore c (·.setRbase op v) else s := rfl

theorem State.sysSet_delayed : ∀ idx ∈ sysDelayed,
    s.sysSet c i idx.toNat op v = s.modCore c (·.delayWrite s.now ⟨streamNum i, idx.toNat, op, v⟩) := by
  unfold sysDelayed
  repeat refine List.forall_mem_cons.mpr ⟨rfl, ?_⟩
  exact nofun

theorem State.sysSet_trapctl : s.sysSet c i 0x806 op v = if op ≠ 2 ∧ v.getLsbD 0 = true then s.plan s.now 30 (.trapctlFreeze c i) else s := rfl

theorem State.sysSet_readOnly : ∀ idx ∈ sysReadOnly, s.sysSet c i idx.toNat op v = s := by
  unfold sysReadOnly
  repeat refine List.forall_mem_cons.mpr ⟨rfl, ?_⟩
  exact nofun

theorem State.cur_sysSet (idx : Nat) : (s.sysSet c i idx op v).cur = s.cur := by
  unfold State.sysSet
  dsimp only
  repeat' split
  all_goals rfl

end

/-- A field of a register. -/
theorem bits_eq_extractLsb' (v : DWord) (hi lo : Nat) : bits v hi lo = (v.extractLsb' lo (hi + 1 - lo)).toNat := by
  rw [BitVec.extractLsb'_toNat, Nat.shiftRight_eq_div_pow]
  rfl

/-- RBASE as E leaves it: a VRB from 48 on loses 48 (R175). -/
theorem Core.setRbase_eq (k : Core) (op : Nat) (v : DWord) :
    let r := sysMerge op (BitVec.ofNat 64 (k.prb.toNat * 256 + k.vrb.toNat)) v 0x73F
    k.setRbase op v = { k with
      vrb := if (r.extractLsb' 0 6).toNat < 48 then r.extractLsb' 0 6 else r.extractLsb' 0 6 - 48, prb := r.extractLsb' 8 3 } := by
  have hv (b : BitVec 6) : BitVec.ofNat 6 (if 48 ≤ b.toNat then b.toNat - 48 else b.toNat) = if b.toNat < 48 then b else b - 48 := by
    by_cases h : b.toNat < 48
    · rw [if_pos h, if_neg (by omega), BitVec.ofNat_toNat, BitVec.setWidth_eq]
    · rw [if_neg h, if_pos (by omega)]
      apply BitVec.eq_of_toNat_eq
      rw [BitVec.toNat_ofNat, BitVec.toNat_sub_of_le (by rw [BitVec.le_def]; exact Nat.le_of_not_lt h)]
      exact Nat.mod_eq_of_lt (by omega)
  unfold Core.setRbase
  simp only [bits_eq_extractLsb', hv, BitVec.ofNat_toNat, BitVec.setWidth_eq]
  rfl

/-- CEFCTL orders by bits [9:8], for the entry of bits [7:0] (R394); `sysc` orders nothing. -/
theorem State.sysSet_cefctl (s : State) (c : Nat) (i : StreamId) (op : Nat) (v : DWord) : s.sysSet c i 0x807 op v =
    if op = 2 then s
    else if v.extractLsb' 8 2 = 0 then s.plan (s.now + 1) 6 (.cefctlAbandon c i (v.extractLsb' 0 8))
    else if v.extractLsb' 8 2 = 1 then s.plan (s.now + 1) 6 (.cefctlRetranslate c i (v.extractLsb' 0 8))
    else if v.extractLsb' 8 2 = 2 then s.plan (s.now + 1) 6 (.cefctlResume c i (v.extractLsb' 0 8))
    else s := by
  have hb : bits v 9 8 = (v.extractLsb' 8 2).toNat := bits_eq_extractLsb' v 9 8
  have hs : s.sysSet c i 0x807 op v = if op = 2 then s else match bits v 9 8 with
      | 0 => s.plan (s.now + 1) 6 (.cefctlAbandon c i (v.extractLsb' 0 8))
      | 1 => s.plan (s.now + 1) 6 (.cefctlRetranslate c i (v.extractLsb' 0 8))
      | 2 => s.plan (s.now + 1) 6 (.cefctlResume c i (v.extractLsb' 0 8))
      | _ => s := rfl
  rw [hs, hb]
  have hk : ∀ k : BitVec 2, k = 0 ∨ k = 1 ∨ k = 2 ∨ k = 3 := by decide
  generalize v.extractLsb' 8 2 = k
  obtain rfl | rfl | rfl | rfl := hk k <;> rfl

/-- Where an instruction that writes an assigned register may issue, the register is written (R205). -/
theorem State.sysWriteInstr_next {s : State} {t : Tok} {g : G} {idx : BitVec 12} {op : Nat}
    (h : s.mayIssue { t := t, priv := idx.getLsbD 11, reads := keyG g :: if op = 0 then [] else [keySys idx.toNat] } = true)
    (ha : idx.toNat ∈ sysAssigned) (hw : idx = 0x052 → s.at.2 = .e → s.myCore.vmPort ≤ s.now)
    (hb : idx = 0x051 → s.myCore.smp.ctl.getLsbD 0 = true ∨ smpbufBad (sysMerge op s.myCore.smp.buf (s.gr g) (smpRw 0x051)) = false) :
    ∃ u, s.sysWriteInstr t g idx op = .next u ∧ s.Passes (s.sysSet s.at.1 s.at.2 idx.toNat op (s.gr g)) u s.after := by
  unfold State.sysWriteInstr
  rw [if_neg fun h => by have := hw h.1 h.2.1; omega]
  refine State.issue_seq h ?_ (State.cur_sysSet ..)
  dsimp only
  rw [Option.isNone_eq_false_iff.mpr (State.isSome_sysGet s s.at.1 s.at.2 _ ha), if_neg Bool.false_ne_true, if_neg]
  rintro ⟨hi, hc, hbad⟩
  rcases hb hi with h | h
  · rw [State.myCore_eq] at h
    rw [h] at hc
    cases hc
  · rw [State.myCore_eq] at h
    rw [h] at hbad
    cases hbad

/-- The same of an index that neither waits for loads nor has illegal values, where the write leaves `r`. -/
theorem State.sysWriteInstr_plain {s r : State} {t : Tok} {g : G} {idx : BitVec 12} {op : Nat}
    (h : s.mayIssue { t := t, priv := idx.getLsbD 11, reads := keyG g :: if op = 0 then [] else [keySys idx.toNat] } = true)
    (ha : idx.toNat ∈ sysAssigned ∧ idx ≠ 0x051 ∧ idx ≠ 0x052) (hr : s.sysSet s.at.1 s.at.2 idx.toNat op (s.gr g) = r) :
    ∃ u, s.sysWriteInstr t g idx op = .next u ∧ s.Passes r u s.after :=
  hr ▸ State.sysWriteInstr_next h ha.1 (fun hi => absurd hi ha.2.2) fun hi => absurd hi ha.2.1

/-! ### Delayed writes (R155, R350) -/

/-- A write of a core's register by one of the three instructions takes place. -/
theorem State.applyWrite_eqs (s : State) (c o : Nat) {op : Nat} (h : op ≤ 2) (v : DWord) :
    s.applyWrite c ⟨o, 0x020, op, v⟩
        = s.modCore c (fun k => { k with numstat := if op = 2 then k.numstat else k.numstat &&& ~~~(v.truncate 8) })
      ∧ s.applyWrite c ⟨o, 0x050, op, v⟩ = s.plan s.now 0 (.smpctlWrite c (sysMerge op (s.smpNext c 0x050) v 0x1FFFF))
      ∧ s.applyWrite c ⟨o, 0x051, op, v⟩ = s.plan s.now 0 (.smpbufWrite c (sysMerge op (s.smpNext c 0x051) v 0x0000FFFF003FFFFF))
      ∧ s.applyWrite c ⟨o, 0x052, op, v⟩ = s.plan s.now 0 (.smpptrRdWrite c (sysMerge op (s.smpNext c 0x052) v 0xFFFFFFFF00000000))
      ∧ s.applyWrite c ⟨o, 0x053, op, v⟩ = s.modCore c fun k =>
          { k with smp := { k.smp with dropped := (sysMerge op (k.smp.dropped.zeroExtend 64) v 0xFFFFFFFF).truncate 32 } } := by
  refine ⟨?_, rfl, rfl, rfl, rfl⟩
  match op, h with
  | 0, _ => rfl
  | 1, _ => rfl
  | 2, _ => rfl

/-- Settles O10: register by register, the write of `sysSet`. -/
theorem systemRegistersOfAStreamWritten : Obligations.SystemRegistersOfAStreamWritten := by
  unfold Obligations.SystemRegistersOfAStreamWritten
  intro s t g idx e he h
  obtain ⟨op, hop, ho, hf, hk, hx⟩ : ∃ op, op ≤ 2 ∧ e.2.2.2 = op ∧ e.2.2.1 = sysMerge op
      ∧ e.2.1 = (if op = 0 then [] else [keySys idx.toNat]) ∧ exec (e.1 t g idx) s = s.sysWriteInstr t g idx op := by
    simp only [List.mem_cons, List.not_mem_nil, or_false] at he
    obtain rfl | rfl | rfl := he
    · exact ⟨0, by decide, rfl, rfl, rfl, rfl⟩
    · exact ⟨1, by decide, rfl, rfl, rfl, rfl⟩
    · exact ⟨2, by decide, rfl, rfl, rfl, rfl⟩
  rw [hk] at h
  rw [ho, hf, hx]
  refine ⟨?srctr, ?trapPc, ?scr0, ?scr1, ?round, ?rbase, ?delayed, fun o => s.applyWrite_eqs s.at.1 o hop (s.gr g), ?trapctl, ?cefctl,
    ?readOnly⟩
  case srctr =>
    rintro rfl
    exact State.sysWriteInstr_plain h (by decide) (State.sysSet_srctr ..)
  case trapPc =>
    rintro rfl
    exact State.sysWriteInstr_plain h (by decide) (State.sysSet_trapPc ..)
  case scr0 =>
    rintro rfl
    exact State.sysWriteInstr_plain h (by decide) (State.sysSet_scr0 ..)
  case scr1 =>
    rintro rfl
    exact State.sysWriteInstr_plain h (by decide) (State.sysSet_scr1 ..)
  case round =>
    rintro rfl
    exact State.sysWriteInstr_plain h (by decide) (State.sysSet_round ..)
  case rbase =>
    rintro rfl
    obtain ⟨u, hu, hp⟩ := State.sysWriteInstr_plain h (by decide) (State.sysSet_rbase ..)
    refine ⟨u, hu, fun hi => ?_, fun hi => ⟨_, _, ?_, rfl, rfl⟩⟩
    · rwa [if_neg hi] at hp
    · rwa [if_pos hi, State.modCore_eq, Core.setRbase_eq] at hp
  case delayed =>
    intro hi hb hw
    obtain ⟨u, hu, hp⟩ := State.sysWriteInstr_next h (toNat_mem_sysAssigned_of_delayed idx hi) hw hb
    rw [State.sysSet_delayed _ _ _ _ _ idx hi] at hp
    exact ⟨u, hu, hp⟩
  case trapctl =>
    rintro rfl
    exact State.sysWriteInstr_plain h (by decide) (State.sysSet_trapctl ..)
  case cefctl =>
    rintro rfl
    obtain ⟨u, hu, hp⟩ := State.sysWriteInstr_plain h (by decide) (State.sysSet_cefctl ..)
    refine ⟨u, hu, fun hi => ?_, fun hn hi => ?_, fun hn hi => ?_, fun hn hi => ?_⟩
    · by_cases hn : op = 2
      · rwa [if_pos hn] at hp
      · rwa [if_neg hn, hi.resolve_left hn, if_neg (by decide), if_neg (by decide), if_neg (by decide)] at hp
    · rwa [if_neg hn, if_pos hi] at hp
    · rwa [if_neg hn, if_neg (by rw [hi]; decide), if_pos hi] at hp
    · rwa [if_neg hn, if_neg (by rw [hi]; decide), if_neg (by rw [hi]; decide), if_pos hi] at hp
  case readOnly =>
    intro hi
    exact State.sysWriteInstr_plain h (toNat_mem_sysAssigned_of_readOnly idx hi) (State.sysSet_readOnly _ _ _ _ _ idx hi)

end Sys2Proof.Machine
end
